-- ==== Sys2Proof/Word.lean ====
section
/-! DEFINITION. The plain data types every other file speaks in: bytes, addresses, the four bytes of an
ISP frame, the memory regions, the fuse kinds, a device signature (spec/00_scope.md R10, spec/20_memory.md R50 to R55). -/

namespace Sys2Proof

/-- `u8` (R10). -/
abbrev Byte := BitVec 8

/-- `u16` (R10): a byte address of flash (R51) or EEPROM (R53), or a flash word address. -/
abbrev Addr := BitVec 16

/-- `u32` (R10): the status word (R41), a frame as one word (R80). -/
abbrev Word := BitVec 32

/-- The source's "MemoryRegion: enumeration (Flash, Eeprom)" (R36, R50). -/
inductive Region where
  | flash
  | eeprom
  deriving DecidableEq, Repr, Inhabited

/-- The four single-byte registers of the fuse and lock space (R54). -/
inductive FuseKind where
  | lock
  | low
  | high
  | extended
  deriving DecidableEq, Repr, Inhabited

/-- The four bytes of one ISP frame, or the four reply bytes received while it was sent (R80, R130). -/
structure IspFrame where
  b0 : Byte
  b1 : Byte
  b2 : Byte
  b3 : Byte
  deriving DecidableEq, Repr, Inhabited

/-- The three signature bytes (R26, R55). -/
structure Signature where
  s0 : Byte
  s1 : Byte
  s2 : Byte
  deriving DecidableEq, Repr, Inhabited

/-- `EE_EXT_POLICY` (R7, R224): what a type-04 record does in an EEPROM pass. -/
inductive ExtPolicy where
  | forward
  | ignore
  deriving DecidableEq, Repr, Inhabited

end Sys2Proof
end

