-- ==== Sys2Proof/Config.lean ====
section
/-! DEFINITION. The parameters of spec/00_scope.md R7: the constants the source fixes, the parameters it leaves OPEN
(uninterpreted: no body, so nothing can be proved of their value), and the free values the model draws. -/

namespace Sys2Proof

/-- `FLASH_SIZE` (R7, R51). -/
def Config.flashSize : Nat := 32768

/-- `FLASH_PAGE` (R7, R52). -/
def Config.flashPage : Nat := 128

/-- `FLASH_PAGE_WORDS` (R7). -/
def Config.flashPageWords : Nat := 64

/-- `FLASH_WORDS` (R7). -/
def Config.flashWords : Nat := 16384

/-- `EE_SIZE` (R7, R53). -/
def Config.eeSize : Nat := 1024

/-- `EE_PAGE` (R7, R53). -/
def Config.eePage : Nat := 4

/-- `LINE_CAP` (R7, R186). -/
def Config.lineCap : Nat := 16

/-- `ERASED_VAL` (R7). -/
def Config.erasedVal : Byte := 0xFF#8

/-- `SYNC_ATTEMPTS` (R7, R9, R132). -/
def Config.syncAttempts : Nat := 5

/-- `SYNC_ECHO` (R7, R133). -/
def Config.syncEcho : Byte := 0x53#8

/-- `T_BIT` in nanoseconds: OPEN (R7, R112). -/
opaque Config.tBitNs : Nat

/-- `T_SETTLE`, nominal value in nanoseconds, "~20 ms" (R7, R318). -/
def Config.tSettleNs : Nat := 20000000

/-- By how much `T_RST_PULSE` exceeds its lower bound, in nanoseconds: OPEN (R7); log 5. -/
opaque Config.tRstPulseOverNs : Nat

/-- `T_RST_PULSE` in nanoseconds: OPEN, "at least 1 ms" (R7, R116). -/
def Config.tRstPulseNs : Nat := 1000000 + Config.tRstPulseOverNs

/-- `T_POLL`, nominal value in nanoseconds, "~1 ms" (R7, R318). -/
def Config.tPollNs : Nat := 1000000

/-- `KNOWN_SIGNATURES`: OPEN (R7, R212, N3). State.params holds it, so that a claim quantifies over it (log 5). -/
opaque Config.knownSignatures : List Signature

/-- `EE_EXT_POLICY`: OPEN (R7, R224, D23); log 5. -/
opaque Config.eeExtPolicy : ExtPolicy

/-- The n-th free bit of MISO: a draw (R20, R23); log 2. -/
opaque Config.misoDraw : Nat → Bool

/-- The target's fixed signature (R78), which the spec does not give; log 7. -/
opaque Config.tgtSignature : Signature

/-- `TGT_ERASE_EE` (R75, U8); log 5. -/
opaque Config.tgtEraseEe : Bool

/-- `TGT_ERASE_LOCK` (R75, U9); log 5. -/
opaque Config.tgtEraseLock : Bool

/-- `TGT_SYNC`: whether an attempt is in sync (R72, U5); log 10. -/
opaque Config.tgtSync : Nat → Bool

/-- `TGT_BUSY_POLLS` of a commit: a number of busy polls, or `none` for ever (R74, U7); log 10. -/
opaque Config.tgtBusyPolls : Nat → Option Nat

/-- `TGT_FUSE_READBACK`: whether a fuse read before re-entry shows the new value (R78, U14); log 10. -/
opaque Config.tgtFuseReadback : Nat → Bool

/-- `TGT_FLASH_REWRITE`: byte j of a page committed while it is not known to be erased (R76, R315, U10); log 10. -/
opaque Config.tgtFlashRewrite : Nat → Nat → Byte

/-- `TGT_LATCH_AFTER_COMMIT`: what a flash page commit writes from byte j of the write buffer, where nothing has been loaded
since the last commit (R76, U11); log 10. -/
opaque Config.tgtLatch : Nat → Nat → Byte

/-- `TGT_EE_PARTIAL`: byte j of an EEPROM page committed after fewer than 4 loads (R77, U13); log 10. -/
opaque Config.tgtEePartial : Nat → Nat → Byte

/-- `TGT_EXT_NONZERO`: the flash contents a page commit leaves while the upper address context is not 0 (R76, R317, U12);
log 10. -/
opaque Config.tgtExtFlash : Nat → List (Nat × BitVec 8)

/-- The lock byte after a chip erase that resets it (R75, U9): the value is not given; log 10. -/
opaque Config.tgtErasedLock : Nat → Byte

/-- `TGT_OTHER` (R79, U15): the flash contents it leaves, as the cells to write; log 10. -/
opaque Config.otherFlash : Nat → List (Nat × BitVec 8)

/-- `TGT_OTHER`: the EEPROM contents it leaves; log 10. -/
opaque Config.otherEeprom : Nat → List (Nat × BitVec 8)

/-- `TGT_OTHER`: the fuse and lock bytes it leaves in effect; log 10. -/
opaque Config.otherFuse : Nat → FuseKind → Byte

/-- `TGT_OTHER`: the fuse and lock bytes that will take effect at the next re-entry; log 10. -/
opaque Config.otherFuseNew : Nat → FuseKind → Byte

/-- `TGT_OTHER`: whether a fuse or lock change is pending afterwards; log 10. -/
opaque Config.otherFusePending : Nat → Bool

/-- `TGT_OTHER`: whether the target is in programming mode afterwards; log 10. -/
opaque Config.otherProgEnabled : Nat → Bool

/-- `TGT_OTHER`: the upper address context it leaves; log 10. -/
opaque Config.otherExt : Nat → Byte

/-- `TGT_OTHER`: the write cycle it leaves running; log 10. -/
opaque Config.otherBusy : Nat → Option Nat

/-- The byte a fuse or lock write stores on a target whose lock byte was written: the spec does not say what the lock forbids (R261,
U16, N7); log 14. -/
opaque Config.tgtLockedWrite : Nat → Byte

/-- `TGT_OTHER`: whether the lock byte it leaves makes later behaviour open (U16); log 14. -/
opaque Config.otherLocked : Nat → Bool

/-- `TGT_OTHER`: whether the fuse bytes it leaves make later behaviour open (U16); log 14. -/
opaque Config.otherFused : Nat → Bool

end Sys2Proof
end

