-- ==== Sys2Proof/Syntax.lean ====
section
/-! DEFINITION. The instructions: one constructor per row of spec/opcode_table.json, in the table's order. The first 22
are the ISP frames of spec/45_isp_frames.md, the other 26 the host operations of spec/30_encoding.md R93. -/

namespace Sys2Proof

/-- An instruction: an ISP frame issued through `CMD` (R84, R96 `FRAME`), or a host operation (R92, R93). -/
inductive Instr where
  /-- `AC 53 00 00` (R250). -/
  | progEnable
  /-- `AC 80 00 00` (R251). -/
  | chipErase
  /-- `F0 00 00 00` (R252). -/
  | pollRdy
  /-- `30 00 i 00` (R253). -/
  | readSig (i : Byte)
  /-- `50 00 00 00` (R254). -/
  | readFuseLo
  /-- `58 08 00 00` (R255). -/
  | readFuseHi
  /-- `50 08 00 00` (R256). -/
  | readFuseExt
  /-- `58 00 00 00` (R257). -/
  | readLock
  /-- `AC A0 00 val` (R258). -/
  | writeFuseLo (val : Byte)
  /-- `AC A8 00 val` (R259). -/
  | writeFuseHi (val : Byte)
  /-- `AC A4 00 val` (R260). -/
  | writeFuseExt (val : Byte)
  /-- `AC E0 00 val` (R261). -/
  | writeLock (val : Byte)
  /-- `A0 hi lo 00` (R262). -/
  | readEeprom (hi lo : Byte)
  /-- `C0 hi lo val` (R263). -/
  | writeEeprom (hi lo val : Byte)
  /-- `C1 00 i val` (R264). -/
  | loadEepromPage (i val : Byte)
  /-- `C2 hi lo 00` (R265). -/
  | writeEepromPage (hi lo : Byte)
  /-- `20 hi lo 00` (R266). -/
  | readFlashLo (hi lo : Byte)
  /-- `28 hi lo 00` (R267). -/
  | readFlashHi (hi lo : Byte)
  /-- `40 00 i val` (R268). -/
  | loadFlashLo (i val : Byte)
  /-- `48 00 i val` (R269). -/
  | loadFlashHi (i val : Byte)
  /-- `4C hi lo 00` (R270). -/
  | writeFlashPage (hi lo : Byte)
  /-- `4D 00 val 00` (R271). -/
  | loadExtAddr (val : Byte)
  /-- `XFER tx` (R111). -/
  | xfer (tx : Byte)
  /-- `RST_ASSERT` (R114). -/
  | rstAssert
  /-- `RST_RELEASE` (R115). -/
  | rstRelease
  /-- `RST_PULSE` (R116). -/
  | rstPulse
  /-- `LINK_RELEASE` (R117). -/
  | linkRelease
  /-- `PGM_ENTER` (R132). -/
  | pgmEnter
  /-- `CMD b0, b1, b2, b3` (R131). -/
  | cmd (b0 b1 b2 b3 : Byte)
  /-- `POLL_READY` (R135). -/
  | pollReady
  /-- `RD_BYTE FLASH, a` (R151). -/
  | rdByteFlash (addr : Addr)
  /-- `RD_BYTE EEPROM, a` (R152). -/
  | rdByteEeprom (addr : Addr)
  /-- `WR_EEBYTE a, val, verify` (R153). -/
  | wrEebyte (addr : Addr) (val : Byte) (verify : Bool)
  /-- `WR_PAGE FLASH, a, verify, buf` (R154). -/
  | wrPageFlash (addr : Addr) (verify : Bool) (buf : List Byte)
  /-- `WR_PAGE EEPROM, a, verify, buf` (R155). -/
  | wrPageEeprom (addr : Addr) (verify : Bool) (buf : List Byte)
  /-- `ERASE` (R157). -/
  | erase
  /-- `RD_FUSE k` (R158). -/
  | rdFuse (kind : FuseKind)
  /-- `WR_FUSE k, val` (R159). -/
  | wrFuse (kind : FuseKind) (val : Byte)
  /-- `RD_SIG i` (R160). -/
  | rdSig (i : Byte)
  /-- `SET_EXT val` (R161). -/
  | setExt (val : Byte)
  /-- `HEX_DECODE text` (R183). -/
  | hexDecode (text : List Byte)
  /-- `HEX_ENC_DATA a, n, bytes` (R194); `n` is the number of bytes. -/
  | hexEncData (addr : Addr) (bytes : List Byte)
  /-- `HEX_ENC_END` (R195). -/
  | hexEncEnd
  /-- `PROG_BEGIN FLASH` (R210). -/
  | progBeginFlash
  /-- `PROG_BEGIN EEPROM` (R211). -/
  | progBeginEeprom
  /-- `PROG_LINE text` (R213). -/
  | progLine (text : List Byte)
  /-- `PROG_FINISH` (R226). -/
  | progFinish
  /-- `STATUS` (R232). -/
  | status
  deriving DecidableEq, Repr

end Sys2Proof
end

