-- ==== Sys2Proof/WellFormed.lean ====
section
/-! DEFINITION. Which instructions have an encoding of their own: operand ranges of spec/30_encoding.md R92 and R94, and the
match and mask form of the frame table (R84), by which a `CMD` whose word spells a frame row is that row's instruction. -/

namespace Sys2Proof

/-- One row of the frame table: every byte is fixed (`some v`, mask byte 0xFF) or a field (`none`, mask byte 0x00) (R84). -/
structure FramePattern where
  p0 : Byte
  p1 : Option Byte
  p2 : Option Byte
  p3 : Option Byte
  deriving DecidableEq, Repr

/-- A frame byte agrees with a pattern byte. -/
def byteFits (p : Option Byte) (b : Byte) : Bool :=
  match p with
  | none => true
  | some v => b == v

/-- `(F & mask) = match`, byte by byte (R84). -/
def FramePattern.fits (p : FramePattern) (f : IspFrame) : Bool :=
  f.b0 == p.p0 && byteFits p.p1 f.b1 && byteFits p.p2 f.b2 && byteFits p.p3 f.b3

/-- The 22 rows of the frame table in its order (R83, spec/opcode_table.json). -/
def framePatterns : List FramePattern :=
  [⟨0xAC#8, some 0x53#8, some 0x00#8, some 0x00#8⟩,
   ⟨0xAC#8, some 0x80#8, some 0x00#8, some 0x00#8⟩,
   ⟨0xF0#8, some 0x00#8, some 0x00#8, some 0x00#8⟩,
   ⟨0x30#8, some 0x00#8, none, some 0x00#8⟩,
   ⟨0x50#8, some 0x00#8, some 0x00#8, some 0x00#8⟩,
   ⟨0x58#8, some 0x08#8, some 0x00#8, some 0x00#8⟩,
   ⟨0x50#8, some 0x08#8, some 0x00#8, some 0x00#8⟩,
   ⟨0x58#8, some 0x00#8, some 0x00#8, some 0x00#8⟩] ++
  [⟨0xAC#8, some 0xA0#8, some 0x00#8, none⟩,
   ⟨0xAC#8, some 0xA8#8, some 0x00#8, none⟩,
   ⟨0xAC#8, some 0xA4#8, some 0x00#8, none⟩,
   ⟨0xAC#8, some 0xE0#8, some 0x00#8, none⟩,
   ⟨0xA0#8, none, none, some 0x00#8⟩,
   ⟨0xC0#8, none, none, none⟩,
   ⟨0xC1#8, some 0x00#8, none, none⟩,
   ⟨0xC2#8, none, none, some 0x00#8⟩] ++
  [⟨0x20#8, none, none, some 0x00#8⟩,
   ⟨0x28#8, none, none, some 0x00#8⟩,
   ⟨0x40#8, some 0x00#8, none, none⟩,
   ⟨0x48#8, some 0x00#8, none, none⟩,
   ⟨0x4C#8, none, none, some 0x00#8⟩,
   ⟨0x4D#8, some 0x00#8, none, some 0x00#8⟩]

/-- The word spells some row of the frame table (R84). -/
def isFrame (f : IspFrame) : Bool :=
  framePatterns.any fun p => p.fits f

/-- An instruction whose operands lie in their encodings (R92, R94): a signature index below 3, a page buffer of the
region's page size, a text of at most 255 characters, at most 255 bytes to encode. A `CMD` is well-formed when its word
spells no frame row: a word that does is that row's own instruction (R84; log 11). -/
def Instr.wf : Instr → Bool
  | .cmd b0 b1 b2 b3 => !isFrame ⟨b0, b1, b2, b3⟩
  | .wrPageFlash _ _ buf => buf.length == Config.flashPage
  | .wrPageEeprom _ _ buf => buf.length == Config.eePage
  | .rdSig i => decide (i.toNat < 3)
  | .hexDecode text => decide (text.length < 256)
  | .hexEncData _ bytes => decide (bytes.length < 256)
  | .progLine text => decide (text.length < 256)
  | _ => true

end Sys2Proof
end

