-- ==== Sys2Proof/Decode.lean ====
section
/-! DEFINITION. Encodings (spec/30_encoding.md): the frame decoder (R83, R84), the host-operation decoder, total on any bytes
and refusing by name (R92 to R94), the encoder, and the layout of a word of spec/opcode_table.json. A host operation is one
message: its code byte and its operand bytes. -/

namespace Sys2Proof

/-! ### Byte order (R58, R92: an address is sent high byte first) -/

/-- `a[15:8]`. -/
def hiByte (a : Addr) : Byte := a.extractLsb' 8 8

/-- `a[7:0]`. -/
def loByte (a : Addr) : Byte := a.extractLsb' 0 8

/-- The address `(hi, lo)`, high byte first. -/
def addrOf (hi lo : Byte) : Addr := hi ++ lo

/-! ### Operand codes (R92) -/

/-- The code byte of a fuse kind: 0 lock, 1 low, 2 high, 3 extended. -/
def FuseKind.code : FuseKind → Byte
  | .lock => 0#8
  | .low => 1#8
  | .high => 2#8
  | .extended => 3#8

/-- The fuse kind of a code byte. -/
def fuseKindOf (b : Byte) : Option FuseKind :=
  if b = 0#8 then some .lock
  else if b = 1#8 then some .low
  else if b = 2#8 then some .high
  else if b = 3#8 then some .extended
  else none

/-- The code byte of a region: 0 Flash, 1 Eeprom. -/
def Region.code : Region → Byte
  | .flash => 0#8
  | .eeprom => 1#8

/-- The code byte of a verify flag or of a Boolean result: 0 no, 1 yes. -/
def boolCode (b : Bool) : Byte := if b then 1#8 else 0#8

/-- The flag of a code byte. -/
def boolOf (b : Byte) : Option Bool :=
  if b = 0#8 then some false else if b = 1#8 then some true else none

/-! ### Frames -/

/-- The frame `AC b1 b2 b3` (R83): programming enable, chip erase, the fuse and lock writes. -/
def decodeFrameAC (b1 b2 b3 : Byte) : Option Instr :=
  if b2 = 0x00#8 then
    if b1 = 0xA0#8 then some (.writeFuseLo b3)
    else if b1 = 0xA8#8 then some (.writeFuseHi b3)
    else if b1 = 0xA4#8 then some (.writeFuseExt b3)
    else if b1 = 0xE0#8 then some (.writeLock b3)
    else if b3 = 0x00#8 then
      if b1 = 0x53#8 then some .progEnable
      else if b1 = 0x80#8 then some .chipErase
      else none
    else none
  else none

/-- The fuse and lock reads `50 b1 00 00` and `58 b1 00 00` (R83). -/
def decodeFrameFuseRead (at0 at8 : Instr) (b1 b2 b3 : Byte) : Option Instr :=
  if b2 = 0x00#8 ∧ b3 = 0x00#8 then
    if b1 = 0x00#8 then some at0 else if b1 = 0x08#8 then some at8 else none
  else none

/-- Frame decoding (R83, R84): the row of the frame table a 4-byte word spells, with its fields. -/
def decodeFrame (f : IspFrame) : Option Instr :=
  if f.b0 = 0x20#8 then if f.b3 = 0x00#8 then some (.readFlashLo f.b1 f.b2) else none
  else if f.b0 = 0x28#8 then if f.b3 = 0x00#8 then some (.readFlashHi f.b1 f.b2) else none
  else if f.b0 = 0x30#8 then if f.b1 = 0x00#8 ∧ f.b3 = 0x00#8 then some (.readSig f.b2) else none
  else if f.b0 = 0x40#8 then if f.b1 = 0x00#8 then some (.loadFlashLo f.b2 f.b3) else none
  else if f.b0 = 0x48#8 then if f.b1 = 0x00#8 then some (.loadFlashHi f.b2 f.b3) else none
  else if f.b0 = 0x4C#8 then if f.b3 = 0x00#8 then some (.writeFlashPage f.b1 f.b2) else none
  else if f.b0 = 0x4D#8 then if f.b1 = 0x00#8 ∧ f.b3 = 0x00#8 then some (.loadExtAddr f.b2) else none
  else if f.b0 = 0x50#8 then decodeFrameFuseRead .readFuseLo .readFuseExt f.b1 f.b2 f.b3
  else if f.b0 = 0x58#8 then decodeFrameFuseRead .readLock .readFuseHi f.b1 f.b2 f.b3
  else if f.b0 = 0xA0#8 then if f.b3 = 0x00#8 then some (.readEeprom f.b1 f.b2) else none
  else if f.b0 = 0xAC#8 then decodeFrameAC f.b1 f.b2 f.b3
  else if f.b0 = 0xC0#8 then some (.writeEeprom f.b1 f.b2 f.b3)
  else if f.b0 = 0xC1#8 then if f.b1 = 0x00#8 then some (.loadEepromPage f.b2 f.b3) else none
  else if f.b0 = 0xC2#8 then if f.b3 = 0x00#8 then some (.writeEepromPage f.b1 f.b2) else none
  else if f.b0 = 0xF0#8 then
    if f.b1 = 0x00#8 ∧ f.b2 = 0x00#8 ∧ f.b3 = 0x00#8 then some .pollRdy else none
  else none

/-! ### Host operations -/

/-- Why the block refuses a message with `BadOp` (R94). -/
inductive Reject where
  /-- The message holds no code byte: R92 and R94 do not speak of it, and it is refused as an unknown code is (DESIGN CHOICE, log 16). -/
  | emptyMessage
  /-- The code byte is not in R93's table. -/
  | unknownCode (code : Byte)
  /-- A region byte of 2 or more. -/
  | badRegion (region : Byte)
  /-- A fuse kind byte of 4 or more. -/
  | badFuseKind (kind : Byte)
  /-- A verify byte of 2 or more. -/
  | badVerify (verify : Byte)
  /-- A signature index of 3 or more. -/
  | badIndex (i : Byte)
  /-- A text or a buffer has the wrong length (R94); or operand bytes are missing or left over, on which R92 and R94 are silent: it is
  refused in the same way (DESIGN CHOICE, log 16). -/
  | wrongLength
  deriving DecidableEq, Repr

/-- A message with no operand bytes; any left over are refused (DESIGN CHOICE, log 16). -/
def decodeNone (i : Instr) (ops : List Byte) : Except Reject Instr :=
  match ops with
  | [] => .ok i
  | _ => .error .wrongLength

/-- A message with one operand byte; none or more are refused (DESIGN CHOICE, log 16). -/
def decodeOne (k : Byte → Instr) (ops : List Byte) : Except Reject Instr :=
  match ops with
  | [b] => .ok (k b)
  | _ => .error .wrongLength

/-- A text operand: a length byte, then that many characters (R92); that a missing length byte is refused is DESIGN CHOICE, log 16. -/
def decodeText (k : List Byte → Instr) (ops : List Byte) : Except Reject Instr :=
  match ops with
  | len :: chars => if chars.length = len.toNat then .ok (k chars) else .error .wrongLength
  | [] => .error .wrongLength

/-- `CMD b0 b1 b2 b3`: the instruction of the frame row its word spells, `cmd` where it spells none (R84; log 11). That fewer
or more than four operand bytes are refused is DESIGN CHOICE, log 16, here as in the decoders of fixed operands below. -/
def decodeCmd (ops : List Byte) : Except Reject Instr :=
  match ops with
  | [b0, b1, b2, b3] => .ok ((decodeFrame ⟨b0, b1, b2, b3⟩).getD (.cmd b0 b1 b2 b3))
  | _ => .error .wrongLength

/-- `RD_BYTE`: region, address (R93). -/
def decodeRdByte (ops : List Byte) : Except Reject Instr :=
  match ops with
  | [r, hi, lo] =>
    if r = 0#8 then .ok (.rdByteFlash (addrOf hi lo))
    else if r = 1#8 then .ok (.rdByteEeprom (addrOf hi lo))
    else .error (.badRegion r)
  | _ => .error .wrongLength

/-- `WR_EEBYTE`: address, value, verify (R93). -/
def decodeWrEebyte (ops : List Byte) : Except Reject Instr :=
  match ops with
  | [hi, lo, v, y] =>
    match boolOf y with
    | some verify => .ok (.wrEebyte (addrOf hi lo) v verify)
    | none => .error (.badVerify y)
  | _ => .error .wrongLength

/-- `WR_PAGE`: region, address, verify, page buffer (R93). -/
def decodeWrPage (ops : List Byte) : Except Reject Instr :=
  match ops with
  | r :: hi :: lo :: y :: buf =>
    match boolOf y with
    | none => .error (.badVerify y)
    | some verify =>
      if r = 0#8 then
        if buf.length = Config.flashPage then .ok (.wrPageFlash (addrOf hi lo) verify buf) else .error .wrongLength
      else if r = 1#8 then
        if buf.length = Config.eePage then .ok (.wrPageEeprom (addrOf hi lo) verify buf) else .error .wrongLength
      else .error (.badRegion r)
  | _ => .error .wrongLength

/-- `RD_FUSE`: fuse kind (R93). -/
def decodeRdFuse (ops : List Byte) : Except Reject Instr :=
  match ops with
  | [k] =>
    match fuseKindOf k with
    | some kind => .ok (.rdFuse kind)
    | none => .error (.badFuseKind k)
  | _ => .error .wrongLength

/-- `WR_FUSE`: fuse kind, value (R93). -/
def decodeWrFuse (ops : List Byte) : Except Reject Instr :=
  match ops with
  | [k, v] =>
    match fuseKindOf k with
    | some kind => .ok (.wrFuse kind v)
    | none => .error (.badFuseKind k)
  | _ => .error .wrongLength

/-- `RD_SIG`: index 0 to 2 (R93, R94). -/
def decodeRdSig (ops : List Byte) : Except Reject Instr :=
  match ops with
  | [i] => if i.toNat < 3 then .ok (.rdSig i) else .error (.badIndex i)
  | _ => .error .wrongLength

/-- `HEX_ENC_DATA`: address, n, n bytes (R93). -/
def decodeHexEncData (ops : List Byte) : Except Reject Instr :=
  match ops with
  | hi :: lo :: n :: bytes =>
    if bytes.length = n.toNat then .ok (.hexEncData (addrOf hi lo) bytes) else .error .wrongLength
  | _ => .error .wrongLength

/-- `PROG_BEGIN`: region (R93). -/
def decodeProgBegin (ops : List Byte) : Except Reject Instr :=
  match ops with
  | [r] =>
    if r = 0#8 then .ok .progBeginFlash
    else if r = 1#8 then .ok .progBeginEeprom
    else .error (.badRegion r)
  | _ => .error .wrongLength

/-- The operation of a code byte on its operand bytes: the table of R93, everything else refused (R94). -/
def decodeOp (code : Byte) (ops : List Byte) : Except Reject Instr :=
  if code = 0x01#8 then decodeOne .xfer ops
  else if code = 0x02#8 then decodeNone .rstAssert ops
  else if code = 0x03#8 then decodeNone .rstRelease ops
  else if code = 0x04#8 then decodeNone .rstPulse ops
  else if code = 0x05#8 then decodeNone .linkRelease ops
  else if code = 0x10#8 then decodeNone .pgmEnter ops
  else if code = 0x11#8 then decodeCmd ops
  else if code = 0x12#8 then decodeNone .pollReady ops
  else if code = 0x20#8 then decodeRdByte ops
  else if code = 0x21#8 then decodeWrEebyte ops
  else if code = 0x22#8 then decodeWrPage ops
  else if code = 0x23#8 then decodeNone .erase ops
  else if code = 0x24#8 then decodeRdFuse ops
  else if code = 0x25#8 then decodeWrFuse ops
  else if code = 0x26#8 then decodeRdSig ops
  else if code = 0x27#8 then decodeOne .setExt ops
  else if code = 0x30#8 then decodeText .hexDecode ops
  else if code = 0x31#8 then decodeHexEncData ops
  else if code = 0x32#8 then decodeNone .hexEncEnd ops
  else if code = 0x40#8 then decodeProgBegin ops
  else if code = 0x41#8 then decodeText .progLine ops
  else if code = 0x42#8 then decodeNone .progFinish ops
  else if code = 0x50#8 then decodeNone .status ops
  else .error (.unknownCode code)

/-- The decoder of a whole message: total, one instruction or one reason (R93, R94). -/
def decode (msg : List Byte) : Except Reject Instr :=
  match msg with
  | [] => .error .emptyMessage
  | code :: ops => decodeOp code ops

/-! ### The encoder -/

/-- The message of a frame: `CMD` and its four bytes (R93, R96). -/
def frameMessage (b0 b1 b2 b3 : Byte) : List Byte := [0x11#8, b0, b1, b2, b3]

/-- The message of a text operand (R92). -/
def textMessage (code : Byte) (text : List Byte) : List Byte :=
  code :: BitVec.ofNat 8 text.length :: text

/-- The bytes of an instruction in the host's stream, written from R81, R83 and R93. -/
def encode : Instr → List Byte
  | .progEnable => frameMessage 0xAC#8 0x53#8 0x00#8 0x00#8
  | .chipErase => frameMessage 0xAC#8 0x80#8 0x00#8 0x00#8
  | .pollRdy => frameMessage 0xF0#8 0x00#8 0x00#8 0x00#8
  | .readSig i => frameMessage 0x30#8 0x00#8 i 0x00#8
  | .readFuseLo => frameMessage 0x50#8 0x00#8 0x00#8 0x00#8
  | .readFuseHi => frameMessage 0x58#8 0x08#8 0x00#8 0x00#8
  | .readFuseExt => frameMessage 0x50#8 0x08#8 0x00#8 0x00#8
  | .readLock => frameMessage 0x58#8 0x00#8 0x00#8 0x00#8
  | .writeFuseLo v => frameMessage 0xAC#8 0xA0#8 0x00#8 v
  | .writeFuseHi v => frameMessage 0xAC#8 0xA8#8 0x00#8 v
  | .writeFuseExt v => frameMessage 0xAC#8 0xA4#8 0x00#8 v
  | .writeLock v => frameMessage 0xAC#8 0xE0#8 0x00#8 v
  | .readEeprom hi lo => frameMessage 0xA0#8 hi lo 0x00#8
  | .writeEeprom hi lo v => frameMessage 0xC0#8 hi lo v
  | .loadEepromPage i v => frameMessage 0xC1#8 0x00#8 i v
  | .writeEepromPage hi lo => frameMessage 0xC2#8 hi lo 0x00#8
  | .readFlashLo hi lo => frameMessage 0x20#8 hi lo 0x00#8
  | .readFlashHi hi lo => frameMessage 0x28#8 hi lo 0x00#8
  | .loadFlashLo i v => frameMessage 0x40#8 0x00#8 i v
  | .loadFlashHi i v => frameMessage 0x48#8 0x00#8 i v
  | .writeFlashPage hi lo => frameMessage 0x4C#8 hi lo 0x00#8
  | .loadExtAddr v => frameMessage 0x4D#8 0x00#8 v 0x00#8
  | .xfer tx => [0x01#8, tx]
  | .rstAssert => [0x02#8]
  | .rstRelease => [0x03#8]
  | .rstPulse => [0x04#8]
  | .linkRelease => [0x05#8]
  | .pgmEnter => [0x10#8]
  | .cmd b0 b1 b2 b3 => frameMessage b0 b1 b2 b3
  | .pollReady => [0x12#8]
  | .rdByteFlash a => [0x20#8, Region.code .flash, hiByte a, loByte a]
  | .rdByteEeprom a => [0x20#8, Region.code .eeprom, hiByte a, loByte a]
  | .wrEebyte a v y => [0x21#8, hiByte a, loByte a, v, boolCode y]
  | .wrPageFlash a y buf => [0x22#8, Region.code .flash, hiByte a, loByte a, boolCode y] ++ buf
  | .wrPageEeprom a y buf => [0x22#8, Region.code .eeprom, hiByte a, loByte a, boolCode y] ++ buf
  | .erase => [0x23#8]
  | .rdFuse k => [0x24#8, k.code]
  | .wrFuse k v => [0x25#8, k.code, v]
  | .rdSig i => [0x26#8, i]
  | .setExt v => [0x27#8, v]
  | .hexDecode text => textMessage 0x30#8 text
  | .hexEncData a bytes => [0x31#8, hiByte a, loByte a, BitVec.ofNat 8 bytes.length] ++ bytes
  | .hexEncEnd => [0x32#8]
  | .progBeginFlash => [0x40#8, Region.code .flash]
  | .progBeginEeprom => [0x40#8, Region.code .eeprom]
  | .progLine text => textMessage 0x41#8 text
  | .progFinish => [0x42#8]
  | .status => [0x50#8]

/-! ### A word of spec/opcode_table.json

The table writes a frame as the word `F = (b0, b1, b2, b3)` with `b0` most significant (R80), and a host operation as its
code byte, or as code and region byte with the code most significant (log 12). -/

/-- The low `n` bytes of `w`, most significant first. -/
def bytesOf : Nat → Nat → List Byte
  | 0, _ => []
  | n + 1, w => BitVec.ofNat 8 (w >>> (8 * n)) :: bytesOf n w

/-- How many bytes the shortest message of a code byte has, given its first operand byte (R92, R93): operand
bytes of zeros make empty texts. -/
def messageLength (code region : Byte) : Nat :=
  if code = 0x01#8 ∨ code = 0x24#8 ∨ code = 0x26#8 ∨ code = 0x27#8 ∨ code = 0x30#8 ∨ code = 0x40#8 ∨ code = 0x41#8 then 2
  else if code = 0x25#8 then 3
  else if code = 0x20#8 ∨ code = 0x31#8 then 4
  else if code = 0x11#8 ∨ code = 0x21#8 then 5
  else if code = 0x22#8 then if region = 0#8 then 5 + Config.flashPage else 5 + Config.eePage
  else 1

/-- `bytes` followed by zero bytes up to `n` bytes. -/
def padTo (n : Nat) (bytes : List Byte) : List Byte := bytes ++ List.replicate (n - bytes.length) 0#8

/-- The message the host stores for a table word of `nbits` bits: a frame's four bytes behind the `CMD` code,
or a host operation's code (and region) byte, its other operand bytes zero. -/
def layoutTableWord (nbits w : Nat) : List Byte :=
  if nbits = 32 then 0x11#8 :: bytesOf 4 w
  else
    let bytes := bytesOf (nbits / 8) w
    padTo (messageLength (bytes.headD 0#8) (bytes.tail.headD 0#8)) bytes

/-- The instruction the decoder reads from a table word. -/
def decodeTableWord (nbits w : Nat) : Option Instr :=
  match decode (layoutTableWord nbits w) with
  | .ok i => some i
  | .error _ => none

end Sys2Proof
end

