-- ==== Sys2Proof/Machine/State.lean ====
section
/-! DEFINITION. The state of the machine as plain data (spec/10_state.md), with the host's queue and the environment
(spec/20_memory.md section 6) beside the block, the model faults of R288, and the state after block reset (R310). -/

namespace Sys2Proof.Machine

/-! ### Pins and events -/

/-- The level of an output pin (R21). -/
inductive Level where
  | low
  | high
  | hiZ
  deriving DecidableEq, Repr, Inhabited

/-- The output pins (R21). -/
inductive Pin where
  | sck
  | mosi
  | rst
  deriving DecidableEq, Repr

/-- The delays the block waits out (R294). -/
inductive Delay where
  | tBit
  | tSettle
  | tRstPulse
  | tPoll
  deriving DecidableEq, Repr

/-- One event of the observable trace (R11, R12); a sample carries the bit it read. -/
inductive Event where
  | drive (pin : Pin) (level : Level)
  | sample (bit : Bool)
  | wait (delay : Delay)
  deriving DecidableEq, Repr

/-! ### The reference target (20_memory R72 to R79) -/

/-- The target's mode (R72). -/
inductive TargetMode where
  | running
  | progEnabled
  deriving DecidableEq, Repr

/-- A fuse or lock byte of the target: the value in effect, and the value last written, which takes effect
at the next mode re-entry (R78). -/
structure FuseCell where
  old : Byte
  new : Byte
  deriving DecidableEq, Repr

/-- The hidden state of the reference target (R43, R72 to R79). -/
structure Target where
  /-- Running or in programming mode (R72). -/
  mode : TargetMode
  /-- `T_SETTLE` has elapsed since `RST` was asserted (R72). -/
  settled : Bool
  /-- The bytes of the frame in progress (R80). -/
  rx : List Byte
  /-- Flash, by byte address (R51). -/
  flash : List Host.Cell
  /-- EEPROM, by byte address (R53). -/
  eeprom : List Host.Cell
  fuseLow : FuseCell
  fuseHigh : FuseCell
  fuseExt : FuseCell
  fuseLock : FuseCell
  /-- A fuse or lock byte was written since the last re-entry (R78). -/
  fusePending : Bool
  /-- The fixed signature (R78). -/
  sig : Signature
  /-- The loaded bytes of the flash write buffer, by offset 0 to 127 in the page (R76). -/
  flashBuf : List Host.Cell
  /-- The loaded bytes of the EEPROM write buffer, by offset 0 to 3 in the page (R77). -/
  eeBuf : List Host.Cell
  /-- The upper address context (R68, R76). -/
  ext : Byte
  /-- A chip erase has been done (R75). -/
  erasedOnce : Bool
  /-- The flash pages committed since the last chip erase (R76). -/
  committed : List Nat
  /-- A lock byte was written, and no chip erase has reset it since: what it forbids of flash,
  EEPROM and later fuse writes is open (R68, R261, U16; log 14). -/
  locked : Bool
  /-- A low, high or extended fuse byte was written since the last re-entry (R78). -/
  fuseWritten : Bool
  /-- A change of a low, high or extended fuse byte is in effect: what it does to flash and EEPROM accesses is open (R68, R78,
  U16; log 14). -/
  fused : Bool
  /-- How many ready polls are still answered busy; `none`: all of them (R74). -/
  busy : Option Nat
  /-- `TGT_BUSY_POLLS` of the next commit (R74). -/
  nextBusy : Option Nat
  /-- `TGT_SYNC` of the next attempt (R72). -/
  nextSync : Bool
  /-- `TGT_ERASE_EE` (R75). -/
  eraseEe : Bool
  /-- `TGT_ERASE_LOCK` (R75). -/
  eraseLock : Bool
  /-- The model's own counter of the target's free values (log 10). -/
  draws : Nat
  deriving DecidableEq, Repr

/-- Who answers `Sample(MISO)` (R20, R72): any target at all, or the reference target (log 3). -/
inductive EnvKind where
  | draws
  | reference
  deriving DecidableEq, Repr

/-- The environment at the other end of the link. -/
structure Env where
  kind : EnvKind
  /-- The bits the environment is about to present; when none is left, a free value (log 2). -/
  miso : List Bool
  /-- The model's own counter of the free value `Config.misoDraw` (log 2). -/
  draws : Nat
  target : Target
  deriving DecidableEq, Repr

/-! ### The block -/

/-- A register of which the spec says that it holds no value until an operation writes it (R44). It holds a value of its own from
reset on, which no rule of the spec reads (R288; log 4). -/
inductive Reg (α : Type) where
  /-- Never written: "no value" (R44); the value is the model's (log 4). -/
  | initial (value : α)
  /-- Written by an operation. -/
  | written (value : α)
  deriving DecidableEq, Repr

/-- The value in the register. -/
def Reg.value {α : Type} : Reg α → α
  | .initial v => v
  | .written v => v

/-- An operation has written the register (R44). -/
def Reg.isWritten {α : Type} : Reg α → Bool
  | .initial _ => false
  | .written _ => true

/-- The wire side of the block: what BitLink and the frame exchange read and write (R21, R24, R25, R12). -/
structure Link where
  /-- `SCK` (R21). -/
  sck : Level
  /-- `MOSI` (R21). -/
  mosi : Level
  /-- `RST` (R21). -/
  rst : Level
  /-- `TXSR` (R24). -/
  txsr : Reg Byte
  /-- `RXSR` (R24). -/
  rxsr : Reg Byte
  /-- `BITCNT` (R24). -/
  bitcnt : Nat
  /-- `FRAME_TX` (R25). -/
  frameTx : Reg IspFrame
  /-- `FRAME_RX` (R25). -/
  frameRx : Reg IspFrame
  /-- The event trace, newest first (R12; log 1). -/
  log : List Event
  env : Env
  deriving DecidableEq, Repr

/-- A decoded HEX record (R27, R192). -/
structure HexRecord where
  count : Byte
  addr : Addr
  type : Byte
  data : List Byte
  deriving DecidableEq, Repr

/-- `PSTATE` (R28). -/
inductive PState where
  | idle
  | syncing
  | programming
  | failed
  deriving DecidableEq, Repr

/-- `SSTATE` (R35). -/
inductive SState where
  | none
  | active
  | done
  | aborted
  deriving DecidableEq, Repr

/-- The page buffer with `PAGE_OPEN` and `PAGE_BASE` (R38, R39). R38 gives `PAGE_BASE` a value while a page is open and R216 fills
`PB` as it opens one, so an open page holds a base and a buffer; a closed one keeps the two registers as its last page left them,
or as reset did: never written (R310, R44; log 4). -/
inductive PageState where
  /-- `PAGE_OPEN` = 0. -/
  | closed (base : Reg Addr) (buf : Reg (List Byte))
  /-- `PAGE_OPEN` = 1. -/
  | opened (base : Addr) (buf : List Byte)
  deriving DecidableEq, Repr

/-- `PAGE_OPEN` (R38). -/
def PageState.isOpen : PageState → Bool
  | .closed _ _ => false
  | .opened _ _ => true

/-- `PAGE_BASE` (R38). -/
def PageState.base : PageState → Reg Addr
  | .closed b _ => b
  | .opened b _ => .written b

/-- `PB` (R39). -/
def PageState.buf : PageState → Reg (List Byte)
  | .closed _ p => p
  | .opened _ p => .written p

/-- `PAGE_OPEN` = 1 and `PAGE_BASE` = `b` (R219). -/
def PageState.isAt (b : Addr) : PageState → Bool
  | .closed _ _ => false
  | .opened b' _ => decide (b' = b)

/-- `PAGE_OPEN <- 0` (R218, R227): the two registers keep what they hold. -/
def PageState.close (p : PageState) : PageState := .closed p.base p.buf

/-- The write controller's session (R35 to R39, R47). -/
structure Session where
  /-- `SSTATE` (R35). -/
  sstate : SState
  /-- `REGION` (R36). -/
  region : Region
  /-- `ERASED` (R37). -/
  erased : Bool
  /-- `PAGE_OPEN`, `PAGE_BASE` and `PB` (R38, R39). -/
  page : PageState
  /-- `LINE_NO` (R47). -/
  lineNo : BitVec 16
  deriving DecidableEq, Repr

/-- `PAGE_OPEN` (R38). -/
abbrev Session.pageOpen (s : Session) : Bool := s.page.isOpen

/-- `PAGE_BASE` (R38). -/
abbrev Session.pageBase (s : Session) : Reg Addr := s.page.base

/-- `PB` (R39). -/
abbrev Session.pb (s : Session) : Reg (List Byte) := s.page.buf

/-- The error kinds of R281 (codes 1 to 17). -/
inductive Err where
  | linkError
  | tooShort
  | wrongStart
  | wrongLength
  | wrongAddressHigh
  | wrongAddressLow
  | wrongType
  | wrongData
  | wrongChecksum
  | verifyError
  | addressRangeError
  | unexpectedType
  | resourceError
  | signatureError
  | noSession
  | sessionActive
  | badOp
  deriving DecidableEq, Repr

/-- A host operation waiting in its ready-poll loop (R135, R289, R42): what is left to do once a poll reads not busy (log 6). -/
inductive Pending where
  /-- `POLL_READY`, `ERASE`, `WR_FUSE`: nothing but the return. -/
  | plain
  /-- `WR_EEBYTE` (R153). -/
  | eeByte (addr : Addr) (val : Byte) (verify : Bool)
  /-- `WR_PAGE` (R154, R155). -/
  | page (region : Region) (base : Addr) (buf : List Byte) (verify : Bool)
  /-- `PROG_BEGIN FLASH` in its chip erase (R210). -/
  | beginErase
  /-- `PROG_LINE`, a data record of a flash pass in a flush (R219): the page being written, then the page of `next` is
  opened and the bytes `rest` are merged from `next` on. -/
  | lineFlush (base : Addr) (buf : List Byte) (next : Addr) (rest : List Byte)
  /-- The last flush of a session (R222, R226), in a `PROG_LINE` or in `PROG_FINISH`. -/
  | endFlush (base : Addr) (buf : List Byte) (inLine : Bool)
  /-- `PROG_LINE`, a data record of an EEPROM pass (R223): the byte being written, and the bytes after it. -/
  | lineEeByte (addr : Addr) (val : Byte) (rest : List Byte)
  deriving DecidableEq, Repr

/-- The parameters a claim quantifies over (R7; log 5). Nothing writes them. -/
structure Params where
  knownSignatures : List Signature
  eeExtPolicy : ExtPolicy
  deriving DecidableEq, Repr

end Sys2Proof.Machine

namespace Sys2Proof.Machine

/-- The whole machine: the block (10_state.md), the host's side of its interface, and the environment (in `link.env`). -/
structure State where
  link : Link
  /-- `SIG` (R26). -/
  sig : Reg Signature
  /-- `REC` (R27). -/
  record : Reg HexRecord
  /-- `PSTATE` (R28). -/
  pstate : PState
  /-- `ATTEMPT` (R29). -/
  attempt : Nat
  /-- `SYNC_OK` (R30). -/
  syncOk : Bool
  /-- `BUSY` (R31). -/
  busy : Bool
  /-- `WPEND` (R32). -/
  wpend : Bool
  /-- `FUSE_DIRTY` (R33). -/
  fuseDirty : Bool
  /-- `VERIFY_OK` (R34). -/
  verifyOk : Bool
  session : Session
  /-- `LAST_ERROR` (R40). -/
  lastError : Byte
  params : Params
  /-- The host operations issued and not yet begun, one message each (R13, R92; log 1). -/
  inbox : List (List Byte)
  /-- The status byte and result bytes of the last completed operation (R92; log 1). -/
  response : List Byte
  /-- The host operation waiting in its poll loop, if one is (R135; log 6). -/
  pending : Option Pending
  deriving DecidableEq, Repr

/-- The model faults of R288. A model fault ends the run. Each is safe: the machine stops where the source gives no
result, so no false claim about the block can be proved from it (R288). -/
inductive Fault where
  /-- A rule reads a field that holds no value (R44, R288, U3). Raised by none: no rule of the spec reads such a field (R288), and a
  page that is open holds a base and a buffer (`PageState`). It stands here because R288 names it. Safe. -/
  | unwritten
  /-- A host operation that drives `RST` or shifts data starts while `WPEND` = 1, other than a ready poll (R314). Raised by
  the hazard check of every such operation. Safe. -/
  | busyHazard
  /-- A fuse or lock write starts while `FUSE_DIRTY` = 1 (R316). Raised by the hazard check of `WR_FUSE`, `CMD` and the fuse
  and lock write frames. Safe. -/
  | fuseReentryHazard
  deriving DecidableEq, Repr

/-- Refusals. Only an instruction without a meaning is refused; every row of the table has one, so none is raised. -/
inductive Refusal where
  /-- Raised by an arm of exec that has no meaning yet. Safe. -/
  | notModelled (mnemonic : String)
  deriving DecidableEq, Repr

/-! ### Block reset (R310) -/

/-- A fuse byte at power-up of the model: the spec gives no value (log 7). -/
def FuseCell.unprogrammed : FuseCell := ⟨Config.erasedVal, Config.erasedVal⟩

/-- The target when the model starts. Block reset does not act on it (R310) and the spec gives no values: log 7. -/
def Target.atPowerUp : Target where
  mode := .running
  settled := false
  rx := []
  flash := []
  eeprom := []
  fuseLow := FuseCell.unprogrammed
  fuseHigh := FuseCell.unprogrammed
  fuseExt := FuseCell.unprogrammed
  fuseLock := FuseCell.unprogrammed
  fusePending := false
  sig := Config.tgtSignature
  flashBuf := []
  eeBuf := []
  ext := 0#8
  erasedOnce := false
  committed := []
  locked := false
  fuseWritten := false
  fused := false
  busy := some 0
  nextBusy := Config.tgtBusyPolls 0
  nextSync := Config.tgtSync 0
  eraseEe := Config.tgtEraseEe
  eraseLock := Config.tgtEraseLock
  draws := 1

/-- The link after block reset (R310). -/
def Link.reset : Link where
  sck := .hiZ
  mosi := .hiZ
  rst := .hiZ
  txsr := .initial 0#8
  rxsr := .initial 0#8
  bitcnt := 0
  frameTx := .initial ⟨0#8, 0#8, 0#8, 0#8⟩
  frameRx := .initial ⟨0#8, 0#8, 0#8, 0#8⟩
  log := []
  env := ⟨.draws, [], 0, Target.atPowerUp⟩

/-- The session fields after block reset (R310). -/
def Session.reset : Session where
  sstate := .none
  region := .flash
  erased := false
  page := .closed (.initial 0#16) (.initial (List.replicate Config.flashPage 0#8))
  lineNo := 0#16

/-- The machine right after block reset (R310): the sequencer is idle, no host operation has been issued. -/
def State.reset : State where
  link := Link.reset
  sig := .initial ⟨0#8, 0#8, 0#8⟩
  record := .initial ⟨0#8, 0#16, 0#8, []⟩
  pstate := .idle
  attempt := 0
  syncOk := false
  busy := false
  wpend := false
  fuseDirty := false
  verifyOk := false
  session := Session.reset
  lastError := 0#8
  params := ⟨Config.knownSignatures, Config.eeExtPolicy⟩
  inbox := []
  response := []
  pending := none

end Sys2Proof.Machine
end

