-- ==== Sys2Proof/Machine/Operands.lean ====
section
/-! DEFINITION. Every operand form: regions and their capacities (spec/20_memory.md R51, R53), byte addresses to word, page
and wire addresses (R51, R60, R62 to R64), and the frames the block builds from them (spec/30_encoding.md R82,
spec/45_isp_frames.md). -/

namespace Sys2Proof.Machine

/-- `C` of R150: the capacity of a region in bytes. -/
def capacity : Region → Nat
  | .flash => Config.flashSize
  | .eeprom => Config.eeSize

/-- The page size of a region in bytes (R52, R53). -/
def pageSize : Region → Nat
  | .flash => Config.flashPage
  | .eeprom => Config.eePage

/-- `w = a >> 1`: the flash word address of a byte address (R51). -/
def wordAddr (a : Addr) : Addr := a >>> 1

/-- `base(a, P) = a - (a mod P)` (R62). -/
def pageBase (region : Region) (a : Addr) : Addr := a - a % BitVec.ofNat 16 (pageSize region)

/-- `wpage(a) = (a >> 1) & 0xFFC0`: the wire address of a flash page write (R63). -/
def wpage (a : Addr) : Addr := (a >>> 1) &&& 0xFFC0#16

/-- `epage(a) = a & 0xFFFC`: the wire address of an EEPROM page write (R64). -/
def epage (a : Addr) : Addr := a &&& 0xFFFC#16

/-- A frame `op hi lo b3` with an address sent high byte first (R58, R81 `ADR`, `ADV`). -/
def addrFrame (op : Byte) (a : Addr) (b3 : Byte) : IspFrame := ⟨op, hiByte a, loByte a, b3⟩

/-- `AC 53 00 00` (R250). -/
def progEnableFrame : IspFrame := ⟨0xAC#8, 0x53#8, 0x00#8, 0x00#8⟩

/-- `AC 80 00 00` (R251). -/
def chipEraseFrame : IspFrame := ⟨0xAC#8, 0x80#8, 0x00#8, 0x00#8⟩

/-- `F0 00 00 00` (R252). -/
def pollFrame : IspFrame := ⟨0xF0#8, 0x00#8, 0x00#8, 0x00#8⟩

/-- `30 00 i 00` (R253). -/
def readSigFrame (i : Byte) : IspFrame := ⟨0x30#8, 0x00#8, i, 0x00#8⟩

/-- `4D 00 val 00` (R271). -/
def extFrame (v : Byte) : IspFrame := ⟨0x4D#8, 0x00#8, v, 0x00#8⟩

/-- `20 hi lo 00` for an even byte address, `28 hi lo 00` for an odd one (R60, R87, R151). -/
def readFlashFrame (a : Addr) : IspFrame :=
  addrFrame (if a.getLsbD 0 then 0x28#8 else 0x20#8) (wordAddr a) 0x00#8

/-- `A0 hi lo 00` (R152, R262). -/
def readEepromFrame (a : Addr) : IspFrame := addrFrame 0xA0#8 a 0x00#8

/-- The read frame of a byte of a region (R151, R152). -/
def readFrame : Region → Addr → IspFrame
  | .flash, a => readFlashFrame a
  | .eeprom, a => readEepromFrame a

/-- `C0 hi lo val` (R153, R263). -/
def writeEepromFrame (a : Addr) (v : Byte) : IspFrame := addrFrame 0xC0#8 a v

/-- The load frame of byte j of a page: `40 00 j/2 v` or `48 00 j/2 v` for flash (R154, R268, R269), `C1 00 j v` for
EEPROM (R155, R264). -/
def loadFrame : Region → Nat → Byte → IspFrame
  | .flash, j, v => ⟨if j % 2 = 0 then 0x40#8 else 0x48#8, 0x00#8, BitVec.ofNat 8 (j / 2), v⟩
  | .eeprom, j, v => ⟨0xC1#8, 0x00#8, BitVec.ofNat 8 j, v⟩

/-- The page write frame of the page at `base`: `4C hi lo 00` with the bytes of `wpage` (R154, R270), `C2 hi lo 00` with the
bytes of `epage` (R155, R265). -/
def pageFrame : Region → Addr → IspFrame
  | .flash, base => addrFrame 0x4C#8 (wpage base) 0x00#8
  | .eeprom, base => addrFrame 0xC2#8 (epage base) 0x00#8

/-- The read frame of a fuse or lock byte (R158). -/
def readFuseFrame : FuseKind → IspFrame
  | .low => ⟨0x50#8, 0x00#8, 0x00#8, 0x00#8⟩
  | .high => ⟨0x58#8, 0x08#8, 0x00#8, 0x00#8⟩
  | .extended => ⟨0x50#8, 0x08#8, 0x00#8, 0x00#8⟩
  | .lock => ⟨0x58#8, 0x00#8, 0x00#8, 0x00#8⟩

/-- The write frame of a fuse or lock byte (R159). -/
def writeFuseFrame : FuseKind → Byte → IspFrame
  | .low, v => ⟨0xAC#8, 0xA0#8, 0x00#8, v⟩
  | .high, v => ⟨0xAC#8, 0xA8#8, 0x00#8, v⟩
  | .extended, v => ⟨0xAC#8, 0xA4#8, 0x00#8, v⟩
  | .lock, v => ⟨0xAC#8, 0xE0#8, 0x00#8, v⟩

end Sys2Proof.Machine
end

