-- ==== Sys2Proof/Machine/Flags.lean ====
section
/-! DEFINITION. Every flag computation: the error codes (spec/60_exceptions.md R281), which frames set `WPEND` and
`FUSE_DIRTY` (spec/45_isp_frames.md R273, R258 to R261), the busy bit (spec/41_isp_protocol.md R136), and the status word
(spec/10_state.md R41, spec/44_write_controller.md R232). -/

namespace Sys2Proof.Machine

/-- The numeric code of an error (R281). -/
def Err.code : Err → Byte
  | .linkError => 1#8
  | .tooShort => 2#8
  | .wrongStart => 3#8
  | .wrongLength => 4#8
  | .wrongAddressHigh => 5#8
  | .wrongAddressLow => 6#8
  | .wrongType => 7#8
  | .wrongData => 8#8
  | .wrongChecksum => 9#8
  | .verifyError => 10#8
  | .addressRangeError => 11#8
  | .unexpectedType => 12#8
  | .resourceError => 13#8
  | .signatureError => 14#8
  | .noSession => 15#8
  | .sessionActive => 16#8
  | .badOp => 17#8

/-- The code of success (R281). -/
def okCode : Byte := 0#8

/-- The frame starts a target write cycle (R273). -/
def isCommitFrame (f : IspFrame) : Bool :=
  match decodeFrame f with
  | some .chipErase => true
  | some (.writeFuseLo _) => true
  | some (.writeFuseHi _) => true
  | some (.writeFuseExt _) => true
  | some (.writeLock _) => true
  | some (.writeEeprom _ _ _) => true
  | some (.writeEepromPage _ _) => true
  | some (.writeFlashPage _ _) => true
  | _ => false

/-- The frame writes a fuse or lock byte (R258 to R261). -/
def isFuseWriteFrame (f : IspFrame) : Bool :=
  match decodeFrame f with
  | some (.writeFuseLo _) => true
  | some (.writeFuseHi _) => true
  | some (.writeFuseExt _) => true
  | some (.writeLock _) => true
  | _ => false

/-- The frame is the ready poll `F0 00 00 00` (R252). -/
def isPollFrame (f : IspFrame) : Bool := f == pollFrame

/-- The busy bit of a poll reply: bit 0 of its fourth byte (R136). -/
def busyBit (r : IspFrame) : Bool := r.b3.getLsbD 0

/-- The 2-bit code of `PSTATE` (R28). -/
def PState.code : PState → BitVec 2
  | .idle => 0#2
  | .syncing => 1#2
  | .programming => 2#2
  | .failed => 3#2

/-- The 2-bit code of `SSTATE` (R35). -/
def SState.code : SState → BitVec 2
  | .none => 0#2
  | .active => 1#2
  | .done => 2#2
  | .aborted => 3#2

/-- The 1-bit code of `REGION` (R36). -/
def regionBit : Region → Bool
  | .flash => false
  | .eeprom => true

/-- The status word (R41, R232), most significant field first. -/
def statusWord (s : State) : Word :=
  0x00#8 ++ s.lastError ++ BitVec.ofNat 4 s.attempt ++
    BitVec.ofBool s.verifyOk ++ BitVec.ofBool s.syncOk ++ BitVec.ofBool s.fuseDirty ++ BitVec.ofBool s.wpend ++
    BitVec.ofBool s.busy ++ BitVec.ofBool s.session.pageOpen ++ BitVec.ofBool s.session.erased ++
    BitVec.ofBool (regionBit s.session.region) ++ s.session.sstate.code ++ s.pstate.code

/-- The four bytes of a word, high byte first (R92). -/
def wordBytes (w : Word) : List Byte :=
  [w.extractLsb' 24 8, w.extractLsb' 16 8, w.extractLsb' 8 8, w.extractLsb' 0 8]

/-- The lower bound of a delay in nanoseconds (R7, R318). No step depends on it. -/
def Delay.lowerBound : Delay → Nat
  | .tBit => Config.tBitNs
  | .tSettle => Config.tSettleNs
  | .tRstPulse => Config.tRstPulseNs
  | .tPoll => Config.tPollNs

/-- The least time an event takes: a wait its delay, a drive or a sample none (R12, R321). -/
def Event.minDuration : Event → Nat
  | .wait d => d.lowerBound
  | .drive _ _ => 0
  | .sample _ => 0

/-- The least time a trace takes (R321). -/
def minDuration (trace : List Event) : Nat := (trace.map Event.minDuration).sum

end Sys2Proof.Machine
end

