-- ==== Sys2Proof/Machine/Memory.lean ====
section
/-! DEFINITION. Byte memories as canonical lists of cells (spec/20_memory.md R51, R53, R66) and the target's write buffers
(R76, R77). An address that is not listed reads as the erased value 0xFF (R75; log 9). -/

namespace Sys2Proof.Machine

/-- A byte memory: cells by strictly rising address, none holding the value an unlisted address reads as. -/
abbrev Memory := List Host.Cell

/-- The cell list with the byte at `a` set to `v`, sorted by address. -/
def putCell : List Host.Cell → Nat → Byte → List Host.Cell
  | [], a, v => [(a, v)]
  | c :: m, a, v =>
    if a < c.1 then (a, v) :: c :: m
    else if a = c.1 then (a, v) :: m
    else c :: putCell m a v

/-- The cell list without a cell at `a`. -/
def dropCell : List Host.Cell → Nat → List Host.Cell
  | [], _ => []
  | c :: m, a => if a = c.1 then m else c :: dropCell m a

/-- The byte listed at `a`. -/
def findCell : List Host.Cell → Nat → Option Byte
  | [], _ => none
  | c :: m, a => if a = c.1 then some c.2 else findCell m a

/-- What an unlisted address reads as: the erased value (R75; log 9). -/
def Memory.blank : Byte := Config.erasedVal

/-- The byte at `a`. -/
def Memory.read (m : Memory) (a : Nat) : Byte := (findCell m a).getD Memory.blank

/-- The memory with the byte at `a` written. -/
def Memory.write (m : Memory) (a : Nat) (v : Byte) : Memory :=
  if v = Memory.blank then dropCell m a else putCell m a v

/-- The bytes `base` to `base + n - 1` written, byte j with `f j`. -/
def Memory.writeRange (m : Memory) (base : Nat) : Nat → (Nat → Byte) → Memory
  | 0, _ => m
  | n + 1, f => Memory.write (Memory.writeRange m base n f) (base + n) (f n)

/-- The memory of `size` bytes that a list of writes leaves, each address taken modulo the size. -/
def Memory.ofList (size : Nat) (cells : List Host.Cell) : Memory :=
  cells.foldl (fun m c => Memory.write m (c.1 % size) c.2) []

/-- The cell list is sorted by strictly rising address. -/
abbrev cellsSorted (m : List Host.Cell) : Prop := m.Pairwise fun c d => c.1 < d.1

/-- The canonical form: strictly rising addresses, no cell that holds the unlisted value. -/
abbrev Memory.wf (m : Memory) : Prop := cellsSorted m ∧ ∀ c ∈ m, c.2 ≠ Memory.blank

/-- Canonical, and every listed address lies below the memory's size. -/
abbrev Memory.wfIn (size : Nat) (m : Memory) : Prop := Memory.wf m ∧ ∀ c ∈ m, c.1 < size

end Sys2Proof.Machine
end

