-- ==== Sys2Proof/Machine/Target.lean ====
section
/-! DEFINITION. The reference target (spec/20_memory.md R72 to R79): what it answers to each byte, and what each frame does to
its hidden state. What the rules leave open (`TGT_*`) is a free value of Config (log 10). It is consulted only while the
environment's kind is `reference`. -/

namespace Sys2Proof.Machine

/-- The bits the environment is bound to present during one byte, most significant first: `some b` a bit a rule determines,
`none` (and every position past the end) a draw (R20, R73). -/
abbrev Reply := List (Option Bool)

/-- A reply of which nothing is determined. -/
def Reply.drawn : Reply := []

/-- A reply byte determined whole, most significant bit first (R57). -/
def Reply.known (b : Byte) : Reply :=
  [b.getLsbD 7, b.getLsbD 6, b.getLsbD 5, b.getLsbD 4, b.getLsbD 3, b.getLsbD 2, b.getLsbD 1, b.getLsbD 0].map some

/-- The reply to a ready poll: bit 0 determined, the other bits draws (R73, R74). -/
def Reply.poll (busy : Bool) : Reply := [none, none, none, none, none, none, none, some busy]

/-! ### What the target answers -/

/-- A write cycle is in progress (R74). -/
def Target.isBusy (t : Target) : Bool := t.busy != some 0

/-- A lock byte was written or a fuse change is in effect. The spec does not say what the lock and fuse bits mean (R68, N7): what they
bear on is `TGT_OTHER` (U16), which the model takes to be every access to flash and EEPROM (`reachesMemory`; log 14). -/
def Target.altered (t : Target) : Bool := t.locked || t.fused

/-- The frame is an access to flash or EEPROM (R51, R53): it reads, loads or writes a byte of them, commits a page of them, or sets the
context of their addresses. The chip erase, which keeps R75, is not among them (log 14). -/
def reachesMemory : Instr → Bool
  | .readEeprom _ _ => true
  | .writeEeprom _ _ _ => true
  | .loadEepromPage _ _ => true
  | .writeEepromPage _ _ => true
  | .readFlashLo _ _ => true
  | .readFlashHi _ _ => true
  | .loadFlashLo _ _ => true
  | .loadFlashHi _ _ => true
  | .writeFlashPage _ _ => true
  | .loadExtAddr _ => true
  | _ => false

/-- What the frame does and answers is open, because what the lock and fuse bits mean is (U16; log 14). -/
def Target.forbids (t : Target) (i : Instr) : Bool := t.altered && reachesMemory i

/-- The byte a fuse or lock read returns: the value in effect, and before re-entry one of old and new (R78). -/
def Target.fuseRead (t : Target) (c : FuseCell) : Byte :=
  if c.old = c.new then c.old else if Config.tgtFuseReadback t.draws then c.new else c.old

/-- A flash byte a read frame of word `w` returns: determined in the address range, with context 0 (R76, R85). -/
def Target.flashRead (t : Target) (w : Addr) (odd : Nat) : Option Byte :=
  if w.toNat < Config.flashWords ∧ t.ext = 0#8 then
    some (Memory.read t.flash (2 * w.toNat + odd))
  else none

/-- An EEPROM byte a read frame returns (R77, R85). -/
def Target.eepromRead (t : Target) (a : Addr) : Option Byte :=
  if a.toNat < Config.eeSize then some (Memory.read t.eeprom a.toNat) else none

/-- The signature byte of an index (R78). -/
def Target.sigRead (t : Target) (i : Byte) : Option Byte :=
  if i = 0#8 then some t.sig.s0 else if i = 1#8 then some t.sig.s1 else if i = 2#8 then some t.sig.s2 else none

/-- The byte a read frame returns while the target is in programming mode and not busy (R73); `none`: a draw. -/
def Target.readAnswer (t : Target) : Instr → Option Byte
  | .readSig i => t.sigRead i
  | .readFuseLo => some (t.fuseRead t.fuseLow)
  | .readFuseHi => some (t.fuseRead t.fuseHigh)
  | .readFuseExt => some (t.fuseRead t.fuseExt)
  | .readLock => some (t.fuseRead t.fuseLock)
  | .readEeprom hi lo => t.eepromRead (addrOf hi lo)
  | .readFlashLo hi lo => t.flashRead (addrOf hi lo) 0
  | .readFlashHi hi lo => t.flashRead (addrOf hi lo) 1
  | _ => none

/-- The reply to the fourth byte of a frame (R73, R74, R79). During a write cycle only the ready poll has a determined answer, since
the contents are unspecified (R74; of the signature DESIGN CHOICE, log 10). A lock or fuse change leaves the answers of flash and EEPROM
open (U16), and those of the signature, fuse and lock bytes as R78 says (log 14). -/
def Target.lastReply (t : Target) (f : IspFrame) : Reply :=
  match t.mode with
  | .running => Reply.drawn
  | .progEnabled =>
    match decodeFrame f with
    | none => Reply.drawn
    | some .pollRdy => Reply.poll t.isBusy
    | some i =>
      if t.isBusy || t.forbids i then Reply.drawn
      else
        match t.readAnswer i with
        | some b => Reply.known b
        | none => Reply.drawn

/-- The target is ready to answer a programming-enable frame: reset asserted and settled, and the attempt is in sync (R72, which makes
no exception for a write cycle). -/
def Target.inSync (t : Target) (rst : Level) : Bool :=
  rst == .low && t.settled && t.nextSync

/-- The reply to one byte, from the bytes of the frame received before it (R72, R73): the echo 0x53 in the third byte of a
programming-enable frame in sync, the answer in the fourth byte, draws elsewhere. The echo is presented before the fourth byte is sent,
so a word `AC 53 00 xx` with xx not 0, which is no frame (R79), has it too (DESIGN CHOICE, log 8). -/
def Target.reply (t : Target) (rst : Level) (tx : Byte) : Reply :=
  match t.rx with
  | [b0, b1] =>
    if b0 = 0xAC#8 ∧ b1 = 0x53#8 ∧ tx = 0x00#8 ∧ t.inSync rst = true then Reply.known Config.syncEcho else Reply.drawn
  | b0 :: b1 :: b2 :: _ => t.lastReply ⟨b0, b1, b2, tx⟩
  | _ => Reply.drawn

/-! ### What a frame does to the target -/

/-- The free value was used: the next one is another. -/
def Target.tick (t : Target) : Target := { t with draws := t.draws + 1 }

/-- A fuse byte of unknown value, with an unknown change pending or none: both are free values (log 10). -/
def Target.otherFuse (t : Target) (k : FuseKind) : FuseCell :=
  ⟨Config.otherFuse t.draws k, Config.otherFuseNew t.draws k⟩

/-- The memories hold unspecified contents, the fuse and lock bytes and what is pending of them with them, and a write cycle may be
running (R74, U18): free values throughout (log 10). -/
def Target.corrupt (t : Target) : Target :=
  { t with
    flash := Memory.ofList Config.flashSize (Config.otherFlash t.draws)
    eeprom := Memory.ofList Config.eeSize (Config.otherEeprom t.draws)
    fuseLow := t.otherFuse .low
    fuseHigh := t.otherFuse .high
    fuseExt := t.otherFuse .extended
    fuseLock := t.otherFuse .lock
    fusePending := Config.otherFusePending t.draws
    fuseWritten := Config.otherFusePending t.draws
    locked := Config.otherLocked t.draws
    fused := Config.otherFused t.draws
    flashBuf := []
    eeBuf := []
    erasedOnce := false
    committed := []
    busy := Config.otherBusy t.draws
    draws := t.draws + 1 }

/-- `TGT_OTHER` (R79, U15): the memories, the mode and the context hold free values (log 10). -/
def Target.other (t : Target) : Target :=
  { t.corrupt with
    mode := if Config.otherProgEnabled t.draws then .progEnabled else .running
    ext := Config.otherExt t.draws }

/-- A write cycle starts: `TGT_BUSY_POLLS` polls will be answered busy (R74). -/
def Target.startCycle (t : Target) : Target :=
  { t with busy := t.nextBusy, nextBusy := Config.tgtBusyPolls t.draws, draws := t.draws + 1 }

/-- One ready poll was answered (R74). -/
def Target.polled (t : Target) : Target :=
  { t with busy := t.busy.map (· - 1) }

/-- A mode re-entry, from Running (log 17): every fuse change takes effect (R78), after which its bearing on flash and EEPROM is open
(U16; log 14). -/
def Target.reenter (t : Target) : Target :=
  { t with
    mode := .progEnabled
    fuseLow := ⟨t.fuseLow.new, t.fuseLow.new⟩
    fuseHigh := ⟨t.fuseHigh.new, t.fuseHigh.new⟩
    fuseExt := ⟨t.fuseExt.new, t.fuseExt.new⟩
    fuseLock := ⟨t.fuseLock.new, t.fuseLock.new⟩
    fusePending := false
    fuseWritten := false
    fused := t.fused || t.fuseWritten }

/-- A programming-enable frame (R72): in sync it puts the target in programming mode, out of sync it does nothing; the draw
of the next attempt is taken. Without reset asserted and settled it is sent while Running (R79). A frame in sync that finds the target
still in programming mode, `RST` not released since, is no mode re-entry: a fuse change stays pending, although a `PGM_ENTER` that sent
the frame clears `FUSE_DIRTY` (R316), so that a second fuse write is `TGT_OTHER` (DESIGN CHOICE, log 17). -/
def Target.progEnable (t : Target) (rst : Level) : Target :=
  if rst = .low ∧ t.settled = true then
    let t' := if t.nextSync ∧ t.mode = .running then t.reenter else t
    { t' with nextSync := Config.tgtSync t.draws, draws := t.draws + 1 }
  else t.other

/-- A chip erase (R75): all flash reads 0xFF; EEPROM and the lock byte by `TGT_ERASE_EE` and `TGT_ERASE_LOCK`. R75 says nothing of
the write buffers and the upper address context: they stay, and a context that is not 0 does not make the erase one of the flash accesses
of `TGT_EXT_NONZERO` (DESIGN CHOICE, log 15). Nor does it say when a lock byte it resets takes effect, or what becomes of a lock write
still pending re-entry: the value in effect and the pending one are one free value at once, and `fusePending` stays (DESIGN CHOICE,
log 14). -/
def Target.chipErase (t : Target) : Target :=
  let t := { t with flash := [], erasedOnce := true, committed := [] }
  let t := if t.eraseEe then { t with eeprom := [] } else t
  let t :=
    if t.eraseLock then
      { t with locked := false, fuseLock := ⟨Config.tgtErasedLock t.draws, Config.tgtErasedLock t.draws⟩ }
    else t
  t.startCycle

/-- Byte j of the flash write buffer: the byte loaded, or a free value where nothing was loaded (R76, U11). -/
def Target.latch (t : Target) (j : Nat) : Byte := (findCell t.flashBuf j).getD (Config.tgtLatch t.draws j)

/-- All 4 bytes of the EEPROM write buffer are loaded (R77). -/
def Target.eeLoaded (t : Target) : Bool := (List.range Config.eePage).all fun j => (findCell t.eeBuf j).isSome

/-- Byte j that an EEPROM page commit writes (R77): the byte loaded if all 4 are, else any value at all (`TGT_EE_PARTIAL`, U13). -/
def Target.eeLatch (t : Target) (j : Nat) : Byte :=
  if t.eeLoaded then (findCell t.eeBuf j).getD Config.erasedVal else Config.tgtEePartial t.draws j

/-- A flash page has been erased since its last commit (R76): a chip erase has been done, and no commit of the page after it. Before
the first chip erase no page counts as erased (DESIGN CHOICE, log 10). An erase of an earlier session or mode entry counts as one of this
entry does, although R154, R312 and R315 speak of the same session or entry (DESIGN CHOICE, log 18). -/
def Target.pageErased (t : Target) (page : Nat) : Bool := t.erasedOnce && !t.committed.contains page

/-- A flash page commit while the upper address context is not 0 (R76, R317, U12): flash may hold anything afterwards and no page
counts as erased; nothing else of the target is touched. -/
def Target.commitExtended (t : Target) : Target :=
  let t := { t with
    flash := Memory.ofList Config.flashSize (Config.tgtExtFlash t.draws)
    erasedOnce := false
    committed := []
    flashBuf := [] }
  t.tick.startCycle

/-- `WRITE_FLASH_PAGE` of word address `w` (R76): the 64-word buffer is committed to the page; a page that is not erased since its
last commit holds free values (`TGT_FLASH_REWRITE`). The EEPROM write buffer keeps its bytes (DESIGN CHOICE, log 15). -/
def Target.writeFlashPage (t : Target) (w : Addr) : Target :=
  if w.toNat < Config.flashWords then
    if t.ext = 0#8 then
      let page := w.toNat / Config.flashPageWords
      let bytes := if t.pageErased page then t.latch else Config.tgtFlashRewrite t.draws
      let t := { t with
        flash := Memory.writeRange t.flash (Config.flashPage * page) Config.flashPage bytes
        committed := page :: t.committed
        flashBuf := [] }
      t.tick.startCycle
    else t.commitExtended
  else t.other

/-- `WRITE_EEPROM_PAGE` (R77): the 4 buffered bytes are committed to the page, bits 1 and 0 of the address ignored. The flash
write buffer keeps its bytes (DESIGN CHOICE, log 15). -/
def Target.writeEepromPage (t : Target) (a : Addr) : Target :=
  if a.toNat < Config.eeSize then
    let base := Config.eePage * (a.toNat / Config.eePage)
    let t := { t with
      eeprom := Memory.writeRange t.eeprom base Config.eePage t.eeLatch
      eeBuf := [] }
    t.tick.startCycle
  else t.other

/-- `WRITE_EEPROM` (R77). Both write buffers keep their bytes (DESIGN CHOICE, log 15). -/
def Target.writeEeprom (t : Target) (a : Addr) (v : Byte) : Target :=
  if a.toNat < Config.eeSize then
    { t with eeprom := Memory.write t.eeprom a.toNat v }.startCycle
  else t.other

/-- `LOAD_FLASH_LO` and `LOAD_FLASH_HI` (R76): the byte is stored in the flash write buffer. While the upper address context is
not 0 a load is a flash access of `TGT_EXT_NONZERO` (U12): what the buffer holds afterwards is open. -/
def Target.loadFlash (t : Target) (i : Byte) (odd : Nat) (v : Byte) : Target :=
  if i.toNat < Config.flashPageWords then
    { t with flashBuf := if t.ext = 0#8 then putCell t.flashBuf (2 * i.toNat + odd) v else [] }
  else t.other

/-- `LOAD_EEPROM_PAGE` (R77): the byte is stored in the EEPROM write buffer. -/
def Target.loadEeprom (t : Target) (i : Byte) (v : Byte) : Target :=
  if i.toNat < Config.eePage then { t with eeBuf := putCell t.eeBuf i.toNat v } else t.other

/-- A fuse or lock write (R78): its own byte alone is written, in effect after re-entry; a second one before re-entry has no
stated result (U2). The first lock write to a target whose lock byte nothing has changed stores its value over whatever the byte
was, and is not refused (DESIGN CHOICE, log 14); once a lock byte was written, what a later fuse or lock write stores in its byte is a
free value (R261, U16, N7). Both write buffers keep their bytes (DESIGN CHOICE, log 15). -/
def Target.writeFuse (t : Target) (k : FuseKind) (v : Byte) : Target :=
  if t.fusePending then t.other
  else
    let v := if t.locked then Config.tgtLockedWrite t.draws else v
    let t := { t with fusePending := true }
    let t :=
      match k with
      | .low => { t with fuseLow := { t.fuseLow with new := v }, fuseWritten := true }
      | .high => { t with fuseHigh := { t.fuseHigh with new := v }, fuseWritten := true }
      | .extended => { t with fuseExt := { t.fuseExt with new := v }, fuseWritten := true }
      | .lock => { t with fuseLock := { t.fuseLock with new := v }, locked := true }
    t.startCycle

/-- A frame that is neither a poll nor a read nor programming enable, in programming mode (R75 to R78). -/
def Target.command (t : Target) : Instr → Target
  | .chipErase => t.chipErase
  | .writeFuseLo v => t.writeFuse .low v
  | .writeFuseHi v => t.writeFuse .high v
  | .writeFuseExt v => t.writeFuse .extended v
  | .writeLock v => t.writeFuse .lock v
  | .writeEeprom hi lo v => t.writeEeprom (addrOf hi lo) v
  | .loadEepromPage i v => t.loadEeprom i v
  | .writeEepromPage hi lo => t.writeEepromPage (addrOf hi lo)
  | .loadFlashLo i v => t.loadFlash i 0 v
  | .loadFlashHi i v => t.loadFlash i 1 v
  | .writeFlashPage hi lo => t.writeFlashPage (addrOf hi lo)
  | .loadExtAddr v => { t with ext := v }
  | _ => t.other

/-- The frame reads a byte of the target and changes none of its memories (R79, D35). -/
def isReadFrame : Instr → Bool
  | .readSig _ => true
  | .readFuseLo => true
  | .readFuseHi => true
  | .readFuseExt => true
  | .readLock => true
  | .readEeprom _ _ => true
  | .readFlashLo _ _ => true
  | .readFlashHi _ _ => true
  | _ => false

/-- What a frame of the table other than the ready poll does by its own rule (R72, R75 to R79). After a lock or fuse change (U16) an
access to flash or EEPROM that is no read is `TGT_OTHER` (log 14). -/
def Target.frameEffect (t : Target) (rst : Level) (i : Instr) : Target :=
  if i = .progEnable then t.progEnable rst
  else if isReadFrame i then t.tick
  else
    match t.mode with
    | .running => t.other
    | .progEnabled => if t.forbids i then t.other else t.command i

/-- A whole frame of the table has been received (R72 to R79). During a write cycle every frame but the ready poll leaves the
memories unspecified (R74), on top of what it does by its own rule. -/
def Target.takeFrame (t : Target) (rst : Level) (i : Instr) : Target :=
  if i = .pollRdy then t.polled
  else if t.isBusy then (t.frameEffect rst i).corrupt
  else t.frameEffect rst i

/-- The four bytes of a frame have been received: a word that is no frame of the table is `TGT_OTHER`, during a write cycle as
well as outside one (R74, R79). -/
def Target.takeWord (t : Target) (rst : Level) (f : IspFrame) : Target :=
  match decodeFrame f with
  | some i => t.takeFrame rst i
  | none => t.other

/-- One byte has been received (R58, R80): it completes a frame or is kept. -/
def Target.take (t : Target) (rst : Level) (tx : Byte) : Target :=
  match t.rx with
  | b0 :: b1 :: b2 :: _ => ({ t with rx := [] } : Target).takeWord rst ⟨b0, b1, b2, tx⟩
  | _ => { t with rx := t.rx ++ [tx] }

/-- What a drive of `RST` does to the mode, the settling time and the frame in progress (R72): asserting it starts the settling time
and a new frame; driving it `High` or `HiZ`, whatever its level was (R115, R138), returns the target to Running. A frame in progress is
dropped where `RST` goes into or out of Low (log 8). The spec does not say whether the write buffers and the upper address context
survive, nor
whether a page erased before still counts as erased: they stay (DESIGN CHOICE, log 15), and it does (DESIGN CHOICE, log 18). -/
def Target.resetLine (t : Target) (before after : Level) : Target :=
  if after = .low then
    if before = .low then t else { t with settled := false, rx := [] }
  else { t with mode := .running, settled := false, rx := if before = Level.low then [] else t.rx }

/-- `RST` is driven, to any level (R72): a write cycle it falls into leaves the memories unspecified (R66, U18, N12; R314 "driving or
releasing"). That a drive which repeats the level counts as well is DESIGN CHOICE, log 10. -/
def Target.onRst (t : Target) (before after : Level) : Target :=
  if t.isBusy then (t.resetLine before after).corrupt else t.resetLine before after

/-- `T_SETTLE` elapses (R72). -/
def Target.onSettle (t : Target) (rst : Level) : Target :=
  if rst = .low then { t with settled := true } else t

/-! ### The environment -/

/-- What the environment is bound to answer during the byte `tx` (R20, R72). -/
def Env.reply (e : Env) (rst : Level) (tx : Byte) : Reply :=
  match e.kind with
  | .draws => Reply.drawn
  | .reference => e.target.reply rst tx

/-- The environment's target is changed by `f`, if the reference target is connected. -/
def Env.onTarget (e : Env) (f : Target → Target) : Env :=
  match e.kind with
  | .draws => e
  | .reference => { e with target := f e.target }

/-- One bit of MISO: what is bound, else the next bit the environment presents, else a free value (R20, R23; log 2). -/
def Env.sample (e : Env) (bound : Option Bool) : Bool × Env :=
  match bound with
  | some b => (b, e)
  | none =>
    match e.miso with
    | b :: bits => (b, { e with miso := bits })
    | [] => (Config.misoDraw e.draws, { e with draws := e.draws + 1 })

end Sys2Proof.Machine
end

