-- ==== Sys2Proof/Machine/Ops.lean ====
section
/-! DEFINITION. The named operations the meanings share: driving pins, waiting and sampling (spec/00_scope.md R11), the byte
and frame exchange (R111, R130), the hazard check (R314, R316), returning a result (R92, R40), raising an error (R280, R284),
the ready poll (R135), the page operations (R154 to R156), and the end of a session (R227, R233). -/

namespace Sys2Proof.Machine

/-- What an operation or a step answers. -/
abbrev Out := Host.Outcome State Fault Refusal

/-! ### The link: pins, waits, samples (R11) -/

/-- `Drive(SCK, v)`. -/
def Link.driveSck (v : Level) (l : Link) : Link := { l with sck := v, log := .drive .sck v :: l.log }

/-- `Drive(MOSI, v)`. -/
def Link.driveMosi (v : Level) (l : Link) : Link := { l with mosi := v, log := .drive .mosi v :: l.log }

/-- `Drive(RST, v)`: the target sees its reset line change (R72). -/
def Link.driveRst (v : Level) (l : Link) : Link :=
  { l with rst := v, log := .drive .rst v :: l.log, env := l.env.onTarget fun t => t.onRst l.rst v }

/-- `Wait(T)` (R12). -/
def Link.wait (d : Delay) (l : Link) : Link := { l with log := .wait d :: l.log }

/-- `Wait(T_SETTLE)`: the target has settled if its reset is asserted (R72). -/
def Link.settle (l : Link) : Link :=
  { l.wait .tSettle with env := l.env.onTarget fun t => t.onSettle l.rst }

/-- `Sample(MISO)` (R20, R23). -/
def Link.sample (bound : Option Bool) (l : Link) : Bool × Link :=
  let r := l.env.sample bound
  (r.1, { l with env := r.2, log := .sample r.1 :: l.log })

/-! ### Xfer and Frame (R111, R130) -/

/-- The level of a data bit (R111). -/
def bitLevel (b : Bool) : Level := if b then .high else .low

/-- One bit of `Xfer` (R111): the bit sampled, while `bit` is driven. -/
def Link.xferBit (bit : Bool) (bound : Option Bool) (l : Link) : Bool × Link :=
  let r := (((l.driveMosi (bitLevel bit)).driveSck .high).wait .tBit).sample bound
  (r.1, (r.2.driveSck .low).wait .tBit)

/-- `RXSR << 1 | bit` (R111). -/
def shiftIn (rx : Byte) (bit : Bool) : Byte := (rx <<< 1) ||| (if bit then 1#8 else 0#8)

/-- The bit loop of `Xfer` (R111): `n` more bits, with the two shift registers and what the environment is bound to answer. -/
def Link.xferBits : Nat → Byte → Byte → Reply → Link → Link
  | 0, tx, rx, _, l => { l with txsr := .written tx, rxsr := .written rx }
  | n + 1, tx, rx, bound, l =>
    let r := l.xferBit (tx.getLsbD 7) bound.head?.join
    Link.xferBits n (tx <<< 1) (shiftIn rx r.1) bound.tail { r.2 with bitcnt := r.2.bitcnt + 1 }

/-- `Xfer(tx)` (R111): the byte received, and the link after it; the target has taken the byte sent. -/
def Link.xfer (tx : Byte) (l : Link) : Byte × Link :=
  let l' := Link.xferBits 8 tx 0#8 (l.env.reply l.rst tx) { l with bitcnt := 0 }
  (l'.rxsr.value, { l' with env := l'.env.onTarget fun t => t.take l.rst tx })

/-- `Frame(b0, b1, b2, b3)` (R130): the four bytes received. -/
def Link.frame (f : IspFrame) (l : Link) : IspFrame × Link :=
  let x0 := l.xfer f.b0
  let x1 := x0.2.xfer f.b1
  let x2 := x1.2.xfer f.b2
  let x3 := x2.2.xfer f.b3
  let r : IspFrame := ⟨x0.1, x1.1, x2.1, x3.1⟩
  (r, { x3.2 with frameTx := .written f, frameRx := .written r })

/-- The frames of a page load (R154, R155): byte j of the page, then the bytes after it. -/
def Link.loadPage (region : Region) : Nat → List Byte → Link → Link
  | _, [], l => l
  | j, v :: buf, l => Link.loadPage region (j + 1) buf (l.frame (loadFrame region j v)).2

/-- The reset pulse (R116), without its `PSTATE` write. -/
def Link.resetPulse (l : Link) : Link := ((l.driveRst .low).wait .tRstPulse).driveRst .high

/-- The drives of the link release (R117, D4: `SCK`, `MOSI`, `RST`). -/
def Link.release (l : Link) : Link := ((l.driveSck .hiZ).driveMosi .hiZ).driveRst .hiZ

/-- The start of a programming-enable attempt (R132, D12): clock and data low, reset asserted, settling time. -/
def Link.attempt (l : Link) : Link := (((l.driveSck .low).driveMosi .low).driveRst .low).settle

/-! ### Inner operations: a value, an error result or a model fault -/

/-- What an operation that others call answers: a value, an error (R280), or a model fault (R288). -/
inductive Res (α : Type) where
  | ok (a : α) (s : State)
  | err (e : Err) (s : State)
  | fault (f : Fault)

/-- The first operation, and on its value the next. -/
def Res.bind {α β : Type} (r : Res α) (next : α → State → Res β) : Res β :=
  match r with
  | .ok a s => next a s
  | .err e s => .err e s
  | .fault f => .fault f

/-- What a host operation is about to do first, for its hazard check (R314). -/
inductive HazardKind where
  | frame (f : IspFrame)
  | shift
  | reset
  deriving DecidableEq, Repr

/-- The operation starts with the ready poll frame, which a pending write cycle allows (R314). -/
def HazardKind.isPoll : HazardKind → Bool
  | .frame f => isPollFrame f
  | .shift => false
  | .reset => false

/-- The operation starts with a fuse or lock write frame (R316). -/
def HazardKind.isFuseWrite : HazardKind → Bool
  | .frame f => isFuseWriteFrame f
  | .shift => false
  | .reset => false

/-- `HazardCheck(k)` (R314, R316): the model fault it ends in, if any. -/
def hazard (k : HazardKind) (s : State) : Option Fault :=
  if s.wpend && !k.isPoll then some .busyHazard
  else if k.isFuseWrite && s.fuseDirty then some .fuseReentryHazard
  else none

/-- The hazard check, then the operation (R314). -/
def guarded {α : Type} (k : HazardKind) (s : State) (go : State → Res α) : Res α :=
  match hazard k s with
  | some f => .fault f
  | none => go s

/-! ### The end of a host operation (R92, R40, R284) -/

/-- The state in which an operation that succeeds returns: status code 0 and the result bytes for the host (R92), `LAST_ERROR`
0 (R40), nothing waiting. -/
def State.returned (result : List Byte) (s : State) : State :=
  { s with lastError := okCode, response := okCode :: result, pending := none }

/-- The state in which an operation ends in the error `e` (R280, R284): its code goes to `LAST_ERROR` and to the host, followed
by `extra` (`LINE_NO` after a `PROG_LINE`, nothing otherwise). Every other field stays as the events before it left it. -/
def State.raised (e : Err) (extra : List Byte) (s : State) : State :=
  { s with lastError := e.code, response := e.code :: extra, pending := none }

/-- The state in which an operation waits for its next ready poll (R135): `T_POLL` is waited out and `k` is left to do. -/
def State.waiting (k : Pending) (s : State) : State :=
  { s with link := s.link.wait .tPoll, pending := some k }

/-- The operation succeeds (R92, R40). -/
def finishOk (result : List Byte) (s : State) : Out := .next (s.returned result)

/-- The operation ends in an error (R280, R284): the one way an error result is taken. -/
def raise (e : Err) (extra : List Byte) (s : State) : Out := .next (s.raised e extra)

/-- A host operation that is one inner operation: its value as result bytes, or its error (R280). -/
def Res.finish {α : Type} (r : Res α) (result : α → List Byte) : Out :=
  match r with
  | .ok a s => finishOk (result a) s
  | .err e s => raise e [] s
  | .fault f => .fault f

/-- An illegal operation or operand (R94): no event, status `BadOp`. -/
def refuseBadOp (s : State) : Out := raise .badOp [] s

/-! ### Frames of the block -/

/-- `Frame` on the whole state. -/
def State.frame (f : IspFrame) (s : State) : IspFrame × State :=
  let r := s.link.frame f
  (r.1, { s with link := r.2 })

/-- A frame whose reply is not used (D10). -/
def State.send (f : IspFrame) (s : State) : State := (s.frame f).2

/-- A commit frame (R273): it is sent and `WPEND` is set (R32). -/
def State.commit (f : IspFrame) (s : State) : State := { s.send f with wpend := true }

/-- What a ready poll's reply does to `BUSY` and `WPEND` (R31, R32, R135). -/
def State.notePoll (r : IspFrame) (s : State) : State :=
  { s with busy := busyBit r, wpend := s.wpend && busyBit r }

/-- One ready poll (R135): the poll frame and its flags. -/
def State.poll (s : State) : State :=
  let r := s.frame pollFrame
  r.2.notePoll r.1

/-- The poll loop (R135), one turn: a poll that reads not busy goes on with `next`, one that reads busy waits `T_POLL` and
leaves the operation pending, to poll again in the next step (log 6). -/
def pollThen (k : Pending) (next : State → Out) (s : State) : Out :=
  let s := s.poll
  if s.busy then .next (s.waiting k) else next s

/-! ### Reads, writes and verification of the target's memories (42_memory_programmer.md) -/

/-- `RD_BYTE region, a` (R150, R151, R152). -/
def rdByte (region : Region) (a : Addr) (s : State) : Res Byte :=
  if capacity region ≤ a.toNat then .err .addressRangeError s
  else
    guarded (.frame (readFrame region a)) s fun s =>
      let r := s.frame (readFrame region a)
      .ok r.1.b3 r.2

/-- A read frame without operands to check (R158, R160): its fourth reply byte. -/
def readReply (f : IspFrame) (s : State) : Res Byte :=
  guarded (.frame f) s fun s =>
    let r := s.frame f
    .ok r.1.b3 r.2

/-- `SET_EXT v` (R161). -/
def setExt (v : Byte) (s : State) : Res Unit :=
  guarded (.frame (extFrame v)) s fun s => .ok () (s.send (extFrame v))

/-- `WR_EEBYTE a, v` up to its poll (R153). -/
def startEeByte (a : Addr) (v : Byte) (s : State) : Res Unit :=
  if capacity .eeprom ≤ a.toNat then .err .addressRangeError s
  else guarded (.frame (writeEepromFrame a v)) s fun s => .ok () (s.commit (writeEepromFrame a v))

/-- The readback of `WR_EEBYTE` (R153): `VERIFY_OK`, and `VerifyError` on a mismatch. -/
def verifyEeByte (a : Addr) (v : Byte) (s : State) : Res Unit :=
  (rdByte .eeprom a s).bind fun rb s =>
    if rb = v then .ok () { s with verifyOk := true } else .err .verifyError { s with verifyOk := false }

/-- `WR_PAGE region, a, buf` up to its poll (R154, R155): the bound, the hazard check of the first load frame, the load frames,
the page write. The base of the page is answered. -/
def startPage (region : Region) (a : Addr) (buf : List Byte) (s : State) : Res Addr :=
  if capacity region ≤ a.toNat then .err .addressRangeError s
  else
    guarded (.frame (loadFrame region 0 (buf.headD 0#8))) s fun s =>
      let base := pageBase region a
      let s := { s with link := s.link.loadPage region 0 buf }
      .ok base (s.commit (pageFrame region base))

/-- `VerifyPage` (R156) from offset j on: every byte is read back, the first mismatch fails. -/
def verifyFrom (region : Region) (base : Addr) : Nat → List Byte → State → Res Unit
  | _, [], s => .ok () { s with verifyOk := true }
  | j, v :: buf, s =>
    (rdByte region (base + BitVec.ofNat 16 j) s).bind fun rb s =>
      if rb = v then verifyFrom region base (j + 1) buf s
      else .err .verifyError { s with verifyOk := false }

/-- `VerifyPage(region, base, buf, P)` (R156). -/
def verifyPage (region : Region) (base : Addr) (buf : List Byte) (s : State) : Res Unit :=
  verifyFrom region base 0 buf s

/-- The rest of `WR_PAGE` after its poll (R154, R155): Boolean true, verified if asked for. -/
def pageDone (region : Region) (base : Addr) (buf : List Byte) (verify : Bool) (s : State) : Out :=
  if verify then (verifyPage region base buf s).finish fun _ => [boolCode true]
  else finishOk [boolCode true] s

/-- The rest of `WR_EEBYTE` after its poll (R153). -/
def eeByteDone (a : Addr) (v : Byte) (verify : Bool) (s : State) : Out :=
  if verify then (verifyEeByte a v s).finish fun _ => [boolCode true]
  else finishOk [boolCode true] s

/-- `ERASE` up to its poll (R157). -/
def startErase (s : State) : Res Unit :=
  guarded (.frame chipEraseFrame) s fun s => .ok () (s.commit chipEraseFrame)

/-- `WR_FUSE k, v` up to its poll (R159). -/
def startFuse (k : FuseKind) (v : Byte) (s : State) : Res Unit :=
  guarded (.frame (writeFuseFrame k v)) s fun s => .ok () { s.commit (writeFuseFrame k v) with fuseDirty := true }

/-! ### Sessions (44_write_controller.md) -/

/-- `LINK_RELEASE` (R117): the hazard check, the three drives, `PSTATE` Idle. -/
def linkRelease (s : State) : Res Unit :=
  guarded .reset s fun s => .ok () { s with link := s.link.release, pstate := .idle }

/-- `LINE_NO`, high byte first (R93, R47). -/
def lineBytes (s : State) : List Byte := [hiByte s.session.lineNo, loByte s.session.lineNo]

/-- `Abort(e)` (R227): the open page is discarded, the session ends as Aborted, the link is released, and the error reaches the
host, with `LINE_NO` if the operation is a `PROG_LINE` (R47). -/
def abort (e : Err) (inLine : Bool) (s : State) : Out :=
  let s := { s with session := { s.session with page := s.session.page.close, sstate := .aborted } }
  match linkRelease s with
  | .ok _ s => raise e (if inLine then lineBytes s else []) s
  | .err e s => raise e [] s
  | .fault f => .fault f

/-- `Complete()` (R233): the session ends as Done and the link is released. -/
def complete (s : State) : Out :=
  (linkRelease { s with session := { s.session with sstate := .done } }).finish fun _ => []

/-- A step of a session: an error of the operation it calls aborts the session (R282, R227). -/
def Res.orAbort {α : Type} (r : Res α) (inLine : Bool) (next : α → State → Out) : Out :=
  match r with
  | .ok a s => next a s
  | .err e s => abort e inLine s
  | .fault f => .fault f

end Sys2Proof.Machine
end

