-- ==== Sys2Proof/Machine/BitLink.lean ====
section
/-! DEFINITION. The meanings of the BitLink host operations (spec/40_bitlink.md). -/

namespace Sys2Proof.Machine

/-- `XFER tx` (R111): the byte received. -/
def execXfer (tx : Byte) (s : State) : Out :=
  (guarded .shift s fun s =>
    let r := s.link.xfer tx
    Res.ok r.1 { s with link := r.2 }).finish fun rx => [rx]

/-- `RST_ASSERT` (R114). -/
def execRstAssert (s : State) : Out :=
  (guarded .reset s fun s => Res.ok () { s with link := s.link.driveRst .low }).finish fun _ => []

/-- `RST_RELEASE` (R115): `PSTATE` Idle (D46). -/
def execRstRelease (s : State) : Out :=
  (guarded .reset s fun s =>
    Res.ok () { s with link := s.link.driveRst .high, pstate := .idle }).finish fun _ => []

/-- `RST_PULSE` (R116): `PSTATE` Idle (D46). -/
def execRstPulse (s : State) : Out :=
  (guarded .reset s fun s =>
    Res.ok () { s with link := s.link.resetPulse, pstate := .idle }).finish fun _ => []

/-- `LINK_RELEASE` (R117). -/
def execLinkRelease (s : State) : Out := (linkRelease s).finish fun _ => []

end Sys2Proof.Machine
end

