-- ==== Sys2Proof/Machine/IspProtocol.lean ====
section
/-! DEFINITION. The meanings of the ISPProtocol host operations (spec/41_isp_protocol.md). -/

namespace Sys2Proof.Machine

/-- What sending a frame through `CMD` does to the flags (R131): a commit frame sets `WPEND`, a fuse or lock write sets
`FUSE_DIRTY`, a ready poll counts as a poll. -/
def noteFrame (f r : IspFrame) (s : State) : State :=
  let s := { s with wpend := s.wpend || isCommitFrame f, fuseDirty := s.fuseDirty || isFuseWriteFrame f }
  if isPollFrame f then s.notePoll r else s

/-- `CMD` with the frame `f` (R131): the fourth reply byte. -/
def issueFrame (f : IspFrame) (s : State) : Res Byte :=
  guarded (.frame f) s fun s =>
    let r := s.frame f
    .ok r.1.b3 (noteFrame f r.1 r.2)

/-- `CMD` as a host operation (R131). -/
def sendFrame (f : IspFrame) (s : State) : Out := (issueFrame f s).finish fun r3 => [r3]

/-- `CMD b0, b1, b2, b3` (R131). -/
def execCmd (b0 b1 b2 b3 : Byte) (s : State) : Out := sendFrame ⟨b0, b1, b2, b3⟩ s

/-- One programming-enable attempt (R132): its replies, and the state with `ATTEMPT` counted. -/
def syncAttempt (s : State) : IspFrame × State :=
  ({ s with attempt := s.attempt + 1, link := s.link.attempt } : State).frame progEnableFrame

/-- The attempt loop of `PGM_ENTER` (R132, R133) with `n` attempts left: sync is the echo in the third reply byte; a reset pulse
stands between attempts and none follows the last (D12). -/
def syncLoop : Nat → State → Res Unit
  | 0, s => .err .linkError { s with pstate := .failed }
  | n + 1, s =>
    let r := syncAttempt s
    if r.1.b2 = Config.syncEcho then
      .ok () { r.2 with pstate := .programming, syncOk := true, fuseDirty := false }
    else if n = 0 then .err .linkError { r.2 with pstate := .failed }
    else syncLoop n { r.2 with link := r.2.link.resetPulse }

/-- `PGM_ENTER` (R132): the hazard check, then at most `SYNC_ATTEMPTS` attempts. -/
def pgmEnter (s : State) : Res Unit :=
  guarded .reset s fun s =>
    syncLoop Config.syncAttempts { s with pstate := .syncing, syncOk := false, attempt := 0 }

/-- `PGM_ENTER` as a host operation (R132): Boolean true, or `LinkError`. -/
def execPgmEnter (s : State) : Out := (pgmEnter s).finish fun _ => [boolCode true]

/-- `POLL_READY` (R135). -/
def execPollReady (s : State) : Out := pollThen .plain (finishOk []) s

end Sys2Proof.Machine
end

