-- ==== Sys2Proof/Machine/Frames.lean ====
section
/-! DEFINITION. The meanings of the 22 ISP frames (spec/45_isp_frames.md R250 to R271). Issued by the host, a frame is the host
operation `CMD` with its four bytes (R96 `FRAME`, R84; log 11); what it does to the target is `Target.takeFrame`. -/

namespace Sys2Proof.Machine

/-- `PROG_ENABLE`: `AC 53 00 00` (R250). -/
def execProgEnable (s : State) : Out := sendFrame ⟨0xAC#8, 0x53#8, 0x00#8, 0x00#8⟩ s

/-- `CHIP_ERASE`: `AC 80 00 00` (R251). -/
def execChipErase (s : State) : Out := sendFrame ⟨0xAC#8, 0x80#8, 0x00#8, 0x00#8⟩ s

/-- `POLL_RDY`: `F0 00 00 00` (R252). -/
def execPollRdy (s : State) : Out := sendFrame ⟨0xF0#8, 0x00#8, 0x00#8, 0x00#8⟩ s

/-- `READ_SIG`: `30 00 i 00` (R253). -/
def execReadSig (i : Byte) (s : State) : Out := sendFrame ⟨0x30#8, 0x00#8, i, 0x00#8⟩ s

/-- `READ_FUSE_LO`: `50 00 00 00` (R254). -/
def execReadFuseLo (s : State) : Out := sendFrame ⟨0x50#8, 0x00#8, 0x00#8, 0x00#8⟩ s

/-- `READ_FUSE_HI`: `58 08 00 00` (R255). -/
def execReadFuseHi (s : State) : Out := sendFrame ⟨0x58#8, 0x08#8, 0x00#8, 0x00#8⟩ s

/-- `READ_FUSE_EXT`: `50 08 00 00` (R256). -/
def execReadFuseExt (s : State) : Out := sendFrame ⟨0x50#8, 0x08#8, 0x00#8, 0x00#8⟩ s

/-- `READ_LOCK`: `58 00 00 00` (R257). -/
def execReadLock (s : State) : Out := sendFrame ⟨0x58#8, 0x00#8, 0x00#8, 0x00#8⟩ s

/-- `WRITE_FUSE_LO`: `AC A0 00 val` (R258). -/
def execWriteFuseLo (val : Byte) (s : State) : Out := sendFrame ⟨0xAC#8, 0xA0#8, 0x00#8, val⟩ s

/-- `WRITE_FUSE_HI`: `AC A8 00 val` (R259). -/
def execWriteFuseHi (val : Byte) (s : State) : Out := sendFrame ⟨0xAC#8, 0xA8#8, 0x00#8, val⟩ s

/-- `WRITE_FUSE_EXT`: `AC A4 00 val` (R260). -/
def execWriteFuseExt (val : Byte) (s : State) : Out := sendFrame ⟨0xAC#8, 0xA4#8, 0x00#8, val⟩ s

/-- `WRITE_LOCK`: `AC E0 00 val` (R261). -/
def execWriteLock (val : Byte) (s : State) : Out := sendFrame ⟨0xAC#8, 0xE0#8, 0x00#8, val⟩ s

/-- `READ_EEPROM`: `A0 hi lo 00` (R262). -/
def execReadEeprom (hi lo : Byte) (s : State) : Out := sendFrame ⟨0xA0#8, hi, lo, 0x00#8⟩ s

/-- `WRITE_EEPROM`: `C0 hi lo val` (R263). -/
def execWriteEeprom (hi lo val : Byte) (s : State) : Out := sendFrame ⟨0xC0#8, hi, lo, val⟩ s

/-- `LOAD_EEPROM_PAGE`: `C1 00 i val` (R264). -/
def execLoadEepromPage (i val : Byte) (s : State) : Out := sendFrame ⟨0xC1#8, 0x00#8, i, val⟩ s

/-- `WRITE_EEPROM_PAGE`: `C2 hi lo 00` (R265). -/
def execWriteEepromPage (hi lo : Byte) (s : State) : Out := sendFrame ⟨0xC2#8, hi, lo, 0x00#8⟩ s

/-- `READ_FLASH_LO`: `20 hi lo 00` (R266). -/
def execReadFlashLo (hi lo : Byte) (s : State) : Out := sendFrame ⟨0x20#8, hi, lo, 0x00#8⟩ s

/-- `READ_FLASH_HI`: `28 hi lo 00` (R267). -/
def execReadFlashHi (hi lo : Byte) (s : State) : Out := sendFrame ⟨0x28#8, hi, lo, 0x00#8⟩ s

/-- `LOAD_FLASH_LO`: `40 00 i val` (R268). -/
def execLoadFlashLo (i val : Byte) (s : State) : Out := sendFrame ⟨0x40#8, 0x00#8, i, val⟩ s

/-- `LOAD_FLASH_HI`: `48 00 i val` (R269). -/
def execLoadFlashHi (i val : Byte) (s : State) : Out := sendFrame ⟨0x48#8, 0x00#8, i, val⟩ s

/-- `WRITE_FLASH_PAGE`: `4C hi lo 00` (R270). -/
def execWriteFlashPage (hi lo : Byte) (s : State) : Out := sendFrame ⟨0x4C#8, hi, lo, 0x00#8⟩ s

/-- `LOAD_EXT_ADDR`: `4D 00 val 00` (R271). -/
def execLoadExtAddr (val : Byte) (s : State) : Out := sendFrame ⟨0x4D#8, 0x00#8, val, 0x00#8⟩ s

end Sys2Proof.Machine
end

