-- ==== Sys2Proof/Machine/MemoryProgrammer.lean ====
section
/-! DEFINITION. The meanings of the MemoryProgrammer host operations (spec/42_memory_programmer.md). An operand outside its
encoding is refused with `BadOp` before any state is read (R94, R283). -/

namespace Sys2Proof.Machine

/-- `RD_BYTE FLASH, a` (R151). -/
def execRdByteFlash (a : Addr) (s : State) : Out := (rdByte .flash a s).finish fun b => [b]

/-- `RD_BYTE EEPROM, a` (R152). -/
def execRdByteEeprom (a : Addr) (s : State) : Out := (rdByte .eeprom a s).finish fun b => [b]

/-- `WR_EEBYTE a, v, verify` (R153). -/
def execWrEebyte (a : Addr) (v : Byte) (verify : Bool) (s : State) : Out :=
  match startEeByte a v s with
  | .ok _ s => pollThen (.eeByte a v verify) (eeByteDone a v verify) s
  | .err e s => raise e [] s
  | .fault f => .fault f

/-- `WR_PAGE region, a, verify, buf` (R154, R155). -/
def writePage (region : Region) (a : Addr) (verify : Bool) (buf : List Byte) (s : State) : Out :=
  if buf.length = pageSize region then
    match startPage region a buf s with
    | .ok base s => pollThen (.page region base buf verify) (pageDone region base buf verify) s
    | .err e s => raise e [] s
    | .fault f => .fault f
  else refuseBadOp s

/-- `WR_PAGE FLASH, a, verify, buf[0..127]` (R154). -/
def execWrPageFlash (a : Addr) (verify : Bool) (buf : List Byte) (s : State) : Out := writePage .flash a verify buf s

/-- `WR_PAGE EEPROM, a, verify, buf[0..3]` (R155). -/
def execWrPageEeprom (a : Addr) (verify : Bool) (buf : List Byte) (s : State) : Out := writePage .eeprom a verify buf s

/-- `ERASE` (R157). -/
def execErase (s : State) : Out :=
  match startErase s with
  | .ok _ s => pollThen .plain (finishOk []) s
  | .err e s => raise e [] s
  | .fault f => .fault f

/-- `RD_FUSE k` (R158). -/
def execRdFuse (k : FuseKind) (s : State) : Out := (readReply (readFuseFrame k) s).finish fun b => [b]

/-- `WR_FUSE k, v` (R159). -/
def execWrFuse (k : FuseKind) (v : Byte) (s : State) : Out :=
  match startFuse k v s with
  | .ok _ s => pollThen .plain (finishOk []) s
  | .err e s => raise e [] s
  | .fault f => .fault f

/-- `RD_SIG i` (R160). -/
def execRdSig (i : Byte) (s : State) : Out :=
  if i.toNat < 3 then (readReply (readSigFrame i) s).finish fun b => [b] else refuseBadOp s

/-- `SET_EXT v` (R161). -/
def execSetExt (v : Byte) (s : State) : Out := (setExt v s).finish fun _ => []

end Sys2Proof.Machine
end

