-- ==== Sys2Proof/Machine/HexCodec.lean ====
section
/-! DEFINITION. The HEX record decoder, the checksum and the encoder, and the meanings of the HexCodec host operations
(spec/43_hex_codec.md). A character is one byte of the text (R182, D49). -/

namespace Sys2Proof.Machine

/-! ### Characters (R181, R182) -/

/-- `CR` or `LF` (R181). -/
def isLineEnd (c : Byte) : Bool := c == 0x0D#8 || c == 0x0A#8

/-- `Strip` (R181, D14): every `CR` and `LF` at the end is removed. -/
def strip (text : List Byte) : List Byte := (text.reverse.dropWhile isLineEnd).reverse

/-- `hexval` (R182): the value of one of the 22 hex digits. -/
def hexVal (c : Byte) : Option Nat :=
  let n := c.toNat
  if 0x30 ≤ n ∧ n ≤ 0x39 then some (n - 0x30)
  else if 0x41 ≤ n ∧ n ≤ 0x46 then some (n - 0x41 + 10)
  else if 0x61 ≤ n ∧ n ≤ 0x66 then some (n - 0x61 + 10)
  else none

/-- The byte two hex digits spell, high nibble first (R89, R182). -/
def hexPair (c d : Byte) : Option Byte :=
  match hexVal c, hexVal d with
  | some h, some l => some (BitVec.ofNat 8 (16 * h + l))
  | _, _ => none

/-- `hexbyte(L, p)` (R182): a position past the end is no hex digit (D16). -/
def hexByte (line : List Byte) (p : Nat) : Option Byte :=
  match line.drop p with
  | c :: d :: _ => hexPair c d
  | _ => none

/-- The `n` data bytes from position `p` on (R183, R190). -/
def hexData (line : List Byte) : Nat → Nat → Option (List Byte)
  | _, 0 => some []
  | p, n + 1 =>
    match hexByte line p, hexData line (p + 2) n with
    | some b, some bs => some (b :: bs)
    | _, _ => none

/-! ### Checksum (R197) -/

/-- The sum of the data bytes. -/
def byteSum (bytes : List Byte) : Nat := (bytes.map BitVec.toNat).sum

/-- `Cks(n, ah, al, t, d)` (R197): the exact sum, complemented and narrowed at the end. -/
def checksum (n ah al t : Byte) (d : List Byte) : Byte :=
  BitVec.ofNat 8 ((256 - (n.toNat + ah.toNat + al.toNat + t.toNat + byteSum d) % 256) % 256)

/-! ### Decoder (R180 to R193) -/

/-- The eighth check (R191): the checksum byte; then the record (R192). -/
def decodeChecksum (line : List Byte) (n ah al t : Byte) (d : List Byte) : Except Err HexRecord :=
  if hexByte line (9 + 2 * n.toNat) = some (checksum n ah al t d) then .ok ⟨n, addrOf ah al, t, d⟩
  else .error .wrongChecksum

/-- The checks 4 to 8 (R187 to R191), after the count byte. -/
def decodeFields (line : List Byte) (n : Byte) : Except Err HexRecord :=
  match hexByte line 3 with
  | none => .error .wrongAddressHigh
  | some ah =>
    match hexByte line 5 with
    | none => .error .wrongAddressLow
    | some al =>
      match hexByte line 7 with
      | none => .error .wrongType
      | some t =>
        if 5 < t.toNat then .error .wrongType
        else
          match hexData line 9 n.toNat with
          | none => .error .wrongData
          | some d => decodeChecksum line n ah al t d

/-- The checks of a stripped line in their order (R184 to R191). -/
def decodeStripped (line : List Byte) : Except Err HexRecord :=
  if line.length < 11 then .error .tooShort
  else if line.head? ≠ some 0x3A#8 then .error .wrongStart
  else
    match hexByte line 1 with
    | none => .error .wrongLength
    | some n => if Config.lineCap < n.toNat then .error .wrongLength else decodeFields line n

/-- `decodeLine(text)` (R180, R183): one record or one parse error. -/
def decodeLine (text : List Byte) : Except Err HexRecord := decodeStripped (strip text)

/-! ### Encoder (R194, R195) -/

/-- The uppercase hex digit of a value below 16 (R194). -/
def hexDigit (n : Nat) : Byte := if n < 10 then BitVec.ofNat 8 (0x30 + n) else BitVec.ofNat 8 (0x41 + (n - 10))

/-- `hex2(v)` (R194): two uppercase hex digits, high nibble first. -/
def hex2 (v : Byte) : List Byte := [hexDigit (v.toNat / 16), hexDigit (v.toNat % 16)]

/-- A record line without terminator (R88, R194, R195, D51). -/
def encodeRecord (n : Byte) (a : Addr) (t : Byte) (bytes : List Byte) : List Byte :=
  0x3A#8 :: (hex2 n ++ hex2 (hiByte a) ++ hex2 (loByte a) ++ hex2 t ++ bytes.flatMap hex2 ++
    hex2 (checksum n (hiByte a) (loByte a) t bytes))

/-- `encodeDataRecord(address, bytes)` (R194). -/
def encodeDataRecord (a : Addr) (bytes : List Byte) : List Byte :=
  encodeRecord (BitVec.ofNat 8 bytes.length) a 0x00#8 bytes

/-- `encodeEndRecord()` (R195). -/
def encodeEndRecord : List Byte := encodeRecord 0x00#8 0x0000#16 0x01#8 []

/-! ### Host operations -/

/-- A record as result bytes (R93): count, address, type, data. -/
def recordBytes (r : HexRecord) : List Byte := [r.count, hiByte r.addr, loByte r.addr, r.type] ++ r.data

/-- A text as result bytes (R92): its length, then its characters. -/
def textBytes (t : List Byte) : List Byte := BitVec.ofNat 8 t.length :: t

/-- `HEX_DECODE` inside an operation (R183): `REC` is written on success only. -/
def decodeRecord (text : List Byte) (s : State) : Res HexRecord :=
  match decodeLine text with
  | .ok r => .ok r { s with record := .written r }
  | .error e => .err e s

/-- `HEX_DECODE text` (R183). -/
def execHexDecode (text : List Byte) (s : State) : Out :=
  if text.length < 256 then (decodeRecord text s).finish recordBytes else refuseBadOp s

/-- `HEX_ENC_DATA a, n, bytes` (R194, D50). -/
def execHexEncData (a : Addr) (bytes : List Byte) (s : State) : Out :=
  if bytes.length < 256 then
    if Config.lineCap < bytes.length then raise .wrongLength [] s
    else finishOk (textBytes (encodeDataRecord a bytes)) s
  else refuseBadOp s

/-- `HEX_ENC_END` (R195). -/
def execHexEncEnd (s : State) : Out := finishOk (textBytes encodeEndRecord) s

end Sys2Proof.Machine
end

