-- ==== Sys2Proof/Machine/WriteController.lean ====
section
/-! DEFINITION. The write controller: the page buffer steps and the meanings of `PROG_BEGIN`, `PROG_LINE`, `PROG_FINISH` and
`STATUS` (spec/44_write_controller.md), and how an operation waiting in its poll loop goes on (R135, R42). -/

namespace Sys2Proof.Machine

/-! ### The page buffer (R216 to R219) -/

/-- `OpenPage(b)` (R216). -/
def openPage (b : Addr) (s : State) : State :=
  { s with session := { s.session with
      page := .opened b (List.replicate Config.flashPage Config.erasedVal) } }

/-- `Merge(a, v)` (R217) into the open page; R219 merges into no other. -/
def mergeByte (a : Addr) (v : Byte) (s : State) : State :=
  match s.session.page with
  | .opened base pb => { s with session := { s.session with page := .opened base (pb.set (a - base).toNat v) } }
  | .closed _ _ => s

/-- The rest of `Flush` after its poll (R218, R154): the readback; a mismatch aborts the pass. -/
def flushDone (base : Addr) (pb : List Byte) (inLine : Bool) (next : State → Out) (s : State) : Out :=
  (verifyPage .flash base pb s).orAbort inLine fun _ s => next s

/-- `Flush()` (R218), then `next`: nothing if no page is open; otherwise the page is closed and written with verify. `k` is
what stays pending while the target is busy. -/
def flushThen (k : Addr → List Byte → Pending) (inLine : Bool) (next : State → Out) (s : State) : Out :=
  match s.session.page with
  | .opened b pb =>
    (startPage .flash b pb { s with session := { s.session with page := s.session.page.close } }).orAbort inLine fun base s =>
      pollThen (k base pb) (flushDone base pb inLine next) s
  | .closed _ _ => next s

/-- The bytes of a data record from address `a` on (R219): each is merged into the open page; one that lies in another page
flushes the open page and opens its own (D20). -/
def mergeBytes : Addr → List Byte → State → Out
  | _, [], s => finishOk [] s
  | a, v :: vs, s =>
    if s.session.page.isAt (pageBase .flash a) then mergeBytes (a + 1) vs (mergeByte a v s)
    else
      flushThen (fun b pb => .lineFlush b pb a (v :: vs)) true
        (fun s => mergeBytes (a + 1) vs (mergeByte a v (openPage (pageBase .flash a) s))) s

/-- What follows the flush of a data record (R219): the page of `a` is opened and the bytes are merged. -/
def openAndMerge (a : Addr) (data : List Byte) (s : State) : Out :=
  mergeBytes a data (openPage (pageBase .flash a) s)

/-- `FlashData(rec)` (R219). -/
def flashData (r : HexRecord) (s : State) : Out :=
  if s.session.page.isAt (pageBase .flash r.addr) then
    mergeBytes r.addr r.data s
  else
    flushThen (fun b pb => .lineFlush b pb r.addr r.data) true (openAndMerge r.addr r.data) s

/-! ### Records (R214, R220 to R225) -/

/-- `RangeCheck(rec, C)` (R220): the record lies in the region; integer arithmetic, no wrap. -/
def recordFits (r : HexRecord) (region : Region) : Bool :=
  decide (r.addr.toNat < capacity region) && decide (r.addr.toNat + r.count.toNat ≤ capacity region)

/-- `EndOfFile()` (R222), and the end of `PROG_FINISH` (R226): the open page is flushed and the session completed. -/
def endSession (inLine : Bool) (s : State) : Out :=
  flushThen (fun b pb => .endFlush b pb inLine) inLine complete s

/-- `ExtAddress(rec)` (R221): the low data byte is forwarded at once. -/
def extAddress (r : HexRecord) (s : State) : Out :=
  if r.count = 2#8 then (setExt ((r.data.tail).headD 0#8) s).orAbort true fun _ s => finishOk [] s
  else abort .unexpectedType true s

/-- `EepromExtAddress(rec)` (R224): by `EE_EXT_POLICY`. -/
def eepromExtAddress (r : HexRecord) (s : State) : Out :=
  match s.params.eeExtPolicy with
  | .forward => extAddress r s
  | .ignore => finishOk [] s

/-- The bytes of an EEPROM data record from address `a` on (R223): each is written and verified. -/
def eepromBytes : Addr → List Byte → State → Out
  | _, [], s => finishOk [] s
  | a, v :: vs, s =>
    (startEeByte a v s).orAbort true fun _ s =>
      pollThen (.lineEeByte a v vs)
        (fun s => (verifyEeByte a v s).orAbort true fun _ s => eepromBytes (a + 1) vs s) s

/-- `FlashRecord(rec)` (R214, R225). -/
def flashRecord (r : HexRecord) (s : State) : Out :=
  if r.type = 0x00#8 then
    if recordFits r .flash then flashData r s else abort .addressRangeError true s
  else if r.type = 0x01#8 then endSession true s
  else if r.type = 0x04#8 then extAddress r s
  else abort .unexpectedType true s

/-- `EepromRecord(rec)` (R223, R225). -/
def eepromRecord (r : HexRecord) (s : State) : Out :=
  if r.type = 0x00#8 then
    if recordFits r .eeprom then eepromBytes r.addr r.data s else abort .addressRangeError true s
  else if r.type = 0x01#8 then endSession true s
  else if r.type = 0x04#8 then eepromExtAddress r s
  else abort .unexpectedType true s

/-! ### Host operations -/

/-- The session fields at the start of a pass (R210, R211). -/
def beginSession (region : Region) (s : State) : State :=
  { s with session := { s.session with
      sstate := .active, region := region, erased := false, page := s.session.page.close, lineNo := 0#16 } }

/-- `SignatureGate()` (R212): the three signature bytes are read into `SIG` and must be known. -/
def signatureGate (s : State) : Res Unit :=
  (readReply (readSigFrame 0#8) s).bind fun s0 s =>
    (readReply (readSigFrame 1#8) s).bind fun s1 s =>
      (readReply (readSigFrame 2#8) s).bind fun s2 s =>
        let s := { s with sig := .written ⟨s0, s1, s2⟩ }
        if s.params.knownSignatures.contains ⟨s0, s1, s2⟩ then .ok () s else .err .signatureError s

/-- The start both passes share (R210, R211): synchronisation, then the signature (D44). -/
def openSession (region : Region) (s : State) : Res Unit :=
  (pgmEnter (beginSession region s)).bind fun _ s => signatureGate s

/-- The end of `PROG_BEGIN FLASH` after its chip erase (R210): `ERASED` is set. -/
def beginDone (s : State) : Out :=
  finishOk [] { s with session := { s.session with erased := true } }

/-- `PROG_BEGIN FLASH` (R210). -/
def execProgBeginFlash (s : State) : Out :=
  if s.session.sstate = .active then raise .sessionActive [] s
  else
    (openSession .flash s).orAbort false fun _ s =>
      (startErase s).orAbort false fun _ s => pollThen .beginErase beginDone s

/-- `PROG_BEGIN EEPROM` (R211). -/
def execProgBeginEeprom (s : State) : Out :=
  if s.session.sstate = .active then raise .sessionActive [] s
  else (openSession .eeprom s).orAbort false fun _ s => finishOk [] s

/-- `PROG_LINE text` (R213). -/
def execProgLine (text : List Byte) (s : State) : Out :=
  if text.length < 256 then
    if s.session.sstate = .active then
      let s := { s with session := { s.session with lineNo := s.session.lineNo + 1 } }
      (decodeRecord text s).orAbort true fun r s =>
        match s.session.region with
        | .flash => flashRecord r s
        | .eeprom => eepromRecord r s
    else raise .noSession [] s
  else refuseBadOp s

/-- `PROG_FINISH` (R226). -/
def execProgFinish (s : State) : Out :=
  if s.session.sstate = .active then endSession false s else raise .noSession [] s

/-- `STATUS` (R232): the word as the operation before left it; then `LAST_ERROR` is 0. -/
def execStatus (s : State) : Out := finishOk (wordBytes (statusWord s)) s

end Sys2Proof.Machine
end

