-- ==== Sys2Proof/Machine/Dispatch.lean ====
section
/-! DEFINITION. The dispatch: one arm per row of spec/opcode_table.json. -/

namespace Sys2Proof.Machine

def exec (i : Instr) (s : State) : Host.Outcome State Fault Refusal :=
  match i with
  -- the ISP frames (45_isp_frames)
  | .progEnable => Sys2Proof.Machine.execProgEnable s
  | .chipErase => Sys2Proof.Machine.execChipErase s
  | .pollRdy => Sys2Proof.Machine.execPollRdy s
  | .readSig i' => Sys2Proof.Machine.execReadSig i' s
  | .readFuseLo => Sys2Proof.Machine.execReadFuseLo s
  | .readFuseHi => Sys2Proof.Machine.execReadFuseHi s
  | .readFuseExt => Sys2Proof.Machine.execReadFuseExt s
  | .readLock => Sys2Proof.Machine.execReadLock s
  | .writeFuseLo val => Sys2Proof.Machine.execWriteFuseLo val s
  | .writeFuseHi val => Sys2Proof.Machine.execWriteFuseHi val s
  | .writeFuseExt val => Sys2Proof.Machine.execWriteFuseExt val s
  | .writeLock val => Sys2Proof.Machine.execWriteLock val s
  | .readEeprom hi lo => Sys2Proof.Machine.execReadEeprom hi lo s
  | .writeEeprom hi lo val => Sys2Proof.Machine.execWriteEeprom hi lo val s
  | .loadEepromPage i' val => Sys2Proof.Machine.execLoadEepromPage i' val s
  | .writeEepromPage hi lo => Sys2Proof.Machine.execWriteEepromPage hi lo s
  | .readFlashLo hi lo => Sys2Proof.Machine.execReadFlashLo hi lo s
  | .readFlashHi hi lo => Sys2Proof.Machine.execReadFlashHi hi lo s
  | .loadFlashLo i' val => Sys2Proof.Machine.execLoadFlashLo i' val s
  | .loadFlashHi i' val => Sys2Proof.Machine.execLoadFlashHi i' val s
  | .writeFlashPage hi lo => Sys2Proof.Machine.execWriteFlashPage hi lo s
  | .loadExtAddr val => Sys2Proof.Machine.execLoadExtAddr val s
  -- BitLink (40_bitlink)
  | .xfer tx => Sys2Proof.Machine.execXfer tx s
  | .rstAssert => Sys2Proof.Machine.execRstAssert s
  | .rstRelease => Sys2Proof.Machine.execRstRelease s
  | .rstPulse => Sys2Proof.Machine.execRstPulse s
  | .linkRelease => Sys2Proof.Machine.execLinkRelease s
  -- ISPProtocol (41_isp_protocol)
  | .pgmEnter => Sys2Proof.Machine.execPgmEnter s
  | .cmd b0 b1 b2 b3 => Sys2Proof.Machine.execCmd b0 b1 b2 b3 s
  | .pollReady => Sys2Proof.Machine.execPollReady s
  -- MemoryProgrammer (42_memory_programmer)
  | .rdByteFlash addr => Sys2Proof.Machine.execRdByteFlash addr s
  | .rdByteEeprom addr => Sys2Proof.Machine.execRdByteEeprom addr s
  | .wrEebyte addr val verify => Sys2Proof.Machine.execWrEebyte addr val verify s
  | .wrPageFlash addr verify buf => Sys2Proof.Machine.execWrPageFlash addr verify buf s
  | .wrPageEeprom addr verify buf => Sys2Proof.Machine.execWrPageEeprom addr verify buf s
  | .erase => Sys2Proof.Machine.execErase s
  | .rdFuse kind => Sys2Proof.Machine.execRdFuse kind s
  | .wrFuse kind val => Sys2Proof.Machine.execWrFuse kind val s
  | .rdSig i' => Sys2Proof.Machine.execRdSig i' s
  | .setExt val => Sys2Proof.Machine.execSetExt val s
  -- HexCodec (43_hex_codec)
  | .hexDecode text => Sys2Proof.Machine.execHexDecode text s
  | .hexEncData addr bytes => Sys2Proof.Machine.execHexEncData addr bytes s
  | .hexEncEnd => Sys2Proof.Machine.execHexEncEnd s
  -- write controller (44_write_controller)
  | .progBeginFlash => Sys2Proof.Machine.execProgBeginFlash s
  | .progBeginEeprom => Sys2Proof.Machine.execProgBeginEeprom s
  | .progLine text => Sys2Proof.Machine.execProgLine text s
  | .progFinish => Sys2Proof.Machine.execProgFinish s
  | .status => Sys2Proof.Machine.execStatus s

end Sys2Proof.Machine
end

