-- ==== Sys2Proof/Machine/Resume.lean ====
section
/-! DEFINITION. How a host operation that waits in its ready-poll loop goes on: one more poll a step (spec/41_isp_protocol.md
R135, spec/60_exceptions.md R289, spec/10_state.md R42; log 6). -/

namespace Sys2Proof.Machine

/-- What is left of a waiting operation once a poll reads not busy. -/
def afterPoll : Pending → State → Out
  | .plain, s => finishOk [] s
  | .eeByte a v verify, s => eeByteDone a v verify s
  | .page region base buf verify, s => pageDone region base buf verify s
  | .beginErase, s => beginDone s
  | .lineFlush base pb a data, s => flushDone base pb true (openAndMerge a data) s
  | .endFlush base pb inLine, s => flushDone base pb inLine complete s
  | .lineEeByte a v vs, s => (verifyEeByte a v s).orAbort true fun _ s => eepromBytes (a + 1) vs s

/-- The next turn of the poll loop of a waiting operation (R135). -/
def resume (k : Pending) (s : State) : Out := pollThen k (afterPoll k) s

end Sys2Proof.Machine
end

