-- ==== Sys2Proof/Machine/Fetch.lean ====
section
/-! DEFINITION. What the sequencer does next (spec/00_scope.md R13, spec/10_state.md R42): the block fetches no instructions;
it takes the host operations the host has issued, one at a time (log 1, log 13). -/

namespace Sys2Proof.Machine

/-- The next thing the sequencer does. -/
inductive Work where
  /-- A host operation waits in its poll loop (R135). -/
  | wait (k : Pending)
  /-- The host has issued nothing (R310: "the sequencer is then idle awaiting the first host operation"). -/
  | idle
  /-- A host operation, with the messages after it. -/
  | run (i : Instr) (rest : List (List Byte))
  /-- An illegal message (R94), with the messages after it. -/
  | refuse (rest : List (List Byte))
  deriving DecidableEq, Repr

/-- The work at hand: the waiting operation first (R13: an operation is blocking), then the first message. -/
def nextWork (s : State) : Work :=
  match s.pending with
  | some k => .wait k
  | none =>
    match s.inbox with
    | [] => .idle
    | msg :: rest =>
      match decode msg with
      | .ok i => .run i rest
      | .error _ => .refuse rest

/-- The host operation of `msg` comes before every other, and nothing waits. -/
def issueFirst (msg : List Byte) (s : State) : State := { s with inbox := msg :: s.inbox, pending := none }

/-- The host issues an operation after those already issued (R20). -/
def issue (msg : List Byte) (s : State) : State := { s with inbox := s.inbox ++ [msg] }

end Sys2Proof.Machine
end

