-- ==== Sys2Proof/Machine/Step.lean ====
section
/-! DEFINITION. One step of the block: a waiting host operation polls again, else the next host operation the host has issued
is decoded and run, else the sequencer stays idle (spec/10_state.md R42, spec/00_scope.md R13, spec/30_encoding.md R94). -/

namespace Sys2Proof.Machine

/-- One step (R13, R42). A message that does not decode is refused with `BadOp` (R94). -/
def step (s : State) : Host.Outcome State Fault Refusal :=
  match nextWork s with
  | .wait k => resume k s
  | .idle => .next s
  | .run i rest => exec i { s with inbox := rest }
  | .refuse rest => refuseBadOp { s with inbox := rest }

/-- `s` with the instruction of a table word as the host operation the very next step runs: nothing waits, and its message
stands first in the host's queue (log 13). -/
def State.withFetchWord (s : State) (nbits w : Nat) : State := issueFirst (layoutTableWord nbits w) s

end Sys2Proof.Machine
end

