-- ==== Sys2Proof/Machine/Pseudo.lean ====
section
/-! DEFINITION. The pseudo-instructions of spec/30_encoding.md R96: abbreviations the host expands into host operations; a failing
operation ends the expansion. No row of the opcode table is one of them. -/

namespace Sys2Proof.Machine

/-- A pseudo-instruction (R96). -/
inductive Pseudo where
  /-- `FRAME b0, b1, b2, b3`. -/
  | frame (b0 b1 b2 b3 : Byte)
  /-- `CMD b0, b1, b2` with the default fourth byte (R95). -/
  | cmd3 (b0 b1 b2 : Byte)
  /-- `RESYNC`. -/
  | resync
  /-- `FUSE_COMMIT k, v`. -/
  | fuseCommit (kind : FuseKind) (val : Byte)
  /-- `PROGRAM r, l1, ..., ln`. -/
  | program (region : Region) (lines : List (List Byte))
  deriving DecidableEq, Repr

/-- `PROG_BEGIN r`. -/
def progBegin : Region → Instr
  | .flash => .progBeginFlash
  | .eeprom => .progBeginEeprom

/-- The expansion of a pseudo-instruction (R96). -/
def Pseudo.expand : Pseudo → List Instr
  | .frame b0 b1 b2 b3 => [.cmd b0 b1 b2 b3]
  | .cmd3 b0 b1 b2 => [.cmd b0 b1 b2 0x00#8]
  | .resync => [.rstPulse, .pgmEnter]
  | .fuseCommit k v => [.wrFuse k v, .rstPulse, .pgmEnter]
  | .program r lines => progBegin r :: lines.map .progLine ++ [.progFinish]

/-- After one step of an expansion: a failed operation ends it (R96), otherwise it goes on with `next`. -/
def expansionStep (next : State → Out) (o : Out) : Out :=
  match o with
  | .next t => if t.pending = none ∧ t.lastError ≠ okCode then .next t else next t
  | .fault f => .fault f
  | .refused r => .refused r

/-- At most `fuel` steps of an expansion: a waiting operation polls again, a finished one lets the next begin (R96). -/
def runExpansion : Nat → List Instr → State → Out
  | 0, _, s => .next s
  | fuel + 1, is, s =>
    match s.pending with
    | some k => expansionStep (runExpansion fuel is) (resume k s)
    | none =>
      match is with
      | [] => .next s
      | i :: rest => expansionStep (runExpansion fuel rest) (exec i s)

end Sys2Proof.Machine
end

