-- ==== Sys2Proof/Safety.lean ====
section
/-! DEFINITION. The terms claims use: the clean states of R313 and R322, the invariants of the machine, the events of a byte
exchange, and scripted replies of the environment. -/

namespace Sys2Proof.Machine

/-! ### Clean states (R313, R322) -/

/-- The clean-entry premise (R313): no write cycle pending, no fuse change pending, no session active. -/
def Clean (s : State) : Prop :=
  s.wpend = false ∧ s.fuseDirty = false ∧ s.session.sstate ≠ .active

/-- A run is clean at its end (R322). -/
def CleanEnd (s : State) : Prop := s.wpend = false ∧ s.session.sstate ≠ .active

/-! ### Runs -/

/-- `n` steps, ending at the first fault or refusal. -/
def run : Nat → State → Out
  | 0, s => .next s
  | n + 1, s =>
    match step s with
    | .next t => run n t
    | .fault f => .fault f
    | .refused r => .refused r

/-! ### Invariants -/

/-- A flash session whose chip erase is done (R231). -/
def FlashPass (s : State) : Prop :=
  s.session.sstate = .active ∧ s.session.region = .flash ∧ s.session.erased = true

/-- `n` bytes from `a` on lie in flash (R220). -/
def FitsFlash (a : Addr) (n : Nat) : Prop :=
  a.toNat < Config.flashSize ∧ a.toNat + n ≤ Config.flashSize

/-- A page that is open or being written (R38, R39, R218): its base is a page base inside flash, its buffer one page. -/
def PageArgs (base : Addr) (pb : List Byte) : Prop :=
  base.toNat % Config.flashPage = 0 ∧ base.toNat < Config.flashSize ∧ pb.length = Config.flashPage

/-- What a waiting operation may be, by the session it is part of (R210, R219, R222, R226): the page it writes is no longer open
(R218). -/
def PendingInv (s : State) : Pending → Prop
  | .plain => True
  | .eeByte _ _ _ => True
  | .page _ _ _ _ => True
  | .beginErase => s.session.sstate = .active ∧ s.session.region = .flash ∧ s.session.pageOpen = false
  | .lineFlush base pb a rest => FlashPass s ∧ s.session.pageOpen = false ∧ PageArgs base pb ∧ FitsFlash a rest.length
  | .endFlush base pb _ => FlashPass s ∧ s.session.pageOpen = false ∧ PageArgs base pb
  | .lineEeByte _ _ _ => s.session.sstate = .active ∧ s.session.region = .eeprom

/-- An open page is a page of flash (R38, R39). -/
def PageReady (s : State) : Prop :=
  ∃ base pb, s.session.page = .opened base pb ∧ PageArgs base pb

/-- The session invariant: a page is open only in a flash pass after its chip erase, and is a page of flash (R38, R229, R231); in an
active flash session the erase is done unless it is what is waited for; between operations `Syncing` is never seen (R134). -/
def SessionInv (s : State) : Prop :=
  (s.session.pageOpen = true → FlashPass s ∧ PageReady s) ∧
  (s.session.sstate = .active → s.session.region = .flash → s.pending ≠ some .beginErase → s.session.erased = true) ∧
  (∀ k, s.pending = some k → PendingInv s k) ∧
  s.pstate ≠ .syncing

/-- The ranges of the counters and codes (R24, R29, R40, R281). -/
def RangeInv (s : State) : Prop :=
  s.link.bitcnt ≤ 8 ∧ s.attempt ≤ Config.syncAttempts ∧ s.lastError.toNat ≤ 17 ∧ s.lastError ≠ 13#8

/-- The last decoded record (R27, R183): at most 16 bytes, of a type the codec knows, and as many bytes as its count. -/
def RecordInv (s : State) : Prop :=
  ∀ r, s.record = .written r → r.data.length = r.count.toNat ∧ r.count.toNat ≤ Config.lineCap ∧ r.type.toNat ≤ 5

/-- The target's memories are canonical and hold no address outside their space (R51, R53, R67). -/
def MemInv (s : State) : Prop :=
  Memory.wfIn Config.flashSize s.link.env.target.flash ∧ Memory.wfIn Config.eeSize s.link.env.target.eeprom

/-- The invariant of the machine: every step keeps it. -/
def MachineInv (s : State) : Prop := SessionInv s ∧ RangeInv s ∧ RecordInv s ∧ MemInv s

/-! ### Events -/

/-- The bits of a byte, most significant first (R57). -/
def byteBits (b : Byte) : List Bool :=
  [b.getLsbD 7, b.getLsbD 6, b.getLsbD 5, b.getLsbD 4, b.getLsbD 3, b.getLsbD 2, b.getLsbD 1, b.getLsbD 0]

/-- The six events of one bit of `Xfer` (R111), oldest first. -/
def bitEvents (tx rx : Bool) : List Event :=
  [.drive .mosi (bitLevel tx), .drive .sck .high, .wait .tBit, .sample rx, .drive .sck .low, .wait .tBit]

/-- The 48 events of an exchange that sends `tx` and receives `rx` (R111), oldest first. -/
def xferEvents (tx rx : Byte) : List Event :=
  ((byteBits tx).zip (byteBits rx)).flatMap fun p => bitEvents p.1 p.2

/-- The 192 events of a frame (R130), oldest first. -/
def frameEvents (tx rx : IspFrame) : List Event :=
  xferEvents tx.b0 rx.b0 ++ xferEvents tx.b1 rx.b1 ++ xferEvents tx.b2 rx.b2 ++ xferEvents tx.b3 rx.b3

/-- The chronological event trace (R12). -/
def trace (s : State) : List Event := s.link.log.reverse

/-- The events of one programming-enable attempt with the replies `r` (R132), oldest first. -/
def attemptEvents (r : IspFrame) : List Event :=
  [.drive .sck .low, .drive .mosi .low, .drive .rst .low, .wait .tSettle] ++ frameEvents progEnableFrame r

/-- The events of a reset pulse (R116), oldest first. -/
def pulseEvents : List Event := [.drive .rst .low, .wait .tRstPulse, .drive .rst .high]

/-! ### Frames as words (R80, R84) -/

/-- `F = {b0, b1, b2, b3}` (R80). -/
def frameWord (f : IspFrame) : Word := f.b0 ++ f.b1 ++ f.b2 ++ f.b3

/-- The mask byte of a pattern byte: every bit of a fixed byte, no bit of a field (R84). -/
def maskByte (p : Option Byte) : Byte := if p.isSome then 0xFF#8 else 0x00#8

/-- The `mask` column of a frame row (R84). -/
def maskWord (p : FramePattern) : Word := 0xFF#8 ++ maskByte p.p1 ++ maskByte p.p2 ++ maskByte p.p3

/-- The `match` column of a frame row (R84). -/
def matchWord (p : FramePattern) : Word := p.p0 ++ p.p1.getD 0#8 ++ p.p2.getD 0#8 ++ p.p3.getD 0#8

/-! ### HEX lines -/

/-- A hex digit in uppercase; every other character as it is (R196). -/
def upperDigit (c : Byte) : Byte := if 0x61 ≤ c.toNat ∧ c.toNat ≤ 0x66 then c - 0x20#8 else c

/-! ### The link after an exchange -/

/-- The link after `Xfer` has sent `tx` and received `rx` (R111): the shift registers, the pins and the trace, with the
environment as it is then. -/
def Link.afterXfer (tx rx : Byte) (env : Env) (l : Link) : Link :=
  { l with
    sck := .low
    mosi := bitLevel (tx.getLsbD 0)
    txsr := .written 0#8
    rxsr := .written rx
    bitcnt := 8
    log := (xferEvents tx rx).reverse ++ l.log
    env := env }

/-- The link after `Frame` has sent `f` and received `r` (R130). -/
def Link.afterFrame (f r : IspFrame) (env : Env) (l : Link) : Link :=
  { l with
    sck := .low
    mosi := bitLevel (f.b3.getLsbD 0)
    txsr := .written 0#8
    rxsr := .written r.b3
    bitcnt := 8
    frameTx := .written f
    frameRx := .written r
    log := (frameEvents f r).reverse ++ l.log
    env := env }

/-- A sequence of frames: the replies in their order, and the link after the last frame (R69: nothing stands between them). -/
def Link.exchange : List IspFrame → Link → List IspFrame × Link
  | [], l => ([], l)
  | f :: fs, l =>
    let r := l.frame f
    let rest := Link.exchange fs r.2
    (r.1 :: rest.1, rest.2)

/-- The replies to a sequence of frames sent from `s`. -/
def replies (fs : List IspFrame) (s : State) : List IspFrame := (s.link.exchange fs).1

/-- The last reply to a sequence of frames sent from `s`. -/
def lastReply (fs : List IspFrame) (s : State) : IspFrame := (replies fs s).getLastD ⟨0#8, 0#8, 0#8, 0#8⟩

/-- `s` after a sequence of frames. -/
def sent (fs : List IspFrame) (s : State) : State := { s with link := (s.link.exchange fs).2 }

/-- The load frames of a page from offset `j` on, ascending (R154, R155). -/
def loadFrames (region : Region) : Nat → List Byte → List IspFrame
  | _, [] => []
  | j, v :: buf => loadFrame region j v :: loadFrames region (j + 1) buf

/-- The read frames of `n` bytes of a region from offset `j` of `base` on, ascending (R156). -/
def readFrames (region : Region) (base : Addr) : Nat → Nat → List IspFrame
  | _, 0 => []
  | j, n + 1 => readFrame region (base + BitVec.ofNat 16 j) :: readFrames region base (j + 1) n

/-- The frames `WR_PAGE` sends up to its first poll (R154, R155): the loads, the page write, the ready poll. -/
def pageFrames (region : Region) (a : Addr) (buf : List Byte) : List IspFrame :=
  loadFrames region 0 buf ++ [pageFrame region (pageBase region a), pollFrame]

/-! ### Sessions -/

/-- The state an aborted session leaves, field by field (R227, R284): the open page discarded, the session Aborted, the link released,
`PSTATE` Idle, the error's code for the host, after a `PROG_LINE` with `LINE_NO`. -/
def State.abortedBy (e : Err) (inLine : Bool) (t : State) : State :=
  { t with
    link := t.link.release
    pstate := .idle
    session := { t.session with page := t.session.page.close, sstate := .aborted }
    lastError := e.code
    response := e.code ::
      if inLine then [BitVec.ofNat 8 (t.session.lineNo.toNat / 256), BitVec.ofNat 8 t.session.lineNo.toNat] else []
    pending := none }

/-- A page of `old` bytes with `data` copied in from offset `off` on (R217). -/
def mergedPage (old : List Byte) (off : Nat) (data : List Byte) : List Byte :=
  (List.range 128).map fun j => if off ≤ j ∧ j < off + data.length then data.getD (j - off) 0#8 else old.getD j 0#8

/-- The state after a data record: the page at `base` is open with the contents `pb`, and the operation has returned. -/
def State.pageFilled (base : Addr) (pb : List Byte) (t : State) : State :=
  { t with
    session := { t.session with page := .opened base pb }
    lastError := 0#8
    response := [0#8]
    pending := none }

/-- `o` is what a flush of the page `pb` at `base` answers from `t`, its state after the last poll (R218, R156): all 128 bytes read
back as written, and it goes on with `good`; or the byte at offset `j` is the first that does not, and the session aborts with
`VerifyError` after j + 1 read frames. -/
def FlushOutcome (base : Addr) (pb : List Byte) (inLine : Bool) (t : State) (o : Out) (good : State → Out) : Prop :=
  ((replies (readFrames .flash base 0 128) t).map (·.b3) = pb →
    o = good { t with link := (sent (readFrames .flash base 0 128) t).link, verifyOk := true }) ∧
  ∀ j, j < 128 → (replies (readFrames .flash base 0 j) t).map (·.b3) = pb.take j →
    (lastReply (readFrames .flash base 0 (j + 1)) t).b3 ≠ pb.getD j 0#8 →
    o = .next (State.abortedBy .verifyError inLine
      { t with link := (sent (readFrames .flash base 0 (j + 1)) t).link, verifyOk := false })

/-- The write and the ready poll of an EEPROM byte (R153). -/
def eeWriteFrames (a : Nat) (v : Byte) : List IspFrame :=
  [⟨0xC0#8, BitVec.ofNat 8 (a / 256), BitVec.ofNat 8 a, v⟩, ⟨0xF0#8, 0x00#8, 0x00#8, 0x00#8⟩]

/-- The frames of the first `k` bytes of `vs` from EEPROM address `a` on: write, ready poll and readback of each (R223, R153). -/
def eeFrames (a : Nat) (vs : List Byte) (k : Nat) : List IspFrame :=
  (List.range k).flatMap fun j =>
    eeWriteFrames (a + j) (vs.getD j 0#8) ++ [⟨0xA0#8, BitVec.ofNat 8 ((a + j) / 256), BitVec.ofNat 8 (a + j), 0x00#8⟩]

/-- The first `k` bytes of `vs`, sent from `u`, are each answered not busy at the first poll and read back as written. -/
def EeBytesTaken (a : Nat) (vs : List Byte) (k : Nat) (u : State) : Prop :=
  ∀ j, j < k → busyBit ((replies (eeFrames a vs k) u).getD (3 * j + 1) default) = false ∧
    ((replies (eeFrames a vs k) u).getD (3 * j + 2) default).b3 = vs.getD j 0#8

/-- `o` is what a data record's bytes `vs` from EEPROM address `a` on answer from `u` (R223): every byte is taken, and the line
completes; or byte `k` is the first whose first poll reads busy, and the line waits there with the bytes after it left to do; or
byte `k` is the first that reads back otherwise, and the session aborts with `VerifyError`. -/
def EeBytesOutcome (a : Nat) (vs : List Byte) (u : State) (o : Out) : Prop :=
  (EeBytesTaken a vs vs.length u →
    o = .next { u with
      link := (sent (eeFrames a vs vs.length) u).link
      busy := if vs.length = 0 then u.busy else false
      verifyOk := if vs.length = 0 then u.verifyOk else true
      lastError := 0#8, response := [0#8], pending := none }) ∧
  (∀ k, k < vs.length → EeBytesTaken a vs k u →
    busyBit (lastReply (eeFrames a vs k ++ eeWriteFrames (a + k) (vs.getD k 0#8)) u) = true →
    o = .next { u with
      link := (sent (eeFrames a vs k ++ eeWriteFrames (a + k) (vs.getD k 0#8)) u).link.wait .tPoll
      busy := true, wpend := true
      verifyOk := if k = 0 then u.verifyOk else true
      pending := some (.lineEeByte (BitVec.ofNat 16 (a + k)) (vs.getD k 0#8) (vs.drop (k + 1))) }) ∧
  (∀ k, k < vs.length → EeBytesTaken a vs k u →
    busyBit (lastReply (eeFrames a vs k ++ eeWriteFrames (a + k) (vs.getD k 0#8)) u) = false →
    (lastReply (eeFrames a vs (k + 1)) u).b3 ≠ vs.getD k 0#8 →
    o = .next (State.abortedBy .verifyError true
      { u with link := (sent (eeFrames a vs (k + 1)) u).link, busy := false, wpend := false, verifyOk := false }))

/-! ### Attempts and polls -/

/-- The link after `n` failed programming-enable attempts, a reset pulse after each (R132). -/
def Link.failed : Nat → Link → Link
  | 0, l => l
  | n + 1, l => ((Link.failed n l).attempt.frame progEnableFrame).2.resetPulse

/-- The replies to the programming-enable frame of attempt `n + 1`, after `n` failed attempts (R132). -/
def attemptReply (n : Nat) (s : State) : IspFrame := ((s.link.failed n).attempt.frame progEnableFrame).1

/-- The link after attempt `n + 1` (R132). -/
def Link.tried (n : Nat) (l : Link) : Link := ((l.failed n).attempt.frame progEnableFrame).2

/-- Attempt `n + 1` is in sync and no attempt before it (R132, R133). -/
def SyncsAt (n : Nat) (s : State) : Prop :=
  (attemptReply n s).b2 = 0x53#8 ∧ ∀ j, j < n → (attemptReply j s).b2 ≠ 0x53#8

/-- None of the five attempts is in sync (R132). -/
def NeverSyncs (s : State) : Prop := ∀ j, j < Config.syncAttempts → (attemptReply j s).b2 ≠ 0x53#8

/-- The link after `n` ready polls that read busy, `T_POLL` waited after each (R135). -/
def Link.polled : Nat → Link → Link
  | 0, l => l
  | n + 1, l => ((Link.polled n l).frame pollFrame).2.wait .tPoll

/-- The reply to ready poll `n + 1`, after `n` polls and their waits (R135). -/
def pollReply (n : Nat) (s : State) : IspFrame := ((s.link.polled n).frame pollFrame).1

/-- The first `n` ready polls read busy and poll `n + 1` does not (R135, R136). -/
def ReadyAfter (n : Nat) (s : State) : Prop :=
  busyBit (pollReply n s) = false ∧ ∀ j, j < n → busyBit (pollReply j s) = true

/-! ### Scripted replies, and the reference target -/

/-- The bits the environment presents to give the four reply bytes of a frame. -/
def replyBits (r : IspFrame) : List Bool := byteBits r.b0 ++ byteBits r.b1 ++ byteBits r.b2 ++ byteBits r.b3

/-- The environment is any target (R20) and presents `bits` next. -/
def Presents (l : Link) (bits : List Bool) : Prop :=
  l.env.kind = .draws ∧ ∃ more, l.env.miso = bits ++ more

/-- The reference target is connected, in programming mode, at a frame boundary, with no write cycle running (R72, R74): the premises
under which R73 and R78 give its answers about signature, fuse and lock bytes. -/
def TargetEnabled (s : State) : Prop :=
  s.link.env.kind = .reference ∧ s.link.env.target.mode = .progEnabled ∧ s.link.env.target.rx = [] ∧
  s.link.env.target.busy = some 0

/-- The target is enabled, with context 0, no lock byte written and no fuse change in effect (R76, U16): the premises under which R73
to R78 give all its answers. -/
def TargetReady (s : State) : Prop :=
  TargetEnabled s ∧ s.link.env.target.ext = 0#8 ∧ s.link.env.target.altered = false

/-- The byte of the target's flash at byte address `a` (R51). -/
def flashAt (s : State) (a : Nat) : Byte := Memory.read s.link.env.target.flash a

/-- The byte of the target's EEPROM at address `a` (R53). -/
def eepromAt (s : State) (a : Nat) : Byte := Memory.read s.link.env.target.eeprom a

/-- A fuse or lock byte of the target: the value in effect and the value last written (R78). -/
def fuseAt (s : State) : FuseKind → FuseCell
  | .low => s.link.env.target.fuseLow
  | .high => s.link.env.target.fuseHigh
  | .extended => s.link.env.target.fuseExt
  | .lock => s.link.env.target.fuseLock

/-- Every byte of both of the target's memories is as it was. -/
def SameMemory (s t : State) : Prop := ∀ a, flashAt t a = flashAt s a ∧ eepromAt t a = eepromAt s a

end Sys2Proof.Machine
end

