-- ==== Sys2Proof/Certificates/Slice0/Obligations.lean ====
section
/-! DEFINITION. The statements for the provers. `s.raised e x` and `s.returned x` are never used here: what an operation leaves
is written out field by field. -/

open Sys2Proof Sys2Proof.Machine

/-! ### Encodings (spec/30_encoding.md) -/

/-- Every well-formed instruction is read back from its message (R83, R92, R93). -/
def Obligations.DecodeOfEncode : Prop :=
  ∀ i : Instr, i.wf = true → decode (encode i) = .ok i

/-- Every accepted message is exactly the message of the well-formed instruction it is read as: no two messages are one
instruction, and no bit of a message is dropped (R92, R93, R94). -/
def Obligations.EncodeOfDecoded : Prop :=
  ∀ (msg : List Byte) (i : Instr), decode msg = .ok i → i.wf = true ∧ encode i = msg

/-- R84: a word spells a frame row iff it agrees with the row's match under its mask; no word spells two rows; and the decoder
reads an instruction from a word exactly when it spells a row. -/
def Obligations.FrameRowsDisjoint : Prop :=
  (∀ (p : FramePattern) (f : IspFrame), p ∈ framePatterns → (p.fits f = true ↔ frameWord f &&& maskWord p = matchWord p)) ∧
  (∀ (f : IspFrame) (j k : Nat) (p q : FramePattern), framePatterns[j]? = some p → framePatterns[k]? = some q →
    p.fits f = true → q.fits f = true → j = k) ∧
  (∀ f : IspFrame, (decodeFrame f).isSome = isFrame f)

/-- The match and mask columns of the 22 frame rows of spec/opcode_table.json (R81), and a word of each kind decoded. What
`decodeTableWord` takes a word to be is the model's choice, log 12: most significant byte first, the `CMD` code put before a frame,
and operand bytes of zero appended to a host operation's row (so the 16-bit 0x2001 is `RD_BYTE EEPROM, 0x0000`). -/
def Obligations.TableWords : Prop :=
  framePatterns.map (fun p => (matchWord p, maskWord p)) =
    [(0xAC530000#32, 0xFFFFFFFF#32), (0xAC800000#32, 0xFFFFFFFF#32), (0xF0000000#32, 0xFFFFFFFF#32),
     (0x30000000#32, 0xFFFF00FF#32), (0x50000000#32, 0xFFFFFFFF#32), (0x58080000#32, 0xFFFFFFFF#32),
     (0x50080000#32, 0xFFFFFFFF#32), (0x58000000#32, 0xFFFFFFFF#32), (0xACA00000#32, 0xFFFFFF00#32),
     (0xACA80000#32, 0xFFFFFF00#32), (0xACA40000#32, 0xFFFFFF00#32), (0xACE00000#32, 0xFFFFFF00#32)] ++
    [(0xA0000000#32, 0xFF0000FF#32), (0xC0000000#32, 0xFF000000#32), (0xC1000000#32, 0xFFFF0000#32),
     (0xC2000000#32, 0xFF0000FF#32), (0x20000000#32, 0xFF0000FF#32), (0x28000000#32, 0xFF0000FF#32),
     (0x40000000#32, 0xFFFF0000#32), (0x48000000#32, 0xFFFF0000#32), (0x4C000000#32, 0xFF0000FF#32),
     (0x4D000000#32, 0xFFFF00FF#32)] ∧
  decodeTableWord 32 0xAC530000 = some .progEnable ∧
  decodeTableWord 32 0x20091A00 = some (.readFlashLo 0x09#8 0x1A#8) ∧
  decodeTableWord 32 0xC0001042 = some (.writeEeprom 0x00#8 0x10#8 0x42#8) ∧
  decodeTableWord 8 0x02 = some .rstAssert ∧
  decodeTableWord 8 0x10 = some .pgmEnter ∧
  decodeTableWord 16 0x2001 = some (.rdByteEeprom 0x0000#16) ∧
  decodeTableWord 8 0x32 = some .hexEncEnd ∧
  decodeTableWord 16 0x4000 = some .progBeginFlash

/-! ### The step (spec/10_state.md R42, spec/00_scope.md R13) -/

/-- A step runs the decoded instruction: the first message, when nothing waits; the message is taken from the host's queue and
nothing else is done around `exec`. The same of a table word placed by `withFetchWord`. The queue of messages, the placing of a word
and its layout are the model's choices, log 1, log 13 and log 12: R13, R42 and R94 say only that host operations run one at a time. -/
def Obligations.StepRunsDecodedInstruction : Prop :=
  (∀ (s : State) (msg : List Byte) (rest : List (List Byte)) (i : Instr),
    s.pending = none → s.inbox = msg :: rest → decode msg = .ok i → step s = exec i { s with inbox := rest }) ∧
  (∀ (s : State) (nbits w : Nat) (i : Instr),
    decodeTableWord nbits w = some i → step (s.withFetchWord nbits w) = exec i { s with pending := none })

/-- With no message and nothing waiting the sequencer stays as it is (R310: idle awaiting the first host operation). An
operation that waits polls again before any message is looked at: that a waiting operation is a state of its own, with one poll a
step, is the model's choice, log 6, made so that an operation runs to completion before the next begins (R13, R42). -/
def Obligations.StepWaitsAndIdles : Prop :=
  (∀ s : State, s.pending = none → s.inbox = [] → step s = .next s) ∧
  (∀ (s : State) (k : Pending), s.pending = some k → busyBit (pollReply 0 s) = true →
    step s = .next { s with link := s.link.polled 1, busy := true }) ∧
  (∀ (s : State) (k : Pending), s.pending = some k → busyBit (pollReply 0 s) = false →
    step s = afterPoll k { s with link := (s.link.frame pollFrame).2, busy := false, wpend := false })

/-- R94: a message that is no host operation's encoding is refused: no event, no field but `LAST_ERROR` written, status `BadOp`
(17). The same of an operation whose operands lie outside their encodings (a `CMD` has any operands). That the message without any
byte, and one with operand bytes missing or left over, of which R94 does not speak, are refused in the same way is the model's choice,
log 16. -/
def Obligations.IllegalOperationIsBadOp : Prop :=
  (∀ (s : State) (msg : List Byte) (rest : List (List Byte)), s.pending = none → s.inbox = msg :: rest →
    (∀ i : Instr, i.wf = true → encode i ≠ msg) →
    step s = .next { s with inbox := rest, lastError := 17#8, response := [17#8] }) ∧
  (∀ (s : State) (i : Instr), i.wf = false → (∀ b0 b1 b2 b3, i ≠ .cmd b0 b1 b2 b3) →
    exec i s = .next { s with lastError := 17#8, response := [17#8], pending := none })

/-! ### BitLink (spec/40_bitlink.md) -/

/-- R111: against any environment `XFER tx` receives some byte `rx`; it performs exactly the 48 events of an MSB-first
full-duplex exchange, leaves the shift registers, `BITCNT` and the pins as the loop does, returns `rx`, and writes nothing else;
while a write cycle is pending it is the model fault `BusyHazard`. -/
def Obligations.XferExchange : Prop :=
  ∀ (tx : Byte) (s : State),
    (s.wpend = false → ∃ rx env,
      exec (.xfer tx) s = .next { s with
        link := { s.link with
          sck := .low, mosi := bitLevel (tx.getLsbD 0), txsr := .written 0#8, rxsr := .written rx, bitcnt := 8
          log := (xferEvents tx rx).reverse ++ s.link.log, env := env }
        lastError := 0#8, response := [0#8, rx], pending := none } ∧
      (xferEvents tx rx).length = 48 ∧ env.kind = s.link.env.kind) ∧
    (s.wpend = true → exec (.xfer tx) s = .fault .busyHazard)

/-- R130: a frame is four exchanges, 192 events, with the registers, pins and trace they leave, whatever is answered; a sequence
of frames is their events in order and nothing between them. -/
def Obligations.FrameExchange : Prop :=
  (∀ (f : IspFrame) (l : Link), ∃ r env,
    l.frame f = (r, l.afterFrame f r env) ∧ (frameEvents f r).length = 192 ∧ env.kind = l.env.kind) ∧
  (∀ (fs : List IspFrame) (l : Link),
    (l.exchange fs).1.length = fs.length ∧
    (l.exchange fs).2.log =
      ((fs.zip (l.exchange fs).1).flatMap fun p => frameEvents p.1 p.2).reverse ++ l.log ∧
    (l.exchange fs).2.rst = l.rst)

/-- R20, R57: the target may answer anything. Against a target that presents the bits of `rx` (of the replies `rs`) next, most
significant first, `XFER` receives `rx` and a sequence of frames receives exactly `rs`. -/
def Obligations.EveryAnswerIsReceived : Prop :=
  (∀ (tx rx : Byte) (s : State), s.wpend = false → Presents s.link (byteBits rx) →
    ∃ t, exec (.xfer tx) s = .next t ∧ t.response = [0#8, rx] ∧ t.link.rxsr = .written rx ∧
      trace t = trace s ++ xferEvents tx rx) ∧
  (∀ (fs rs : List IspFrame) (l : Link), rs.length = fs.length → Presents l (rs.flatMap replyBits) → (l.exchange fs).1 = rs)

/-- R114 to R117: the reset-line operations perform exactly their drives and waits, in their order; all but `RST_ASSERT` set
`PSTATE` to Idle; nothing else is written; while a write cycle is pending each is the model fault `BusyHazard`. -/
def Obligations.ResetLineOperations : Prop :=
  ∀ s : State,
    (s.wpend = false → ∃ e1 e2 e3 e4,
      exec .rstAssert s = .next { s with
        link := { s.link with rst := .low, log := .drive .rst .low :: s.link.log, env := e1 }
        lastError := 0#8, response := [0#8], pending := none } ∧
      exec .rstRelease s = .next { s with
        link := { s.link with rst := .high, log := .drive .rst .high :: s.link.log, env := e2 }
        pstate := .idle, lastError := 0#8, response := [0#8], pending := none } ∧
      exec .rstPulse s = .next { s with
        link := { s.link with
          rst := .high, log := [.drive .rst .high, .wait .tRstPulse, .drive .rst .low] ++ s.link.log, env := e3 }
        pstate := .idle, lastError := 0#8, response := [0#8], pending := none } ∧
      exec .linkRelease s = .next { s with
        link := { s.link with
          sck := .hiZ, mosi := .hiZ, rst := .hiZ
          log := [.drive .rst .hiZ, .drive .mosi .hiZ, .drive .sck .hiZ] ++ s.link.log, env := e4 }
        pstate := .idle, lastError := 0#8, response := [0#8], pending := none } ∧
      [e1, e2, e3, e4].all fun e => e.kind == s.link.env.kind && e.miso == s.link.env.miso && e.draws == s.link.env.draws) ∧
    (s.wpend = true → ∀ i ∈ [Instr.rstAssert, .rstRelease, .rstPulse, .linkRelease], exec i s = .fault .busyHazard)

/-! ### ISPProtocol (spec/41_isp_protocol.md) -/

/-- R132, R133: `PGM_ENTER` succeeds at the first attempt in sync and counts it; after five attempts out of sync it fails with
`LinkError` (1); one of the two always happens; while a write cycle is pending it is the model fault `BusyHazard`. Of the replies
only the third byte is looked at. -/
def Obligations.PgmEnterAttempts : Prop :=
  ∀ s : State,
    (∀ n, s.wpend = false → n < 5 → SyncsAt n s →
      exec .pgmEnter s = .next { s with
        link := s.link.tried n, pstate := .programming, attempt := n + 1, syncOk := true, fuseDirty := false
        lastError := 0#8, response := [0#8, 1#8], pending := none }) ∧
    (s.wpend = false → NeverSyncs s →
      exec .pgmEnter s = .next { s with
        link := s.link.tried 4, pstate := .failed, attempt := 5, syncOk := false
        lastError := 1#8, response := [1#8], pending := none }) ∧
    ((∃ n, n < 5 ∧ SyncsAt n s) ∨ NeverSyncs s) ∧
    (s.wpend = true → exec .pgmEnter s = .fault .busyHazard)

/-- R132, R135: the events of attempts and of polls. After n failed attempts and one more there are n + 1 attempts with a reset
pulse after each but the last, and `RST` is low; n busy polls are n poll frames with a wait after each. -/
def Obligations.LoopEvents : Prop :=
  (∀ (s : State) (n : Nat),
    (s.link.tried n).log =
      (((List.range n).flatMap fun j => attemptEvents (attemptReply j s) ++ pulseEvents) ++
        attemptEvents (attemptReply n s)).reverse ++ s.link.log ∧
    (s.link.tried n).rst = .low ∧ (s.link.tried n).frameTx = .written ⟨0xAC#8, 0x53#8, 0x00#8, 0x00#8⟩) ∧
  (∀ (s : State) (n : Nat),
    (s.link.polled n).log =
      ((List.range n).flatMap fun j =>
        frameEvents ⟨0xF0#8, 0x00#8, 0x00#8, 0x00#8⟩ (pollReply j s) ++ [.wait .tPoll]).reverse ++ s.link.log ∧
    (s.link.polled n).rst = s.link.rst)

/-- R131: `CMD` sends its frame as given and returns the fourth reply byte, against any environment and for any word. A commit
frame sets `WPEND`, a fuse or lock write sets `FUSE_DIRTY`, the poll frame writes `BUSY` and clears `WPEND` if not busy; nothing else
is written. With a write cycle pending any frame but the poll is the model fault `BusyHazard`; a fuse or lock write with `FUSE_DIRTY`
= 1 is `FuseReentryHazard`. -/
def Obligations.CmdSendsItsFrame : Prop :=
  ∀ (f : IspFrame) (s : State),
    ((s.wpend = false ∨ f = ⟨0xF0#8, 0x00#8, 0x00#8, 0x00#8⟩) → (isFuseWriteFrame f = true → s.fuseDirty = false) →
      ∃ r env,
        exec (.cmd f.b0 f.b1 f.b2 f.b3) s = .next { s with
          link := s.link.afterFrame f r env
          busy := if f = ⟨0xF0#8, 0x00#8, 0x00#8, 0x00#8⟩ then r.b3.getLsbD 0 else s.busy
          wpend := if f = ⟨0xF0#8, 0x00#8, 0x00#8, 0x00#8⟩ then s.wpend && r.b3.getLsbD 0 else s.wpend || isCommitFrame f
          fuseDirty := s.fuseDirty || isFuseWriteFrame f
          lastError := 0#8, response := [0#8, r.b3], pending := none } ∧
        env.kind = s.link.env.kind) ∧
    (s.wpend = true → f ≠ ⟨0xF0#8, 0x00#8, 0x00#8, 0x00#8⟩ → exec (.cmd f.b0 f.b1 f.b2 f.b3) s = .fault .busyHazard) ∧
    (s.wpend = false → isFuseWriteFrame f = true → s.fuseDirty = true →
      exec (.cmd f.b0 f.b1 f.b2 f.b3) s = .fault .fuseReentryHazard)

/-- R273 and R258 to R261: which words are commit frames, and which of them write a fuse or lock byte. -/
def Obligations.CommitFrameWords : Prop :=
  ∀ f : IspFrame,
    (isFuseWriteFrame f = true ↔
      f.b0 = 0xAC#8 ∧ f.b2 = 0x00#8 ∧ (f.b1 = 0xA0#8 ∨ f.b1 = 0xA8#8 ∨ f.b1 = 0xA4#8 ∨ f.b1 = 0xE0#8)) ∧
    (isCommitFrame f = true ↔
      f = ⟨0xAC#8, 0x80#8, 0x00#8, 0x00#8⟩ ∨ isFuseWriteFrame f = true ∨ f.b0 = 0xC0#8 ∨
      (f.b0 = 0xC2#8 ∧ f.b3 = 0x00#8) ∨ (f.b0 = 0x4C#8 ∧ f.b3 = 0x00#8))

/-- The frames that change no flag: `PROG_ENABLE`, the eight reads, the three loads and `LOAD_EXT_ADDR`. Each completes with no
write cycle pending, sends its bytes, returns the fourth reply byte (R272) and writes the frame registers alone. -/
def Obligations.ReadAndLoadFramesComplete : Prop :=
  ∀ (s : State) (i hi lo val : Byte) (ins : Instr) (f : IspFrame), s.wpend = false →
    (ins, f) ∈ [(Instr.progEnable, (⟨0xAC#8, 0x53#8, 0x00#8, 0x00#8⟩ : IspFrame)),
      (.readSig i, ⟨0x30#8, 0x00#8, i, 0x00#8⟩), (.readFuseLo, ⟨0x50#8, 0x00#8, 0x00#8, 0x00#8⟩),
      (.readFuseHi, ⟨0x58#8, 0x08#8, 0x00#8, 0x00#8⟩), (.readFuseExt, ⟨0x50#8, 0x08#8, 0x00#8, 0x00#8⟩),
      (.readLock, ⟨0x58#8, 0x00#8, 0x00#8, 0x00#8⟩), (.readEeprom hi lo, ⟨0xA0#8, hi, lo, 0x00#8⟩),
      (.readFlashLo hi lo, ⟨0x20#8, hi, lo, 0x00#8⟩), (.readFlashHi hi lo, ⟨0x28#8, hi, lo, 0x00#8⟩),
      (.loadEepromPage i val, ⟨0xC1#8, 0x00#8, i, val⟩), (.loadFlashLo i val, ⟨0x40#8, 0x00#8, i, val⟩),
      (.loadFlashHi i val, ⟨0x48#8, 0x00#8, i, val⟩), (.loadExtAddr val, ⟨0x4D#8, 0x00#8, val, 0x00#8⟩)] →
    ∃ r env,
      exec ins s = .next { s with
        link := s.link.afterFrame f r env, lastError := 0#8, response := [0#8, r.b3], pending := none } ∧
      env.kind = s.link.env.kind

/-- The commit frames (R273): `CHIP_ERASE`, `WRITE_EEPROM`, `WRITE_EEPROM_PAGE`, `WRITE_FLASH_PAGE` complete with no write cycle
pending and set `WPEND`; the fuse and lock writes set `FUSE_DIRTY` too and need it 0. `POLL_RDY` completes in every state and
writes `BUSY` and `WPEND` (R252). Nothing else is written. -/
def Obligations.CommitAndPollFramesComplete : Prop :=
  (∀ (s : State) (hi lo val : Byte) (ins : Instr) (f : IspFrame), s.wpend = false →
    (ins, f) ∈ [(Instr.chipErase, (⟨0xAC#8, 0x80#8, 0x00#8, 0x00#8⟩ : IspFrame)),
      (.writeEeprom hi lo val, ⟨0xC0#8, hi, lo, val⟩), (.writeEepromPage hi lo, ⟨0xC2#8, hi, lo, 0x00#8⟩),
      (.writeFlashPage hi lo, ⟨0x4C#8, hi, lo, 0x00#8⟩)] →
    ∃ r env,
      exec ins s = .next { s with
        link := s.link.afterFrame f r env, wpend := true
        lastError := 0#8, response := [0#8, r.b3], pending := none } ∧
      env.kind = s.link.env.kind) ∧
  (∀ (s : State) (val : Byte) (ins : Instr) (f : IspFrame), s.wpend = false → s.fuseDirty = false →
    (ins, f) ∈ [(Instr.writeFuseLo val, (⟨0xAC#8, 0xA0#8, 0x00#8, val⟩ : IspFrame)),
      (.writeFuseHi val, ⟨0xAC#8, 0xA8#8, 0x00#8, val⟩), (.writeFuseExt val, ⟨0xAC#8, 0xA4#8, 0x00#8, val⟩),
      (.writeLock val, ⟨0xAC#8, 0xE0#8, 0x00#8, val⟩)] →
    ∃ r env,
      exec ins s = .next { s with
        link := s.link.afterFrame f r env, wpend := true, fuseDirty := true
        lastError := 0#8, response := [0#8, r.b3], pending := none } ∧
      env.kind = s.link.env.kind) ∧
  (∀ s : State, ∃ r env,
    exec .pollRdy s = .next { s with
      link := s.link.afterFrame ⟨0xF0#8, 0x00#8, 0x00#8, 0x00#8⟩ r env
      busy := r.b3.getLsbD 0, wpend := s.wpend && r.b3.getLsbD 0
      lastError := 0#8, response := [0#8, r.b3], pending := none } ∧
    env.kind = s.link.env.kind)

/-- If the first n polls read busy and the next does not, `POLL_READY` sends n + 1 poll frames with `T_POLL` waited after
each but the last, and then returns with `BUSY` = 0 and `WPEND` = 0 (R135). It polls in every state, whatever `WPEND`. That the n
waits are n steps, and that a poll that reads busy leaves the operation in `pending`, is the model's choice, log 6. -/
def Obligations.PollReadyReturns : Prop :=
  (∀ (s : State) (n : Nat), ReadyAfter n s →
    ∃ t, exec .pollReady s = .next t ∧
      run n t = .next { s with
        link := ((s.link.polled n).frame ⟨0xF0#8, 0x00#8, 0x00#8, 0x00#8⟩).2, busy := false, wpend := false
        lastError := 0#8, response := [0#8], pending := none }) ∧
  (∀ s : State, busyBit (pollReply 0 s) = true →
    exec .pollReady s = .next { s with link := s.link.polled 1, busy := true, pending := some .plain })

/-- The polls inside `POLL_READY`, `WR_EEBYTE`, `WR_PAGE`, `ERASE`, `WR_FUSE` and the session operations (R135): an operation that waits,
whose next n polls read busy and the poll after them does not, goes on after that poll with what it had left to do; the polls change
nothing else. The step count, `pending` and `afterPoll` are the model's choice, log 6. -/
def Obligations.WaitingOperationGoesOn : Prop :=
  ∀ (s : State) (k : Pending) (n : Nat), s.pending = some k → ReadyAfter n s →
    run (n + 1) s = afterPoll k { s with
      link := ((s.link.polled n).frame ⟨0xF0#8, 0x00#8, 0x00#8, 0x00#8⟩).2, busy := false, wpend := false }

/-- Against a target that stays busy for ever a waiting operation never ends, and that run is neither an error nor a fault
(R289): after any number of steps it still waits. That each step is one more poll, from a state with `pending`, is the model's choice,
log 6; that a target with a lock or fuse change still answers the polls is log 14's. -/
def Obligations.BusyForeverIsAnInfiniteRun : Prop :=
  ∀ (s : State) (k : Pending), s.pending = some k → s.link.env.kind = .reference → s.link.env.target.mode = .progEnabled →
    s.link.env.target.rx = [] → s.link.env.target.busy = none →
    ∀ n, run (n + 1) s = .next { s with link := s.link.polled (n + 1), busy := true }

/-! ### MemoryProgrammer (spec/42_memory_programmer.md) -/

/-- R150: every memory operation refuses an address at or above its region's capacity with `AddressRangeError` (11): no event, no
field but `LAST_ERROR` written, whatever is pending. -/
def Obligations.AddressBound : Prop :=
  ∀ (s : State) (a : Addr) (v : Byte) (y : Bool) (buf : List Byte),
    (32768 ≤ a.toNat →
      exec (.rdByteFlash a) s = .next { s with lastError := 11#8, response := [11#8], pending := none } ∧
      (buf.length = 128 →
        exec (.wrPageFlash a y buf) s = .next { s with lastError := 11#8, response := [11#8], pending := none })) ∧
    (1024 ≤ a.toNat →
      exec (.rdByteEeprom a) s = .next { s with lastError := 11#8, response := [11#8], pending := none } ∧
      exec (.wrEebyte a v y) s = .next { s with lastError := 11#8, response := [11#8], pending := none } ∧
      (buf.length = 4 →
        exec (.wrPageEeprom a y buf) s = .next { s with lastError := 11#8, response := [11#8], pending := none }))

/-- R151, R152: `RD_BYTE` sends one read frame (for flash the word address, `20` for an even and `28` for an odd byte address)
and returns the fourth reply byte; an address out of range is refused before anything else, and a pending write cycle is the model
fault `BusyHazard`. -/
def Obligations.RdByteReads : Prop :=
  ∀ (s : State) (a : Addr),
    (a.toNat < 32768 → s.wpend = false → ∃ r env,
      exec (.rdByteFlash a) s = .next { s with
        link := s.link.afterFrame
          ⟨if a.toNat % 2 = 0 then 0x20#8 else 0x28#8, BitVec.ofNat 8 (a.toNat / 2 / 256), BitVec.ofNat 8 (a.toNat / 2), 0x00#8⟩ r env
        lastError := 0#8, response := [0#8, r.b3], pending := none } ∧
      env.kind = s.link.env.kind) ∧
    (a.toNat < 32768 → s.wpend = true → exec (.rdByteFlash a) s = .fault .busyHazard) ∧
    (32768 ≤ a.toNat →
      exec (.rdByteFlash a) s = .next { s with lastError := 11#8, response := [11#8], pending := none }) ∧
    (a.toNat < 1024 → s.wpend = false → ∃ r env,
      exec (.rdByteEeprom a) s = .next { s with
        link := s.link.afterFrame ⟨0xA0#8, BitVec.ofNat 8 (a.toNat / 256), BitVec.ofNat 8 a.toNat, 0x00#8⟩ r env
        lastError := 0#8, response := [0#8, r.b3], pending := none } ∧
      env.kind = s.link.env.kind) ∧
    (a.toNat < 1024 → s.wpend = true → exec (.rdByteEeprom a) s = .fault .busyHazard) ∧
    (1024 ≤ a.toNat →
      exec (.rdByteEeprom a) s = .next { s with lastError := 11#8, response := [11#8], pending := none })

/-- R158, R160, R161: `RD_FUSE`, `RD_SIG` and `SET_EXT` send their one frame; the reads return the fourth reply byte; nothing but
the frame registers is written (`SIG` is not); a pending write cycle is the model fault `BusyHazard`; an index of 3 or more is `BadOp`. -/
def Obligations.SingleFrameOperations : Prop :=
  ∀ (s : State),
    (s.wpend = false →
      (∀ k f, (k, f) ∈ [(FuseKind.low, (⟨0x50#8, 0x00#8, 0x00#8, 0x00#8⟩ : IspFrame)), (.high, ⟨0x58#8, 0x08#8, 0x00#8, 0x00#8⟩),
          (.extended, ⟨0x50#8, 0x08#8, 0x00#8, 0x00#8⟩), (.lock, ⟨0x58#8, 0x00#8, 0x00#8, 0x00#8⟩)] →
        ∃ r env, exec (.rdFuse k) s = .next { s with
          link := s.link.afterFrame f r env, lastError := 0#8, response := [0#8, r.b3], pending := none } ∧
          env.kind = s.link.env.kind) ∧
      (∀ i : Byte, i.toNat < 3 → ∃ r env, exec (.rdSig i) s = .next { s with
        link := s.link.afterFrame ⟨0x30#8, 0x00#8, i, 0x00#8⟩ r env
        lastError := 0#8, response := [0#8, r.b3], pending := none } ∧ env.kind = s.link.env.kind) ∧
      (∀ v : Byte, ∃ r env, exec (.setExt v) s = .next { s with
        link := s.link.afterFrame ⟨0x4D#8, 0x00#8, v, 0x00#8⟩ r env
        lastError := 0#8, response := [0#8], pending := none } ∧ env.kind = s.link.env.kind)) ∧
    (s.wpend = true →
      (∀ k, exec (.rdFuse k) s = .fault .busyHazard) ∧ (∀ i : Byte, i.toNat < 3 → exec (.rdSig i) s = .fault .busyHazard) ∧
      ∀ v, exec (.setExt v) s = .fault .busyHazard) ∧
    (∀ i : Byte, 3 ≤ i.toNat → exec (.rdSig i) s = .next { s with lastError := 17#8, response := [17#8], pending := none })

/-- R153: `WR_EEBYTE` sends `C0 hi lo v` and a ready poll. If the poll reads not busy, it returns true without verify, and with
verify it reads the byte back: true and `VERIFY_OK` = 1 if equal, `VerifyError` (10) and `VERIFY_OK` = 0 otherwise. If it reads
busy, the operation polls on; that it does so from a state of its own, with the readback left in `pending`, is the model's choice,
log 6. -/
def Obligations.WrEebyteWritesAndVerifies : Prop :=
  ∀ (s : State) (a : Addr) (v : Byte) (y : Bool) (hi lo : Byte) (fs : List IspFrame),
    a.toNat < 1024 → hi = BitVec.ofNat 8 (a.toNat / 256) → lo = BitVec.ofNat 8 a.toNat →
    fs = [⟨0xC0#8, hi, lo, v⟩, ⟨0xF0#8, 0x00#8, 0x00#8, 0x00#8⟩] →
    (s.wpend = false → busyBit (lastReply fs s) = true →
      exec (.wrEebyte a v y) s = .next { s with
        link := (sent fs s).link.wait .tPoll, busy := true, wpend := true, pending := some (.eeByte a v y) }) ∧
    (s.wpend = false → busyBit (lastReply fs s) = false → y = false →
      exec (.wrEebyte a v y) s = .next { s with
        link := (sent fs s).link, busy := false, wpend := false
        lastError := 0#8, response := [0#8, 1#8], pending := none }) ∧
    (s.wpend = false → busyBit (lastReply fs s) = false → y = true →
      (lastReply (fs ++ [⟨0xA0#8, hi, lo, 0x00#8⟩]) s).b3 = v →
      exec (.wrEebyte a v y) s = .next { s with
        link := (sent (fs ++ [⟨0xA0#8, hi, lo, 0x00#8⟩]) s).link, busy := false, wpend := false, verifyOk := true
        lastError := 0#8, response := [0#8, 1#8], pending := none }) ∧
    (s.wpend = false → busyBit (lastReply fs s) = false → y = true →
      (lastReply (fs ++ [⟨0xA0#8, hi, lo, 0x00#8⟩]) s).b3 ≠ v →
      exec (.wrEebyte a v y) s = .next { s with
        link := (sent (fs ++ [⟨0xA0#8, hi, lo, 0x00#8⟩]) s).link, busy := false, wpend := false, verifyOk := false
        lastError := 10#8, response := [10#8], pending := none }) ∧
    (s.wpend = true → exec (.wrEebyte a v y) s = .fault .busyHazard)

/-- R154, R155, R62 to R64: the frames of a page write: one load frame per byte in ascending order (for flash low and high byte
of each word, by the word's offset), the page write with the aligned wire address, and a ready poll. -/
def Obligations.PageWriteFrames : Prop :=
  (∀ (a : Addr) (buf : List Byte), a.toNat < 32768 → buf.length = 128 →
    (pageFrames .flash a buf).length = 130 ∧
    (∀ j, j < 128 → (pageFrames .flash a buf)[j]? =
      some ⟨if j % 2 = 0 then 0x40#8 else 0x48#8, 0x00#8, BitVec.ofNat 8 (j / 2), buf.getD j 0#8⟩) ∧
    (pageFrames .flash a buf)[128]? =
      some ⟨0x4C#8, BitVec.ofNat 8 (a.toNat / 128 * 64 / 256), BitVec.ofNat 8 (a.toNat / 128 * 64), 0x00#8⟩ ∧
    (pageFrames .flash a buf)[129]? = some ⟨0xF0#8, 0x00#8, 0x00#8, 0x00#8⟩) ∧
  (∀ (a : Addr) (buf : List Byte), a.toNat < 1024 → buf.length = 4 →
    (pageFrames .eeprom a buf).length = 6 ∧
    (∀ j, j < 4 → (pageFrames .eeprom a buf)[j]? = some ⟨0xC1#8, 0x00#8, BitVec.ofNat 8 j, buf.getD j 0#8⟩) ∧
    (pageFrames .eeprom a buf)[4]? =
      some ⟨0xC2#8, BitVec.ofNat 8 (a.toNat / 4 * 4 / 256), BitVec.ofNat 8 (a.toNat / 4 * 4), 0x00#8⟩ ∧
    (pageFrames .eeprom a buf)[5]? = some ⟨0xF0#8, 0x00#8, 0x00#8, 0x00#8⟩)

/-- R62 to R64: page bases and wire addresses. -/
def Obligations.PageAddresses : Prop :=
  ∀ a : Addr,
    pageBase .flash a = a &&& 0xFF80#16 ∧ (pageBase .flash a).toNat = a.toNat / 128 * 128 ∧
    pageBase .eeprom a = a &&& 0xFFFC#16 ∧ (pageBase .eeprom a).toNat = a.toNat / 4 * 4 ∧
    wpage a = (a >>> 1) &&& 0xFFC0#16 ∧ wpage (pageBase .flash a) = wpage a ∧ (wpage a).extractLsb' 0 6 = 0#6 ∧
    epage a = pageBase .eeprom a

/-- R154, R155: `WR_PAGE`, both regions, sends the frames of its page (of the page of `a` where `a` is unaligned) and one ready
poll. Not busy, and no verify asked for: true. Not busy, and every byte reads back as written: true and `VERIFY_OK` = 1. Not busy,
and the byte at offset j is the first to read back otherwise: `VerifyError` (10) after j + 1 reads. Busy: it polls on, from a state
with the readback left in `pending` (the model's choice, log 6). A pending write cycle is the model fault `BusyHazard`. -/
def Obligations.WrPageWrites : Prop :=
  ∀ (s : State) (region : Region) (ins : Instr) (size cap : Nat) (a : Addr) (y : Bool) (buf : List Byte),
    (ins, region, size, cap) ∈ [(Instr.wrPageFlash a y buf, Region.flash, 128, 32768), (.wrPageEeprom a y buf, .eeprom, 4, 1024)] →
    a.toNat < cap → buf.length = size →
    (s.wpend = false → busyBit (lastReply (pageFrames region a buf) s) = true →
      exec ins s = .next { s with
        link := (sent (pageFrames region a buf) s).link.wait .tPoll, busy := true, wpend := true
        pending := some (.page region (pageBase region a) buf y) }) ∧
    (s.wpend = false → busyBit (lastReply (pageFrames region a buf) s) = false → y = false →
      exec ins s = .next { s with
        link := (sent (pageFrames region a buf) s).link, busy := false, wpend := false
        lastError := 0#8, response := [0#8, 1#8], pending := none }) ∧
    (s.wpend = false → busyBit (lastReply (pageFrames region a buf) s) = false → y = true →
      ((replies (pageFrames region a buf ++ readFrames region (pageBase region a) 0 size) s).drop (size + 2)).map (·.b3) = buf →
      exec ins s = .next { s with
        link := (sent (pageFrames region a buf ++ readFrames region (pageBase region a) 0 size) s).link
        busy := false, wpend := false, verifyOk := true
        lastError := 0#8, response := [0#8, 1#8], pending := none }) ∧
    (∀ j, s.wpend = false → busyBit (lastReply (pageFrames region a buf) s) = false → y = true → j < size →
      ((replies (pageFrames region a buf ++ readFrames region (pageBase region a) 0 j) s).drop (size + 2)).map (·.b3) = buf.take j →
      (lastReply (pageFrames region a buf ++ readFrames region (pageBase region a) 0 (j + 1)) s).b3 ≠ buf.getD j 0#8 →
      exec ins s = .next { s with
        link := (sent (pageFrames region a buf ++ readFrames region (pageBase region a) 0 (j + 1)) s).link
        busy := false, wpend := false, verifyOk := false
        lastError := 10#8, response := [10#8], pending := none }) ∧
    (s.wpend = true → exec ins s = .fault .busyHazard)

/-- What `WR_PAGE` and `WR_EEBYTE` do after the last poll of a wait (R156, R153). A page is read back byte by byte in ascending
order: all equal gives true and `VERIFY_OK` = 1; the first mismatch, at offset j, gives `VerifyError` (10) and `VERIFY_OK` = 0 after
exactly j + 1 read frames. Without verify nothing is read. The same of one EEPROM byte. `afterPoll` and what waits are the model's
choice, log 6; the session operations' waits are in `ProgBeginFlashErases`, `FlushPrecedesTheNextPage`,
`EepromRecordIsWrittenByteByByte` and `SessionCompletes`. -/
def Obligations.ReadbackStopsAtTheFirstMismatch : Prop :=
  (∀ (s : State) (region : Region) (base : Addr) (buf : List Byte), s.wpend = false →
    base.toNat + buf.length ≤ capacity region →
    ((replies (readFrames region base 0 buf.length) s).map (·.b3) = buf →
      afterPoll (.page region base buf true) s = .next { s with
        link := (sent (readFrames region base 0 buf.length) s).link, verifyOk := true
        lastError := 0#8, response := [0#8, 1#8], pending := none }) ∧
    (∀ j, j < buf.length →
      (replies (readFrames region base 0 j) s).map (·.b3) = buf.take j →
      (lastReply (readFrames region base 0 (j + 1)) s).b3 ≠ buf.getD j 0#8 →
      afterPoll (.page region base buf true) s = .next { s with
        link := (sent (readFrames region base 0 (j + 1)) s).link, verifyOk := false
        lastError := 10#8, response := [10#8], pending := none }) ∧
    afterPoll (.page region base buf false) s = .next { s with lastError := 0#8, response := [0#8, 1#8], pending := none }) ∧
  (∀ (s : State) (a : Addr) (v : Byte), s.wpend = false → a.toNat < 1024 →
    ((lastReply [readFrame .eeprom a] s).b3 = v →
      afterPoll (.eeByte a v true) s = .next { s with
        link := (sent [readFrame .eeprom a] s).link, verifyOk := true
        lastError := 0#8, response := [0#8, 1#8], pending := none }) ∧
    ((lastReply [readFrame .eeprom a] s).b3 ≠ v →
      afterPoll (.eeByte a v true) s = .next { s with
        link := (sent [readFrame .eeprom a] s).link, verifyOk := false
        lastError := 10#8, response := [10#8], pending := none }) ∧
    afterPoll (.eeByte a v false) s = .next { s with lastError := 0#8, response := [0#8, 1#8], pending := none })

/-- R157, R159: `ERASE` sends `AC 80 00 00`, `WR_FUSE` its write frame (and sets `FUSE_DIRTY`), then one ready poll: not busy, the
operation returns; busy, it polls on, from a state with `pending` (the model's choice, log 6). `ERASE` does not set the session's
`ERASED`. The model faults of a pending write cycle and of a second fuse write before re-entry. -/
def Obligations.EraseAndWrFuse : Prop :=
  ∀ (s : State) (v : Byte) (k : FuseKind) (sub : Byte) (fs gs : List IspFrame),
    (k, sub) ∈ [(FuseKind.low, 0xA0#8), (.high, 0xA8#8), (.extended, 0xA4#8), (.lock, 0xE0#8)] →
    fs = [⟨0xAC#8, 0x80#8, 0x00#8, 0x00#8⟩, ⟨0xF0#8, 0x00#8, 0x00#8, 0x00#8⟩] →
    gs = [⟨0xAC#8, sub, 0x00#8, v⟩, ⟨0xF0#8, 0x00#8, 0x00#8, 0x00#8⟩] →
    (s.wpend = false → busyBit (lastReply fs s) = false →
      exec .erase s = .next { s with
        link := (sent fs s).link, busy := false, wpend := false, lastError := 0#8, response := [0#8], pending := none }) ∧
    (s.wpend = false → busyBit (lastReply fs s) = true →
      exec .erase s = .next { s with
        link := (sent fs s).link.wait .tPoll, busy := true, wpend := true, pending := some .plain }) ∧
    (s.wpend = false → s.fuseDirty = false → busyBit (lastReply gs s) = false →
      exec (.wrFuse k v) s = .next { s with
        link := (sent gs s).link, busy := false, wpend := false, fuseDirty := true
        lastError := 0#8, response := [0#8], pending := none }) ∧
    (s.wpend = false → s.fuseDirty = false → busyBit (lastReply gs s) = true →
      exec (.wrFuse k v) s = .next { s with
        link := (sent gs s).link.wait .tPoll, busy := true, wpend := true, fuseDirty := true, pending := some .plain }) ∧
    (s.wpend = true → exec .erase s = .fault .busyHazard ∧ exec (.wrFuse k v) s = .fault .busyHazard) ∧
    (s.wpend = false → s.fuseDirty = true → exec (.wrFuse k v) s = .fault .fuseReentryHazard)

/-! ### Hazards (spec/70_reset_and_hazards.md) -/

/-- R314: while a write cycle is pending, every operation the rule names is the model fault `BusyHazard` (after its operand and
address checks), and so is `PROG_BEGIN` through the `PGM_ENTER` it performs; `POLL_READY`, the codec operations and `STATUS` answer
a next state, and so does the poll frame sent through `CMD`. -/
def Obligations.WriteCycleHazard : Prop :=
  ∀ (s : State), s.wpend = true →
    (∀ (tx b0 b1 b2 b3 i val hi lo : Byte) (k : FuseKind) (ins : Instr), (⟨b0, b1, b2, b3⟩ : IspFrame) ≠ ⟨0xF0#8, 0x00#8, 0x00#8, 0x00#8⟩ →
      ins ∈ [Instr.xfer tx, .rstAssert, .rstRelease, .rstPulse, .linkRelease, .pgmEnter, .cmd b0 b1 b2 b3, .erase, .rdFuse k,
        .wrFuse k val, .setExt val] ++
        [.progEnable, .chipErase, .readSig i, .readFuseLo, .readFuseHi, .readFuseExt, .readLock, .writeFuseLo val, .writeFuseHi val,
        .writeFuseExt val, .writeLock val, .readEeprom hi lo, .writeEeprom hi lo val, .loadEepromPage i val,
        .writeEepromPage hi lo, .readFlashLo hi lo, .readFlashHi hi lo, .loadFlashLo i val, .loadFlashHi i val,
        .writeFlashPage hi lo, .loadExtAddr val] → exec ins s = .fault .busyHazard) ∧
    (∀ (a : Addr) (i v : Byte) (y : Bool) (buf : List Byte),
      (a.toNat < 32768 → exec (.rdByteFlash a) s = .fault .busyHazard) ∧
      (a.toNat < 1024 → exec (.rdByteEeprom a) s = .fault .busyHazard) ∧
      (a.toNat < 1024 → exec (.wrEebyte a v y) s = .fault .busyHazard) ∧
      (a.toNat < 32768 → buf.length = 128 → exec (.wrPageFlash a y buf) s = .fault .busyHazard) ∧
      (a.toNat < 1024 → buf.length = 4 → exec (.wrPageEeprom a y buf) s = .fault .busyHazard) ∧
      (i.toNat < 3 → exec (.rdSig i) s = .fault .busyHazard)) ∧
    (s.session.sstate ≠ .active →
      exec .progBeginFlash s = .fault .busyHazard ∧ exec .progBeginEeprom s = .fault .busyHazard) ∧
    (∀ (text bytes : List Byte) (a : Addr),
      ∀ ins ∈ [Instr.pollReady, .pollRdy, .cmd 0xF0#8 0x00#8 0x00#8 0x00#8, .hexDecode text, .hexEncData a bytes, .hexEncEnd, .status],
        ∃ t, exec ins s = .next t)

/-- R316: a fuse or lock write frame, by `WR_FUSE`, by its own instruction or by `CMD`, is the model fault `FuseReentryHazard`
while `FUSE_DIRTY` = 1 (and no write cycle is pending); reading fuses then is no fault; a `PGM_ENTER` that succeeds (`SYNC_OK`
= 1 after it) clears the flag, and nothing else does, neither an operation nor what one that waited goes on to do (the wait: log 6). -/
def Obligations.FuseReentryHazard : Prop :=
  (∀ (s : State), s.wpend = false → s.fuseDirty = true →
    (∀ (k : FuseKind) (v : Byte), ∀ ins ∈ [Instr.wrFuse k v, .writeFuseLo v, .writeFuseHi v, .writeFuseExt v, .writeLock v,
        .cmd 0xAC#8 0xA0#8 0x00#8 v, .cmd 0xAC#8 0xA8#8 0x00#8 v, .cmd 0xAC#8 0xA4#8 0x00#8 v, .cmd 0xAC#8 0xE0#8 0x00#8 v],
      exec ins s = .fault .fuseReentryHazard) ∧
    (∀ k : FuseKind, ∀ ins ∈ [Instr.rdFuse k, .readFuseLo, .readFuseHi, .readFuseExt, .readLock], ∃ t, exec ins s = .next t)) ∧
  (∀ (s t : State) (ins : Instr), s.fuseDirty = true → exec ins s = .next t → t.fuseDirty = false →
    t.syncOk = true ∧ ins ∈ [Instr.pgmEnter, .progBeginFlash, .progBeginEeprom]) ∧
  (∀ s t : State, exec .pgmEnter s = .next t → t.syncOk = true → t.fuseDirty = false) ∧
  (∀ (s t : State), s.fuseDirty = true → s.pending ≠ none → step s = .next t → t.fuseDirty = true)

/-! ### HexCodec (spec/43_hex_codec.md) -/

/-- R196: a data record encoded and decoded is the record; a decoded data line without characters after its checksum, encoded, is
the line with its hex digits in uppercase; the end-of-file record decodes as itself. -/
def Obligations.HexRoundTrip : Prop :=
  (∀ (a : Addr) (bytes : List Byte), bytes.length ≤ 16 →
    decodeLine (encodeDataRecord a bytes) = .ok ⟨BitVec.ofNat 8 bytes.length, a, 0x00#8, bytes⟩) ∧
  (∀ (text : List Byte) (r : HexRecord), decodeLine text = .ok r → r.type = 0x00#8 →
    (strip text).length = 11 + 2 * r.count.toNat → encodeDataRecord r.addr r.data = (strip text).map upperDigit) ∧
  decodeLine encodeEndRecord = .ok ⟨0x00#8, 0x0000#16, 0x01#8, []⟩

/-- R197, R91: the checksum is the two's complement of the field sum, and the fields of a line with it sum to 0 modulo 256. -/
def Obligations.ChecksumIdentity : Prop :=
  ∀ (n ah al t : Byte) (d : List Byte),
    (checksum n ah al t d).toNat = (256 - (n.toNat + ah.toNat + al.toNat + t.toNat + (d.map (·.toNat)).sum) % 256) % 256 ∧
    (n.toNat + ah.toNat + al.toNat + t.toNat + (d.map (·.toNat)).sum + (checksum n ah al t d).toNat) % 256 = 0

/-- R198: a line that differs from an accepted one only in one bit of the checksum byte's value, or in one bit of one data byte's
value, is refused with `WrongChecksum`. The lines may be spelled in any case and carry any characters after the checksum. -/
def Obligations.SingleBitErrorsAreFound : Prop :=
  ∀ (text text' : List Byte) (r : HexRecord) (p b : Nat) (v : Byte),
    decodeLine text = .ok r → b < 8 →
    (p = 9 + 2 * r.count.toNat ∨ ∃ k, k < r.count.toNat ∧ p = 9 + 2 * k) →
    (strip text').length = (strip text).length → (strip text').head? = (strip text).head? →
    (∀ q, q % 2 = 1 → q ≠ p → hexByte (strip text') q = hexByte (strip text) q) →
    hexByte (strip text) p = some v → hexByte (strip text') p = some (v ^^^ (1#8 <<< b)) →
    decodeLine text' = .error .wrongChecksum

/-- R184 to R191: the eight checks, each applied when the ones before it pass, the first that fails deciding the error. -/
def Obligations.ParseErrorsInOrder : Prop :=
  ∀ (text line : List Byte), line = strip text →
    (decodeLine text = .error .tooShort ↔ line.length < 11) ∧
    (decodeLine text = .error .wrongStart ↔ 11 ≤ line.length ∧ line.head? ≠ some 0x3A#8) ∧
    (11 ≤ line.length → line.head? = some 0x3A#8 →
      (decodeLine text = .error .wrongLength ↔ ∀ n, hexByte line 1 = some n → 16 < n.toNat) ∧
      ∀ n : Byte, hexByte line 1 = some n → n.toNat ≤ 16 →
        (decodeLine text = .error .wrongAddressHigh ↔ hexByte line 3 = none) ∧
        (decodeLine text = .error .wrongAddressLow ↔ hexByte line 3 ≠ none ∧ hexByte line 5 = none) ∧
        (decodeLine text = .error .wrongType ↔
          hexByte line 3 ≠ none ∧ hexByte line 5 ≠ none ∧ ∀ t, hexByte line 7 = some t → 5 < t.toNat) ∧
        ∀ ah al t : Byte, hexByte line 3 = some ah → hexByte line 5 = some al → hexByte line 7 = some t → t.toNat ≤ 5 →
          (decodeLine text = .error .wrongData ↔ ∃ k, k < n.toNat ∧ hexByte line (9 + 2 * k) = none) ∧
          ∀ d : List Byte, d.length = n.toNat → (∀ k, k < n.toNat → hexByte line (9 + 2 * k) = d[k]?) →
            (decodeLine text = .error .wrongChecksum ↔
              hexByte line (9 + 2 * n.toNat) ≠ some (checksum n ah al t d)) ∧
            (hexByte line (9 + 2 * n.toNat) = some (checksum n ah al t d) →
              ∃ r, decodeLine text = .ok r ∧ r.count = n ∧ r.addr.toNat = ah.toNat * 256 + al.toNat ∧ r.type = t ∧ r.data = d))

/-- R181, R182, R89: `Strip` removes the line-ending characters at the end, all of them and nothing else. The 22 hex digits and
their values; every other character is none; a byte is two of them, the high digit first. -/
def Obligations.HexCharacters : Prop :=
  (∀ text : List Byte, ∃ ends : List Byte,
    text = strip text ++ ends ∧ (∀ c ∈ ends, c = 0x0D#8 ∨ c = 0x0A#8) ∧
    ∀ c, (strip text).getLast? = some c → c ≠ 0x0D#8 ∧ c ≠ 0x0A#8) ∧
  (∀ c : Byte, ∀ n : Nat, hexVal c = some n ↔
    (c.toNat = 0x30 + n ∧ n < 10) ∨ (10 ≤ n ∧ n < 16 ∧ (c.toNat = 0x41 + (n - 10) ∨ c.toNat = 0x61 + (n - 10)))) ∧
  (∀ (cs : List Byte) (p : Nat) (v : Byte), hexByte cs p = some v ↔
    ∃ c d h l, cs[p]? = some c ∧ cs[p + 1]? = some d ∧ hexVal c = some h ∧ hexVal d = some l ∧ v.toNat = 16 * h + l)

/-- R183, R194, R195: the codec's operations perform no event. `HEX_DECODE` writes `REC` and returns the record, or returns its
parse error and writes nothing but `LAST_ERROR`. `HEX_ENC_DATA` returns a text of 11 + 2n characters, or `WrongLength` (4) for n > 16.
`HEX_ENC_END` returns ":00000001FF". -/
def Obligations.HexOperations : Prop :=
  ∀ (s : State) (text bytes : List Byte) (a : Addr),
    (∀ r, text.length < 256 → decodeLine text = .ok r →
      exec (.hexDecode text) s = .next { s with
        record := .written r, lastError := 0#8
        response := [0#8, r.count, BitVec.ofNat 8 (r.addr.toNat / 256), BitVec.ofNat 8 r.addr.toNat, r.type] ++ r.data
        pending := none }) ∧
    (∀ e, text.length < 256 → decodeLine text = .error e →
      exec (.hexDecode text) s = .next { s with lastError := e.code, response := [e.code], pending := none }) ∧
    (bytes.length ≤ 16 →
      (encodeDataRecord a bytes).length = 11 + 2 * bytes.length ∧
      exec (.hexEncData a bytes) s = .next { s with
        lastError := 0#8, pending := none
        response := [0#8, BitVec.ofNat 8 (11 + 2 * bytes.length)] ++ encodeDataRecord a bytes }) ∧
    (16 < bytes.length → bytes.length < 256 →
      exec (.hexEncData a bytes) s = .next { s with lastError := 4#8, response := [4#8], pending := none }) ∧
    exec .hexEncEnd s = .next { s with
      lastError := 0#8, pending := none
      response := [0#8, 11#8, 0x3A#8, 0x30#8, 0x30#8, 0x30#8, 0x30#8, 0x30#8, 0x30#8, 0x30#8, 0x31#8, 0x46#8, 0x46#8] }

/-! ### Write controller (spec/44_write_controller.md) -/

/-- R230: `PROG_LINE` and `PROG_FINISH` with no active session return `NoSession` (15), `PROG_BEGIN` with one returns
`SessionActive` (16); none performs an event or writes a field but `LAST_ERROR`. -/
def Obligations.WrongSessionState : Prop :=
  ∀ (s : State) (text : List Byte), text.length < 256 →
    (s.session.sstate ≠ .active → ∀ ins ∈ [Instr.progLine text, .progFinish],
      exec ins s = .next { s with lastError := 15#8, response := [15#8], pending := none }) ∧
    (s.session.sstate = .active → ∀ ins ∈ [Instr.progBeginFlash, .progBeginEeprom],
      exec ins s = .next { s with lastError := 16#8, response := [16#8], pending := none })

/-- R211, R212: `PROG_BEGIN EEPROM` starts the session, synchronises (attempt n + 1), reads the signature and completes if it is a
known one; an unknown signature aborts with `SignatureError` (14), no synchronisation with `LinkError` (1), and the link is released. -/
def Obligations.ProgBeginEepromOpensASession : Prop :=
  ∀ (s u : State) (n : Nat) (sgs : List IspFrame), s.wpend = false → s.session.sstate ≠ .active → n < 5 →
    sgs = [⟨0x30#8, 0x00#8, 0x00#8, 0x00#8⟩, ⟨0x30#8, 0x00#8, 0x01#8, 0x00#8⟩, ⟨0x30#8, 0x00#8, 0x02#8, 0x00#8⟩] →
    u = { s with link := s.link.tried n } →
    let began : Session := { s.session with
      sstate := .active, region := .eeprom, erased := false, page := s.session.page.close, lineNo := 0#16 }
    (∀ sig : Signature, SyncsAt n s → (replies sgs u).map (·.b3) = [sig.s0, sig.s1, sig.s2] → sig ∈ s.params.knownSignatures →
      exec .progBeginEeprom s = .next { s with
        link := (sent sgs u).link, pstate := .programming, attempt := n + 1, syncOk := true, fuseDirty := false, sig := .written sig
        session := began, lastError := 0#8, response := [0#8], pending := none }) ∧
    (∀ sig : Signature, SyncsAt n s → (replies sgs u).map (·.b3) = [sig.s0, sig.s1, sig.s2] → sig ∉ s.params.knownSignatures →
      exec .progBeginEeprom s = .next { s with
        link := (sent sgs u).link.release, pstate := .idle, attempt := n + 1, syncOk := true, fuseDirty := false, sig := .written sig
        session := { began with sstate := .aborted }, lastError := 14#8, response := [14#8], pending := none }) ∧
    (NeverSyncs s →
      exec .progBeginEeprom s = .next { s with
        link := (s.link.tried 4).release, pstate := .idle, attempt := 5, syncOk := false
        session := { began with sstate := .aborted }, lastError := 1#8, response := [1#8], pending := none })

/-- R210: `PROG_BEGIN FLASH` does the same and then the chip erase: not busy at its first poll, it sets `ERASED` and completes;
busy, it polls on, and sets `ERASED` and completes after the poll that reads not busy; the aborts are those of the EEPROM session. The
state in which it waits (`pending`, `afterPoll`) is the model's choice, log 6. -/
def Obligations.ProgBeginFlashErases : Prop :=
  (∀ s : State, afterPoll .beginErase s = .next { s with
    session := { s.session with erased := true }, lastError := 0#8, response := [0#8], pending := none }) ∧
  ∀ (s u : State) (n : Nat) (sgs ers : List IspFrame), s.wpend = false → s.session.sstate ≠ .active → n < 5 →
    sgs = [⟨0x30#8, 0x00#8, 0x00#8, 0x00#8⟩, ⟨0x30#8, 0x00#8, 0x01#8, 0x00#8⟩, ⟨0x30#8, 0x00#8, 0x02#8, 0x00#8⟩] →
    ers = [⟨0xAC#8, 0x80#8, 0x00#8, 0x00#8⟩, ⟨0xF0#8, 0x00#8, 0x00#8, 0x00#8⟩] →
    u = { s with link := s.link.tried n } →
    let began : Session := { s.session with
      sstate := .active, region := .flash, erased := false, page := s.session.page.close, lineNo := 0#16 }
    (∀ sig : Signature, SyncsAt n s → (replies sgs u).map (·.b3) = [sig.s0, sig.s1, sig.s2] → sig ∈ s.params.knownSignatures →
      (busyBit (lastReply (sgs ++ ers) u) = false →
        exec .progBeginFlash s = .next { s with
          link := (sent (sgs ++ ers) u).link, pstate := .programming, attempt := n + 1, syncOk := true, fuseDirty := false
          busy := false, wpend := false, sig := .written sig
          session := { began with erased := true }, lastError := 0#8, response := [0#8], pending := none }) ∧
      (busyBit (lastReply (sgs ++ ers) u) = true →
        exec .progBeginFlash s = .next { s with
          link := (sent (sgs ++ ers) u).link.wait .tPoll, pstate := .programming, attempt := n + 1, syncOk := true
          fuseDirty := false, busy := true, wpend := true, sig := .written sig, session := began, pending := some .beginErase })) ∧
    (∀ sig : Signature, SyncsAt n s → (replies sgs u).map (·.b3) = [sig.s0, sig.s1, sig.s2] → sig ∉ s.params.knownSignatures →
      exec .progBeginFlash s = .next { s with
        link := (sent sgs u).link.release, pstate := .idle, attempt := n + 1, syncOk := true, fuseDirty := false, sig := .written sig
        session := { began with sstate := .aborted }, lastError := 14#8, response := [14#8], pending := none }) ∧
    (NeverSyncs s →
      exec .progBeginFlash s = .next { s with
        link := (s.link.tried 4).release, pstate := .idle, attempt := 5, syncOk := false
        session := { began with sstate := .aborted }, lastError := 1#8, response := [1#8], pending := none })

/-- R213, R220, R221, R225, R227: a line that does not decode, a record outside its region, a record of type 02, 03 or 05, and a
type 04 record whose count is not 2 abort the session before any frame: the open page is discarded, the session is Aborted, the
link is released, `PSTATE` is Idle, and the error is returned with `LINE_NO`. -/
def Obligations.BadLineAbortsTheSession : Prop :=
  ∀ (s : State) (text : List Byte) (e : Err) (rec : Reg HexRecord), s.wpend = false → s.session.sstate = .active → text.length < 256 →
    ((decodeLine text = .error e ∧ rec = s.record) ∨
      ∃ r, decodeLine text = .ok r ∧ rec = .written r ∧
        ((r.type = 0x00#8 ∧ capacity s.session.region < r.addr.toNat + r.count.toNat ∧ e = .addressRangeError) ∨
         (r.type = 0x00#8 ∧ capacity s.session.region ≤ r.addr.toNat ∧ e = .addressRangeError) ∨
         ((r.type = 0x02#8 ∨ r.type = 0x03#8 ∨ r.type = 0x05#8) ∧ e = .unexpectedType) ∨
         (r.type = 0x04#8 ∧ r.count ≠ 2#8 ∧ (s.session.region = .flash ∨ s.params.eeExtPolicy = .forward) ∧
          e = .unexpectedType))) →
    exec (.progLine text) s = .next { s with
      link := s.link.release, pstate := .idle, record := rec
      session := { s.session with lineNo := s.session.lineNo + 1, page := s.session.page.close, sstate := .aborted }
      lastError := e.code
      response := [e.code, BitVec.ofNat 8 ((s.session.lineNo + 1).toNat / 256), BitVec.ofNat 8 (s.session.lineNo + 1).toNat]
      pending := none }

/-- R216, R217, R219: a data record of a flash pass that lies in one page, with that page open or no page open, is merged into
the page buffer without any event: bytes of the record at their offsets, the others as they were (0xFF in a page just opened). -/
def Obligations.DataRecordIsMerged : Prop :=
  ∀ (s : State) (text : List Byte) (r : HexRecord) (old : List Byte), s.session.sstate = .active → s.session.region = .flash →
    text.length < 256 → decodeLine text = .ok r → r.type = 0x00#8 → r.addr.toNat + r.count.toNat ≤ 32768 → r.addr.toNat < 32768 →
    r.addr.toNat % 128 + r.count.toNat ≤ 128 → old.length = 128 →
    (s.session.page = .opened (pageBase .flash r.addr) old ∨
      (s.session.pageOpen = false ∧ old = List.replicate 128 0xFF#8)) →
    ∃ new : List Byte,
      exec (.progLine text) s = .next { s with
        record := .written r
        session := { s.session with
          lineNo := s.session.lineNo + 1, page := .opened (pageBase .flash r.addr) new }
        lastError := 0#8, response := [0#8], pending := none } ∧
      new.length = 128 ∧
      ∀ j, j < 128 → new[j]? =
        if r.addr.toNat % 128 ≤ j ∧ j < r.addr.toNat % 128 + r.count.toNat then r.data[j - r.addr.toNat % 128]? else old[j]?

/-- R218, R219, R228, D20. A data record of another page than the open one first writes the open page, verified: its frames, the poll
and the readback of the whole page (`FlushOutcome`: all equal, or the first mismatch aborts with `VerifyError`). It then goes on exactly
as it would with no page open, whether it lies in one page or crosses into the next; one that lies in one page leaves its page open
with its bytes in it. A record that crosses a page boundary fills its first page (the open one or a new one), writes that page when
the first byte of the next page arrives, and leaves the next page open with the rest of its bytes in it. A flush whose poll reads busy
leaves the line waiting with the page already closed, and after the last poll the readback and the rest of the record follow, for each
of these; that wait (`pending`, `afterPoll`) is the model's choice, log 6. -/
def Obligations.FlushPrecedesTheNextPage : Prop :=
  let blank : List Byte := List.replicate 128 0xFF#8
  (∀ (s u v : State) (text : List Byte) (r : HexRecord) (base : Addr) (pb : List Byte) (fs : List IspFrame),
    s.wpend = false → s.session.sstate = .active → s.session.region = .flash → text.length < 256 →
    decodeLine text = .ok r → r.type = 0x00#8 → r.addr.toNat + r.count.toNat ≤ 32768 → r.addr.toNat < 32768 →
    s.session.page = .opened base pb → pb.length = 128 → base.toNat % 128 = 0 → base.toNat < 32768 →
    base ≠ pageBase .flash r.addr → fs = pageFrames .flash base pb →
    u = { s with record := .written r, session := { s.session with lineNo := s.session.lineNo + 1, page := s.session.page.close } } →
    v = { u with link := (sent fs s).link, busy := false, wpend := false } →
    (busyBit (lastReply fs s) = true →
      exec (.progLine text) s = .next { u with
        link := (sent fs s).link.wait .tPoll, busy := true, wpend := true, pending := some (.lineFlush base pb r.addr r.data) }) ∧
    (busyBit (lastReply fs s) = false →
      (FlushOutcome base pb true v (exec (.progLine text) s) fun t =>
        exec (.progLine text) { t with session := { t.session with lineNo := s.session.lineNo } }) ∧
      (r.addr.toNat % 128 + r.count.toNat ≤ 128 → FlushOutcome base pb true v (exec (.progLine text) s) fun t =>
        .next (t.pageFilled (pageBase .flash r.addr) (mergedPage blank (r.addr.toNat % 128) r.data))))) ∧
  (∀ (s u v : State) (text : List Byte) (r : HexRecord) (n : Nat) (base : Addr) (old pb : List Byte) (fs : List IspFrame),
    s.wpend = false → s.session.sstate = .active → s.session.region = .flash → text.length < 256 →
    decodeLine text = .ok r → r.type = 0x00#8 → r.addr.toNat + r.count.toNat ≤ 32768 → base = pageBase .flash r.addr →
    ((s.session.page = .opened base old ∧ old.length = 128) ∨
      (s.session.pageOpen = false ∧ old = blank)) →
    n = 128 - r.addr.toNat % 128 → n < r.count.toNat → pb = mergedPage old (r.addr.toNat % 128) (r.data.take n) →
    fs = pageFrames .flash base pb →
    u = { s with record := .written r, session := { s.session with
      lineNo := s.session.lineNo + 1, page := .closed (.written base) (.written pb) } } →
    v = { u with link := (sent fs s).link, busy := false, wpend := false } →
    (busyBit (lastReply fs s) = true →
      exec (.progLine text) s = .next { u with
        link := (sent fs s).link.wait .tPoll, busy := true, wpend := true
        pending := some (.lineFlush base pb (base + 128#16) (r.data.drop n)) }) ∧
    (busyBit (lastReply fs s) = false → FlushOutcome base pb true v (exec (.progLine text) s) fun t =>
      .next (t.pageFilled (base + 128#16) (mergedPage blank 0 (r.data.drop n))))) ∧
  (∀ (t : State) (base a : Addr) (pb data : List Byte), t.wpend = false → pb.length = 128 → base.toNat + 128 ≤ 32768 →
    a.toNat < 32768 → a.toNat % 128 + data.length ≤ 128 →
    FlushOutcome base pb true t (afterPoll (.lineFlush base pb a data) t) fun t =>
      .next (t.pageFilled (pageBase .flash a) (mergedPage blank (a.toNat % 128) data))) ∧
  (∀ (t : State) (text : List Byte) (r : HexRecord) (base : Addr) (pb : List Byte), t.wpend = false → pb.length = 128 →
    base.toNat + 128 ≤ 32768 → t.session.sstate = .active → t.session.region = .flash → text.length < 256 →
    decodeLine text = .ok r → t.record = .written r → r.type = 0x00#8 → r.addr.toNat + r.count.toNat ≤ 32768 →
    r.addr.toNat < 32768 →
    FlushOutcome base pb true t (afterPoll (.lineFlush base pb r.addr r.data) t) fun t =>
      exec (.progLine text) { t with session := { t.session with lineNo := t.session.lineNo - 1, page := t.session.page.close } })

/-- R223: a data record of an EEPROM pass sends, byte by byte, the write, a ready poll and the readback (`EeBytesOutcome`). If every
poll reads not busy and every byte reads back, the line completes. The first byte that reads back otherwise, the k-th, aborts the
session with `VerifyError` (10) after 3 (k + 1) frames. The first byte whose poll reads busy leaves the line waiting; after its last
poll that byte is read back, and the bytes after it follow in the same way. The wait (`pending`, `afterPoll`) is the model's choice,
log 6. -/
def Obligations.EepromRecordIsWrittenByteByByte : Prop :=
  (∀ (s u : State) (text : List Byte) (r : HexRecord),
    s.wpend = false → s.session.sstate = .active → s.session.region = .eeprom → text.length < 256 →
    decodeLine text = .ok r → r.type = 0x00#8 → r.addr.toNat + r.count.toNat ≤ 1024 → r.addr.toNat < 1024 →
    u = { s with record := .written r, session := { s.session with lineNo := s.session.lineNo + 1 } } →
    EeBytesOutcome r.addr.toNat r.data u (exec (.progLine text) s)) ∧
  (∀ (t : State) (a : Addr) (v : Byte) (rest : List Byte) (rd : IspFrame),
    t.wpend = false → a.toNat + 1 + rest.length ≤ 1024 →
    rd = ⟨0xA0#8, BitVec.ofNat 8 (a.toNat / 256), BitVec.ofNat 8 a.toNat, 0x00#8⟩ →
    ((lastReply [rd] t).b3 = v →
      EeBytesOutcome (a.toNat + 1) rest { t with link := (sent [rd] t).link, verifyOk := true }
        (afterPoll (.lineEeByte a v rest) t)) ∧
    ((lastReply [rd] t).b3 ≠ v →
      afterPoll (.lineEeByte a v rest) t =
        .next (State.abortedBy .verifyError true { t with link := (sent [rd] t).link, verifyOk := false })))

/-- R221, R224: a type 04 record of count 2 forwards its low data byte at once, in a flash pass and, with `EE_EXT_POLICY` =
Forward, in an EEPROM pass; the open page stays as it is. With Ignore an EEPROM pass sends and checks nothing. -/
def Obligations.ExtendedAddressIsForwarded : Prop :=
  ∀ (s u : State) (text : List Byte) (r : HexRecord), s.session.sstate = .active → text.length < 256 →
    decodeLine text = .ok r → r.type = 0x04#8 →
    u = { s with record := .written r, session := { s.session with lineNo := s.session.lineNo + 1 } } →
    (∀ hi lo : Byte, s.wpend = false → r.data = [hi, lo] → (s.session.region = .flash ∨ s.params.eeExtPolicy = .forward) →
      exec (.progLine text) s = .next { u with
        link := (sent [⟨0x4D#8, 0x00#8, lo, 0x00#8⟩] s).link, lastError := 0#8, response := [0#8], pending := none }) ∧
    (s.session.region = .eeprom → s.params.eeExtPolicy = .ignore →
      exec (.progLine text) s = .next { u with lastError := 0#8, response := [0#8], pending := none })

/-- R222, R226, R233, R218: the end-of-file record and `PROG_FINISH`, with no page open, complete the session: Done, link released,
`PSTATE` Idle. With a page open it is written and verified first (`FlushOutcome`): not busy and read back, the session completes; the
first byte that reads back otherwise aborts it with `VerifyError` (10), returned with `LINE_NO` by the end-of-file record and without
it by `PROG_FINISH`. Busy, the operation waits, and the readback and the completion follow its last poll; that wait (`pending`,
`afterPoll`) is the model's choice, log 6. -/
def Obligations.SessionCompletes : Prop :=
  let done : State → Out := fun t => .next { t with
    link := t.link.release, pstate := .idle, session := { t.session with sstate := .done }
    lastError := 0#8, response := [0#8], pending := none }
  (∀ (s u : State) (ins : Instr) (inLine : Bool), s.wpend = false → s.session.sstate = .active →
    ((ins = .progFinish ∧ u = s ∧ inLine = false) ∨
      ∃ text r, ins = .progLine text ∧ text.length < 256 ∧ decodeLine text = .ok r ∧ r.type = 0x01#8 ∧ inLine = true ∧
        u = { s with record := .written r, session := { s.session with lineNo := s.session.lineNo + 1 } }) →
    (s.session.pageOpen = false → exec ins s = done u) ∧
    (∀ (v : State) (base : Addr) (pb : List Byte) (fs : List IspFrame),
      s.session.page = .opened base pb → pb.length = 128 → base.toNat % 128 = 0 → base.toNat < 32768 →
      fs = pageFrames .flash base pb →
      v = { u with link := (sent fs s).link, session := { u.session with page := u.session.page.close } } →
      (busyBit (lastReply fs s) = false →
        FlushOutcome base pb inLine { v with busy := false, wpend := false } (exec ins s) done) ∧
      (busyBit (lastReply fs s) = true →
        exec ins s = .next { v with
          link := v.link.wait .tPoll, busy := true, wpend := true, pending := some (.endFlush base pb inLine) }))) ∧
  (∀ (t : State) (base : Addr) (pb : List Byte) (inLine : Bool), t.wpend = false → pb.length = 128 → base.toNat + 128 ≤ 32768 →
    FlushOutcome base pb inLine t (afterPoll (.endFlush base pb inLine) t) done)

/-- R234, R222, R230: no record after the end-of-file record is processed. The end-of-file record ends the session, at once or, where
its flush waits, when that wait ends; once a session is not active, no step makes one active but a `PROG_BEGIN`; and while none is
active, every line is refused with `NoSession` (15) and nothing else of it is done. The waiting state and its steps are the model's
choice, log 6. -/
def Obligations.NothingFollowsTheEndOfFile : Prop :=
  (∀ (s t : State) (text : List Byte) (r : HexRecord), s.session.sstate = .active → text.length < 256 →
    decodeLine text = .ok r → r.type = 0x01#8 → exec (.progLine text) s = .next t →
    (t.pending = none → t.session.sstate = .done ∨ t.session.sstate = .aborted) ∧
    (t.pending ≠ none → ∃ base pb, t.pending = some (.endFlush base pb true))) ∧
  (∀ (s t : State) (base : Addr) (pb : List Byte) (inLine : Bool), s.pending = some (.endFlush base pb inLine) → step s = .next t →
    t.pending = s.pending ∨ (t.pending = none ∧ (t.session.sstate = .done ∨ t.session.sstate = .aborted))) ∧
  (∀ s t : State, s.session.sstate ≠ .active → step s = .next t →
    (∀ rest, nextWork s ≠ .run .progBeginFlash rest ∧ nextWork s ≠ .run .progBeginEeprom rest) → t.session.sstate ≠ .active) ∧
  (∀ (s : State) (line : List Byte), s.session.sstate ≠ .active → line.length < 256 →
    exec (.progLine line) s = .next { s with lastError := 15#8, response := [15#8], pending := none })

/-- R41, R232: `STATUS` returns the status word high byte first, performs no event, and leaves `LAST_ERROR` 0; the word is the sum
of its fields at their places. -/
def Obligations.StatusWord : Prop :=
  ∀ s : State,
    exec .status s = .next { s with
      lastError := 0#8, pending := none
      response := [0#8, BitVec.ofNat 8 ((statusWord s).toNat / 16777216), BitVec.ofNat 8 ((statusWord s).toNat / 65536),
        BitVec.ofNat 8 ((statusWord s).toNat / 256), BitVec.ofNat 8 (statusWord s).toNat] } ∧
    (statusWord s).toNat =
      (match s.pstate with | .idle => 0 | .syncing => 1 | .programming => 2 | .failed => 3) +
      4 * (match s.session.sstate with | .none => 0 | .active => 1 | .done => 2 | .aborted => 3) +
      16 * (match s.session.region with | .flash => 0 | .eeprom => 1) +
      32 * s.session.erased.toNat + 64 * s.session.pageOpen.toNat + 128 * s.busy.toNat + 256 * s.wpend.toNat +
      512 * s.fuseDirty.toNat + 1024 * s.syncOk.toNat + 2048 * s.verifyOk.toNat + 4096 * (s.attempt % 16) +
      65536 * s.lastError.toNat


/-! ### The whole machine -/

/-- R230: only the three session operations write the session fields and `SIG`; `REC` is written by them and `HEX_DECODE`; no
operation writes the parameters or the host's queue. The same of a step that goes on with an operation that waits (log 6): only a
session operation's wait writes the session fields, and none writes `SIG` or `REC`. -/
def Obligations.OnlySessionOperationsWriteTheSession : Prop :=
  (∀ (s t : State) (ins : Instr), exec ins s = .next t →
    (t.params = s.params ∧ t.inbox = s.inbox) ∧
    (ins ≠ .progBeginFlash → ins ≠ .progBeginEeprom → t.sig = s.sig) ∧
    (ins ≠ .progBeginFlash → ins ≠ .progBeginEeprom → (∀ text, ins ≠ .progLine text) → ins ≠ .progFinish → t.session = s.session) ∧
    ((∀ text, ins ≠ .progLine text) → (∀ text, ins ≠ .hexDecode text) → t.record = s.record)) ∧
  (∀ (s t : State) (k : Pending), s.pending = some k → step s = .next t →
    t.params = s.params ∧ t.inbox = s.inbox ∧ t.sig = s.sig ∧ t.record = s.record ∧
    ((k = .plain ∨ (∃ a v y, k = .eeByte a v y) ∨ ∃ region a buf y, k = .page region a buf y) → t.session = s.session))

/-- R134, R114 to R117: only `PGM_ENTER`, the three reset operations and `LINK_RELEASE`, and the session operations through them,
write `PSTATE` or drive `RST`; only the synchronisation writes `ATTEMPT` and `SYNC_OK`. The same of a step that goes on with an
operation that waits (log 6): only a flush or an EEPROM record of a session, which may end it, writes `PSTATE` or drives `RST`. -/
def Obligations.ProtocolStateWriters : Prop :=
  (∀ (s t : State) (ins : Instr), exec ins s = .next t →
    (ins ∉ [Instr.rstAssert, .rstRelease, .rstPulse, .linkRelease, .pgmEnter, .progBeginFlash, .progBeginEeprom, .progFinish] →
      (∀ text, ins ≠ .progLine text) → t.pstate = s.pstate ∧ t.link.rst = s.link.rst) ∧
    (ins ∉ [Instr.pgmEnter, .progBeginFlash, .progBeginEeprom] → t.attempt = s.attempt ∧ t.syncOk = s.syncOk) ∧
    (ins = .rstAssert → t.pstate = s.pstate)) ∧
  (∀ (s t : State) (k : Pending), s.pending = some k → step s = .next t →
    t.attempt = s.attempt ∧ t.syncOk = s.syncOk ∧
    ((k = .plain ∨ k = .beginErase ∨ (∃ a v y, k = .eeByte a v y) ∨ ∃ region a buf y, k = .page region a buf y) →
      t.pstate = s.pstate ∧ t.link.rst = s.link.rst))

/-- R40, R280, R92: an operation that returns gives the host a status byte, the value it leaves in `LAST_ERROR`. One that waits
has given the host nothing yet, and its last poll read busy; the same of an operation that goes on. That an operation can be seen
waiting (`pending`) is the model's choice, log 6, and so is `response`, log 1. -/
def Obligations.StatusByteIsLastError : Prop :=
  (∀ (s t : State) (ins : Instr), exec ins s = .next t →
    (t.pending = none → ∃ rest, t.response = t.lastError :: rest) ∧
    (t.pending ≠ none → t.response = s.response ∧ t.lastError = s.lastError ∧ t.busy = true)) ∧
  (∀ (s t : State), s.pending ≠ none → step s = .next t →
    (t.pending = none → ∃ rest, t.response = t.lastError :: rest) ∧
    (t.pending ≠ none → t.response = s.response ∧ t.lastError = s.lastError ∧ t.busy = true))

/-- The invariant of the machine (the session, the ranges of counters and codes, the record, the canonical memories): every step
keeps it, from every state that has it. -/
def Obligations.StepKeepsMachineInv : Prop :=
  ∀ s t : State, MachineInv s → step s = .next t → MachineInv t

/-- The state after reset has the invariant. -/
def Obligations.ResetHasMachineInv : Prop := MachineInv State.reset

/-- R310: the value block reset gives every field; the registers R310 gives "no value" are not written (what they hold is the
model's choice, log 4, and not stated here); it has performed no event, and no operation has been issued (log 1). -/
def Obligations.ResetState : Prop :=
  State.reset.link.sck = .hiZ ∧ State.reset.link.mosi = .hiZ ∧ State.reset.link.rst = .hiZ ∧
  State.reset.link.txsr.isWritten = false ∧ State.reset.link.rxsr.isWritten = false ∧ State.reset.link.bitcnt = 0 ∧
  State.reset.link.frameTx.isWritten = false ∧ State.reset.link.frameRx.isWritten = false ∧ trace State.reset = [] ∧
  State.reset.sig.isWritten = false ∧ State.reset.record.isWritten = false ∧ State.reset.pstate = .idle ∧ State.reset.attempt = 0 ∧
  State.reset.syncOk = false ∧ State.reset.busy = false ∧ State.reset.wpend = false ∧ State.reset.fuseDirty = false ∧
  State.reset.verifyOk = false ∧ State.reset.session.sstate = .none ∧ State.reset.session.region = .flash ∧
  State.reset.session.erased = false ∧ State.reset.session.pageOpen = false ∧ State.reset.session.pageBase.isWritten = false ∧
  State.reset.session.pb.isWritten = false ∧ State.reset.session.lineNo = 0#16 ∧
  State.reset.lastError = 0#8 ∧ statusWord State.reset = 0#32 ∧ State.reset.inbox = [] ∧ State.reset.pending = none ∧
  Clean State.reset ∧ step State.reset = .next State.reset

/-! ### The reference target (spec/20_memory.md R72 to R79) -/

/-- R72: `PGM_ENTER` against the reference target with no write cycle running: in sync at the first attempt it succeeds there and the
target is in programming mode at a frame boundary, its memories as they were. That the frame boundary is where `RST` was last driven into
Low (so that an attempt that finds `RST` not low, or no frame in progress, is in step) is the model's choice, log 8, and `nextSync`, the
draw `TGT_SYNC` taken ahead, is log 10's; that a target with a lock or fuse change still synchronises is the model's choice, log 14. From
Running, every fuse and lock byte written before takes effect then (R78); that none does at a target still in programming mode is the
model's choice, log 17. Driving reset `High` or `HiZ` returns the target to Running, whatever its level was, and changes no fuse or lock
byte. -/
def Obligations.TargetSynchronises : Prop :=
  ∀ s : State, s.wpend = false → s.link.env.kind = .reference → s.link.env.target.busy = some 0 →
    ((s.link.rst ≠ .low ∨ s.link.env.target.rx = []) → s.link.env.target.nextSync = true →
      ∃ t, exec .pgmEnter s = .next t ∧ t.response = [0#8, 1#8] ∧ t.syncOk = true ∧ t.attempt = 1 ∧ t.pstate = .programming ∧
        t.link.env.target.mode = .progEnabled ∧ t.link.env.target.rx = [] ∧ t.link.env.target.busy = some 0 ∧ SameMemory s t ∧
        ∀ k, fuseAt t k =
          if s.link.env.target.mode = .running then ⟨(fuseAt s k).new, (fuseAt s k).new⟩ else fuseAt s k) ∧
    (∀ ins ∈ [Instr.rstRelease, .rstPulse, .linkRelease],
      ∃ t, exec ins s = .next t ∧ t.link.env.target.mode = .running ∧ SameMemory s t ∧ ∀ k, fuseAt t k = fuseAt s k)

/-- R73, R76, R77, R78: in programming mode, idle, the reference target answers a read with the byte addressed: a flash byte, an
EEPROM byte, a signature byte, a fuse or lock byte. A fuse or lock byte that no write has changed since the last re-entry is the one in
effect, one that a write has changed is the old or the new value (`TGT_FUSE_READBACK`). The signature, fuse and lock bytes are answered
after a lock or fuse change too; that U16 does not bear on them is how the model reads R78 and 95 P4 beside it, log 14. The target
stays ready. -/
def Obligations.TargetAnswersReads : Prop :=
  ∀ s : State, TargetEnabled s → s.wpend = false →
    (TargetReady s →
      (∀ a : Addr, a.toNat < 32768 → ∃ t,
        exec (.rdByteFlash a) s = .next t ∧ t.response = [0#8, flashAt s a.toNat] ∧ TargetReady t ∧ SameMemory s t) ∧
      (∀ a : Addr, a.toNat < 1024 → ∃ t,
        exec (.rdByteEeprom a) s = .next t ∧ t.response = [0#8, eepromAt s a.toNat] ∧ TargetReady t ∧ SameMemory s t)) ∧
    (∀ k : FuseKind, ∃ t,
      exec (.rdFuse k) s = .next t ∧ (t.response = [0#8, (fuseAt s k).old] ∨ t.response = [0#8, (fuseAt s k).new]) ∧
      TargetEnabled t ∧ SameMemory s t ∧ ∀ j, fuseAt t j = fuseAt s j) ∧
    (∀ (i b : Byte), (i, b) ∈ [(0#8, s.link.env.target.sig.s0), (1#8, s.link.env.target.sig.s1), (2#8, s.link.env.target.sig.s2)] →
      ∃ t, exec (.rdSig i) s = .next t ∧ t.response = [0#8, b] ∧ TargetEnabled t ∧ SameMemory s t)

/-- R77, R74, R153: against the reference target `WR_EEBYTE` with verify, busy for n polls, ends with true; the byte is
written, every other byte of EEPROM and all of flash is as it was, and the target is ready again. That it ends after n more steps is
the model's choice, log 6, and `nextBusy`, the draw `TGT_BUSY_POLLS` taken ahead, is log 10's. -/
def Obligations.TargetEepromWriteVerifies : Prop :=
  ∀ (s : State) (a : Addr) (v : Byte) (n : Nat), TargetReady s → MemInv s → s.wpend = false → a.toNat < 1024 →
    s.link.env.target.nextBusy = some n →
    ∃ t u, exec (.wrEebyte a v true) s = .next t ∧ run n t = .next u ∧
      u.pending = none ∧ u.response = [0#8, 1#8] ∧ u.verifyOk = true ∧ u.wpend = false ∧ TargetReady u ∧
      (∀ x, eepromAt u x = if x = a.toNat then v else eepromAt s x) ∧ ∀ x, flashAt u x = flashAt s x

/-- R76, R74, R154, R156: against the reference target `WR_PAGE FLASH` with verify of a page erased since its last commit, busy for
n polls, ends with true; the 128 bytes of the page are the buffer's, every other byte of flash and all of EEPROM is as it was, and the
target is ready again. That it ends after n more steps is the model's choice, log 6, and `nextBusy`, the draw `TGT_BUSY_POLLS` taken
ahead, is log 10's; that a chip erase of an earlier session or mode entry makes the page an erased one too is log 18's. -/
def Obligations.TargetFlashPageWrite : Prop :=
  ∀ (s : State) (a : Addr) (buf : List Byte) (n : Nat), TargetReady s → MemInv s → s.wpend = false → a.toNat < 32768 →
    buf.length = 128 → s.link.env.target.nextBusy = some n → s.link.env.target.pageErased (a.toNat / 128) = true →
    ∃ t u, exec (.wrPageFlash a true buf) s = .next t ∧ run n t = .next u ∧
      u.pending = none ∧ u.response = [0#8, 1#8] ∧ u.verifyOk = true ∧ u.wpend = false ∧ TargetReady u ∧
      (∀ x, flashAt u x = if x / 128 = a.toNat / 128 then buf.getD (x % 128) 0#8 else flashAt s x) ∧
      ∀ x, eepromAt u x = eepromAt s x

/-- R79: what stores nothing. In programming mode, idle, the operations that store nothing in the target's memories leave every
byte of them as it was: the reads, the loads (within their page), the fuse and lock writes (the first since re-entry), the polls,
the exchange of one byte, the reset operations, the synchronisation, the codec, and `PROG_BEGIN EEPROM`. -/
def Obligations.StoresNothing : Prop :=
  ∀ (s t : State) (ins : Instr) (i hi lo val tx : Byte) (a : Addr) (k : FuseKind) (text bytes : List Byte),
    TargetReady s → exec ins s = .next t →
    (ins ∈ [Instr.pollRdy, .readSig i, .readFuseLo, .readFuseHi, .readFuseExt, .readLock, .readEeprom hi lo, .readFlashLo hi lo,
        .readFlashHi hi lo, .loadExtAddr val, .xfer tx, .rstAssert, .rstRelease, .rstPulse, .linkRelease, .pgmEnter] ++
      [.pollReady, .rdByteFlash a, .rdByteEeprom a, .rdFuse k, .rdSig i, .setExt val, .hexDecode text, .hexEncData a bytes,
        .hexEncEnd, .progBeginEeprom, .status] ∨
     (i.toNat < 64 ∧ ins ∈ [Instr.loadFlashLo i val, .loadFlashHi i val]) ∨ (i.toNat < 4 ∧ ins = .loadEepromPage i val) ∨
     (s.link.rst = .low ∧ s.link.env.target.settled = true ∧ ins = .progEnable) ∨
     (s.link.env.target.fusePending = false ∧
      ins ∈ [Instr.writeFuseLo val, .writeFuseHi val, .writeFuseExt val, .writeLock val, .wrFuse k val])) →
    SameMemory s t

/-- R75 to R78: what stores, where, and what. In programming mode, idle: an EEPROM byte write changes that byte alone, a page write the
bytes of its page alone, a chip erase sets all of flash to 0xFF, a fuse or lock write changes its own byte alone. `WR_EEBYTE`, `WR_PAGE`,
`ERASE` and `WR_FUSE` likewise, at their return and while they wait; the wait is the model's choice, log 6. The EEPROM page that `WR_PAGE`
writes holds the buffer's bytes, and the page a commit frame writes the loaded ones: of EEPROM where all four are loaded, of flash where
the page is erased since its last commit; a load stores its byte in the write buffer and touches no other. The fuse and lock writes do so
after a change of other fuse bytes too (R260, 95 P4), and where a lock byte was written they still change no other byte. That a lock write
stores its value over any lock byte, that the polls after it are answered, and that U16 does not bear on the fuse and lock writes while no
lock byte was written, is the model's choice, log 14; that a chip erase of an earlier session or mode entry makes a page an erased one too
is log 18's, and that a write buffer keeps its bytes until its own commit, whatever comes between, log 15's. -/
def Obligations.StoresWhere : Prop :=
  (∀ (s t : State) (k : FuseKind) (v : Byte) (ins : Instr), TargetEnabled s → s.link.env.target.fusePending = false →
    exec ins s = .next t →
    (k, ins) ∈ [(FuseKind.low, Instr.writeFuseLo v), (.high, .writeFuseHi v), (.extended, .writeFuseExt v),
      (.lock, .writeLock v)] ∨ ins = .wrFuse k v →
    (s.link.env.target.locked = false → fuseAt t k = ⟨(fuseAt s k).old, v⟩) ∧
    (fuseAt t k).old = (fuseAt s k).old ∧ (∀ j, j ≠ k → fuseAt t j = fuseAt s j) ∧ SameMemory s t) ∧
  ∀ (s t : State), TargetReady s → MemInv s →
    (∀ (hi lo v : Byte) (a : Addr) (y : Bool), a.toNat < 1024 →
      exec (.wrEebyte a v y) s = .next t ∨ (a = addrOf hi lo ∧ exec (.writeEeprom hi lo v) s = .next t) →
      (∀ x, eepromAt t x = if x = a.toNat then v else eepromAt s x) ∧ ∀ x, flashAt t x = flashAt s x) ∧
    (∀ (hi lo : Byte) (a : Addr) (y : Bool) (buf : List Byte), a.toNat < 1024 → buf.length = 4 →
      exec (.wrPageEeprom a y buf) s = .next t ∨ (a = addrOf hi lo ∧ exec (.writeEepromPage hi lo) s = .next t) →
      (∀ x, x / 4 ≠ a.toNat / 4 → eepromAt t x = eepromAt s x) ∧ ∀ x, flashAt t x = flashAt s x) ∧
    (∀ (a : Addr) (y : Bool) (buf : List Byte), a.toNat < 1024 → buf.length = 4 → exec (.wrPageEeprom a y buf) s = .next t →
      ∀ x, x / 4 = a.toNat / 4 → eepromAt t x = buf.getD (x % 4) 0#8) ∧
    (∀ hi lo : Byte, (addrOf hi lo).toNat < 1024 → s.link.env.target.eeLoaded = true →
      exec (.writeEepromPage hi lo) s = .next t →
      ∀ x, x / 4 = (addrOf hi lo).toNat / 4 → findCell s.link.env.target.eeBuf (x % 4) = some (eepromAt t x)) ∧
    (∀ (hi lo : Byte) (a : Addr) (y : Bool) (buf : List Byte), a.toNat < 32768 → buf.length = 128 →
      exec (.wrPageFlash a y buf) s = .next t ∨ (a.toNat / 2 = (addrOf hi lo).toNat ∧ exec (.writeFlashPage hi lo) s = .next t) →
      (∀ x, x / 128 ≠ a.toNat / 128 → flashAt t x = flashAt s x) ∧ ∀ x, eepromAt t x = eepromAt s x) ∧
    (∀ (hi lo v : Byte) (x : Nat), (addrOf hi lo).toNat < 16384 →
      s.link.env.target.pageErased ((addrOf hi lo).toNat / 64) = true → exec (.writeFlashPage hi lo) s = .next t →
      x / 128 = (addrOf hi lo).toNat / 64 → findCell s.link.env.target.flashBuf (x % 128) = some v → flashAt t x = v) ∧
    (∀ i v : Byte,
      (∀ (odd : Nat) (ins : Instr), (odd, ins) ∈ [(0, Instr.loadFlashLo i v), (1, .loadFlashHi i v)] → i.toNat < 64 →
        exec ins s = .next t → ∀ j, findCell t.link.env.target.flashBuf j =
          if j = 2 * i.toNat + odd then some v else findCell s.link.env.target.flashBuf j) ∧
      (i.toNat < 4 → exec (.loadEepromPage i v) s = .next t → ∀ j, findCell t.link.env.target.eeBuf j =
        if j = i.toNat then some v else findCell s.link.env.target.eeBuf j)) ∧
    (exec .erase s = .next t ∨ exec .chipErase s = .next t →
      (∀ x, flashAt t x = 0xFF#8) ∧
      ∀ x, eepromAt t x = if s.link.env.target.eraseEe = true then 0xFF#8 else eepromAt s x)
end

