-- ==== Sys2Proof/Laws/Decode.lean ====
section
/-! SUPPORT. Bytes of an address, operand codes and frame bytes: what the encoder writes and the decoder reads. -/

namespace Sys2Proof

theorem addrOf_getLsbD (hi lo : Byte) (i : Nat) :
    (addrOf hi lo).getLsbD i = if i < 8 then lo.getLsbD i else hi.getLsbD (i - 8) := BitVec.getLsbD_append

@[simp] theorem hiByte_addrOf (hi lo : Byte) : hiByte (addrOf hi lo) = hi := by
  refine BitVec.eq_of_getLsbD_eq fun i h => ?_
  rw [hiByte, BitVec.getLsbD_extractLsb', addrOf_getLsbD]
  simp [h]

@[simp] theorem loByte_addrOf (hi lo : Byte) : loByte (addrOf hi lo) = lo := by
  refine BitVec.eq_of_getLsbD_eq fun i h => ?_
  rw [loByte, BitVec.getLsbD_extractLsb', addrOf_getLsbD]
  simp [h]

@[simp] theorem addrOf_hiByte_loByte (a : Addr) : addrOf (hiByte a) (loByte a) = a := by
  refine BitVec.eq_of_getLsbD_eq fun i h => ?_
  rw [addrOf_getLsbD, hiByte, loByte, BitVec.getLsbD_extractLsb', BitVec.getLsbD_extractLsb']
  split
  · simp [*]
  · rw [show 8 + (i - 8) = i by omega]
    simp [show i - 8 < 8 by omega]

@[simp] theorem fuseKindOf_code (k : FuseKind) : fuseKindOf k.code = some k := by cases k <;> decide

@[simp] theorem boolOf_boolCode (b : Bool) : boolOf (boolCode b) = some b := by cases b <;> decide

theorem fuseKindOf_eq_some {b : Byte} {k : FuseKind} (h : fuseKindOf b = some k) : k.code = b := by
  simp only [fuseKindOf] at h
  (repeat' split at h) <;> simp_all [FuseKind.code] <;> subst h <;> rfl

theorem boolOf_eq_some {b : Byte} {y : Bool} (h : boolOf b = some y) : boolCode y = b := by
  simp only [boolOf] at h
  (repeat' split at h) <;> simp_all [boolCode]

/-- The length byte of a text or a buffer of at most 255 bytes is its length (R92). -/
theorem toNat_length {bytes : List Byte} (h : bytes.length < 256) : (BitVec.ofNat 8 bytes.length).toNat = bytes.length := by
  simp; omega

/-- What the frame decoder reads, case by case (R83). -/
theorem decodeFrame_cases {f : IspFrame} {i : Instr} (h : decodeFrame f = some i) :
    (f.b0 = 0x20#8 ∧ f.b3 = 0#8 ∧ i = .readFlashLo f.b1 f.b2) ∨ (f.b0 = 0x28#8 ∧ f.b3 = 0#8 ∧ i = .readFlashHi f.b1 f.b2) ∨
    (f.b0 = 0x30#8 ∧ f.b1 = 0#8 ∧ f.b3 = 0#8 ∧ i = .readSig f.b2) ∨ (f.b0 = 0x40#8 ∧ f.b1 = 0#8 ∧ i = .loadFlashLo f.b2 f.b3) ∨
    (f.b0 = 0x48#8 ∧ f.b1 = 0#8 ∧ i = .loadFlashHi f.b2 f.b3) ∨ (f.b0 = 0x4C#8 ∧ f.b3 = 0#8 ∧ i = .writeFlashPage f.b1 f.b2) ∨
    (f.b0 = 0x4D#8 ∧ f.b1 = 0#8 ∧ f.b3 = 0#8 ∧ i = .loadExtAddr f.b2) ∨
    (f.b0 = 0x50#8 ∧ f.b1 = 0#8 ∧ f.b2 = 0#8 ∧ f.b3 = 0#8 ∧ i = .readFuseLo) ∨
    (f.b0 = 0x50#8 ∧ f.b1 = 8#8 ∧ f.b2 = 0#8 ∧ f.b3 = 0#8 ∧ i = .readFuseExt) ∨
    (f.b0 = 0x58#8 ∧ f.b1 = 0#8 ∧ f.b2 = 0#8 ∧ f.b3 = 0#8 ∧ i = .readLock) ∨
    (f.b0 = 0x58#8 ∧ f.b1 = 8#8 ∧ f.b2 = 0#8 ∧ f.b3 = 0#8 ∧ i = .readFuseHi) ∨
    (f.b0 = 0xA0#8 ∧ f.b3 = 0#8 ∧ i = .readEeprom f.b1 f.b2) ∨
    (f.b0 = 0xAC#8 ∧ f.b1 = 0x53#8 ∧ f.b2 = 0#8 ∧ f.b3 = 0#8 ∧ i = .progEnable) ∨
    (f.b0 = 0xAC#8 ∧ f.b1 = 0x80#8 ∧ f.b2 = 0#8 ∧ f.b3 = 0#8 ∧ i = .chipErase) ∨
    (f.b0 = 0xAC#8 ∧ f.b1 = 0xA0#8 ∧ f.b2 = 0#8 ∧ i = .writeFuseLo f.b3) ∨
    (f.b0 = 0xAC#8 ∧ f.b1 = 0xA8#8 ∧ f.b2 = 0#8 ∧ i = .writeFuseHi f.b3) ∨
    (f.b0 = 0xAC#8 ∧ f.b1 = 0xA4#8 ∧ f.b2 = 0#8 ∧ i = .writeFuseExt f.b3) ∨
    (f.b0 = 0xAC#8 ∧ f.b1 = 0xE0#8 ∧ f.b2 = 0#8 ∧ i = .writeLock f.b3) ∨
    (f.b0 = 0xC0#8 ∧ i = .writeEeprom f.b1 f.b2 f.b3) ∨ (f.b0 = 0xC1#8 ∧ f.b1 = 0#8 ∧ i = .loadEepromPage f.b2 f.b3) ∨
    (f.b0 = 0xC2#8 ∧ f.b3 = 0#8 ∧ i = .writeEepromPage f.b1 f.b2) ∨
    (f.b0 = 0xF0#8 ∧ f.b1 = 0#8 ∧ f.b2 = 0#8 ∧ f.b3 = 0#8 ∧ i = .pollRdy) := by
  unfold decodeFrame at h
  by_cases h20 : f.b0 = 0x20#8
  · rw [if_pos h20] at h
    (repeat' split at h) <;> simp_all
  rw [if_neg h20] at h
  by_cases h28 : f.b0 = 0x28#8
  · rw [if_pos h28] at h
    (repeat' split at h) <;> simp_all
  rw [if_neg h28] at h
  by_cases h30 : f.b0 = 0x30#8
  · rw [if_pos h30] at h
    (repeat' split at h) <;> simp_all
  rw [if_neg h30] at h
  by_cases h40 : f.b0 = 0x40#8
  · rw [if_pos h40] at h
    (repeat' split at h) <;> simp_all
  rw [if_neg h40] at h
  by_cases h48 : f.b0 = 0x48#8
  · rw [if_pos h48] at h
    (repeat' split at h) <;> simp_all
  rw [if_neg h48] at h
  by_cases h4C : f.b0 = 0x4C#8
  · rw [if_pos h4C] at h
    (repeat' split at h) <;> simp_all
  rw [if_neg h4C] at h
  by_cases h4D : f.b0 = 0x4D#8
  · rw [if_pos h4D] at h
    (repeat' split at h) <;> simp_all
  rw [if_neg h4D] at h
  by_cases h50 : f.b0 = 0x50#8
  · rw [if_pos h50] at h
    unfold decodeFrameFuseRead at h
    (repeat' split at h) <;> simp_all
  rw [if_neg h50] at h
  by_cases h58 : f.b0 = 0x58#8
  · rw [if_pos h58] at h
    unfold decodeFrameFuseRead at h
    (repeat' split at h) <;> simp_all
  rw [if_neg h58] at h
  by_cases hA0 : f.b0 = 0xA0#8
  · rw [if_pos hA0] at h
    (repeat' split at h) <;> simp_all
  rw [if_neg hA0] at h
  by_cases hAC : f.b0 = 0xAC#8
  · rw [if_pos hAC] at h
    unfold decodeFrameAC at h
    (repeat' split at h) <;> simp_all
  rw [if_neg hAC] at h
  by_cases hC0 : f.b0 = 0xC0#8
  · rw [if_pos hC0] at h
    simp_all
  rw [if_neg hC0] at h
  by_cases hC1 : f.b0 = 0xC1#8
  · rw [if_pos hC1] at h
    (repeat' split at h) <;> simp_all
  rw [if_neg hC1] at h
  by_cases hC2 : f.b0 = 0xC2#8
  · rw [if_pos hC2] at h
    (repeat' split at h) <;> simp_all
  rw [if_neg hC2] at h
  by_cases hF0 : f.b0 = 0xF0#8
  · rw [if_pos hF0] at h
    (repeat' split at h) <;> simp_all
  rw [if_neg hF0] at h
  exact absurd h (by simp)

/-- A frame row's instruction has the bytes of its frame as its message (R83, R96). -/
theorem encode_of_decodeFrame {f : IspFrame} {i : Instr} (h : decodeFrame f = some i) :
    encode i = frameMessage f.b0 f.b1 f.b2 f.b3 := by
  obtain ⟨b0, b1, b2, b3⟩ := f
  have h := decodeFrame_cases h
  casesm* _ ∨ _, _ ∧ _ <;> (simp only at *; subst_vars; rfl)

/-- A word is classified as a frame exactly when the decoder reads a row from it (R84). -/
theorem isFrame_eq_isSome (f : IspFrame) : isFrame f = (decodeFrame f).isSome := by
  obtain ⟨b0, b1, b2, b3⟩ := f
  rw [Bool.eq_iff_iff]
  constructor
  · simp only [isFrame, framePatterns, List.cons_append, List.nil_append, List.any_cons, List.any_nil, FramePattern.fits, byteFits,
      Bool.or_false, Bool.and_true, Bool.or_eq_true, Bool.and_eq_true, beq_iff_eq, and_assoc]
    intro h
    casesm* _ ∨ _, _ ∧ _ <;> (subst_vars; simp [decodeFrame, decodeFrameAC, decodeFrameFuseRead])
  · intro h
    obtain ⟨i, h⟩ := Option.isSome_iff_exists.mp h
    have h := decodeFrame_cases h
    casesm* _ ∨ _, _ ∧ _ <;>
      (simp only at *; subst_vars; simp [isFrame, framePatterns, FramePattern.fits, byteFits])

end Sys2Proof
end

