-- ==== Sys2Proof/Laws/State.lean ====
section
/-! SUPPORT. One lemma per field per update of State and of Link, true by rfl, so that no proof unfolds a record update. -/

namespace Sys2Proof.Machine

set_option Elab.async false

/-! ### Registers (R44) -/

@[simp] theorem Reg.value_written {α : Type} (v : α) : (Reg.written v).value = v := rfl
@[simp] theorem Reg.value_initial {α : Type} (v : α) : (Reg.initial v).value = v := rfl
@[simp] theorem Reg.isWritten_written {α : Type} (v : α) : (Reg.written v).isWritten = true := rfl
@[simp] theorem Reg.isWritten_initial {α : Type} (v : α) : (Reg.initial v).isWritten = false := rfl

/-! ### The page buffer (R38, R39) -/

@[simp] theorem Session.pageOpen_eq (s : Session) : s.pageOpen = s.page.isOpen := rfl
@[simp] theorem Session.pageBase_eq (s : Session) : s.pageBase = s.page.base := rfl
@[simp] theorem Session.pb_eq (s : Session) : s.pb = s.page.buf := rfl

@[simp] theorem PageState.isOpen_opened (b : Addr) (p : List Byte) : (PageState.opened b p).isOpen = true := rfl
@[simp] theorem PageState.isOpen_closed (b : Reg Addr) (p : Reg (List Byte)) : (PageState.closed b p).isOpen = false := rfl
@[simp] theorem PageState.isOpen_close (p : PageState) : p.close.isOpen = false := rfl
@[simp] theorem PageState.base_opened (b : Addr) (p : List Byte) : (PageState.opened b p).base = .written b := rfl
@[simp] theorem PageState.base_closed (b : Reg Addr) (p : Reg (List Byte)) : (PageState.closed b p).base = b := rfl
@[simp] theorem PageState.base_close (p : PageState) : p.close.base = p.base := rfl
@[simp] theorem PageState.buf_opened (b : Addr) (p : List Byte) : (PageState.opened b p).buf = .written p := rfl
@[simp] theorem PageState.buf_closed (b : Reg Addr) (p : Reg (List Byte)) : (PageState.closed b p).buf = p := rfl
@[simp] theorem PageState.buf_close (p : PageState) : p.close.buf = p.buf := rfl
@[simp] theorem PageState.isAt_opened (b' b : Addr) (p : List Byte) : (PageState.opened b' p).isAt b = decide (b' = b) := rfl
@[simp] theorem PageState.isAt_closed (b' : Addr) (b : Reg Addr) (p : Reg (List Byte)) : (PageState.closed b p).isAt b' = false := rfl
@[simp] theorem PageState.close_opened (b : Addr) (p : List Byte) : (PageState.opened b p).close = .closed (.written b) (.written p) := rfl
@[simp] theorem PageState.close_closed (b : Reg Addr) (p : Reg (List Byte)) : (PageState.closed b p).close = .closed b p := rfl
@[simp] theorem PageState.close_close (p : PageState) : p.close.close = p.close := rfl
@[simp] theorem PageState.isAt_close (b : Addr) (p : PageState) : p.close.isAt b = false := rfl

/-- A page that is open at `b` is open. -/
theorem PageState.isOpen_of_isAt {b : Addr} {p : PageState} (h : p.isAt b = true) : p.isOpen = true := by
  cases p <;> [exact h; rfl]

/-! ### The end of an operation -/

@[simp] theorem State.returned_link (result : List Byte) (s : State) : (s.returned result).link = s.link := rfl
@[simp] theorem State.returned_sig (result : List Byte) (s : State) : (s.returned result).sig = s.sig := rfl
@[simp] theorem State.returned_record (result : List Byte) (s : State) : (s.returned result).record = s.record := rfl
@[simp] theorem State.returned_pstate (result : List Byte) (s : State) : (s.returned result).pstate = s.pstate := rfl
@[simp] theorem State.returned_attempt (result : List Byte) (s : State) : (s.returned result).attempt = s.attempt := rfl
@[simp] theorem State.returned_syncOk (result : List Byte) (s : State) : (s.returned result).syncOk = s.syncOk := rfl
@[simp] theorem State.returned_busy (result : List Byte) (s : State) : (s.returned result).busy = s.busy := rfl
@[simp] theorem State.returned_wpend (result : List Byte) (s : State) : (s.returned result).wpend = s.wpend := rfl
@[simp] theorem State.returned_fuseDirty (result : List Byte) (s : State) : (s.returned result).fuseDirty = s.fuseDirty := rfl
@[simp] theorem State.returned_verifyOk (result : List Byte) (s : State) : (s.returned result).verifyOk = s.verifyOk := rfl
@[simp] theorem State.returned_session (result : List Byte) (s : State) : (s.returned result).session = s.session := rfl
@[simp] theorem State.returned_lastError (result : List Byte) (s : State) : (s.returned result).lastError = okCode := rfl
@[simp] theorem State.returned_params (result : List Byte) (s : State) : (s.returned result).params = s.params := rfl
@[simp] theorem State.returned_inbox (result : List Byte) (s : State) : (s.returned result).inbox = s.inbox := rfl
@[simp] theorem State.returned_response (result : List Byte) (s : State) : (s.returned result).response = okCode :: result := rfl
@[simp] theorem State.returned_pending (result : List Byte) (s : State) : (s.returned result).pending = none := rfl

@[simp] theorem State.raised_link (e : Err) (extra : List Byte) (s : State) : (s.raised e extra).link = s.link := rfl
@[simp] theorem State.raised_sig (e : Err) (extra : List Byte) (s : State) : (s.raised e extra).sig = s.sig := rfl
@[simp] theorem State.raised_record (e : Err) (extra : List Byte) (s : State) : (s.raised e extra).record = s.record := rfl
@[simp] theorem State.raised_pstate (e : Err) (extra : List Byte) (s : State) : (s.raised e extra).pstate = s.pstate := rfl
@[simp] theorem State.raised_attempt (e : Err) (extra : List Byte) (s : State) : (s.raised e extra).attempt = s.attempt := rfl
@[simp] theorem State.raised_syncOk (e : Err) (extra : List Byte) (s : State) : (s.raised e extra).syncOk = s.syncOk := rfl
@[simp] theorem State.raised_busy (e : Err) (extra : List Byte) (s : State) : (s.raised e extra).busy = s.busy := rfl
@[simp] theorem State.raised_wpend (e : Err) (extra : List Byte) (s : State) : (s.raised e extra).wpend = s.wpend := rfl
@[simp] theorem State.raised_fuseDirty (e : Err) (extra : List Byte) (s : State) : (s.raised e extra).fuseDirty = s.fuseDirty := rfl
@[simp] theorem State.raised_verifyOk (e : Err) (extra : List Byte) (s : State) : (s.raised e extra).verifyOk = s.verifyOk := rfl
@[simp] theorem State.raised_session (e : Err) (extra : List Byte) (s : State) : (s.raised e extra).session = s.session := rfl
@[simp] theorem State.raised_lastError (e : Err) (extra : List Byte) (s : State) : (s.raised e extra).lastError = e.code := rfl
@[simp] theorem State.raised_params (e : Err) (extra : List Byte) (s : State) : (s.raised e extra).params = s.params := rfl
@[simp] theorem State.raised_inbox (e : Err) (extra : List Byte) (s : State) : (s.raised e extra).inbox = s.inbox := rfl
@[simp] theorem State.raised_response (e : Err) (extra : List Byte) (s : State) : (s.raised e extra).response = e.code :: extra := rfl
@[simp] theorem State.raised_pending (e : Err) (extra : List Byte) (s : State) : (s.raised e extra).pending = none := rfl

@[simp] theorem State.waiting_link (k : Pending) (s : State) : (s.waiting k).link = s.link.wait .tPoll := rfl
@[simp] theorem State.waiting_sig (k : Pending) (s : State) : (s.waiting k).sig = s.sig := rfl
@[simp] theorem State.waiting_record (k : Pending) (s : State) : (s.waiting k).record = s.record := rfl
@[simp] theorem State.waiting_pstate (k : Pending) (s : State) : (s.waiting k).pstate = s.pstate := rfl
@[simp] theorem State.waiting_attempt (k : Pending) (s : State) : (s.waiting k).attempt = s.attempt := rfl
@[simp] theorem State.waiting_syncOk (k : Pending) (s : State) : (s.waiting k).syncOk = s.syncOk := rfl
@[simp] theorem State.waiting_busy (k : Pending) (s : State) : (s.waiting k).busy = s.busy := rfl
@[simp] theorem State.waiting_wpend (k : Pending) (s : State) : (s.waiting k).wpend = s.wpend := rfl
@[simp] theorem State.waiting_fuseDirty (k : Pending) (s : State) : (s.waiting k).fuseDirty = s.fuseDirty := rfl
@[simp] theorem State.waiting_verifyOk (k : Pending) (s : State) : (s.waiting k).verifyOk = s.verifyOk := rfl
@[simp] theorem State.waiting_session (k : Pending) (s : State) : (s.waiting k).session = s.session := rfl
@[simp] theorem State.waiting_lastError (k : Pending) (s : State) : (s.waiting k).lastError = s.lastError := rfl
@[simp] theorem State.waiting_params (k : Pending) (s : State) : (s.waiting k).params = s.params := rfl
@[simp] theorem State.waiting_inbox (k : Pending) (s : State) : (s.waiting k).inbox = s.inbox := rfl
@[simp] theorem State.waiting_response (k : Pending) (s : State) : (s.waiting k).response = s.response := rfl
@[simp] theorem State.waiting_pending (k : Pending) (s : State) : (s.waiting k).pending = some k := rfl

/-! ### Frames -/

@[simp] theorem State.notePoll_link (r : IspFrame) (s : State) : (s.notePoll r).link = s.link := rfl
@[simp] theorem State.notePoll_sig (r : IspFrame) (s : State) : (s.notePoll r).sig = s.sig := rfl
@[simp] theorem State.notePoll_record (r : IspFrame) (s : State) : (s.notePoll r).record = s.record := rfl
@[simp] theorem State.notePoll_pstate (r : IspFrame) (s : State) : (s.notePoll r).pstate = s.pstate := rfl
@[simp] theorem State.notePoll_attempt (r : IspFrame) (s : State) : (s.notePoll r).attempt = s.attempt := rfl
@[simp] theorem State.notePoll_syncOk (r : IspFrame) (s : State) : (s.notePoll r).syncOk = s.syncOk := rfl
@[simp] theorem State.notePoll_busy (r : IspFrame) (s : State) : (s.notePoll r).busy = busyBit r := rfl
@[simp] theorem State.notePoll_wpend (r : IspFrame) (s : State) : (s.notePoll r).wpend = (s.wpend && busyBit r) := rfl
@[simp] theorem State.notePoll_fuseDirty (r : IspFrame) (s : State) : (s.notePoll r).fuseDirty = s.fuseDirty := rfl
@[simp] theorem State.notePoll_verifyOk (r : IspFrame) (s : State) : (s.notePoll r).verifyOk = s.verifyOk := rfl
@[simp] theorem State.notePoll_session (r : IspFrame) (s : State) : (s.notePoll r).session = s.session := rfl
@[simp] theorem State.notePoll_lastError (r : IspFrame) (s : State) : (s.notePoll r).lastError = s.lastError := rfl
@[simp] theorem State.notePoll_params (r : IspFrame) (s : State) : (s.notePoll r).params = s.params := rfl
@[simp] theorem State.notePoll_inbox (r : IspFrame) (s : State) : (s.notePoll r).inbox = s.inbox := rfl
@[simp] theorem State.notePoll_response (r : IspFrame) (s : State) : (s.notePoll r).response = s.response := rfl
@[simp] theorem State.notePoll_pending (r : IspFrame) (s : State) : (s.notePoll r).pending = s.pending := rfl

@[simp] theorem State.frame_fst (f : IspFrame) (s : State) : (s.frame f).1 = (s.link.frame f).1 := rfl
@[simp] theorem State.frame_snd_link (f : IspFrame) (s : State) : ((s.frame f).2).link = (s.link.frame f).2 := rfl
@[simp] theorem State.frame_snd_sig (f : IspFrame) (s : State) : ((s.frame f).2).sig = s.sig := rfl
@[simp] theorem State.frame_snd_record (f : IspFrame) (s : State) : ((s.frame f).2).record = s.record := rfl
@[simp] theorem State.frame_snd_pstate (f : IspFrame) (s : State) : ((s.frame f).2).pstate = s.pstate := rfl
@[simp] theorem State.frame_snd_attempt (f : IspFrame) (s : State) : ((s.frame f).2).attempt = s.attempt := rfl
@[simp] theorem State.frame_snd_syncOk (f : IspFrame) (s : State) : ((s.frame f).2).syncOk = s.syncOk := rfl
@[simp] theorem State.frame_snd_busy (f : IspFrame) (s : State) : ((s.frame f).2).busy = s.busy := rfl
@[simp] theorem State.frame_snd_wpend (f : IspFrame) (s : State) : ((s.frame f).2).wpend = s.wpend := rfl
@[simp] theorem State.frame_snd_fuseDirty (f : IspFrame) (s : State) : ((s.frame f).2).fuseDirty = s.fuseDirty := rfl
@[simp] theorem State.frame_snd_verifyOk (f : IspFrame) (s : State) : ((s.frame f).2).verifyOk = s.verifyOk := rfl
@[simp] theorem State.frame_snd_session (f : IspFrame) (s : State) : ((s.frame f).2).session = s.session := rfl
@[simp] theorem State.frame_snd_lastError (f : IspFrame) (s : State) : ((s.frame f).2).lastError = s.lastError := rfl
@[simp] theorem State.frame_snd_params (f : IspFrame) (s : State) : ((s.frame f).2).params = s.params := rfl
@[simp] theorem State.frame_snd_inbox (f : IspFrame) (s : State) : ((s.frame f).2).inbox = s.inbox := rfl
@[simp] theorem State.frame_snd_response (f : IspFrame) (s : State) : ((s.frame f).2).response = s.response := rfl
@[simp] theorem State.frame_snd_pending (f : IspFrame) (s : State) : ((s.frame f).2).pending = s.pending := rfl

@[simp] theorem State.send_link (f : IspFrame) (s : State) : (s.send f).link = (s.link.frame f).2 := rfl
@[simp] theorem State.send_sig (f : IspFrame) (s : State) : (s.send f).sig = s.sig := rfl
@[simp] theorem State.send_record (f : IspFrame) (s : State) : (s.send f).record = s.record := rfl
@[simp] theorem State.send_pstate (f : IspFrame) (s : State) : (s.send f).pstate = s.pstate := rfl
@[simp] theorem State.send_attempt (f : IspFrame) (s : State) : (s.send f).attempt = s.attempt := rfl
@[simp] theorem State.send_syncOk (f : IspFrame) (s : State) : (s.send f).syncOk = s.syncOk := rfl
@[simp] theorem State.send_busy (f : IspFrame) (s : State) : (s.send f).busy = s.busy := rfl
@[simp] theorem State.send_wpend (f : IspFrame) (s : State) : (s.send f).wpend = s.wpend := rfl
@[simp] theorem State.send_fuseDirty (f : IspFrame) (s : State) : (s.send f).fuseDirty = s.fuseDirty := rfl
@[simp] theorem State.send_verifyOk (f : IspFrame) (s : State) : (s.send f).verifyOk = s.verifyOk := rfl
@[simp] theorem State.send_session (f : IspFrame) (s : State) : (s.send f).session = s.session := rfl
@[simp] theorem State.send_lastError (f : IspFrame) (s : State) : (s.send f).lastError = s.lastError := rfl
@[simp] theorem State.send_params (f : IspFrame) (s : State) : (s.send f).params = s.params := rfl
@[simp] theorem State.send_inbox (f : IspFrame) (s : State) : (s.send f).inbox = s.inbox := rfl
@[simp] theorem State.send_response (f : IspFrame) (s : State) : (s.send f).response = s.response := rfl
@[simp] theorem State.send_pending (f : IspFrame) (s : State) : (s.send f).pending = s.pending := rfl

@[simp] theorem State.commit_link (f : IspFrame) (s : State) : (s.commit f).link = (s.link.frame f).2 := rfl
@[simp] theorem State.commit_sig (f : IspFrame) (s : State) : (s.commit f).sig = s.sig := rfl
@[simp] theorem State.commit_record (f : IspFrame) (s : State) : (s.commit f).record = s.record := rfl
@[simp] theorem State.commit_pstate (f : IspFrame) (s : State) : (s.commit f).pstate = s.pstate := rfl
@[simp] theorem State.commit_attempt (f : IspFrame) (s : State) : (s.commit f).attempt = s.attempt := rfl
@[simp] theorem State.commit_syncOk (f : IspFrame) (s : State) : (s.commit f).syncOk = s.syncOk := rfl
@[simp] theorem State.commit_busy (f : IspFrame) (s : State) : (s.commit f).busy = s.busy := rfl
@[simp] theorem State.commit_wpend (f : IspFrame) (s : State) : (s.commit f).wpend = true := rfl
@[simp] theorem State.commit_fuseDirty (f : IspFrame) (s : State) : (s.commit f).fuseDirty = s.fuseDirty := rfl
@[simp] theorem State.commit_verifyOk (f : IspFrame) (s : State) : (s.commit f).verifyOk = s.verifyOk := rfl
@[simp] theorem State.commit_session (f : IspFrame) (s : State) : (s.commit f).session = s.session := rfl
@[simp] theorem State.commit_lastError (f : IspFrame) (s : State) : (s.commit f).lastError = s.lastError := rfl
@[simp] theorem State.commit_params (f : IspFrame) (s : State) : (s.commit f).params = s.params := rfl
@[simp] theorem State.commit_inbox (f : IspFrame) (s : State) : (s.commit f).inbox = s.inbox := rfl
@[simp] theorem State.commit_response (f : IspFrame) (s : State) : (s.commit f).response = s.response := rfl
@[simp] theorem State.commit_pending (f : IspFrame) (s : State) : (s.commit f).pending = s.pending := rfl

@[simp] theorem State.poll_link (s : State) : (s.poll).link = (s.link.frame pollFrame).2 := rfl
@[simp] theorem State.poll_sig (s : State) : (s.poll).sig = s.sig := rfl
@[simp] theorem State.poll_record (s : State) : (s.poll).record = s.record := rfl
@[simp] theorem State.poll_pstate (s : State) : (s.poll).pstate = s.pstate := rfl
@[simp] theorem State.poll_attempt (s : State) : (s.poll).attempt = s.attempt := rfl
@[simp] theorem State.poll_syncOk (s : State) : (s.poll).syncOk = s.syncOk := rfl
@[simp] theorem State.poll_busy (s : State) : (s.poll).busy = busyBit (s.link.frame pollFrame).1 := rfl
@[simp] theorem State.poll_wpend (s : State) : (s.poll).wpend = (s.wpend && busyBit (s.link.frame pollFrame).1) := rfl
@[simp] theorem State.poll_fuseDirty (s : State) : (s.poll).fuseDirty = s.fuseDirty := rfl
@[simp] theorem State.poll_verifyOk (s : State) : (s.poll).verifyOk = s.verifyOk := rfl
@[simp] theorem State.poll_session (s : State) : (s.poll).session = s.session := rfl
@[simp] theorem State.poll_lastError (s : State) : (s.poll).lastError = s.lastError := rfl
@[simp] theorem State.poll_params (s : State) : (s.poll).params = s.params := rfl
@[simp] theorem State.poll_inbox (s : State) : (s.poll).inbox = s.inbox := rfl
@[simp] theorem State.poll_response (s : State) : (s.poll).response = s.response := rfl
@[simp] theorem State.poll_pending (s : State) : (s.poll).pending = s.pending := rfl

/-! ### The session -/

@[simp] theorem State.openPage_link (b : Addr) (s : State) : (openPage b s).link = s.link := rfl
@[simp] theorem State.openPage_sig (b : Addr) (s : State) : (openPage b s).sig = s.sig := rfl
@[simp] theorem State.openPage_record (b : Addr) (s : State) : (openPage b s).record = s.record := rfl
@[simp] theorem State.openPage_pstate (b : Addr) (s : State) : (openPage b s).pstate = s.pstate := rfl
@[simp] theorem State.openPage_attempt (b : Addr) (s : State) : (openPage b s).attempt = s.attempt := rfl
@[simp] theorem State.openPage_syncOk (b : Addr) (s : State) : (openPage b s).syncOk = s.syncOk := rfl
@[simp] theorem State.openPage_busy (b : Addr) (s : State) : (openPage b s).busy = s.busy := rfl
@[simp] theorem State.openPage_wpend (b : Addr) (s : State) : (openPage b s).wpend = s.wpend := rfl
@[simp] theorem State.openPage_fuseDirty (b : Addr) (s : State) : (openPage b s).fuseDirty = s.fuseDirty := rfl
@[simp] theorem State.openPage_verifyOk (b : Addr) (s : State) : (openPage b s).verifyOk = s.verifyOk := rfl
@[simp] theorem State.openPage_lastError (b : Addr) (s : State) : (openPage b s).lastError = s.lastError := rfl
@[simp] theorem State.openPage_params (b : Addr) (s : State) : (openPage b s).params = s.params := rfl
@[simp] theorem State.openPage_inbox (b : Addr) (s : State) : (openPage b s).inbox = s.inbox := rfl
@[simp] theorem State.openPage_response (b : Addr) (s : State) : (openPage b s).response = s.response := rfl
@[simp] theorem State.openPage_pending (b : Addr) (s : State) : (openPage b s).pending = s.pending := rfl

@[simp] theorem State.openPage_session_sstate (b : Addr) (s : State) : (openPage b s).session.sstate = s.session.sstate := rfl
@[simp] theorem State.openPage_session_region (b : Addr) (s : State) : (openPage b s).session.region = s.session.region := rfl
@[simp] theorem State.openPage_session_erased (b : Addr) (s : State) : (openPage b s).session.erased = s.session.erased := rfl
@[simp] theorem State.openPage_session_page (b : Addr) (s : State) : (openPage b s).session.page = .opened b (List.replicate Config.flashPage Config.erasedVal) := rfl
@[simp] theorem State.openPage_session_lineNo (b : Addr) (s : State) : (openPage b s).session.lineNo = s.session.lineNo := rfl

@[simp] theorem State.beginSession_link (region : Region) (s : State) : (beginSession region s).link = s.link := rfl
@[simp] theorem State.beginSession_sig (region : Region) (s : State) : (beginSession region s).sig = s.sig := rfl
@[simp] theorem State.beginSession_record (region : Region) (s : State) : (beginSession region s).record = s.record := rfl
@[simp] theorem State.beginSession_pstate (region : Region) (s : State) : (beginSession region s).pstate = s.pstate := rfl
@[simp] theorem State.beginSession_attempt (region : Region) (s : State) : (beginSession region s).attempt = s.attempt := rfl
@[simp] theorem State.beginSession_syncOk (region : Region) (s : State) : (beginSession region s).syncOk = s.syncOk := rfl
@[simp] theorem State.beginSession_busy (region : Region) (s : State) : (beginSession region s).busy = s.busy := rfl
@[simp] theorem State.beginSession_wpend (region : Region) (s : State) : (beginSession region s).wpend = s.wpend := rfl
@[simp] theorem State.beginSession_fuseDirty (region : Region) (s : State) : (beginSession region s).fuseDirty = s.fuseDirty := rfl
@[simp] theorem State.beginSession_verifyOk (region : Region) (s : State) : (beginSession region s).verifyOk = s.verifyOk := rfl
@[simp] theorem State.beginSession_lastError (region : Region) (s : State) : (beginSession region s).lastError = s.lastError := rfl
@[simp] theorem State.beginSession_params (region : Region) (s : State) : (beginSession region s).params = s.params := rfl
@[simp] theorem State.beginSession_inbox (region : Region) (s : State) : (beginSession region s).inbox = s.inbox := rfl
@[simp] theorem State.beginSession_response (region : Region) (s : State) : (beginSession region s).response = s.response := rfl
@[simp] theorem State.beginSession_pending (region : Region) (s : State) : (beginSession region s).pending = s.pending := rfl

@[simp] theorem State.beginSession_session_sstate (region : Region) (s : State) : (beginSession region s).session.sstate = SState.active := rfl
@[simp] theorem State.beginSession_session_region (region : Region) (s : State) : (beginSession region s).session.region = region := rfl
@[simp] theorem State.beginSession_session_erased (region : Region) (s : State) : (beginSession region s).session.erased = false := rfl
@[simp] theorem State.beginSession_session_page (region : Region) (s : State) : (beginSession region s).session.page = s.session.page.close := rfl
@[simp] theorem State.beginSession_session_lineNo (region : Region) (s : State) : (beginSession region s).session.lineNo = 0#16 := rfl

/-! ### Pins and waits -/

@[simp] theorem Link.driveSck_sck (v : Level) (l : Link) : (l.driveSck v).sck = v := rfl
@[simp] theorem Link.driveSck_mosi (v : Level) (l : Link) : (l.driveSck v).mosi = l.mosi := rfl
@[simp] theorem Link.driveSck_rst (v : Level) (l : Link) : (l.driveSck v).rst = l.rst := rfl
@[simp] theorem Link.driveSck_txsr (v : Level) (l : Link) : (l.driveSck v).txsr = l.txsr := rfl
@[simp] theorem Link.driveSck_rxsr (v : Level) (l : Link) : (l.driveSck v).rxsr = l.rxsr := rfl
@[simp] theorem Link.driveSck_bitcnt (v : Level) (l : Link) : (l.driveSck v).bitcnt = l.bitcnt := rfl
@[simp] theorem Link.driveSck_frameTx (v : Level) (l : Link) : (l.driveSck v).frameTx = l.frameTx := rfl
@[simp] theorem Link.driveSck_frameRx (v : Level) (l : Link) : (l.driveSck v).frameRx = l.frameRx := rfl
@[simp] theorem Link.driveSck_log (v : Level) (l : Link) : (l.driveSck v).log = .drive .sck v :: l.log := rfl
@[simp] theorem Link.driveSck_env (v : Level) (l : Link) : (l.driveSck v).env = l.env := rfl

@[simp] theorem Link.driveMosi_sck (v : Level) (l : Link) : (l.driveMosi v).sck = l.sck := rfl
@[simp] theorem Link.driveMosi_mosi (v : Level) (l : Link) : (l.driveMosi v).mosi = v := rfl
@[simp] theorem Link.driveMosi_rst (v : Level) (l : Link) : (l.driveMosi v).rst = l.rst := rfl
@[simp] theorem Link.driveMosi_txsr (v : Level) (l : Link) : (l.driveMosi v).txsr = l.txsr := rfl
@[simp] theorem Link.driveMosi_rxsr (v : Level) (l : Link) : (l.driveMosi v).rxsr = l.rxsr := rfl
@[simp] theorem Link.driveMosi_bitcnt (v : Level) (l : Link) : (l.driveMosi v).bitcnt = l.bitcnt := rfl
@[simp] theorem Link.driveMosi_frameTx (v : Level) (l : Link) : (l.driveMosi v).frameTx = l.frameTx := rfl
@[simp] theorem Link.driveMosi_frameRx (v : Level) (l : Link) : (l.driveMosi v).frameRx = l.frameRx := rfl
@[simp] theorem Link.driveMosi_log (v : Level) (l : Link) : (l.driveMosi v).log = .drive .mosi v :: l.log := rfl
@[simp] theorem Link.driveMosi_env (v : Level) (l : Link) : (l.driveMosi v).env = l.env := rfl

@[simp] theorem Link.driveRst_sck (v : Level) (l : Link) : (l.driveRst v).sck = l.sck := rfl
@[simp] theorem Link.driveRst_mosi (v : Level) (l : Link) : (l.driveRst v).mosi = l.mosi := rfl
@[simp] theorem Link.driveRst_rst (v : Level) (l : Link) : (l.driveRst v).rst = v := rfl
@[simp] theorem Link.driveRst_txsr (v : Level) (l : Link) : (l.driveRst v).txsr = l.txsr := rfl
@[simp] theorem Link.driveRst_rxsr (v : Level) (l : Link) : (l.driveRst v).rxsr = l.rxsr := rfl
@[simp] theorem Link.driveRst_bitcnt (v : Level) (l : Link) : (l.driveRst v).bitcnt = l.bitcnt := rfl
@[simp] theorem Link.driveRst_frameTx (v : Level) (l : Link) : (l.driveRst v).frameTx = l.frameTx := rfl
@[simp] theorem Link.driveRst_frameRx (v : Level) (l : Link) : (l.driveRst v).frameRx = l.frameRx := rfl
@[simp] theorem Link.driveRst_log (v : Level) (l : Link) : (l.driveRst v).log = .drive .rst v :: l.log := rfl
@[simp] theorem Link.driveRst_env (v : Level) (l : Link) : (l.driveRst v).env = l.env.onTarget fun t => t.onRst l.rst v := rfl

@[simp] theorem Link.wait_sck (d : Delay) (l : Link) : (l.wait d).sck = l.sck := rfl
@[simp] theorem Link.wait_mosi (d : Delay) (l : Link) : (l.wait d).mosi = l.mosi := rfl
@[simp] theorem Link.wait_rst (d : Delay) (l : Link) : (l.wait d).rst = l.rst := rfl
@[simp] theorem Link.wait_txsr (d : Delay) (l : Link) : (l.wait d).txsr = l.txsr := rfl
@[simp] theorem Link.wait_rxsr (d : Delay) (l : Link) : (l.wait d).rxsr = l.rxsr := rfl
@[simp] theorem Link.wait_bitcnt (d : Delay) (l : Link) : (l.wait d).bitcnt = l.bitcnt := rfl
@[simp] theorem Link.wait_frameTx (d : Delay) (l : Link) : (l.wait d).frameTx = l.frameTx := rfl
@[simp] theorem Link.wait_frameRx (d : Delay) (l : Link) : (l.wait d).frameRx = l.frameRx := rfl
@[simp] theorem Link.wait_log (d : Delay) (l : Link) : (l.wait d).log = .wait d :: l.log := rfl
@[simp] theorem Link.wait_env (d : Delay) (l : Link) : (l.wait d).env = l.env := rfl

@[simp] theorem Link.settle_sck (l : Link) : (l.settle).sck = l.sck := rfl
@[simp] theorem Link.settle_mosi (l : Link) : (l.settle).mosi = l.mosi := rfl
@[simp] theorem Link.settle_rst (l : Link) : (l.settle).rst = l.rst := rfl
@[simp] theorem Link.settle_txsr (l : Link) : (l.settle).txsr = l.txsr := rfl
@[simp] theorem Link.settle_rxsr (l : Link) : (l.settle).rxsr = l.rxsr := rfl
@[simp] theorem Link.settle_bitcnt (l : Link) : (l.settle).bitcnt = l.bitcnt := rfl
@[simp] theorem Link.settle_frameTx (l : Link) : (l.settle).frameTx = l.frameTx := rfl
@[simp] theorem Link.settle_frameRx (l : Link) : (l.settle).frameRx = l.frameRx := rfl
@[simp] theorem Link.settle_log (l : Link) : (l.settle).log = .wait .tSettle :: l.log := rfl
@[simp] theorem Link.settle_env (l : Link) : (l.settle).env = l.env.onTarget fun t => t.onSettle l.rst := rfl

end Sys2Proof.Machine
end

