-- ==== Sys2Proof/Laws/Link.lean ====
section
/-! SUPPORT. What an exchange of one byte, of one frame and of a sequence of frames does: the reply, the link after it, and what
it does to the environment (spec/40_bitlink.md R111, spec/41_isp_protocol.md R130). -/

namespace Sys2Proof.Machine

/-! ### Samples -/

/-- Several samples of MISO in a row, of which the environment is bound to answer `bound`. -/
def Env.bits : Nat → Reply → Env → List Bool × Env
  | 0, _, e => ([], e)
  | n + 1, bound, e =>
    let r := e.sample bound.head?.join
    let rest := Env.bits n bound.tail r.2
    (r.1 :: rest.1, rest.2)

theorem Env.sample_kind (e : Env) (b : Option Bool) : (e.sample b).2.kind = e.kind := by
  unfold Env.sample; split <;> [rfl; (split <;> rfl)]

theorem Env.sample_target (e : Env) (b : Option Bool) : (e.sample b).2.target = e.target := by
  unfold Env.sample; split <;> [rfl; (split <;> rfl)]

theorem Env.bits_kind (n : Nat) (bound : Reply) (e : Env) : (e.bits n bound).2.kind = e.kind := by
  induction n generalizing bound e with
  | zero => rfl
  | succ n ih => simp only [Env.bits, ih, Env.sample_kind]

theorem Env.bits_target (n : Nat) (bound : Reply) (e : Env) : (e.bits n bound).2.target = e.target := by
  induction n generalizing bound e with
  | zero => rfl
  | succ n ih => simp only [Env.bits, ih, Env.sample_target]

/-- Bits the environment is bound to present are the bits sampled, and the environment stays as it is. -/
theorem Env.bits_bound (bits : List Bool) (e : Env) : e.bits bits.length (bits.map some) = (bits, e) := by
  induction bits with
  | nil => rfl
  | cons b bits ih => simp [Env.bits, Env.sample, ih]

/-- With nothing bound, the bits the environment presents next are the bits sampled. -/
theorem Env.bits_presented (bits more : List Bool) (e : Env) (h : e.miso = bits ++ more) :
    e.bits bits.length Reply.drawn = (bits, { e with miso := more }) := by
  induction bits generalizing e with
  | nil =>
    obtain ⟨k, m, d, t⟩ := e
    simp at h
    simp [Env.bits, h]
  | cons b bits ih =>
    obtain ⟨k, m, d, t⟩ := e
    simp at h
    subst h
    have := ih ⟨k, bits ++ more, d, t⟩ rfl
    simp [Env.bits, Env.sample, Reply.drawn] at this ⊢
    simp [this]

/-! ### One byte -/

theorem Link.xferBit_eq (bit : Bool) (bound : Option Bool) (l : Link) :
    l.xferBit bit bound = ((l.env.sample bound).1,
      { l with
        mosi := bitLevel bit
        sck := .low
        log := (bitEvents bit (l.env.sample bound).1).reverse ++ l.log
        env := (l.env.sample bound).2 }) := rfl

theorem byteBits_shiftIn (b7 b6 b5 b4 b3 b2 b1 b0 : Bool) :
    byteBits (shiftIn (shiftIn (shiftIn (shiftIn (shiftIn (shiftIn (shiftIn (shiftIn 0#8 b7) b6) b5) b4) b3) b2) b1) b0) =
      [b7, b6, b5, b4, b3, b2, b1, b0] := by
  revert b7 b6 b5 b4 b3 b2 b1 b0; decide

theorem byteBits_injective {a b : Byte} (h : byteBits a = byteBits b) : a = b := by
  simp only [byteBits, List.cons.injEq, and_true] at h
  obtain ⟨h7, h6, h5, h4, h3, h2, h1, h0⟩ := h
  refine BitVec.eq_of_getLsbD_eq fun i hi => ?_
  have : i = 0 ∨ i = 1 ∨ i = 2 ∨ i = 3 ∨ i = 4 ∨ i = 5 ∨ i = 6 ∨ i = 7 := by omega
  rcases this with rfl | rfl | rfl | rfl | rfl | rfl | rfl | rfl <;> assumption

/-- `Xfer` (R111), everything it does: some byte is received, the link is as `afterXfer` says, and the environment has presented
the byte's bits and, where the reference target is connected, taken the byte sent. -/
theorem Link.xfer_spec (tx : Byte) (l : Link) : ∃ rx env,
    l.xfer tx = (rx, l.afterXfer tx rx env) ∧
    (byteBits rx, { env with target := l.env.target }) = l.env.bits 8 (l.env.reply l.rst tx) ∧
    env.kind = l.env.kind ∧ env.target = (l.env.onTarget fun t => t.take l.rst tx).target := by
  generalize hb : l.env.reply l.rst tx = bound
  have hk := Env.bits_kind 8 bound l.env
  have ht := Env.bits_target 8 bound l.env
  simp only [Link.xfer, Link.xferBits, Link.xferBit_eq, hb]
  simp only [Env.bits] at hk ht ⊢
  generalize l.env.sample bound.head?.join = r7 at *
  generalize r7.2.sample bound.tail.head?.join = r6 at *
  generalize r6.2.sample bound.tail.tail.head?.join = r5 at *
  generalize r5.2.sample bound.tail.tail.tail.head?.join = r4 at *
  generalize r4.2.sample bound.tail.tail.tail.tail.head?.join = r3 at *
  generalize r3.2.sample bound.tail.tail.tail.tail.tail.head?.join = r2 at *
  generalize r2.2.sample bound.tail.tail.tail.tail.tail.tail.head?.join = r1 at *
  generalize r1.2.sample bound.tail.tail.tail.tail.tail.tail.tail.head?.join = r0 at *
  refine ⟨_, r0.2.onTarget fun t => t.take l.rst tx, Prod.ext rfl ?_, ?_, ?_, ?_⟩
  rotate_left
  · rw [Reg.value_written, byteBits_shiftIn]
    refine Prod.ext rfl ?_
    simp only [Env.onTarget]
    split <;> simp [← ht]
  · simp only [Env.onTarget]; split <;> exact hk
  · simp only [Env.onTarget, hk]; split <;> simp [ht]
  · simp only [Link.afterXfer, Reg.value_written, xferEvents, byteBits_shiftIn, Link.mk.injEq]
    refine ⟨trivial, ?_, trivial, ?_, trivial, trivial, trivial, trivial, ?_, trivial⟩
    · congr 1; simp
    · congr 1; bv_omega
    · simp [byteBits]

theorem Env.eq_of_target {e e' : Env} {u v : Target} (h : { e with target := u } = e') (ht : e.target = v) :
    e = { e' with target := v } := by
  subst h ht; rfl

/-- Against any target that presents the bits of `rx` next, `Xfer` receives `rx` and the environment goes on behind them. -/
theorem Link.xfer_presented (tx rx : Byte) (more : List Bool) (l : Link) (hk : l.env.kind = .draws)
    (hm : l.env.miso = byteBits rx ++ more) :
    l.xfer tx = (rx, l.afterXfer tx rx { l.env with miso := more }) := by
  obtain ⟨rx', env, hx, hb, hek, het⟩ := l.xfer_spec tx
  have hr : l.env.reply l.rst tx = Reply.drawn := by simp [Env.reply, hk]
  have hp := Env.bits_presented (byteBits rx) more l.env hm
  rw [hr, show (8 : Nat) = (byteBits rx).length from rfl, hp] at hb
  obtain ⟨h1, h2⟩ := Prod.ext_iff.mp hb
  have := byteBits_injective h1
  subst this
  have ht : env.target = l.env.target := by simpa [Env.onTarget, hk] using het
  rw [hx, Env.eq_of_target h2 ht]

/-- Against the reference target, a reply byte that is determined whole is the byte received. -/
theorem Link.xfer_known (tx rx : Byte) (l : Link) (hk : l.env.kind = .reference)
    (hr : l.env.target.reply l.rst tx = Reply.known rx) :
    l.xfer tx = (rx, l.afterXfer tx rx (l.env.onTarget fun t => t.take l.rst tx)) := by
  obtain ⟨rx', env, hx, hb, hek, het⟩ := l.xfer_spec tx
  have hb' : l.env.reply l.rst tx = (byteBits rx).map some := by simp [Env.reply, hk, hr, Reply.known, byteBits]
  rw [hb', show (8 : Nat) = (byteBits rx).length from rfl, Env.bits_bound] at hb
  obtain ⟨h1, h2⟩ := Prod.ext_iff.mp hb
  have := byteBits_injective h1
  subst this
  rw [hx, Env.eq_of_target h2 het]
  simp [Env.onTarget, hk]

/-! ### One frame -/

/-- The target as one frame leaves it: four bytes taken, where the reference target is connected (R58, R80). -/
def Env.afterFrame (f : IspFrame) (rst : Level) (e : Env) : Target :=
  (e.onTarget fun t => (((t.take rst f.b0).take rst f.b1).take rst f.b2).take rst f.b3).target

/-- `Frame` (R130), everything it does: some reply is received, the link is as `afterFrame` says, and the target, where the
reference target is connected, has taken the four bytes. -/
theorem Link.frame_spec (f : IspFrame) (l : Link) : ∃ r env,
    l.frame f = (r, l.afterFrame f r env) ∧ env.kind = l.env.kind ∧ env.target = l.env.afterFrame f l.rst := by
  obtain ⟨r0, e0, h0, -, k0, t0⟩ := l.xfer_spec f.b0
  obtain ⟨r1, e1, h1, -, k1, t1⟩ := (l.afterXfer f.b0 r0 e0).xfer_spec f.b1
  obtain ⟨r2, e2, h2, -, k2, t2⟩ := ((l.afterXfer f.b0 r0 e0).afterXfer f.b1 r1 e1).xfer_spec f.b2
  obtain ⟨r3, e3, h3, -, k3, t3⟩ := (((l.afterXfer f.b0 r0 e0).afterXfer f.b1 r1 e1).afterXfer f.b2 r2 e2).xfer_spec f.b3
  refine ⟨⟨r0, r1, r2, r3⟩, e3, ?_, ?_, ?_⟩
  · simp only [Link.frame, h0, h1, h2, h3]
    simp [Link.afterXfer, Link.afterFrame, frameEvents]
  · simp_all [Link.afterXfer]
  · simp only [Link.afterXfer] at *
    simp only [Env.onTarget, Env.afterFrame] at *
    cases hk : l.env.kind <;> simp_all

/-- Against any target that presents the bits of `r` next, a frame receives `r`. -/
theorem Link.frame_presented (f r : IspFrame) (more : List Bool) (l : Link) (hk : l.env.kind = .draws)
    (hm : l.env.miso = replyBits r ++ more) :
    l.frame f = (r, l.afterFrame f r { l.env with miso := more }) := by
  have h0 := Link.xfer_presented f.b0 r.b0 (byteBits r.b1 ++ (byteBits r.b2 ++ (byteBits r.b3 ++ more))) l hk
    (by simp [hm, replyBits])
  generalize h1 : l.afterXfer f.b0 r.b0 _ = l1 at h0
  have h2 := Link.xfer_presented f.b1 r.b1 (byteBits r.b2 ++ (byteBits r.b3 ++ more)) l1 (by rw [← h1]; exact hk) (by rw [← h1]; rfl)
  generalize h3 : l1.afterXfer f.b1 r.b1 _ = l2 at h2
  have h4 := Link.xfer_presented f.b2 r.b2 (byteBits r.b3 ++ more) l2 (by rw [← h3, ← h1]; exact hk) (by rw [← h3]; rfl)
  generalize h5 : l2.afterXfer f.b2 r.b2 _ = l3 at h4
  have h6 := Link.xfer_presented f.b3 r.b3 more l3 (by rw [← h5, ← h3, ← h1]; exact hk) (by rw [← h5]; rfl)
  simp only [Link.frame, h0, h2, h4, h6]
  subst h5 h3 h1
  simp [Link.afterXfer, Link.afterFrame, frameEvents]

/-! ### Sequences of frames -/

@[simp] theorem Link.exchange_nil (l : Link) : l.exchange [] = ([], l) := rfl

theorem Link.exchange_cons (f : IspFrame) (fs : List IspFrame) (l : Link) :
    l.exchange (f :: fs) = ((l.frame f).1 :: ((l.frame f).2.exchange fs).1, ((l.frame f).2.exchange fs).2) := rfl

theorem Link.exchange_append (fs gs : List IspFrame) (l : Link) :
    l.exchange (fs ++ gs) = ((l.exchange fs).1 ++ ((l.exchange fs).2.exchange gs).1, ((l.exchange fs).2.exchange gs).2) := by
  induction fs generalizing l with
  | nil => rfl
  | cons f fs ih => simp [Link.exchange_cons, ih]

@[simp] theorem Link.exchange_length (fs : List IspFrame) (l : Link) : (l.exchange fs).1.length = fs.length := by
  induction fs generalizing l with
  | nil => rfl
  | cons f fs ih => simp [Link.exchange_cons, ih]

/-- A page load is the exchange of its load frames. -/
theorem Link.loadPage_eq (region : Region) (j : Nat) (buf : List Byte) (l : Link) :
    l.loadPage region j buf = (l.exchange (loadFrames region j buf)).2 := by
  induction buf generalizing j l with
  | nil => rfl
  | cons v buf ih => simp only [Link.loadPage, loadFrames, Link.exchange_cons, ih]

theorem Link.frame_rst (f : IspFrame) (l : Link) : (l.frame f).2.rst = l.rst := by
  obtain ⟨r, e, h, -⟩ := l.frame_spec f
  simp [h, Link.afterFrame]

theorem Link.frame_kind (f : IspFrame) (l : Link) : (l.frame f).2.env.kind = l.env.kind := by
  obtain ⟨r, e, h, hk, -⟩ := l.frame_spec f
  simp [h, Link.afterFrame, hk]

theorem Link.frame_target (f : IspFrame) (l : Link) : (l.frame f).2.env.target = l.env.afterFrame f l.rst := by
  obtain ⟨r, e, h, -, ht⟩ := l.frame_spec f
  simp [h, Link.afterFrame, ht]

theorem Link.frame_bitcnt (f : IspFrame) (l : Link) : (l.frame f).2.bitcnt = 8 := by
  obtain ⟨r, e, h, -⟩ := l.frame_spec f
  simp [h, Link.afterFrame]

theorem Link.exchange_rst (fs : List IspFrame) (l : Link) : (l.exchange fs).2.rst = l.rst := by
  induction fs generalizing l with
  | nil => rfl
  | cons f fs ih => simp [Link.exchange_cons, ih, Link.frame_rst]

theorem Link.exchange_kind (fs : List IspFrame) (l : Link) : (l.exchange fs).2.env.kind = l.env.kind := by
  induction fs generalizing l with
  | nil => rfl
  | cons f fs ih => simp [Link.exchange_cons, ih, Link.frame_kind]

end Sys2Proof.Machine
end

