-- ==== Sys2Proof/Laws/Exchange.lean ====
section
/-! SUPPORT. The shared operations as exchanges of frames: what each of them sends, by the replies it gets (spec/41_isp_protocol.md,
spec/42_memory_programmer.md). -/

namespace Sys2Proof.Machine

/-! ### Lists of frames -/

theorem replies_append (fs gs : List IspFrame) (s : State) : replies (fs ++ gs) s = replies fs s ++ replies gs (sent fs s) := by
  simp [replies, sent, Link.exchange_append]

theorem sent_append (fs gs : List IspFrame) (s : State) : sent (fs ++ gs) s = sent gs (sent fs s) := by
  simp [sent, Link.exchange_append]

theorem replies_length (fs : List IspFrame) (s : State) : (replies fs s).length = fs.length := Link.exchange_length fs s.link

theorem lastReply_append_singleton (fs : List IspFrame) (f : IspFrame) (s : State) :
    lastReply (fs ++ [f]) s = ((sent fs s).link.frame f).1 := by
  rw [lastReply, replies_append]
  simp [replies, Link.exchange_cons]

theorem sent_append_singleton (fs : List IspFrame) (f : IspFrame) (s : State) :
    sent (fs ++ [f]) s = { s with link := ((sent fs s).link.frame f).2 } := by
  simp [sent, Link.exchange_append, Link.exchange_cons]

theorem lastReply_append (fs gs : List IspFrame) (h : gs ≠ []) (s : State) : lastReply (fs ++ gs) s = lastReply gs (sent fs s) := by
  obtain ⟨hs, g, rfl⟩ : ∃ hs g, gs = hs ++ [g] := ⟨gs.dropLast, gs.getLast h, (List.dropLast_append_getLast h).symm⟩
  rw [← List.append_assoc, lastReply_append_singleton, lastReply_append_singleton, sent_append]

/-! ### One ready poll -/

/-- A poll loop whose first poll reads not busy goes on (R135). -/
theorem pollThen_ready (k : Pending) (next : State → Out) (s : State) (h : busyBit (s.link.frame pollFrame).1 = false) :
    pollThen k next s = next { s with link := (s.link.frame pollFrame).2, busy := false, wpend := false } := by
  simp [pollThen, State.poll, State.frame, State.notePoll, h]

/-- A poll loop whose first poll reads busy waits (R135). -/
theorem pollThen_busy (k : Pending) (next : State → Out) (s : State) (h : busyBit (s.link.frame pollFrame).1 = true) :
    pollThen k next s =
      .next { s with link := (s.link.frame pollFrame).2.wait .tPoll, busy := true, pending := some k } := by
  simp [pollThen, State.poll, State.frame, State.notePoll, State.waiting, h]

/-! ### Hazard checks (R314, R316) -/

theorem guarded_ok {α : Type} (k : HazardKind) (s : State) (go : State → Res α) (h : s.wpend = false)
    (hf : k.isFuseWrite = true → s.fuseDirty = false) : guarded k s go = go s := by
  cases hk : k.isFuseWrite <;> simp_all [guarded, hazard]

theorem guarded_busy {α : Type} (k : HazardKind) (s : State) (go : State → Res α) (h : s.wpend = true) (hk : k.isPoll = false) :
    guarded k s go = .fault .busyHazard := by
  simp [guarded, hazard, h, hk]

theorem readFrame_isFuseWrite (region : Region) (a : Addr) : isFuseWriteFrame (readFrame region a) = false := by
  cases region
  · simp only [readFrame, readFlashFrame, addrFrame]
    split <;> simp [isFuseWriteFrame, decodeFrame]
  · simp [readFrame, readEepromFrame, addrFrame, isFuseWriteFrame, decodeFrame]

theorem loadFrame_isFuseWrite (region : Region) (j : Nat) (v : Byte) : isFuseWriteFrame (loadFrame region j v) = false := by
  cases region
  · simp only [loadFrame]
    split <;> simp [isFuseWriteFrame, decodeFrame]
  · simp [loadFrame, isFuseWriteFrame, decodeFrame]

/-! ### Reads, writes and readback -/

/-- `RD_BYTE` of an address in range with no write cycle pending (R151, R152). -/
theorem rdByte_eq (region : Region) (a : Addr) (s : State) (ha : a.toNat < capacity region) (h : s.wpend = false) :
    rdByte region a s =
      .ok (s.link.frame (readFrame region a)).1.b3 { s with link := (s.link.frame (readFrame region a)).2 } := by
  rw [rdByte, if_neg (by omega),
    guarded_ok _ _ _ h (by simp [HazardKind.isFuseWrite, readFrame_isFuseWrite])]
  rfl

/-- The readback of bytes that all read as written (R156). -/
theorem verifyFrom_equal (region : Region) (base : Addr) (buf : List Byte) (j : Nat) (s : State)
    (hb : base.toNat + j + buf.length ≤ capacity region) (h : s.wpend = false)
    (hr : (replies (readFrames region base j buf.length) s).map (·.b3) = buf) :
    verifyFrom region base j buf s =
      .ok () { s with link := (sent (readFrames region base j buf.length) s).link, verifyOk := true } := by
  have hc : capacity region ≤ 32768 := by cases region <;> decide
  induction buf generalizing j s with
  | nil => rfl
  | cons v buf ih =>
    simp only [List.length_cons, readFrames] at hb hr ⊢
    simp only [replies, Link.exchange_cons, List.map_cons, List.cons.injEq] at hr
    have ha : (base + BitVec.ofNat 16 j).toNat < capacity region := by
      rw [BitVec.toNat_add, BitVec.toNat_ofNat, Nat.mod_eq_of_lt (a := j) (by omega), Nat.mod_eq_of_lt (by omega)]; omega
    simp only [verifyFrom, rdByte_eq _ _ _ ha h, Res.bind, hr.1, if_true]
    rw [ih (j + 1) { s with link := (s.link.frame (readFrame region (base + BitVec.ofNat 16 j))).2 } (by omega) h hr.2]
    rfl

/-- The readback of bytes of which the one at offset `i` is the first to read otherwise (R156). -/
theorem verifyFrom_mismatch (region : Region) (base : Addr) (buf : List Byte) (j i : Nat) (s : State)
    (hb : base.toNat + j + buf.length ≤ capacity region) (h : s.wpend = false) (hi : i < buf.length)
    (hr : (replies (readFrames region base j i) s).map (·.b3) = buf.take i)
    (hm : (lastReply (readFrames region base j (i + 1)) s).b3 ≠ buf.getD i 0#8) :
    verifyFrom region base j buf s =
      .err .verifyError { s with link := (sent (readFrames region base j (i + 1)) s).link, verifyOk := false } := by
  have hc : capacity region ≤ 32768 := by cases region <;> decide
  induction buf generalizing j i s with
  | nil => simp at hi
  | cons v buf ih =>
    simp only [List.length_cons] at hb hi
    have ha : (base + BitVec.ofNat 16 j).toNat < capacity region := by
      rw [BitVec.toNat_add, BitVec.toNat_ofNat, Nat.mod_eq_of_lt (a := j) (by omega), Nat.mod_eq_of_lt (by omega)]; omega
    simp only [verifyFrom, rdByte_eq _ _ _ ha h, Res.bind]
    cases i with
    | zero =>
      have : (s.link.frame (readFrame region (base + BitVec.ofNat 16 j))).1.b3 ≠ v := by
        simpa [lastReply, readFrames, replies, Link.exchange_cons] using hm
      rw [if_neg this]
      rfl
    | succ i =>
      simp only [readFrames, replies, Link.exchange_cons, List.map_cons, List.take_succ_cons, List.cons.injEq] at hr
      rw [if_pos hr.1]
      have hm' : (lastReply (readFrames region base (j + 1) (i + 1))
          { s with link := (s.link.frame (readFrame region (base + BitVec.ofNat 16 j))).2 }).b3 ≠ buf.getD i 0#8 := by
        have := lastReply_append [readFrame region (base + BitVec.ofNat 16 j)] (readFrames region base (j + 1) (i + 1))
          (by simp [readFrames]) s
        rw [show readFrames region base j (i + 1 + 1) =
          [readFrame region (base + BitVec.ofNat 16 j)] ++ readFrames region base (j + 1) (i + 1) from rfl, this] at hm
        simpa [sent, Link.exchange_cons] using hm
      rw [ih (j + 1) i { s with link := (s.link.frame (readFrame region (base + BitVec.ofNat 16 j))).2 } (by omega) h (by omega)
        hr.2 hm']
      rfl

/-- `WR_PAGE` up to its poll (R154, R155): the load frames and the page write, `WPEND` set. -/
theorem startPage_eq (region : Region) (a : Addr) (buf : List Byte) (s : State) (ha : a.toNat < capacity region)
    (h : s.wpend = false) :
    startPage region a buf s = .ok (pageBase region a)
      { s with
        link := (sent (loadFrames region 0 buf ++ [pageFrame region (pageBase region a)]) s).link
        wpend := true } := by
  rw [startPage, if_neg (by omega),
    guarded_ok _ _ _ h (by simp [HazardKind.isFuseWrite, loadFrame_isFuseWrite])]
  simp only [Link.loadPage_eq, State.commit, State.send, State.frame, sent_append_singleton]
  rfl

/-- `WR_EEBYTE` up to its poll (R153): its write frame, `WPEND` set. -/
theorem startEeByte_eq (a : Addr) (v : Byte) (s : State) (ha : a.toNat < capacity .eeprom) (h : s.wpend = false) :
    startEeByte a v s = .ok () { s with link := (s.link.frame (writeEepromFrame a v)).2, wpend := true } := by
  rw [startEeByte, if_neg (by omega),
    guarded_ok _ _ _ h (by simp [HazardKind.isFuseWrite, writeEepromFrame, addrFrame, isFuseWriteFrame, decodeFrame])]
  rfl

/-! ### Synchronisation (R132) -/

theorem Link.failed_succ (j : Nat) (l : Link) :
    Link.failed j (l.attempt.frame progEnableFrame).2.resetPulse = Link.failed (j + 1) l := by
  induction j with
  | zero => rfl
  | succ j ih => simp only [Link.failed, ih]

/-- One turn of the attempt loop that is not in sync (R132). -/
theorem syncLoop_again (n : Nat) (s : State) (h : (attemptReply 0 s).b2 ≠ 0x53#8) :
    syncLoop (n + 2) s = syncLoop (n + 1) { s with link := s.link.failed 1, attempt := s.attempt + 1 } := by
  rw [syncLoop, if_neg (show ¬ (syncAttempt s).1.b2 = Config.syncEcho from h), if_neg (by omega)]
  rfl

theorem attemptReply_succ (j : Nat) (s : State) :
    attemptReply j { s with link := s.link.failed 1, attempt := s.attempt + 1 } = attemptReply (j + 1) s := by
  simp only [attemptReply, ← Link.failed_succ j s.link]
  rfl

/-- The attempt loop that is in sync at its attempt `n + 1` of `n + 1 + m` (R132, R133). -/
theorem syncLoop_syncs (n m : Nat) (s : State) (hs : SyncsAt n s) :
    syncLoop (n + 1 + m) s = .ok () { s with
      link := s.link.tried n, attempt := s.attempt + (n + 1), pstate := .programming, syncOk := true, fuseDirty := false } := by
  induction n generalizing s with
  | zero =>
    have h : (syncAttempt s).1.b2 = Config.syncEcho := hs.1
    rw [show 0 + 1 + m = m + 1 by omega, syncLoop]
    simp only [if_pos h]
    rfl
  | succ n ih =>
    rw [show n + 1 + 1 + m = (n + m) + 2 by omega, syncLoop_again _ _ (hs.2 0 (by omega)),
      show n + m + 1 = n + 1 + m by omega, ih]
    · simp only [Link.tried, ← Link.failed_succ n s.link, Nat.add_assoc, Nat.add_comm 1]
      rfl
    · exact ⟨by rw [attemptReply_succ]; exact hs.1, fun j hj => by rw [attemptReply_succ]; exact hs.2 _ (by omega)⟩

/-- The attempt loop that is never in sync in its `n + 1` attempts (R132). -/
theorem syncLoop_fails (n : Nat) (s : State) (hs : ∀ j, j < n + 1 → (attemptReply j s).b2 ≠ 0x53#8) :
    syncLoop (n + 1) s =
      .err .linkError { s with link := s.link.tried n, attempt := s.attempt + (n + 1), pstate := .failed } := by
  induction n generalizing s with
  | zero =>
    rw [syncLoop, if_neg (show ¬ (syncAttempt s).1.b2 = Config.syncEcho from hs 0 (by omega)), if_pos rfl]
    rfl
  | succ n ih =>
    rw [syncLoop_again _ _ (hs 0 (by omega)), ih]
    · simp only [Link.tried, ← Link.failed_succ n s.link, Nat.add_assoc, Nat.add_comm 1]
      rfl
    · exact fun j hj => by rw [attemptReply_succ]; exact hs _ (by omega)

/-! ### Waiting operations (R135) -/

theorem Link.polled_succ (j : Nat) (l : Link) : Link.polled j ((l.frame pollFrame).2.wait .tPoll) = Link.polled (j + 1) l := by
  induction j with
  | zero => rfl
  | succ j ih => simp only [Link.polled, ih]

theorem pollReply_succ (j : Nat) (s : State) :
    pollReply j { s with link := (s.link.frame pollFrame).2.wait .tPoll, busy := true } = pollReply (j + 1) s := by
  simp only [pollReply, Link.polled_succ]

/-- A waiting operation whose next poll reads busy waits on (R135). -/
theorem step_waits (s : State) (k : Pending) (h : s.pending = some k) (hb : busyBit (s.link.frame pollFrame).1 = true) :
    step s = .next { s with link := (s.link.frame pollFrame).2.wait .tPoll, busy := true } := by
  rw [step, nextWork, h]
  simp only [resume]
  rw [pollThen_busy _ _ _ hb, ← h]

/-- A waiting operation whose next poll reads not busy goes on (R135). -/
theorem step_goes_on (s : State) (k : Pending) (h : s.pending = some k) (hb : busyBit (s.link.frame pollFrame).1 = false) :
    step s = afterPoll k { s with link := (s.link.frame pollFrame).2, busy := false, wpend := false } := by
  rw [step, nextWork, h]
  simp only [resume]
  rw [pollThen_ready _ _ _ hb, h]

end Sys2Proof.Machine
end

