-- ==== Sys2Proof/Laws/Hex.lean ====
section
/-! SUPPORT. The HEX codec (spec/43_hex_codec.md): digits and bytes spelled and read back, the checksum, and what a decoded line
is: the eight checks passed. -/

namespace Sys2Proof.Machine

/-! ### Digits -/

theorem hexVal_hexDigit {n : Nat} (h : n < 16) : hexVal (hexDigit n) = some n := by
  revert h; revert n; decide

theorem hexVal_lt {c : Byte} {n : Nat} (h : hexVal c = some n) : n < 16 := by
  simp only [hexVal] at h
  split at h
  · simp at h; omega
  · split at h
    · simp at h; omega
    · split at h
      · simp at h; omega
      · simp at h

/-- The two digits of `hex2` spell the byte (R194, R182). -/
theorem hexPair_hex2 (v : Byte) : hexPair (hexDigit (v.toNat / 16)) (hexDigit (v.toNat % 16)) = some v := by
  have hv := v.isLt
  rw [hexPair, hexVal_hexDigit (by omega), hexVal_hexDigit (by omega)]
  simp only [Option.some.injEq]
  apply BitVec.eq_of_toNat_eq
  simp only [BitVec.toNat_ofNat]
  omega

/-- A byte read at a position is spelled by the two characters there. -/
theorem hexByte_append {pre rest : List Byte} {c d : Byte} {p : Nat} (h : pre.length = p) :
    hexByte (pre ++ c :: d :: rest) p = hexPair c d := by
  subst h; simp [hexByte]

theorem hexByte_hex2 {pre rest : List Byte} {v : Byte} {p : Nat} (h : pre.length = p) :
    hexByte (pre ++ (hex2 v ++ rest)) p = some v := by
  rw [hex2]
  exact (hexByte_append h).trans (hexPair_hex2 v)

@[simp] theorem hex2_length (v : Byte) : (hex2 v).length = 2 := rfl

theorem flatMap_hex2_length (bytes : List Byte) : (bytes.flatMap hex2).length = 2 * bytes.length := by
  induction bytes with
  | nil => rfl
  | cons v vs ih => simp [ih]; omega

/-- Data bytes spelled out are read back (R190). -/
theorem hexData_flatMap {pre rest : List Byte} (bytes : List Byte) {p : Nat} (h : pre.length = p) :
    hexData (pre ++ (bytes.flatMap hex2 ++ rest)) p bytes.length = some bytes := by
  induction bytes generalizing pre p with
  | nil => rfl
  | cons v vs ih =>
    have h2 := ih (pre := pre ++ hex2 v) (p := p + 2) (by simp [h])
    simp only [List.flatMap_cons, List.append_assoc] at h2 ⊢
    simp only [List.length_cons, hexData, hexByte_hex2 h, h2]

theorem hexData_length {line : List Byte} {p n : Nat} {bs : List Byte} (h : hexData line p n = some bs) : bs.length = n := by
  induction n generalizing p bs with
  | zero => simp [hexData] at h; simp [← h]
  | succ n ih =>
    simp only [hexData] at h
    split at h
    · rename_i b bs' hb hbs
      simp at h
      simp [← h, ih hbs]
    · simp at h

/-- Data bytes are read one position each (R190). -/
theorem hexData_getElem {line : List Byte} {p n : Nat} {bs : List Byte} (h : hexData line p n = some bs) {k : Nat} (hk : k < n) :
    hexByte line (p + 2 * k) = bs[k]? := by
  induction n generalizing p bs k with
  | zero => omega
  | succ n ih =>
    simp only [hexData] at h
    split at h
    · rename_i b bs' hb hbs
      simp at h
      subst h
      cases k with
      | zero => simpa using hb
      | succ k =>
        have := ih hbs (k := k) (by omega)
        simp only [List.getElem?_cons_succ]
        rw [← this]
        congr 1; omega
    · simp at h

/-- Data bytes that read one position each are the data read (R190). -/
theorem hexData_of_getElem {line : List Byte} {p n : Nat} {bs : List Byte} (hn : bs.length = n)
    (h : ∀ k, k < n → hexByte line (p + 2 * k) = bs[k]?) : hexData line p n = some bs := by
  induction n generalizing p bs with
  | zero => simp [List.length_eq_zero_iff.mp hn, hexData]
  | succ n ih =>
    obtain ⟨b, bs, rfl⟩ := List.exists_cons_of_length_eq_add_one hn
    have h0 := h 0 (by omega)
    simp at h0
    have := ih (p := p + 2) (bs := bs) (by simpa using hn) fun k hk => by
      have := h (k + 1) (by omega)
      simp only [List.getElem?_cons_succ] at this
      rw [← this]
      congr 1; omega
    simp [hexData, h0, this]

/-! ### Checksum (R197) -/

theorem byteSum_cons (b : Byte) (bs : List Byte) : byteSum (b :: bs) = b.toNat + byteSum bs := by simp [byteSum]

/-! ### A decoded line -/

/-- A line is accepted exactly when its eight checks pass (R184 to R191), and the record is then the one read (R192). -/
theorem decodeStripped_ok_iff (line : List Byte) (r : HexRecord) : decodeStripped line = .ok r ↔
    11 ≤ line.length ∧ line.head? = some 0x3A#8 ∧ hexByte line 1 = some r.count ∧ r.count.toNat ≤ Config.lineCap ∧
    hexByte line 3 = some (hiByte r.addr) ∧ hexByte line 5 = some (loByte r.addr) ∧ hexByte line 7 = some r.type ∧
    r.type.toNat ≤ 5 ∧ hexData line 9 r.count.toNat = some r.data ∧
    hexByte line (9 + 2 * r.count.toNat) = some (checksum r.count (hiByte r.addr) (loByte r.addr) r.type r.data) := by
  constructor
  · intro h
    simp only [decodeStripped] at h
    split at h <;> [simp at h; skip]
    split at h <;> [simp at h; skip]
    split at h <;> [simp at h; skip]
    split at h <;> [simp at h; skip]
    simp only [decodeFields] at h
    split at h <;> [simp at h; skip]
    split at h <;> [simp at h; skip]
    split at h <;> [simp at h; skip]
    split at h <;> [simp at h; skip]
    split at h <;> [simp at h; skip]
    simp only [decodeChecksum] at h
    split at h <;> [skip; simp at h]
    injection h with h
    subst h
    simp only [hiByte_addrOf, loByte_addrOf]
    refine ⟨?_, ?_, ?_, ?_, ?_, ?_, ?_, ?_, ?_, ?_⟩ <;> first | assumption | omega | simp_all
  · rintro ⟨h1, h2, h3, h4, h5, h6, h7, h8, h9, h10⟩
    simp only [decodeStripped, if_neg (show ¬ line.length < 11 by omega), h2, h3, ne_eq, not_true_eq_false, if_false,
      if_neg (show ¬ Config.lineCap < r.count.toNat by omega), decodeFields, h5, h6, h7,
      if_neg (show ¬ 5 < r.type.toNat by omega), h9, decodeChecksum, h10, if_true,
      addrOf_hiByte_loByte]

/-- A parse error is one of the eight kinds (R180). -/
theorem decodeStripped_error {line : List Byte} {e : Err} (h : decodeStripped line = .error e) :
    e ∈ [.tooShort, .wrongStart, .wrongLength, .wrongAddressHigh, .wrongAddressLow, .wrongType, .wrongData, .wrongChecksum] := by
  simp only [decodeStripped] at h
  split at h <;> [simp_all; skip]
  split at h <;> [simp_all; skip]
  split at h <;> [simp_all; skip]
  split at h <;> [simp_all; skip]
  simp only [decodeFields] at h
  split at h <;> [simp_all; skip]
  split at h <;> [simp_all; skip]
  split at h <;> [simp_all; skip]
  split at h <;> [simp_all; skip]
  split at h <;> [simp_all; skip]
  simp only [decodeChecksum] at h
  split at h <;> simp_all

end Sys2Proof.Machine
end

