-- ==== Sys2Proof/Laws/Memory.lean ====
section
/-! SUPPORT. The laws of byte memories: a read after a write, that a write leaves every other address alone, and that every
memory operation keeps the canonical form. -/

namespace Sys2Proof.Machine

/-! ### Cell lists -/

theorem findCell_putCell_self (m : List Host.Cell) (a : Nat) (v : Byte) : findCell (putCell m a v) a = some v := by
  induction m with
  | nil => simp [putCell, findCell]
  | cons c m ih =>
    simp only [putCell]
    split
    · simp [findCell]
    · split
      · simp [findCell]
      · simp [findCell, *]

theorem findCell_putCell_of_ne (m : List Host.Cell) {a b : Nat} (v : Byte) (h : b ≠ a) :
    findCell (putCell m a v) b = findCell m b := by
  induction m with
  | nil => simp [putCell, findCell, h]
  | cons c m ih =>
    simp only [putCell]
    split
    · simp [findCell, h]
    · split
      · rename_i hac
        simp [findCell, h, ← hac]
      · simp [findCell, ih]

/-- A cell below every cell of the list is not listed. -/
theorem findCell_of_lt {m : List Host.Cell} {a : Nat} (h : ∀ c ∈ m, a < c.1) : findCell m a = none := by
  induction m with
  | nil => rfl
  | cons c m ih =>
    have hc := h c (by simp)
    simp only [findCell, if_neg (by omega : ¬ a = c.1)]
    exact ih fun d hd => h d (by simp [hd])

theorem findCell_dropCell_self {m : List Host.Cell} (hm : cellsSorted m) (a : Nat) : findCell (dropCell m a) a = none := by
  induction m with
  | nil => rfl
  | cons c m ih =>
    have hp := List.pairwise_cons.mp hm
    simp only [dropCell]
    split
    · rename_i hac
      exact findCell_of_lt fun d hd => hac ▸ hp.1 d hd
    · simp [findCell, *]

theorem findCell_dropCell_of_ne (m : List Host.Cell) {a b : Nat} (h : b ≠ a) :
    findCell (dropCell m a) b = findCell m b := by
  induction m with
  | nil => rfl
  | cons c m ih =>
    simp only [dropCell]
    split
    · rename_i hac
      simp [findCell, h, ← hac]
    · simp [findCell, ih]

theorem mem_putCell {m : List Host.Cell} {a : Nat} {v : Byte} {c : Host.Cell} (h : c ∈ putCell m a v) :
    c = (a, v) ∨ c ∈ m := by
  induction m with
  | nil => simpa [putCell] using h
  | cons d m ih =>
    simp only [putCell] at h
    split at h
    · simpa using h
    · split at h
      · rcases List.mem_cons.mp h with h | h
        · exact .inl h
        · exact .inr (by simp [h])
      · rcases List.mem_cons.mp h with h | h
        · exact .inr (by simp [h])
        · exact (ih h).imp id fun h => by simp [h]

theorem mem_dropCell {m : List Host.Cell} {a : Nat} {c : Host.Cell} (h : c ∈ dropCell m a) : c ∈ m := by
  induction m with
  | nil => exact h
  | cons d m ih =>
    simp only [dropCell] at h
    split at h
    · simp [h]
    · rcases List.mem_cons.mp h with h | h
      · simp [h]
      · simp [ih h]

theorem cellsSorted_putCell {m : List Host.Cell} (hm : cellsSorted m) (a : Nat) (v : Byte) : cellsSorted (putCell m a v) := by
  induction m with
  | nil => simp [putCell, cellsSorted]
  | cons c m ih =>
    have hp := List.pairwise_cons.mp hm
    simp only [putCell]
    split
    · rename_i hac
      refine List.pairwise_cons.mpr ⟨fun d hd => ?_, hm⟩
      rcases List.mem_cons.mp hd with rfl | hd
      · exact hac
      · exact Nat.lt_trans hac (hp.1 d hd)
    · split
      · rename_i hac
        exact List.pairwise_cons.mpr ⟨fun d hd => hac ▸ hp.1 d hd, hp.2⟩
      · refine List.pairwise_cons.mpr ⟨fun d hd => ?_, ih hp.2⟩
        rcases mem_putCell hd with rfl | hd
        · simp only; omega
        · exact hp.1 d hd

theorem cellsSorted_dropCell {m : List Host.Cell} (hm : cellsSorted m) (a : Nat) : cellsSorted (dropCell m a) := by
  induction m with
  | nil => exact hm
  | cons c m ih =>
    have hp := List.pairwise_cons.mp hm
    simp only [dropCell]
    split
    · exact hp.2
    · exact List.pairwise_cons.mpr ⟨fun d hd => hp.1 d (mem_dropCell hd), ih hp.2⟩

/-! ### Reads after writes -/

/-- A byte written reads back. -/
theorem Memory.read_write_self {m : Memory} (hm : cellsSorted m) (a : Nat) (v : Byte) :
    Memory.read (Memory.write m a v) a = v := by
  simp only [Memory.read, Memory.write]
  split
  · rename_i hv
    simp [findCell_dropCell_self hm, hv]
  · simp [findCell_putCell_self]

/-- A write leaves every other address alone. -/
theorem Memory.read_write_of_ne (m : Memory) {a b : Nat} (v : Byte) (h : b ≠ a) :
    Memory.read (Memory.write m a v) b = Memory.read m b := by
  simp only [Memory.read, Memory.write]
  split
  · rw [findCell_dropCell_of_ne m h]
  · rw [findCell_putCell_of_ne m v h]

@[simp] theorem Memory.read_nil (a : Nat) : Memory.read [] a = Memory.blank := rfl

/-! ### The canonical form -/

theorem Memory.wf_nil : Memory.wf [] := ⟨List.Pairwise.nil, by simp⟩

theorem Memory.wf_write {m : Memory} (hm : Memory.wf m) (a : Nat) (v : Byte) : Memory.wf (Memory.write m a v) := by
  simp only [Memory.write]
  split
  · exact ⟨cellsSorted_dropCell hm.1 a, fun c hc => hm.2 c (mem_dropCell hc)⟩
  · rename_i hv
    refine ⟨cellsSorted_putCell hm.1 a v, fun c hc => ?_⟩
    rcases mem_putCell hc with rfl | hc
    · exact hv
    · exact hm.2 c hc

theorem Memory.wfIn_nil (size : Nat) : Memory.wfIn size [] := ⟨Memory.wf_nil, by simp⟩

theorem Memory.wfIn_write {size : Nat} {m : Memory} (hm : Memory.wfIn size m) {a : Nat} (ha : a < size) (v : Byte) :
    Memory.wfIn size (Memory.write m a v) := by
  refine ⟨Memory.wf_write hm.1 a v, fun c hc => ?_⟩
  simp only [Memory.write] at hc
  split at hc
  · exact hm.2 c (mem_dropCell hc)
  · rcases mem_putCell hc with rfl | hc
    · exact ha
    · exact hm.2 c hc

theorem Memory.wfIn_writeRange {size : Nat} {m : Memory} (hm : Memory.wfIn size m) (base n : Nat) (f : Nat → Byte)
    (h : base + n ≤ size) : Memory.wfIn size (Memory.writeRange m base n f) := by
  induction n with
  | zero => exact hm
  | succ n ih => exact Memory.wfIn_write (ih (by omega)) (by omega) _

theorem Memory.wfIn_ofList {size : Nat} (hs : 0 < size) (cells : List Host.Cell) :
    Memory.wfIn size (Memory.ofList size cells) := by
  suffices h : ∀ m, Memory.wfIn size m → Memory.wfIn size (cells.foldl (fun m c => Memory.write m (c.1 % size) c.2) m) from
    h [] (Memory.wfIn_nil size)
  induction cells with
  | nil => exact fun m hm => hm
  | cons c cells ih => exact fun m hm => ih _ (Memory.wfIn_write hm (Nat.mod_lt _ hs) _)

/-- A range written reads back byte j as `f j`. -/
theorem Memory.read_writeRange_in {m : Memory} (hm : Memory.wf m) (base : Nat) {n j : Nat} (f : Nat → Byte) (h : j < n) :
    Memory.read (Memory.writeRange m base n f) (base + j) = f j := by
  have wf : ∀ n, Memory.wf (Memory.writeRange m base n f) := fun n => by
    induction n with
    | zero => exact hm
    | succ n ih => exact Memory.wf_write ih _ _
  induction n with
  | zero => omega
  | succ n ih =>
    simp only [Memory.writeRange]
    by_cases hj : j = n
    · subst hj
      exact Memory.read_write_self (wf j).1 _ _
    · rw [Memory.read_write_of_ne _ _ (by omega)]
      exact ih (by omega)

/-- A range write leaves every address outside the range alone. -/
theorem Memory.read_writeRange_out (m : Memory) (base n : Nat) (f : Nat → Byte) {a : Nat} (h : a < base ∨ base + n ≤ a) :
    Memory.read (Memory.writeRange m base n f) a = Memory.read m a := by
  induction n with
  | zero => rfl
  | succ n ih =>
    simp only [Memory.writeRange]
    rw [Memory.read_write_of_ne _ _ (by omega)]
    exact ih (by omega)

end Sys2Proof.Machine
end

