-- ==== Sys2Proof/Laws/Target.lean ====
section
/-! SUPPORT. The reference target (spec/20_memory.md R72 to R79): every change of it keeps its memories canonical, what one whole
frame does to it, and what it answers to a read frame. -/

namespace Sys2Proof.Machine

/-! ### The memories stay canonical -/

/-- The target's memories are canonical and inside their spaces. -/
def Target.MemWf (t : Target) : Prop := Memory.wfIn Config.flashSize t.flash ∧ Memory.wfIn Config.eeSize t.eeprom

theorem Target.memWf_corrupt (t : Target) : t.corrupt.MemWf :=
  ⟨Memory.wfIn_ofList (by decide) _, Memory.wfIn_ofList (by decide) _⟩

theorem Target.memWf_other (t : Target) : t.other.MemWf := t.memWf_corrupt

theorem Target.memWf_startCycle {t : Target} (h : t.MemWf) : t.startCycle.MemWf := h

theorem Target.memWf_progEnable {t : Target} (h : t.MemWf) (rst : Level) : (t.progEnable rst).MemWf := by
  unfold Target.progEnable
  split
  · dsimp only
    split <;> exact h
  · exact t.memWf_other

theorem Target.memWf_chipErase {t : Target} (h : t.MemWf) : t.chipErase.MemWf := by
  unfold Target.chipErase
  dsimp only
  refine Target.memWf_startCycle ?_
  split <;> split <;> exact ⟨Memory.wfIn_nil _, by first | exact h.2 | exact Memory.wfIn_nil _⟩

theorem Target.memWf_commitExtended {t : Target} (h : t.MemWf) : t.commitExtended.MemWf :=
  ⟨Memory.wfIn_ofList (by decide) _, h.2⟩

theorem Target.memWf_writeFlashPage {t : Target} (h : t.MemWf) (w : Addr) : (t.writeFlashPage w).MemWf := by
  unfold Target.writeFlashPage
  split
  · rename_i hw
    split
    · dsimp only
      refine Target.memWf_startCycle ⟨Memory.wfIn_writeRange h.1 _ _ _ ?_, h.2⟩
      simp only [Config.flashWords, Config.flashPage, Config.flashPageWords, Config.flashSize] at *
      omega
    · exact memWf_commitExtended h
  · exact t.memWf_other

theorem Target.memWf_writeEepromPage {t : Target} (h : t.MemWf) (a : Addr) : (t.writeEepromPage a).MemWf := by
  unfold Target.writeEepromPage
  split
  · rename_i hw
    dsimp only
    refine Target.memWf_startCycle ⟨h.1, Memory.wfIn_writeRange h.2 _ _ _ ?_⟩
    simp only [Config.eeSize, Config.eePage] at *
    omega
  · exact t.memWf_other

theorem Target.memWf_writeEeprom {t : Target} (h : t.MemWf) (a : Addr) (v : Byte) : (t.writeEeprom a v).MemWf := by
  unfold Target.writeEeprom
  split
  · rename_i hw
    exact Target.memWf_startCycle ⟨h.1, Memory.wfIn_write h.2 hw v⟩
  · exact t.memWf_other

theorem Target.memWf_loadFlash {t : Target} (h : t.MemWf) (i : Byte) (odd : Nat) (v : Byte) : (t.loadFlash i odd v).MemWf := by
  unfold Target.loadFlash; split <;> [exact h; exact t.memWf_other]

theorem Target.memWf_loadEeprom {t : Target} (h : t.MemWf) (i v : Byte) : (t.loadEeprom i v).MemWf := by
  unfold Target.loadEeprom; split <;> [exact h; exact t.memWf_other]

theorem Target.memWf_writeFuse {t : Target} (h : t.MemWf) (k : FuseKind) (v : Byte) : (t.writeFuse k v).MemWf := by
  unfold Target.writeFuse
  split
  · exact t.memWf_other
  · cases k <;> exact h

theorem Target.memWf_command {t : Target} (h : t.MemWf) (i : Instr) : (t.command i).MemWf := by
  unfold Target.command
  split
  all_goals first
    | exact t.memWf_other
    | exact memWf_chipErase h
    | exact memWf_writeFuse h _ _
    | exact memWf_writeEeprom h _ _
    | exact memWf_loadEeprom h _ _
    | exact memWf_writeEepromPage h _
    | exact memWf_loadFlash h _ _ _
    | exact memWf_writeFlashPage h _
    | exact h

theorem Target.memWf_frameEffect {t : Target} (h : t.MemWf) (rst : Level) (i : Instr) : (t.frameEffect rst i).MemWf := by
  unfold Target.frameEffect
  split
  · exact memWf_progEnable h rst
  · split
    · exact h
    · split
      · exact t.memWf_other
      · split <;> [exact t.memWf_other; exact memWf_command h i]

theorem Target.memWf_takeFrame {t : Target} (h : t.MemWf) (rst : Level) (i : Instr) : (t.takeFrame rst i).MemWf := by
  unfold Target.takeFrame
  split
  · exact h
  · split <;> [exact Target.memWf_corrupt _; exact memWf_frameEffect h rst i]

theorem Target.memWf_takeWord {t : Target} (h : t.MemWf) (rst : Level) (f : IspFrame) : (t.takeWord rst f).MemWf := by
  unfold Target.takeWord; split <;> [exact memWf_takeFrame h rst _; exact t.memWf_other]

theorem Target.memWf_take {t : Target} (h : t.MemWf) (rst : Level) (tx : Byte) : (t.take rst tx).MemWf := by
  unfold Target.take
  split
  · exact memWf_takeWord (t := { t with rx := [] }) h rst _
  · exact h

@[simp] theorem Target.resetLine_flash (t : Target) (b a : Level) : (t.resetLine b a).flash = t.flash := by
  unfold Target.resetLine; (repeat' split) <;> rfl

@[simp] theorem Target.resetLine_eeprom (t : Target) (b a : Level) : (t.resetLine b a).eeprom = t.eeprom := by
  unfold Target.resetLine; (repeat' split) <;> rfl

@[simp] theorem Target.resetLine_busy (t : Target) (b a : Level) : (t.resetLine b a).busy = t.busy := by
  unfold Target.resetLine; (repeat' split) <;> rfl

/-- With no write cycle running, a drive of `RST` is its effect on the mode, the settling time and the frame in progress (R72). -/
theorem Target.onRst_idle {t : Target} (h : t.busy = some 0) (b a : Level) : t.onRst b a = t.resetLine b a := by
  simp [Target.onRst, Target.isBusy, h]

theorem Target.memWf_resetLine {t : Target} (h : t.MemWf) (before after : Level) : (t.resetLine before after).MemWf := by
  unfold Target.resetLine
  split <;> [split <;> exact h; exact h]

theorem Target.memWf_onRst {t : Target} (h : t.MemWf) (before after : Level) : (t.onRst before after).MemWf := by
  unfold Target.onRst
  split <;> [exact Target.memWf_corrupt _; exact memWf_resetLine h _ _]

theorem Target.memWf_onSettle {t : Target} (h : t.MemWf) (rst : Level) : (t.onSettle rst).MemWf := by
  unfold Target.onSettle; split <;> exact h

theorem Env.memWf_onTarget {e : Env} (h : e.target.MemWf) {f : Target → Target} (hf : ∀ t : Target, t.MemWf → (f t).MemWf) :
    (e.onTarget f).target.MemWf := by
  unfold Env.onTarget; split <;> [exact h; exact hf _ h]

/-- The target's memories behind a link are canonical. -/
def Link.MemWf (l : Link) : Prop := l.env.target.MemWf

theorem Link.memWf_xfer {l : Link} (h : l.MemWf) (tx : Byte) : (l.xfer tx).2.MemWf := by
  obtain ⟨rx, env, hx, -, -, ht⟩ := l.xfer_spec tx
  rw [hx]
  show env.target.MemWf
  rw [ht]
  exact Env.memWf_onTarget h fun t ht => Target.memWf_take ht _ _

theorem Link.memWf_frame {l : Link} (h : l.MemWf) (f : IspFrame) : (l.frame f).2.MemWf := by
  show (l.frame f).2.env.target.MemWf
  rw [Link.frame_target, Env.afterFrame]
  exact Env.memWf_onTarget h fun t ht =>
    Target.memWf_take (Target.memWf_take (Target.memWf_take (Target.memWf_take ht _ _) _ _) _ _) _ _

theorem Link.memWf_driveRst {l : Link} (h : l.MemWf) (v : Level) : (l.driveRst v).MemWf :=
  Env.memWf_onTarget h fun _ ht => Target.memWf_onRst ht _ _

theorem Link.memWf_settle {l : Link} (h : l.MemWf) : l.settle.MemWf :=
  Env.memWf_onTarget (f := fun t => t.onSettle l.rst) h fun _ ht => Target.memWf_onSettle ht _

theorem Link.memWf_resetPulse {l : Link} (h : l.MemWf) : l.resetPulse.MemWf :=
  memWf_driveRst (l := (l.driveRst .low).wait .tRstPulse) (memWf_driveRst h .low) .high

theorem Link.memWf_release {l : Link} (h : l.MemWf) : l.release.MemWf :=
  memWf_driveRst (l := (l.driveSck .hiZ).driveMosi .hiZ) h .hiZ

theorem Link.memWf_attempt {l : Link} (h : l.MemWf) : l.attempt.MemWf :=
  memWf_settle (l := ((l.driveSck .low).driveMosi .low).driveRst .low)
    (memWf_driveRst (l := (l.driveSck .low).driveMosi .low) h .low)

theorem Link.memWf_loadPage (region : Region) (buf : List Byte) (j : Nat) {l : Link} (h : l.MemWf) :
    (l.loadPage region j buf).MemWf := by
  induction buf generalizing j l with
  | nil => exact h
  | cons v buf ih => exact ih (j + 1) (memWf_frame h _)

/-! ### One whole frame -/

/-- At a frame boundary, the four bytes of a frame are taken as one word (R58, R80). -/
theorem Target.take_frame {t : Target} (h : t.rx = []) (rst : Level) (f : IspFrame) :
    (((t.take rst f.b0).take rst f.b1).take rst f.b2).take rst f.b3 = t.takeWord rst f := by
  obtain ⟨⟩ := t
  simp only at h
  subst h
  rfl

/-- One frame sent to the reference target at a frame boundary (R73 to R79). -/
theorem Link.frame_target_reference {l : Link} (hk : l.env.kind = .reference) (hr : l.env.target.rx = []) (f : IspFrame) :
    (l.frame f).2.env.target = l.env.target.takeWord l.rst f := by
  rw [Link.frame_target, Env.afterFrame, Env.onTarget, hk]
  exact Target.take_frame hr l.rst f

/-- Against any target, a frame does not reach the reference target. -/
theorem Link.frame_target_draws {l : Link} (hk : l.env.kind = .draws) (f : IspFrame) :
    (l.frame f).2.env.target = l.env.target := by
  rw [Link.frame_target, Env.afterFrame, Env.onTarget, hk]

/-- The link and the target before the fourth byte of a frame at a frame boundary. -/
theorem Link.frame_fourth {l : Link} (hk : l.env.kind = .reference) (hr : l.env.target.rx = []) (f : IspFrame) :
    ∃ m : Link, (l.frame f).1.b3 = (m.xfer f.b3).1 ∧ m.env.kind = .reference ∧ m.rst = l.rst ∧
      m.env.target = { l.env.target with rx := [f.b0, f.b1, f.b2] } := by
  obtain ⟨r0, e0, h0, -, k0, t0⟩ := l.xfer_spec f.b0
  obtain ⟨r1, e1, h1, -, k1, t1⟩ := (l.afterXfer f.b0 r0 e0).xfer_spec f.b1
  obtain ⟨r2, e2, h2, -, k2, t2⟩ := ((l.afterXfer f.b0 r0 e0).afterXfer f.b1 r1 e1).xfer_spec f.b2
  have e0k : e0.kind = .reference := by rw [k0, hk]
  have e1k : e1.kind = .reference := by rw [k1]; exact e0k
  have e2k : e2.kind = .reference := by rw [k2]; exact e1k
  have e0t : e0.target = { l.env.target with rx := [f.b0] } := by
    rw [t0]; simp [Env.onTarget, hk, Target.take, hr]
  have e1t : e1.target = { l.env.target with rx := [f.b0, f.b1] } := by
    rw [t1]; simp [Env.onTarget, Link.afterXfer, e0k, e0t, Target.take]
  have e2t : e2.target = { l.env.target with rx := [f.b0, f.b1, f.b2] } := by
    rw [t2]; simp [Env.onTarget, Link.afterXfer, e1k, e1t, Target.take]
  refine ⟨((l.afterXfer f.b0 r0 e0).afterXfer f.b1 r1 e1).afterXfer f.b2 r2 e2, ?_, e2k, rfl, e2t⟩
  simp only [Link.frame, h0, h1, h2]

/-- The fourth reply byte of the reference target, where it is determined whole, is the one received (R73). -/
theorem Link.frame_reply_known {l : Link} (hk : l.env.kind = .reference) (hr : l.env.target.rx = []) (f : IspFrame) {b : Byte}
    (h : l.env.target.lastReply f = Reply.known b) : (l.frame f).1.b3 = b := by
  obtain ⟨m, hm, mk, -, mt⟩ := Link.frame_fourth hk hr f
  rw [hm, Link.xfer_known f.b3 b m mk (by rw [mt]; exact h)]

/-- The last bit of a byte of which the environment is bound to answer that bit alone is that bit (R73, R74). -/
theorem Link.xfer_poll {l : Link} (hk : l.env.kind = .reference) (tx : Byte) (b : Bool)
    (h : l.env.target.reply l.rst tx = Reply.poll b) : (l.xfer tx).1.getLsbD 0 = b := by
  obtain ⟨rx, env, hx, hb, -⟩ := l.xfer_spec tx
  have hr : l.env.reply l.rst tx = Reply.poll b := by simp [Env.reply, hk, h]
  rw [hx]
  rw [hr] at hb
  have := congrArg (fun p => p.1[7]?) hb
  simpa [byteBits, Env.bits, Reply.poll, Env.sample] using this

/-- In programming mode the busy bit of a ready poll's reply says whether a write cycle is running (R74, R136). -/
theorem Link.frame_busyBit {l : Link} (hk : l.env.kind = .reference) (hr : l.env.target.rx = [])
    (hm : l.env.target.mode = .progEnabled) : busyBit (l.frame pollFrame).1 = l.env.target.isBusy := by
  obtain ⟨m, h, mk, -, mt⟩ := Link.frame_fourth hk hr pollFrame
  rw [busyBit, h, Link.xfer_poll mk]
  have hd : decodeFrame ⟨0xF0#8, 0x00#8, 0x00#8, 0x00#8⟩ = some .pollRdy := by decide
  simp [mt, Target.reply, pollFrame, Target.lastReply, hm, hd, Target.isBusy]

/-- A ready poll sent to the reference target at a frame boundary takes one from its busy polls and does nothing else (R74). -/
theorem Link.frame_polled {l : Link} (hk : l.env.kind = .reference) (hr : l.env.target.rx = []) :
    (l.frame pollFrame).2.env.target = l.env.target.polled := by
  rw [Link.frame_target_reference hk hr]
  have hd : decodeFrame pollFrame = some .pollRdy := by decide
  simp [Target.takeWord, hd, Target.takeFrame]

/-- In sync, the third reply byte of a programming-enable frame is the echo 0x53 (R72, R133). -/
theorem Link.frame_echo {l : Link} (hk : l.env.kind = .reference) (hr : l.env.target.rx = [])
    (hs : l.env.target.inSync l.rst = true) : (l.frame progEnableFrame).1.b2 = 0x53#8 := by
  obtain ⟨r0, e0, h0, -, k0, t0⟩ := l.xfer_spec 0xAC#8
  obtain ⟨r1, e1, h1, -, k1, t1⟩ := (l.afterXfer 0xAC#8 r0 e0).xfer_spec 0x53#8
  have e0k : e0.kind = .reference := by rw [k0, hk]
  have e1k : e1.kind = .reference := by rw [k1]; exact e0k
  have e0t : e0.target = { l.env.target with rx := [0xAC#8] } := by
    rw [t0]; simp [Env.onTarget, hk, Target.take, hr]
  have e1t : e1.target = { l.env.target with rx := [0xAC#8, 0x53#8] } := by
    rw [t1]; simp [Env.onTarget, Link.afterXfer, e0k, e0t, Target.take]
  have hx := Link.xfer_known 0x00#8 0x53#8 ((l.afterXfer 0xAC#8 r0 e0).afterXfer 0x53#8 r1 e1) e1k (by
    have : ({ l.env.target with rx := [0xAC#8, 0x53#8] } : Target).inSync l.rst = true := hs
    simp only [Link.afterXfer, e1t, Target.reply]
    simp [this, Config.syncEcho])
  simp only [Link.frame, progEnableFrame, h0, h1, hx]

/-- A target without a lock or fuse change leaves nothing open for it (U16). -/
@[simp] theorem Target.forbids_of_not_altered {t : Target} (h : t.altered = false) (i : Instr) : t.forbids i = false := by
  simp [Target.forbids, h]

/-- A frame that is no access to flash or EEPROM keeps its own rule after a lock or fuse change (R78, U16). -/
@[simp] theorem Target.forbids_of_not_reachesMemory (t : Target) {i : Instr} (h : reachesMemory i = false) : t.forbids i = false := by
  simp [Target.forbids, h]

/-- A frame of the table sent to the reference target in programming mode, at a frame boundary, with no write cycle running, that is
neither a poll nor programming enable nor a read, and that no lock or fuse change leaves open: its command (R75 to R78). -/
theorem Link.frame_command {l : Link} (hk : l.env.kind = .reference) (hr : l.env.target.rx = [])
    (hm : l.env.target.mode = .progEnabled) (hb : l.env.target.busy = some 0)
    {f : IspFrame} {i : Instr} (ha : l.env.target.forbids i = false) (hf : decodeFrame f = some i) (h1 : i ≠ .pollRdy) (h2 : i ≠ .progEnable) (h3 : isReadFrame i = false) :
    (l.frame f).2.env.target = l.env.target.command i := by
  rw [Link.frame_target_reference hk hr]
  simp [Target.takeWord, hf, Target.takeFrame, Target.frameEffect, h1, h2, h3, Target.isBusy, hb, hm, ha]

/-- A read frame sent to the reference target at a frame boundary, with no write cycle running, changes nothing but the counter of
its free values (R79). -/
theorem Link.frame_read {l : Link} (hk : l.env.kind = .reference) (hr : l.env.target.rx = []) (hb : l.env.target.busy = some 0)
    {f : IspFrame} {i : Instr} (hf : decodeFrame f = some i) (h3 : isReadFrame i = true) :
    (l.frame f).2.env.target = l.env.target.tick := by
  rw [Link.frame_target_reference hk hr]
  have h1 : i ≠ .pollRdy := by rintro rfl; simp [isReadFrame] at h3
  have h2 : i ≠ .progEnable := by rintro rfl; simp [isReadFrame] at h3
  simp [Target.takeWord, hf, Target.takeFrame, Target.frameEffect, h1, h2, h3, Target.isBusy, hb]

end Sys2Proof.Machine
end

