-- ==== Sys2Proof/Laws/Ops.lean ====
section
/-! SUPPORT. What each shared operation can do, said once: inner operations change the link, the flags of the protocol and
nothing else (`Inner`); a host operation that is one inner operation ends as `Res.finish` says; the poll loop has two ends. -/

namespace Sys2Proof.Machine

/-! ### How an operation can end -/

/-- An inner operation that returns a value does so with `ok`, one that raises an error does so with `err`. -/
def Res.Ends {α : Type} (r : Res α) (ok : α → State → Prop) (err : Err → State → Prop) : Prop :=
  match r with
  | .ok a s => ok a s
  | .err e s => err e s
  | .fault _ => True

/-- A host operation or a step that answers a next state answers one with `P`. -/
def NextIn (o : Out) (P : State → Prop) : Prop :=
  match o with
  | .next s => P s
  | .fault _ => True
  | .refused _ => True

theorem Res.Ends.mono {α : Type} {r : Res α} {ok ok' : α → State → Prop} {err err' : Err → State → Prop}
    (h : r.Ends ok err) (ho : ∀ a s, ok a s → ok' a s) (he : ∀ e s, err e s → err' e s) : r.Ends ok' err' := by
  cases r with
  | ok a s => exact ho a s h
  | err e s => exact he e s h
  | fault f => trivial

theorem Res.Ends.bind {α β : Type} {r : Res α} {next : α → State → Res β} {ok : α → State → Prop} {ok' : β → State → Prop}
    {err err' : Err → State → Prop} (h : r.Ends ok err) (hn : ∀ a s, ok a s → (next a s).Ends ok' err')
    (he : ∀ e s, err e s → err' e s) : (r.bind next).Ends ok' err' := by
  cases r with
  | ok a s => exact hn a s h
  | err e s => exact he e s h
  | fault f => trivial

theorem guarded_ends {α : Type} {k : HazardKind} {s : State} {go : State → Res α} {ok : α → State → Prop}
    {err : Err → State → Prop} (h : (go s).Ends ok err) : (guarded k s go).Ends ok err := by
  unfold guarded; split <;> [trivial; exact h]

theorem Res.Ends.finish {α : Type} {r : Res α} {result : α → List Byte} {P : State → Prop} {ok : α → State → Prop}
    {err : Err → State → Prop} (h : r.Ends ok err) (ho : ∀ a s, ok a s → P (s.returned (result a)))
    (he : ∀ e s, err e s → P (s.raised e [])) : NextIn (r.finish result) P := by
  cases r with
  | ok a s => exact ho a s h
  | err e s => exact he e s h
  | fault f => trivial

/-- One turn of the poll loop (R135): either the poll read busy and the operation waits, or it goes on. -/
theorem pollThen_ends {k : Pending} {next : State → Out} {s : State} {P : State → Prop}
    (hw : P (s.poll.waiting k)) (hn : NextIn (next s.poll) P) : NextIn (pollThen k next s) P := by
  unfold pollThen; dsimp only; split <;> [exact hw; exact hn]

/-! ### What an inner operation leaves alone -/

/-- The link's bit counter is in its range and the target's memories are canonical. -/
def Link.Ok (l : Link) : Prop := l.bitcnt ≤ 8 ∧ l.MemWf

/-- `t` is `s` but for the link, the flags of the protocol and `SIG`: what the operations that others call may write (R46). -/
structure Inner (s t : State) : Prop where
  link : s.link.Ok → t.link.Ok
  record : t.record = s.record
  pstate : s.pstate ≠ .syncing → t.pstate ≠ .syncing
  attempt : s.attempt ≤ Config.syncAttempts → t.attempt ≤ Config.syncAttempts
  session : t.session = s.session
  lastError : t.lastError = s.lastError
  params : t.params = s.params
  inbox : t.inbox = s.inbox
  response : t.response = s.response
  pending : t.pending = s.pending

theorem Inner.refl (s : State) : Inner s s := ⟨id, rfl, id, id, rfl, rfl, rfl, rfl, rfl, rfl⟩

theorem Inner.trans {s t u : State} (h : Inner s t) (g : Inner t u) : Inner s u :=
  ⟨g.link ∘ h.link, g.record.trans h.record, g.pstate ∘ h.pstate, g.attempt ∘ h.attempt, g.session.trans h.session,
    g.lastError.trans h.lastError, g.params.trans h.params, g.inbox.trans h.inbox, g.response.trans h.response,
    g.pending.trans h.pending⟩

/-- An error an inner operation may raise, in a state it may leave. -/
def InnerErr (s : State) (e : Err) (t : State) : Prop := e ≠ .resourceError ∧ Inner s t

theorem Link.ok_frame {l : Link} (h : l.Ok) (f : IspFrame) : (l.frame f).2.Ok :=
  ⟨by rw [Link.frame_bitcnt], Link.memWf_frame h.2 f⟩

theorem Link.ok_xfer {l : Link} (h : l.Ok) (tx : Byte) : (l.xfer tx).2.Ok := by
  refine ⟨?_, Link.memWf_xfer h.2 tx⟩
  obtain ⟨rx, env, hx, -⟩ := l.xfer_spec tx
  simp [hx, Link.afterXfer]

theorem Link.ok_loadPage (region : Region) (buf : List Byte) (j : Nat) {l : Link} (h : l.Ok) : (l.loadPage region j buf).Ok := by
  induction buf generalizing j l with
  | nil => exact h
  | cons v buf ih => exact ih (j + 1) (ok_frame h _)

/-- Only the link has changed, and it stays within its ranges. -/
theorem Inner.of_link (s : State) {l : Link} (h : s.link.Ok → l.Ok) : Inner s { s with link := l } :=
  ⟨h, rfl, id, id, rfl, rfl, rfl, rfl, rfl, rfl⟩

theorem inner_send (f : IspFrame) (s : State) : Inner s (s.send f) := .of_link s fun h => Link.ok_frame h f

theorem inner_frame (f : IspFrame) (s : State) : Inner s (s.frame f).2 := inner_send f s

theorem inner_commit (f : IspFrame) (s : State) : Inner s (s.commit f) :=
  ⟨fun h => Link.ok_frame h f, rfl, id, id, rfl, rfl, rfl, rfl, rfl, rfl⟩

theorem inner_notePoll (r : IspFrame) (s : State) : Inner s (s.notePoll r) := ⟨id, rfl, id, id, rfl, rfl, rfl, rfl, rfl, rfl⟩

theorem inner_poll (s : State) : Inner s s.poll := (inner_frame pollFrame s).trans (inner_notePoll _ _)

theorem inner_noteFrame (f r : IspFrame) (s : State) : Inner s (noteFrame f r s) := by
  unfold noteFrame
  dsimp only
  split
  · exact ⟨id, rfl, id, id, rfl, rfl, rfl, rfl, rfl, rfl⟩
  · exact ⟨id, rfl, id, id, rfl, rfl, rfl, rfl, rfl, rfl⟩

theorem rdByte_ends (region : Region) (a : Addr) (s : State) : (rdByte region a s).Ends (fun _ => Inner s) (InnerErr s) := by
  unfold rdByte
  split
  · exact ⟨by decide, .refl s⟩
  · exact guarded_ends (inner_frame _ s)

theorem readReply_ends (f : IspFrame) (s : State) : (readReply f s).Ends (fun _ => Inner s) (InnerErr s) :=
  guarded_ends (inner_frame _ s)

theorem setExt_ends (v : Byte) (s : State) : (setExt v s).Ends (fun _ => Inner s) (InnerErr s) := guarded_ends (inner_send _ s)

theorem issueFrame_ends (f : IspFrame) (s : State) : (issueFrame f s).Ends (fun _ => Inner s) (InnerErr s) :=
  guarded_ends ((inner_frame f s).trans (inner_noteFrame _ _ _))

theorem startEeByte_ends (a : Addr) (v : Byte) (s : State) : (startEeByte a v s).Ends (fun _ => Inner s) (InnerErr s) := by
  unfold startEeByte
  split
  · exact ⟨by decide, .refl s⟩
  · exact guarded_ends (inner_commit _ s)

theorem verifyEeByte_ends (a : Addr) (v : Byte) (s : State) : (verifyEeByte a v s).Ends (fun _ => Inner s) (InnerErr s) := by
  refine (rdByte_ends .eeprom a s).bind (fun rb t ht => ?_) fun _ _ h => h
  split
  · exact ht.trans ⟨id, rfl, id, id, rfl, rfl, rfl, rfl, rfl, rfl⟩
  · exact ⟨by decide, ht.trans ⟨id, rfl, id, id, rfl, rfl, rfl, rfl, rfl, rfl⟩⟩

theorem verifyFrom_ends (region : Region) (base : Addr) (buf : List Byte) (j : Nat) (s : State) :
    (verifyFrom region base j buf s).Ends (fun _ => Inner s) (InnerErr s) := by
  induction buf generalizing j s with
  | nil => exact ⟨id, rfl, id, id, rfl, rfl, rfl, rfl, rfl, rfl⟩
  | cons v buf ih =>
    refine (rdByte_ends region _ s).bind (fun rb t ht => ?_) fun _ _ h => h
    split
    · exact (ih (j + 1) t).mono (fun _ _ h => ht.trans h) fun _ _ h => ⟨h.1, ht.trans h.2⟩
    · exact ⟨by decide, ht.trans ⟨id, rfl, id, id, rfl, rfl, rfl, rfl, rfl, rfl⟩⟩

theorem verifyPage_ends (region : Region) (base : Addr) (buf : List Byte) (s : State) :
    (verifyPage region base buf s).Ends (fun _ => Inner s) (InnerErr s) := verifyFrom_ends region base buf 0 s

/-- The page operation answers the base of its page (R154, R155). -/
theorem startPage_ends (region : Region) (a : Addr) (buf : List Byte) (s : State) :
    (startPage region a buf s).Ends (fun base t => Inner s t ∧ base = pageBase region a) (InnerErr s) := by
  unfold startPage
  split
  · exact ⟨by decide, .refl s⟩
  · exact guarded_ends ⟨(Inner.of_link s fun h => Link.ok_loadPage region buf 0 h).trans (inner_commit _ _), rfl⟩

theorem startErase_ends (s : State) : (startErase s).Ends (fun _ => Inner s) (InnerErr s) := guarded_ends (inner_commit _ s)

theorem startFuse_ends (k : FuseKind) (v : Byte) (s : State) : (startFuse k v s).Ends (fun _ => Inner s) (InnerErr s) :=
  guarded_ends ((inner_commit _ s).trans ⟨id, rfl, id, id, rfl, rfl, rfl, rfl, rfl, rfl⟩)

theorem linkRelease_ends (s : State) : (linkRelease s).Ends (fun _ => Inner s) (InnerErr s) :=
  guarded_ends ⟨fun h => ⟨h.1, Link.memWf_release h.2⟩, rfl, fun _ => by simp, id, rfl, rfl, rfl, rfl, rfl, rfl⟩

/-- One turn of the attempt loop (R132), from the replies and the link of its frame. -/
theorem syncLoop_succ (n : Nat) (s : State) {r : IspFrame × Link} (h : s.link.attempt.frame progEnableFrame = r) :
    syncLoop (n + 1) s =
      if r.1.b2 = Config.syncEcho then
        .ok () { s with attempt := s.attempt + 1, link := r.2, pstate := .programming, syncOk := true, fuseDirty := false }
      else if n = 0 then .err .linkError { s with attempt := s.attempt + 1, link := r.2, pstate := .failed }
      else syncLoop n { s with attempt := s.attempt + 1, link := r.2.resetPulse } := by
  subst h; rfl

theorem Link.ok_attempt {l : Link} (h : l.Ok) : (l.attempt.frame progEnableFrame).2.Ok :=
  Link.ok_frame (l := l.attempt) ⟨h.1, Link.memWf_attempt h.2⟩ _

theorem Link.ok_resetPulse {l : Link} (h : l.Ok) : l.resetPulse.Ok := ⟨h.1, Link.memWf_resetPulse h.2⟩

/-- The attempt loop (R132): it leaves `Syncing`, and counts its attempts up to their number. -/
theorem syncLoop_ends (n : Nat) (s : State) (h : s.attempt + n ≤ Config.syncAttempts) :
    (syncLoop n s).Ends (fun _ t => Inner { s with pstate := .idle } t) (InnerErr { s with pstate := .idle }) := by
  induction n generalizing s with
  | zero => exact ⟨by decide, id, rfl, fun _ => by simp, id, rfl, rfl, rfl, rfl, rfl, rfl⟩
  | succ n ih =>
    obtain ⟨r, hr⟩ : ∃ r, s.link.attempt.frame progEnableFrame = r := ⟨_, rfl⟩
    have hl : s.link.Ok → r.2.Ok := fun h => hr ▸ Link.ok_attempt h
    have ha : s.attempt + 1 ≤ Config.syncAttempts := by omega
    rw [syncLoop_succ n s hr]
    split
    · exact ⟨hl, rfl, fun _ => by simp, fun _ => ha, rfl, rfl, rfl, rfl, rfl, rfl⟩
    · split
      · exact ⟨by decide, hl, rfl, fun _ => by simp, fun _ => ha, rfl, rfl, rfl, rfl, rfl, rfl⟩
      · have hi : Inner { s with pstate := .idle } { s with
            attempt := s.attempt + 1, link := r.2.resetPulse, pstate := .idle } :=
          ⟨fun h => Link.ok_resetPulse (hl h), rfl, fun _ => by simp, fun _ => ha, rfl, rfl, rfl, rfl, rfl, rfl⟩
        have hn := ih { s with attempt := s.attempt + 1, link := r.2.resetPulse } (by show s.attempt + 1 + n ≤ _; omega)
        exact hn.mono (fun _ _ h => hi.trans h) fun _ _ h => ⟨h.1, hi.trans h.2⟩

theorem pgmEnter_ends (s : State) : (pgmEnter s).Ends (fun _ => Inner s) (InnerErr s) := by
  refine guarded_ends ((syncLoop_ends _ _ (by simp [Config.syncAttempts])).mono (fun _ _ h => ?_) fun _ _ h => ⟨h.1, ?_⟩)
  · exact ⟨h.link, h.record, fun _ => h.pstate (by simp), fun _ => h.attempt (by simp), h.session, h.lastError, h.params,
      h.inbox, h.response, h.pending⟩
  · have h := h.2
    exact ⟨h.link, h.record, fun _ => h.pstate (by simp), fun _ => h.attempt (by simp), h.session, h.lastError, h.params,
      h.inbox, h.response, h.pending⟩

theorem signatureGate_ends (s : State) : (signatureGate s).Ends (fun _ => Inner s) (InnerErr s) := by
  refine (readReply_ends _ s).bind (fun s0 t0 h0 => ?_) fun _ _ h => h
  refine (readReply_ends _ t0).bind (fun s1 t1 h1 => ?_) fun _ _ h => ⟨h.1, h0.trans h.2⟩
  refine (readReply_ends _ t1).bind (fun s2 t2 h2 => ?_) fun _ _ h => ⟨h.1, (h0.trans h1).trans h.2⟩
  have hi : Inner s { t2 with sig := .written ⟨s0, s1, s2⟩ } :=
    ((h0.trans h1).trans h2).trans ⟨id, rfl, id, id, rfl, rfl, rfl, rfl, rfl, rfl⟩
  dsimp only
  split
  · exact hi
  · exact ⟨by decide, hi⟩

/-- The start of a session (R210, R211) works on the begun session. -/
theorem openSession_ends (region : Region) (s : State) :
    (openSession region s).Ends (fun _ => Inner (beginSession region s)) (InnerErr (beginSession region s)) :=
  (pgmEnter_ends _).bind (fun _ t ht => (signatureGate_ends t).mono (fun _ _ h => ht.trans h) fun _ _ h => ⟨h.1, ht.trans h.2⟩)
    fun _ _ h => h

/-! ### Error codes (R281) -/

theorem Err.code_range (e : Err) : e.code.toNat ≤ 17 ∧ (e ≠ .resourceError → e.code ≠ 13#8) ∧ e.code ≠ 0#8 := by
  cases e <;> decide

end Sys2Proof.Machine
end

