-- ==== Sys2Proof/Laws/Session.lean ====
section
/-! SUPPORT. The steps of a programming session (spec/44_write_controller.md): each keeps the invariant of the machine. -/

namespace Sys2Proof.Machine

/-- The parts of the machine's invariant that no session step touches. -/
structure Sound (s : State) : Prop where
  link : s.link.Ok
  attempt : s.attempt ≤ Config.syncAttempts
  lastError : s.lastError.toNat ≤ 17 ∧ s.lastError ≠ 13#8
  record : RecordInv s
  pstate : s.pstate ≠ .syncing

/-- An inner operation keeps them. -/
theorem Sound.of_inner {s t : State} (h : Sound s) (g : Inner s t) : Sound t :=
  ⟨g.link h.link, g.attempt h.attempt, by rw [g.lastError]; exact h.lastError,
   by intro r hr; exact h.record r (by rw [← g.record, hr]), g.pstate h.pstate⟩

theorem Sound.raised {s : State} (h : Sound s) {e : Err} (he : e ≠ .resourceError) (x : List Byte) : Sound (s.raised e x) :=
  ⟨h.link, h.attempt, ⟨(Err.code_range e).1, (Err.code_range e).2.1 he⟩, h.record, h.pstate⟩
theorem Sound.returned {s : State} (h : Sound s) (x : List Byte) : Sound (s.returned x) :=
  ⟨h.link, h.attempt, ⟨Nat.zero_le _, by simp [okCode]⟩, h.record, h.pstate⟩
theorem Sound.waiting {s : State} (h : Sound s) (k : Pending) : Sound (s.waiting k) :=
  ⟨h.link, h.attempt, h.lastError, h.record, h.pstate⟩

/-- The invariant of the machine, from its parts. -/
theorem machineInv_of {s : State} (h : Sound s)
    (h1 : s.session.pageOpen = true → FlashPass s ∧ PageReady s)
    (h2 : s.session.sstate = .active → s.session.region = .flash → s.pending ≠ some .beginErase → s.session.erased = true)
    (h3 : ∀ k, s.pending = some k → PendingInv s k) : MachineInv s :=
  ⟨⟨h1, h2, h3, h.pstate⟩, ⟨h.link.1, h.attempt, h.lastError.1, h.lastError.2⟩, h.record, h.link.2⟩

/-- The invariant holds these parts. -/
theorem sound_of_machineInv {s : State} (h : MachineInv s) : Sound s :=
  ⟨⟨h.2.1.1, h.2.2.2⟩, h.2.1.2.1, ⟨h.2.1.2.2.1, h.2.1.2.2.2⟩, h.2.2.1, h.1.2.2.2⟩

/-- The session part of the invariant while nothing waits (R38, R231). -/
def SessionOk (s : State) : Prop :=
  (s.session.pageOpen = true → FlashPass s ∧ PageReady s) ∧
  (s.session.sstate = .active → s.session.region = .flash → s.session.erased = true)

/-- It depends on the session fields alone. -/
theorem sessionOk_congr {s t : State} (h : t.session = s.session) : SessionOk s → SessionOk t := by
  unfold SessionOk FlashPass PageReady; rw [h]; exact id

/-- An operation that succeeds leaves the invariant. -/
theorem machineInv_returned {s : State} (h : Sound s) (g : SessionOk s) (x) : MachineInv (s.returned x) :=
  machineInv_of (h.returned x) g.1 (fun a b _ => g.2 a b) (fun k hk => by simp at hk)
/-- An operation that ends in an error leaves the invariant. -/
theorem machineInv_raised {s : State} (h : Sound s) (g : SessionOk s) {e : Err} (he : e ≠ .resourceError) (x) : MachineInv (s.raised e x) :=
  machineInv_of (h.raised he x) g.1 (fun a b _ => g.2 a b) (fun k hk => by simp at hk)
/-- An operation that waits leaves the invariant, if what it waits with is allowed. -/
theorem machineInv_waiting {s : State} (h : Sound s) (g : SessionOk s) {k : Pending} (hk : PendingInv s k) : MachineInv (s.waiting k) :=
  machineInv_of (h.waiting k) g.1 (fun a b _ => g.2 a b) (fun k' hk' => by
    simp at hk'; subst hk'; cases k <;> exact hk)

/-- An abort (R227) leaves the invariant. -/
theorem abort_machineInv {s : State} (h : Sound s) {e : Err} (he : e ≠ .resourceError) (b : Bool) : NextIn (abort e b s) MachineInv := by
  unfold abort
  dsimp only
  have hl := linkRelease_ends { s with session := { s.session with page := s.session.page.close, sstate := .aborted } }
  have hR : Sound { s with session := { s.session with page := s.session.page.close, sstate := .aborted } } :=
    ⟨h.link, h.attempt, h.lastError, h.record, h.pstate⟩
  split
  · rename_i u t heq
    rw [heq] at hl
    exact machineInv_raised (hR.of_inner hl) ⟨by rw [hl.session]; simp, by rw [hl.session]; simp⟩ he _
  · rename_i e' t heq
    rw [heq] at hl
    exact machineInv_raised (hR.of_inner hl.2) ⟨by rw [hl.2.session]; simp, by rw [hl.2.session]; simp⟩ hl.1 _
  · trivial

/-- A completion (R233) leaves the invariant. -/
theorem complete_machineInv {s : State} (h : Sound s) (hp : s.session.pageOpen = false) : NextIn (complete s) MachineInv := by
  unfold complete
  have hR : Sound { s with session := { s.session with sstate := .done } } :=
    ⟨h.link, h.attempt, h.lastError, h.record, h.pstate⟩
  refine (linkRelease_ends _).finish (fun _ t ht => ?_) (fun e t ht => ?_)
  · exact machineInv_returned (hR.of_inner ht) ⟨by rw [ht.session]; simp [hp], by rw [ht.session]; simp⟩ _
  · exact machineInv_raised (hR.of_inner ht.2) ⟨by rw [ht.2.session]; simp [hp], by rw [ht.2.session]; simp⟩ ht.1 _

/-- A step of a session goes on with its value or aborts (R282). -/
theorem orAbort_machineInv {α} {r : Res α} {s : State} {b : Bool} {next : α → State → Out} (hR : Sound s) {ok : α → State → Prop}
    (hr : r.Ends ok (InnerErr s)) (hn : ∀ a t, ok a t → NextIn (next a t) MachineInv) : NextIn (r.orAbort b next) MachineInv := by
  cases r with
  | ok a t => exact hn a t hr
  | err e t => exact abort_machineInv (hR.of_inner hr.2) hr.1 b
  | fault f => trivial

/-- The readback of a flush (R218). -/
theorem flushDone_machineInv {s : State} (hR : Sound s) {base pb b} {next : State → Out}
    (hn : ∀ t, Inner s t → NextIn (next t) MachineInv) : NextIn (flushDone base pb b next s) MachineInv :=
  orAbort_machineInv hR (verifyPage_ends .flash base pb s) fun _ t ht => hn t ht

theorem flashPass_of_session {s t : State} (h : t.session = s.session) : FlashPass s → FlashPass t := by
  unfold FlashPass; rw [h]; exact id

/-- The page base of a flash address (R62). -/
theorem pageBase_flash (a : Addr) : (pageBase .flash a).toNat = 128 * (a.toNat / 128) := by
  have := a.isLt
  simp only [pageBase, pageSize, Config.flashPage, BitVec.toNat_sub, BitVec.toNat_umod, BitVec.toNat_ofNat]
  rw [show 128 % 2 ^ 16 = 128 from rfl]
  omega

/-- A flush (R218): the open page is closed first; what waits and what follows sees a flash pass with no page open. -/
theorem flushThen_machineInv {s : State} (hR : Sound s) (hs : SessionOk s) {k : Addr → List Byte → Pending} {b : Bool} {next : State → Out}
    (hk : ∀ base pb t, FlashPass s → PageArgs base pb → t.session = { s.session with page := s.session.page.close } → PendingInv t (k base pb))
    (hn0 : s.session.pageOpen = false → NextIn (next s) MachineInv)
    (hn : ∀ t, FlashPass s → Sound t → t.session = { s.session with page := s.session.page.close } → NextIn (next t) MachineInv) :
   NextIn (flushThen k b next s) MachineInv := by
  unfold flushThen
  split
  · rename_i base pb ho
    obtain ⟨hf, _, _, hp, h1, h2, h3⟩ := hs.1 (by rw [Session.pageOpen, ho]; rfl)
    obtain ⟨rfl, rfl⟩ := PageState.opened.inj (ho.symm.trans hp)
    have hR' : Sound { s with session := { s.session with page := s.session.page.close } } :=
      ⟨hR.link, hR.attempt, hR.lastError, hR.record, hR.pstate⟩
    refine orAbort_machineInv hR' (startPage_ends .flash base pb _) fun base' t ⟨ht, hbase⟩ => ?_
    have ht' := ht.trans (inner_poll t)
    have hse := ht'.session
    have hargs : PageArgs base' pb := by
      subst hbase
      refine ⟨?_, ?_, h3⟩ <;> (rw [pageBase_flash]; simp [Config.flashPage, Config.flashSize] at *; try omega)
    refine pollThen_ends (machineInv_waiting (hR'.of_inner ht') ⟨by rw [hse]; simp, ?_⟩ (hk base' pb _ hf hargs hse)) ?_
    · intro a b; rw [hse]; exact hf.2.2
    · refine flushDone_machineInv (hR'.of_inner ht') fun u hu => ?_
      exact hn u hf ((hR'.of_inner ht').of_inner hu) (hu.session.trans hse)
  · rename_i ho
    exact hn0 (by rw [Session.pageOpen, ho]; rfl)

theorem sound_session {s : State} (h : Sound s) (x : Session) : Sound { s with session := x } :=
  ⟨h.link, h.attempt, h.lastError, h.record, h.pstate⟩

/-- A merge keeps the page a page of flash (R217). -/
theorem mergeByte_pageReady {s : State} (hp : PageReady s) (a : Addr) (v : Byte) : PageReady (mergeByte a v s) := by
  obtain ⟨base, pb, hb, h1, h2, h3⟩ := hp
  unfold mergeByte
  rw [hb]
  exact ⟨base, _, rfl, h1, h2, by simpa using h3⟩

theorem mergeByte_sound {s : State} (h : Sound s) (a : Addr) (v : Byte) : Sound (mergeByte a v s) := by
  unfold mergeByte; split <;> [exact sound_session h _; exact h]

theorem mergeByte_flashPass {s : State} (h : FlashPass s) (a : Addr) (v : Byte) : FlashPass (mergeByte a v s) := by
  unfold mergeByte; split <;> exact h

/-- An opened page is a page (R216). -/
theorem openPage_pageReady {a : Addr} (ha : a.toNat < Config.flashSize) (s : State) : PageReady (openPage (pageBase .flash a) s) := by
  refine ⟨_, _, rfl, ?_, ?_, by simp⟩ <;> (rw [pageBase_flash]; simp [Config.flashPage, Config.flashSize] at *; try omega)

/-- The bytes of a data record (R219). -/
theorem mergeBytes_machineInv (data : List Byte) (a : Addr) (s : State) (hR : Sound s) (hf : FlashPass s) (hp : PageReady s)
    (hfit : a.toNat + data.length ≤ Config.flashSize) : NextIn (mergeBytes a data s) MachineInv := by
  induction data generalizing a s with
  | nil => exact machineInv_returned hR ⟨fun _ => ⟨hf, hp⟩, fun _ _ => hf.2.2⟩ _
  | cons v vs ih =>
    have ha : a.toNat < Config.flashSize := by simp at hfit; omega
    have ha1 : (a + 1).toNat + vs.length ≤ Config.flashSize := by
      have : (a + 1).toNat = a.toNat + 1 := by
        simp [Config.flashSize] at *; omega
      simp at hfit; omega
    unfold mergeBytes
    split
    · exact ih _ _ (mergeByte_sound hR _ _) (mergeByte_flashPass hf _ _) (mergeByte_pageReady hp _ _) ha1
    · have hnext : ∀ t, Sound t → FlashPass t → NextIn (mergeBytes (a + 1) vs (mergeByte a v (openPage (pageBase .flash a) t))) MachineInv := by
        intro t ht hft
        refine ih _ _ (mergeByte_sound (sound_session ht _) _ _) (mergeByte_flashPass ?_ _ _) (mergeByte_pageReady (openPage_pageReady ha t) _ _) ha1
        exact hft
      refine flushThen_machineInv hR ⟨fun _ => ⟨hf, hp⟩, fun _ _ => hf.2.2⟩ ?_ (fun _ => hnext s hR hf) (fun t _ ht hse => hnext t ht ?_)
      · intro base pb t _ hargs hse
        refine ⟨?_, by rw [hse]; rfl, hargs, ha, hfit⟩
        unfold FlashPass; rw [hse]; exact hf
      · unfold FlashPass; rw [hse]; exact hf

theorem openAndMerge_machineInv (data : List Byte) (a : Addr) (s : State) (hR : Sound s) (hf : FlashPass s) (hfit : FitsFlash a data.length) :
   NextIn (openAndMerge a data s) MachineInv :=
  mergeBytes_machineInv data a _ (sound_session hR _) hf (openPage_pageReady hfit.1 s) hfit.2

/-- The end of a session (R222, R226). -/
theorem endSession_machineInv {s : State} (hR : Sound s) (hs : SessionOk s) (b : Bool) : NextIn (endSession b s) MachineInv := by
  refine flushThen_machineInv hR hs ?_ (fun h => complete_machineInv hR h) (fun t _ ht hse => complete_machineInv ht (by rw [hse]; rfl))
  intro base pb t hf hargs hse
  exact ⟨by unfold FlashPass; rw [hse]; exact hf, by rw [hse]; rfl, hargs⟩

/-- The bytes of an EEPROM record (R223). -/
theorem eepromBytes_machineInv (vs : List Byte) (a : Addr) (s : State) (hR : Sound s) (hs : SessionOk s)
    (he : s.session.sstate = .active ∧ s.session.region = .eeprom) : NextIn (eepromBytes a vs s) MachineInv := by
  induction vs generalizing a s with
  | nil => exact machineInv_returned hR hs _
  | cons v vs ih =>
    refine orAbort_machineInv hR (startEeByte_ends a v s) fun _ t ht => ?_
    have ht' := ht.trans (inner_poll t)
    refine pollThen_ends (machineInv_waiting (hR.of_inner ht') (sessionOk_congr ht'.session hs) ?_) ?_
    · show _ ∧ _; rw [ht'.session]; exact he
    · refine orAbort_machineInv (hR.of_inner ht') (verifyEeByte_ends a v _) fun _ u hu => ?_
      have hu' := ht'.trans hu
      exact ih _ _ (hR.of_inner hu') (sessionOk_congr hu'.session hs) (by rw [hu'.session]; exact he)

/-- A forwarded extended address (R221). -/
theorem extAddress_machineInv {s : State} (hR : Sound s) (hs : SessionOk s) (r : HexRecord) : NextIn (extAddress r s) MachineInv := by
  unfold extAddress
  split
  · exact orAbort_machineInv hR (setExt_ends _ s) fun _ t ht => machineInv_returned (hR.of_inner ht) (sessionOk_congr ht.session hs) _
  · exact abort_machineInv hR (by decide) _

/-- A data record of a flash pass (R219). -/
theorem flashData_machineInv {s : State} (hR : Sound s) (hs : SessionOk s) (hf : FlashPass s) {r : HexRecord}
    (hl : r.data.length = r.count.toNat) (hfit : recordFits r .flash = true) : NextIn (flashData r s) MachineInv := by
  have hfit' : FitsFlash r.addr r.data.length := by
    simp only [recordFits, Bool.and_eq_true] at hfit
    exact ⟨of_decide_eq_true hfit.1, by rw [hl]; exact of_decide_eq_true hfit.2⟩
  unfold flashData
  split
  · rename_i ho
    exact mergeBytes_machineInv _ _ _ hR hf (hs.1 (PageState.isOpen_of_isAt ho)).2 hfit'.2
  · refine flushThen_machineInv hR hs ?_ (fun _ => openAndMerge_machineInv _ _ _ hR hf hfit') (fun t _ ht hse => openAndMerge_machineInv _ _ _ ht ?_ hfit')
    · intro base pb t _ hargs hse
      refine ⟨?_, by rw [hse]; rfl, hargs, hfit'⟩
      unfold FlashPass; rw [hse]; exact hf
    · unfold FlashPass; rw [hse]; exact hf

/-- The decoder inside an operation (R183): `REC` on success, nothing on an error. -/
theorem decodeRecord_ends (text : List Byte) (s : State) : (decodeRecord text s).Ends
    (fun r t => t = { s with record := .written r } ∧ r.data.length = r.count.toNat ∧ r.count.toNat ≤ Config.lineCap ∧ r.type.toNat ≤ 5)
    (fun e t => e ≠ .resourceError ∧ t = s) := by
  unfold decodeRecord decodeLine
  split
  · rename_i r h
    have h := (decodeStripped_ok_iff _ _).mp h
    exact ⟨rfl, hexData_length h.2.2.2.2.2.2.2.2.1, h.2.2.2.1, h.2.2.2.2.2.2.2.1⟩
  · rename_i e h
    have h := decodeStripped_error h
    exact ⟨by rintro rfl; simp at h, rfl⟩

end Sys2Proof.Machine
end

