-- ==== Sys2Proof/Laws/Flush.lean ====
section
/-! SUPPORT. What the shared steps of a session answer, in the terms of Safety: an abort, a completion, a flush, the merge of bytes
into one page, the bytes of an EEPROM record (spec/44_write_controller.md R217 to R219, R223, R227, R233). -/

namespace Sys2Proof.Machine

/-! ### The end of a session -/

theorem linkRelease_eq (s : State) (h : s.wpend = false) :
    linkRelease s = .ok () { s with link := s.link.release, pstate := .idle } := by
  rw [linkRelease, guarded_ok _ _ _ h (by simp [HazardKind.isFuseWrite])]

theorem lineBytes_eq (s : State) :
    lineBytes s = [BitVec.ofNat 8 (s.session.lineNo.toNat / 256), BitVec.ofNat 8 s.session.lineNo.toNat] := by
  simp only [lineBytes, hiByte, loByte]
  congr 1
  apply BitVec.eq_of_toNat_eq; simp [Nat.shiftRight_eq_div_pow]

/-- An abort with no write cycle pending (R227). -/
theorem abort_eq (e : Err) (inLine : Bool) (s : State) (h : s.wpend = false) :
    abort e inLine s = .next (State.abortedBy e inLine s) := by
  rw [abort, linkRelease_eq { s with session := { s.session with page := s.session.page.close, sstate := .aborted } } h]
  cases inLine <;> simp [raise, State.raised, State.abortedBy, lineBytes_eq]

/-- A completion with no write cycle pending (R233). -/
theorem complete_eq (s : State) (h : s.wpend = false) :
    complete s = .next { s with
      link := s.link.release, pstate := .idle, session := { s.session with sstate := .done }
      lastError := 0#8, response := [0#8], pending := none } := by
  rw [complete, linkRelease_eq { s with session := { s.session with sstate := .done } } h]; rfl

/-! ### A flush -/

/-- The readback of a flush and what follows it (R218, R156). -/
theorem flushDone_outcome (base : Addr) (pb : List Byte) (inLine : Bool) (next : State → Out) (t : State) (h : t.wpend = false)
    (hp : pb.length = 128) (hb : base.toNat + 128 ≤ 32768) :
    FlushOutcome base pb inLine t (flushDone base pb inLine next t) next := by
  have hc : base.toNat + 0 + pb.length ≤ capacity .flash := by
    rw [hp]; exact hb
  refine ⟨fun he => ?_, fun j hj hr hm => ?_⟩
  · rw [flushDone, verifyPage, verifyFrom_equal .flash base pb 0 t hc h (by rw [hp]; exact he), hp]; rfl
  · rw [flushDone, verifyPage, verifyFrom_mismatch .flash base pb 0 j t hc h (by omega) hr hm]
    exact abort_eq _ _ _ h

theorem pageBase_self {base : Addr} (h : base.toNat % 128 = 0) : pageBase .flash base = base := by
  apply BitVec.eq_of_toNat_eq
  rw [pageBase_flash]; omega

/-- A flush with no page open does nothing (R218). -/
theorem flushThen_closed (k : Addr → List Byte → Pending) (inLine : Bool) (next : State → Out) (s : State)
    (h : s.session.pageOpen = false) : flushThen k inLine next s = next s := by
  revert h
  rw [flushThen, Session.pageOpen_eq]
  cases s.session.page <;> simp

/-- A flush of an open page up to its first poll (R218, R154): the page is closed, and the operation waits or goes on to the
readback. -/
theorem flushThen_open (k : Addr → List Byte → Pending) (inLine : Bool) (next : State → Out) (s : State) (base : Addr)
    (pb : List Byte) (hp : s.session.page = .opened base pb)
    (hal : base.toNat % 128 = 0) (hlt : base.toNat < 32768) (h : s.wpend = false) :
    (busyBit (lastReply (pageFrames .flash base pb) s) = true →
      flushThen k inLine next s = .next { s with
        link := (sent (pageFrames .flash base pb) s).link.wait .tPoll, busy := true, wpend := true
        session := { s.session with page := s.session.page.close }, pending := some (k base pb) }) ∧
    (busyBit (lastReply (pageFrames .flash base pb) s) = false →
      flushThen k inLine next s = flushDone base pb inLine next { s with
        link := (sent (pageFrames .flash base pb) s).link, busy := false, wpend := false
        session := { s.session with page := s.session.page.close } }) := by
  have hst := startPage_eq .flash base pb { s with session := { s.session with page := s.session.page.close } } hlt h
  have hf : flushThen k inLine next s = pollThen (k base pb) (flushDone base pb inLine next) { s with
      link := (sent (loadFrames .flash 0 pb ++ [pageFrame .flash base]) s).link, wpend := true
      session := { s.session with page := s.session.page.close } } := by
    rw [flushThen, hp]
    rw [hp] at hst
    dsimp only at hst ⊢
    rw [hst, pageBase_self hal]
    rfl
  have hl : lastReply (pageFrames .flash base pb) s =
      ((sent (loadFrames .flash 0 pb ++ [pageFrame .flash base]) s).link.frame pollFrame).1 := by
    rw [← lastReply_append_singleton, pageFrames, pageBase_self hal]; simp
  have hs : (sent (pageFrames .flash base pb) s).link =
      ((sent (loadFrames .flash 0 pb ++ [pageFrame .flash base]) s).link.frame pollFrame).2 := by
    rw [show pageFrames .flash base pb = (loadFrames .flash 0 pb ++ [pageFrame .flash base]) ++ [pollFrame] by
      rw [pageFrames, pageBase_self hal]; simp, sent_append_singleton]
  rw [hl, hs, hf]
  exact ⟨fun hy => pollThen_busy _ _ _ hy, fun hy => pollThen_ready _ _ _ hy⟩

/-! ### Merging bytes into a page -/

theorem mergedPage_length (old : List Byte) (off : Nat) (data : List Byte) : (mergedPage old off data).length = 128 := by
  simp [mergedPage]

theorem mergedPage_getElem? (old : List Byte) (off : Nat) (data : List Byte) (j : Nat) (hj : j < 128) :
    (mergedPage old off data)[j]? = some (if off ≤ j ∧ j < off + data.length then data.getD (j - off) 0#8 else old.getD j 0#8) := by
  simp [mergedPage, hj]

theorem mergedPage_nil {old : List Byte} (h : old.length = 128) (off : Nat) : mergedPage old off [] = old := by
  apply List.ext_getElem?
  intro j
  rcases Nat.lt_or_ge j 128 with hj | hj
  · rw [mergedPage_getElem? _ _ _ _ hj, if_neg (by simp), List.getElem?_eq_getElem (by omega), List.getD_eq_getElem _ _ (by omega)]
  · rw [List.getElem?_eq_none (by rw [mergedPage_length]; omega), List.getElem?_eq_none (by omega)]

theorem mergedPage_cons {old : List Byte} (h : old.length = 128) {off : Nat} (ho : off < 128) (v : Byte) (vs : List Byte) :
    mergedPage (old.set off v) (off + 1) vs = mergedPage old off (v :: vs) := by
  apply List.ext_getElem?
  intro j
  rcases Nat.lt_or_ge j 128 with hj | hj
  · rw [mergedPage_getElem? _ _ _ _ hj, mergedPage_getElem? _ _ _ _ hj]
    congr 1
    rcases Nat.lt_trichotomy j off with hlt | rfl | hgt
    · rw [if_neg (by omega), if_neg (by omega), List.getD_eq_getElem?_getD, List.getElem?_set_ne (by omega),
        List.getD_eq_getElem?_getD]
    · rw [if_neg (by omega), if_pos (by simp)]
      simp [List.getD_eq_getElem?_getD, h, hj]
    · by_cases hin : j < off + 1 + vs.length
      · rw [if_pos (by omega), if_pos (by simp; omega)]
        obtain ⟨d, rfl⟩ : ∃ d, j = off + 1 + d := ⟨j - (off + 1), by omega⟩
        rw [show off + 1 + d - (off + 1) = d by omega, show off + 1 + d - off = d + 1 by omega]
        simp
      · rw [if_neg (by omega), if_neg (by simp; omega), List.getD_eq_getElem?_getD, List.getElem?_set_ne (by omega),
          List.getD_eq_getElem?_getD]
  · rw [List.getElem?_eq_none (by rw [mergedPage_length]; omega), List.getElem?_eq_none (by rw [mergedPage_length]; omega)]

/-- One byte is merged into the open page (R217). -/
theorem mergeByte_opened (a : Addr) (v : Byte) (s : State) {base : Addr} {old : List Byte}
    (hp : s.session.page = .opened base old) :
    mergeByte a v s = { s with session := { s.session with page := .opened base (old.set (a - base).toNat v) } } := by
  rw [mergeByte, hp]

/-- The bytes of a record that lie in the open page are merged into it (R217); the bytes after them follow (R219). -/
theorem mergeBytes_page (xs ys : List Byte) (a : Addr) (s : State) (base : Addr) (old : List Byte)
    (hp : s.session.page = .opened base old) (hl : old.length = 128)
    (hal : base.toNat % 128 = 0) (ha : base.toNat ≤ a.toNat) (hfit : a.toNat + xs.length ≤ base.toNat + 128)
    (hlt : base.toNat < 32768) :
    mergeBytes a (xs ++ ys) s = mergeBytes (a + BitVec.ofNat 16 xs.length) ys { s with
      session := { s.session with page := .opened base (mergedPage old (a.toNat - base.toNat) xs) } } := by
  induction xs generalizing a s old with
  | nil =>
    rw [mergedPage_nil hl, ← hp]
    simp
  | cons v xs ih =>
    simp only [List.length_cons] at hfit
    have hpage : pageBase .flash a = base := by
      apply BitVec.eq_of_toNat_eq; rw [pageBase_flash]; omega
    have ha1 : (a + 1).toNat = a.toNat + 1 := by
      rw [BitVec.toNat_add]; simp; omega
    have hoff : (a - base).toNat = a.toNat - base.toNat := by
      rw [BitVec.toNat_sub]; omega
    have step : mergeBytes a (v :: (xs ++ ys)) s = mergeBytes (a + 1) (xs ++ ys) (mergeByte a v s) := by
      rw [mergeBytes, hp]
      exact if_pos (by simp [hpage])
    have hm := mergeByte_opened a v s hp
    rw [hoff] at hm
    have := ih (a + 1) (mergeByte a v s) (old.set (a.toNat - base.toNat) v) (by rw [hm])
      (by simpa using hl) (by omega) (by omega)
    rw [List.cons_append, step, this, hm, ha1, show a.toNat + 1 - base.toNat = (a.toNat - base.toNat) + 1 by omega,
      mergedPage_cons hl (by omega)]
    congr 1
    simp only [List.length_cons]
    bv_omega

/-! ### The bytes of an EEPROM record -/

theorem addrFrame_ofNat (op : Byte) {a : Nat} (h : a < 65536) (v : Byte) :
    addrFrame op (BitVec.ofNat 16 a) v = ⟨op, BitVec.ofNat 8 (a / 256), BitVec.ofNat 8 a, v⟩ := by
  simp only [addrFrame, hiByte, loByte, IspFrame.mk.injEq, true_and, and_true]
  constructor <;> apply BitVec.eq_of_toNat_eq <;> simp [Nat.shiftRight_eq_div_pow]
  omega

/-- The read frame of EEPROM address `a`. -/
def eeReadFrame (a : Nat) : IspFrame := ⟨0xA0#8, BitVec.ofNat 8 (a / 256), BitVec.ofNat 8 a, 0x00#8⟩

theorem eeFrames_succ (a : Nat) (v : Byte) (vs : List Byte) (k : Nat) :
    eeFrames a (v :: vs) (k + 1) = (eeWriteFrames a v ++ [eeReadFrame a]) ++ eeFrames (a + 1) vs k := by
  simp only [eeFrames, List.range_succ_eq_map, List.flatMap_cons, List.flatMap_map]
  congr 1
  congr 1
  funext j
  simp [Nat.add_assoc, Nat.add_comm 1]

/-- The first byte is taken, and then `k` more. -/
theorem eeBytesTaken_succ (a : Nat) (v : Byte) (vs : List Byte) (k : Nat) (u : State) :
    EeBytesTaken a (v :: vs) (k + 1) u ↔
      (busyBit (lastReply (eeWriteFrames a v) u) = false ∧ (lastReply (eeWriteFrames a v ++ [eeReadFrame a]) u).b3 = v) ∧
      EeBytesTaken (a + 1) vs k (sent (eeWriteFrames a v ++ [eeReadFrame a]) u) := by
  have hlen : (replies (eeWriteFrames a v ++ [eeReadFrame a]) u).length = 3 := by
    rw [replies_length]; rfl
  have hsplit : ∀ j, (replies (eeFrames a (v :: vs) (k + 1)) u).getD (3 + j) default =
      (replies (eeFrames (a + 1) vs k) (sent (eeWriteFrames a v ++ [eeReadFrame a]) u)).getD j default := fun j => by
    rw [eeFrames_succ, replies_append]
    simp [List.getD_eq_getElem?_getD, List.getElem?_append_right, hlen]
  have hfirst : ∀ j, j < 3 → (replies (eeFrames a (v :: vs) (k + 1)) u).getD j default =
      (replies (eeWriteFrames a v ++ [eeReadFrame a]) u).getD j default := fun j hj => by
    rw [eeFrames_succ, replies_append, List.getD_eq_getElem?_getD, List.getD_eq_getElem?_getD,
      List.getElem?_append_left (by omega)]
  have h1 : (replies (eeFrames a (v :: vs) (k + 1)) u).getD 1 default = lastReply (eeWriteFrames a v) u := by
    rw [hfirst 1 (by omega)]; rfl
  have h2 : (replies (eeFrames a (v :: vs) (k + 1)) u).getD 2 default = lastReply (eeWriteFrames a v ++ [eeReadFrame a]) u := by
    rw [hfirst 2 (by omega)]; rfl
  rw [← h1, ← h2]
  constructor
  · intro h
    refine ⟨by simpa using h 0 (by omega), fun j hj => ?_⟩
    have := h (j + 1) (by omega)
    rw [show 3 * (j + 1) + 1 = 3 + (3 * j + 1) by omega, show 3 * (j + 1) + 2 = 3 + (3 * j + 2) by omega, hsplit, hsplit] at this
    simpa using this
  · rintro ⟨h0, h⟩ j hj
    cases j with
    | zero => simpa using h0
    | succ j =>
      rw [show 3 * (j + 1) + 1 = 3 + (3 * j + 1) by omega, show 3 * (j + 1) + 2 = 3 + (3 * j + 2) by omega, hsplit, hsplit]
      simpa using h j (by omega)

/-- The readback of one EEPROM byte in a session, and what follows it (R153, R223). -/
theorem verifyEeByte_orAbort (a : Nat) (v : Byte) (next : State → Out) (t : State) (h : t.wpend = false) (ha : a < 1024) :
    ((t.link.frame (eeReadFrame a)).1.b3 = v →
      ((verifyEeByte (BitVec.ofNat 16 a) v t).orAbort true fun _ => next) =
        next { t with link := (t.link.frame (eeReadFrame a)).2, verifyOk := true }) ∧
    ((t.link.frame (eeReadFrame a)).1.b3 ≠ v →
      ((verifyEeByte (BitVec.ofNat 16 a) v t).orAbort true fun _ => next) =
        .next (State.abortedBy .verifyError true { t with link := (t.link.frame (eeReadFrame a)).2, verifyOk := false })) := by
  have hr : readFrame .eeprom (BitVec.ofNat 16 a) = eeReadFrame a := by
    rw [readFrame, readEepromFrame, addrFrame_ofNat _ (by omega)]; rfl
  have hc : (BitVec.ofNat 16 a).toNat < capacity .eeprom := by
    rw [BitVec.toNat_ofNat, Nat.mod_eq_of_lt (by omega)]; exact ha
  constructor <;> intro hv <;> rw [verifyEeByte, rdByte_eq _ _ _ hc h, hr] <;> simp only [Res.bind]
  · rw [if_pos hv]; rfl
  · rw [if_neg hv]; exact abort_eq _ _ _ h

/-- One EEPROM byte of a record, up to its readback (R223, R153). -/
theorem eepromBytes_cons (a : Nat) (v : Byte) (vs : List Byte) (u : State) (h : u.wpend = false) (ha : a < 1024) :
    (busyBit (lastReply (eeWriteFrames a v) u) = true →
      eepromBytes (BitVec.ofNat 16 a) (v :: vs) u = .next { u with
        link := (sent (eeWriteFrames a v) u).link.wait .tPoll, busy := true, wpend := true
        pending := some (.lineEeByte (BitVec.ofNat 16 a) v vs) }) ∧
    (busyBit (lastReply (eeWriteFrames a v) u) = false →
      eepromBytes (BitVec.ofNat 16 a) (v :: vs) u =
        (verifyEeByte (BitVec.ofNat 16 a) v
          { u with link := (sent (eeWriteFrames a v) u).link, busy := false, wpend := false }).orAbort true
            fun _ s => eepromBytes (BitVec.ofNat 16 (a + 1)) vs s) := by
  have hc : (BitVec.ofNat 16 a).toNat < capacity .eeprom := by
    rw [BitVec.toNat_ofNat, Nat.mod_eq_of_lt (by omega)]; exact ha
  have hw : writeEepromFrame (BitVec.ofNat 16 a) v = ⟨0xC0#8, BitVec.ofNat 8 (a / 256), BitVec.ofNat 8 a, v⟩ := by
    rw [writeEepromFrame, addrFrame_ofNat _ (by omega)]
  have h1 : BitVec.ofNat 16 a + 1 = BitVec.ofNat 16 (a + 1) := by
    apply BitVec.eq_of_toNat_eq; simp
  have hp : eepromBytes (BitVec.ofNat 16 a) (v :: vs) u =
      pollThen (.lineEeByte (BitVec.ofNat 16 a) v vs)
        (fun s => (verifyEeByte (BitVec.ofNat 16 a) v s).orAbort true fun _ s => eepromBytes (BitVec.ofNat 16 (a + 1)) vs s)
        { u with link := (u.link.frame ⟨0xC0#8, BitVec.ofNat 8 (a / 256), BitVec.ofNat 8 a, v⟩).2, wpend := true } := by
    rw [eepromBytes, startEeByte_eq _ _ _ hc h, hw, h1]; rfl
  rw [hp]
  exact ⟨fun hy => pollThen_busy _ _ _ hy, fun hy => pollThen_ready _ _ _ hy⟩

/-- The bytes of an EEPROM record (R223). -/
theorem eepromBytes_outcome (vs : List Byte) (a : Nat) (u : State) (h : u.wpend = false) (hfit : a + vs.length ≤ 1024) :
    EeBytesOutcome a vs u (eepromBytes (BitVec.ofNat 16 a) vs u) := by
  induction vs generalizing a u with
  | nil => exact ⟨fun _ => rfl, fun k hk => absurd hk (by simp), fun k hk => absurd hk (by simp)⟩
  | cons v vs ih =>
    simp only [List.length_cons] at hfit
    obtain ⟨hbusy, hready⟩ := eepromBytes_cons a v vs u h (by omega)
    have hrd : ∀ t : State, t.link = (sent (eeWriteFrames a v) u).link →
        (t.link.frame (eeReadFrame a)).1 = lastReply (eeWriteFrames a v ++ [eeReadFrame a]) u ∧
        (t.link.frame (eeReadFrame a)).2 = (sent (eeWriteFrames a v ++ [eeReadFrame a]) u).link := fun t ht => by
      rw [ht, lastReply_append_singleton, sent_append_singleton]; exact ⟨rfl, rfl⟩
    set t : State := { u with link := (sent (eeWriteFrames a v) u).link, busy := false, wpend := false } with ht
    obtain ⟨hr1, hr2⟩ := hrd t rfl
    obtain ⟨hok, hbad⟩ := verifyEeByte_orAbort a v (eepromBytes (BitVec.ofNat 16 (a + 1)) vs) t rfl (by omega)
    rw [hr1, hr2] at hok hbad
    set w : State := { t with link := (sent (eeWriteFrames a v ++ [eeReadFrame a]) u).link, verifyOk := true } with hw
    have hw' : ∀ fs, replies fs w = replies fs (sent (eeWriteFrames a v ++ [eeReadFrame a]) u) := fun _ => rfl
    obtain ⟨i1, i2, i3⟩ := ih (a + 1) w rfl (by omega)
    have htk : ∀ k, EeBytesTaken (a + 1) vs k (sent (eeWriteFrames a v ++ [eeReadFrame a]) u) → EeBytesTaken (a + 1) vs k w :=
      fun _ hk => hk
    have hnext : ∀ k, eeWriteFrames (a + (k + 1)) ((v :: vs).getD (k + 1) 0#8) = eeWriteFrames (a + 1 + k) (vs.getD k 0#8) :=
      fun k => by simp [Nat.add_assoc, Nat.add_comm 1]
    have hlast : ∀ fs : List IspFrame, fs ≠ [] →
        lastReply ((eeWriteFrames a v ++ [eeReadFrame a]) ++ fs) u = lastReply fs w := fun fs hne => by
      rw [lastReply_append _ _ hne]; rfl
    refine ⟨fun hall => ?_, fun k hk htaken hy => ?_, fun k hk htaken hy hm => ?_⟩
    · obtain ⟨⟨b0, b1⟩, hrest⟩ := (eeBytesTaken_succ a v vs _ u).mp hall
      rw [hready b0, hok b1, i1 hrest, List.length_cons, eeFrames_succ, sent_append]
      simp [hw, ht, sent, h]
    · cases k with
      | zero => exact hbusy hy
      | succ k =>
        obtain ⟨⟨b0, b1⟩, hrest⟩ := (eeBytesTaken_succ a v vs k u).mp htaken
        rw [eeFrames_succ, List.append_assoc _ (eeFrames _ _ _), hnext, hlast _ (by simp [eeWriteFrames])] at hy
        have := i2 k (by simpa using hk) hrest hy
        rw [hready b0, hok b1, this, eeFrames_succ, List.append_assoc _ (eeFrames _ _ _), hnext, sent_append]
        simp [hw, ht, sent, Link.exchange_append, Link.exchange_cons, Nat.add_assoc, Nat.add_comm 1]
    · cases k with
      | zero =>
        rw [eeFrames_succ, show eeFrames (a + 1) vs 0 = [] from rfl, List.append_nil] at hm ⊢
        rw [hready hy, hbad hm]
      | succ k =>
        obtain ⟨⟨b0, b1⟩, hrest⟩ := (eeBytesTaken_succ a v vs k u).mp htaken
        rw [eeFrames_succ, List.append_assoc _ (eeFrames _ _ _), hnext, hlast _ (by simp [eeWriteFrames])] at hy
        rw [eeFrames_succ, hlast _ (by simp [eeFrames, List.range_succ, eeWriteFrames])] at hm
        have := i3 k (by simpa using hk) hrest hy hm
        rw [hready b0, hok b1, this, eeFrames_succ, sent_append]
        simp [hw, ht, sent]

end Sys2Proof.Machine
end

