-- ==== Sys2Proof/Laws/PerInstr.lean ====
section
/-! SUPPORT. Per-instruction laws. `OpCode`: the message of every instruction starts with a code byte of R93's table. -/

namespace Sys2Proof.Laws.OpCode

set_option Elab.async false

/-- The 23 operation codes (R93). -/
def codes : List Byte :=
  [0x01#8, 0x02#8, 0x03#8, 0x04#8, 0x05#8, 0x10#8, 0x11#8, 0x12#8, 0x20#8, 0x21#8, 0x22#8, 0x23#8] ++
  [0x24#8, 0x25#8, 0x26#8, 0x27#8, 0x30#8, 0x31#8, 0x32#8, 0x40#8, 0x41#8, 0x42#8, 0x50#8]

/-- The message of the instruction is a code byte of the table and operand bytes. -/
def Statement (i : Instr) : Prop := ∃ code ops, encode i = code :: ops ∧ code ∈ codes

theorem progEnable : Statement .progEnable := ⟨_, _, rfl, by decide⟩
theorem chipErase : Statement .chipErase := ⟨_, _, rfl, by decide⟩
theorem pollRdy : Statement .pollRdy := ⟨_, _, rfl, by decide⟩
theorem readSig (i : Byte) : Statement (.readSig i) := ⟨_, _, rfl, by decide⟩
theorem readFuseLo : Statement .readFuseLo := ⟨_, _, rfl, by decide⟩
theorem readFuseHi : Statement .readFuseHi := ⟨_, _, rfl, by decide⟩
theorem readFuseExt : Statement .readFuseExt := ⟨_, _, rfl, by decide⟩
theorem readLock : Statement .readLock := ⟨_, _, rfl, by decide⟩
theorem writeFuseLo (val : Byte) : Statement (.writeFuseLo val) := ⟨_, _, rfl, by decide⟩
theorem writeFuseHi (val : Byte) : Statement (.writeFuseHi val) := ⟨_, _, rfl, by decide⟩
theorem writeFuseExt (val : Byte) : Statement (.writeFuseExt val) := ⟨_, _, rfl, by decide⟩
theorem writeLock (val : Byte) : Statement (.writeLock val) := ⟨_, _, rfl, by decide⟩
theorem readEeprom (hi : Byte) (lo : Byte) : Statement (.readEeprom hi lo) := ⟨_, _, rfl, by decide⟩
theorem writeEeprom (hi : Byte) (lo : Byte) (val : Byte) : Statement (.writeEeprom hi lo val) := ⟨_, _, rfl, by decide⟩
theorem loadEepromPage (i : Byte) (val : Byte) : Statement (.loadEepromPage i val) := ⟨_, _, rfl, by decide⟩
theorem writeEepromPage (hi : Byte) (lo : Byte) : Statement (.writeEepromPage hi lo) := ⟨_, _, rfl, by decide⟩
theorem readFlashLo (hi : Byte) (lo : Byte) : Statement (.readFlashLo hi lo) := ⟨_, _, rfl, by decide⟩
theorem readFlashHi (hi : Byte) (lo : Byte) : Statement (.readFlashHi hi lo) := ⟨_, _, rfl, by decide⟩
theorem loadFlashLo (i : Byte) (val : Byte) : Statement (.loadFlashLo i val) := ⟨_, _, rfl, by decide⟩
theorem loadFlashHi (i : Byte) (val : Byte) : Statement (.loadFlashHi i val) := ⟨_, _, rfl, by decide⟩
theorem writeFlashPage (hi : Byte) (lo : Byte) : Statement (.writeFlashPage hi lo) := ⟨_, _, rfl, by decide⟩
theorem loadExtAddr (val : Byte) : Statement (.loadExtAddr val) := ⟨_, _, rfl, by decide⟩
theorem xfer (tx : Byte) : Statement (.xfer tx) := ⟨_, _, rfl, by decide⟩
theorem rstAssert : Statement .rstAssert := ⟨_, _, rfl, by decide⟩
theorem rstRelease : Statement .rstRelease := ⟨_, _, rfl, by decide⟩
theorem rstPulse : Statement .rstPulse := ⟨_, _, rfl, by decide⟩
theorem linkRelease : Statement .linkRelease := ⟨_, _, rfl, by decide⟩
theorem pgmEnter : Statement .pgmEnter := ⟨_, _, rfl, by decide⟩
theorem cmd (b0 : Byte) (b1 : Byte) (b2 : Byte) (b3 : Byte) : Statement (.cmd b0 b1 b2 b3) := ⟨_, _, rfl, by decide⟩
theorem pollReady : Statement .pollReady := ⟨_, _, rfl, by decide⟩
theorem rdByteFlash (addr : Addr) : Statement (.rdByteFlash addr) := ⟨_, _, rfl, by decide⟩
theorem rdByteEeprom (addr : Addr) : Statement (.rdByteEeprom addr) := ⟨_, _, rfl, by decide⟩
theorem wrEebyte (addr : Addr) (val : Byte) (verify : Bool) : Statement (.wrEebyte addr val verify) := ⟨_, _, rfl, by decide⟩
theorem wrPageFlash (addr : Addr) (verify : Bool) (buf : List Byte) : Statement (.wrPageFlash addr verify buf) := ⟨_, _, rfl, by decide⟩
theorem wrPageEeprom (addr : Addr) (verify : Bool) (buf : List Byte) : Statement (.wrPageEeprom addr verify buf) := ⟨_, _, rfl, by decide⟩
theorem erase : Statement .erase := ⟨_, _, rfl, by decide⟩
theorem rdFuse (kind : FuseKind) : Statement (.rdFuse kind) := ⟨_, _, rfl, by decide⟩
theorem wrFuse (kind : FuseKind) (val : Byte) : Statement (.wrFuse kind val) := ⟨_, _, rfl, by decide⟩
theorem rdSig (i : Byte) : Statement (.rdSig i) := ⟨_, _, rfl, by decide⟩
theorem setExt (val : Byte) : Statement (.setExt val) := ⟨_, _, rfl, by decide⟩
theorem hexDecode (text : List Byte) : Statement (.hexDecode text) := ⟨_, _, rfl, by decide⟩
theorem hexEncData (addr : Addr) (bytes : List Byte) : Statement (.hexEncData addr bytes) := ⟨_, _, rfl, by decide⟩
theorem hexEncEnd : Statement .hexEncEnd := ⟨_, _, rfl, by decide⟩
theorem progBeginFlash : Statement .progBeginFlash := ⟨_, _, rfl, by decide⟩
theorem progBeginEeprom : Statement .progBeginEeprom := ⟨_, _, rfl, by decide⟩
theorem progLine (text : List Byte) : Statement (.progLine text) := ⟨_, _, rfl, by decide⟩
theorem progFinish : Statement .progFinish := ⟨_, _, rfl, by decide⟩
theorem status : Statement .status := ⟨_, _, rfl, by decide⟩

end Sys2Proof.Laws.OpCode
end

