-- ==== Sys2Proof/Tests/Slice0.lean ====
section
/-! SUPPORT. The model's own tests: decoding of words written out from the spec's encodings, the refusals of WellFormed and of the
decoder, and single steps whose expected results come from spec/95_test_vectors.md. -/

namespace Sys2Proof.Machine.Tests

set_option Elab.async false

/-! ### Well-formedness: an ill-formed term for each check, and what the decoder refuses (R94) -/

theorem test_wf_cmd_word_is_frame : Instr.wf (.cmd 0xAC#8 0x53#8 0x00#8 0x00#8) = false := by decide

theorem test_wf_flash_buffer : Instr.wf (.wrPageFlash 0x0000#16 true [0x00#8, 0x01#8]) = false := by decide

theorem test_wf_eeprom_buffer : Instr.wf (.wrPageEeprom 0x0000#16 true [1#8, 2#8, 3#8, 4#8, 5#8]) = false := by decide

theorem test_wf_signature_index : Instr.wf (.rdSig 3#8) = false := by decide

theorem test_wf_long_texts :
    Instr.wf (.hexDecode (List.replicate 256 0x30#8)) = false ∧
    Instr.wf (.progLine (List.replicate 256 0x30#8)) = false ∧
    Instr.wf (.hexEncData 0#16 (List.replicate 256 0x30#8)) = false := by decide +kernel

theorem test_wf_accepts :
    Instr.wf (.cmd 0x00#8 0x53#8 0x00#8 0x00#8) = true ∧ Instr.wf (.rdSig 2#8) = true ∧
    Instr.wf (.wrPageEeprom 0x0000#16 true [1#8, 2#8, 3#8, 4#8]) = true := by decide

/-- BL11, MP24, MP26 and R94: an unknown code, an index of 3, a fuse kind of 4, a region of 2, a verify flag of 2, a text of
the wrong length. -/
theorem test_decode_refuses :
    decode [0x06#8] = .error (.unknownCode 0x06#8) ∧
    decode [0x26#8, 3#8] = .error (.badIndex 3#8) ∧
    decode [0x24#8, 4#8] = .error (.badFuseKind 4#8) ∧
    decode [0x20#8, 2#8, 0#8, 0#8] = .error (.badRegion 2#8) ∧
    decode [0x21#8, 0#8, 0#8, 0#8, 2#8] = .error (.badVerify 2#8) ∧
    decode [0x30#8, 2#8, 0x3A#8] = .error .wrongLength ∧
    decode [] = .error .emptyMessage := by decide

/-! ### Decoding: every row, a word written out from the spec (R83, R81, R93) -/

/-- The frames of format `FIX` (R250 to R252, R254 to R257). -/
theorem test_decode_fixed_frames :
    decodeTableWord 32 0xAC530000 = some .progEnable ∧
    decodeTableWord 32 0xAC800000 = some .chipErase ∧
    decodeTableWord 32 0xF0000000 = some .pollRdy ∧
    decodeTableWord 32 0x50000000 = some .readFuseLo ∧
    decodeTableWord 32 0x58080000 = some .readFuseHi ∧
    decodeTableWord 32 0x50080000 = some .readFuseExt ∧
    decodeTableWord 32 0x58000000 = some .readLock := by decide

/-- The frames of formats `IDX`, `VAL`, `LDI` and `EXT` (R253, R258 to R261, R264, R268, R269, R271). -/
theorem test_decode_value_frames :
    decodeTableWord 32 0x30000200 = some (.readSig 0x02#8) ∧
    decodeTableWord 32 0xACA000E2 = some (.writeFuseLo 0xE2#8) ∧
    decodeTableWord 32 0xACA800D9 = some (.writeFuseHi 0xD9#8) ∧
    decodeTableWord 32 0xACA400FD = some (.writeFuseExt 0xFD#8) ∧
    decodeTableWord 32 0xACE000FF = some (.writeLock 0xFF#8) ∧
    decodeTableWord 32 0xC1000304 = some (.loadEepromPage 0x03#8 0x04#8) ∧
    decodeTableWord 32 0x40003F12 = some (.loadFlashLo 0x3F#8 0x12#8) ∧
    decodeTableWord 32 0x48000046 = some (.loadFlashHi 0x00#8 0x46#8) ∧
    decodeTableWord 32 0x4D00CD00 = some (.loadExtAddr 0xCD#8) := by decide

/-- The frames of formats `ADR` and `ADV` (R262, R263, R265 to R267, R270). -/
theorem test_decode_address_frames :
    decodeTableWord 32 0xA003FF00 = some (.readEeprom 0x03#8 0xFF#8) ∧
    decodeTableWord 32 0xC0001042 = some (.writeEeprom 0x00#8 0x10#8 0x42#8) ∧
    decodeTableWord 32 0xC2000400 = some (.writeEepromPage 0x00#8 0x04#8) ∧
    decodeTableWord 32 0x20091A00 = some (.readFlashLo 0x09#8 0x1A#8) ∧
    decodeTableWord 32 0x28091A00 = some (.readFlashHi 0x09#8 0x1A#8) ∧
    decodeTableWord 32 0x4C004000 = some (.writeFlashPage 0x00#8 0x40#8) := by decide

/-- A word that spells no frame row is a `CMD` of its own (R85). -/
theorem test_decode_no_frame :
    decodeTableWord 32 0xAC530001 = some (.cmd 0xAC#8 0x53#8 0x00#8 0x01#8) ∧
    decodeTableWord 32 0x50100000 = some (.cmd 0x50#8 0x10#8 0x00#8 0x00#8) := by decide

/-- BitLink and ISPProtocol operations (R93). -/
theorem test_decode_link_operations :
    decode [0x01#8, 0xAC#8] = .ok (.xfer 0xAC#8) ∧
    decode [0x02#8] = .ok .rstAssert ∧
    decode [0x03#8] = .ok .rstRelease ∧
    decode [0x04#8] = .ok .rstPulse ∧
    decode [0x05#8] = .ok .linkRelease ∧
    decode [0x10#8] = .ok .pgmEnter ∧
    decode [0x11#8, 0x00#8, 0x01#8, 0x02#8, 0x03#8] = .ok (.cmd 0x00#8 0x01#8 0x02#8 0x03#8) ∧
    decode [0x12#8] = .ok .pollReady := by decide

/-- MemoryProgrammer operations (R93). -/
theorem test_decode_memory_operations :
    decode [0x20#8, 0x00#8, 0x12#8, 0x35#8] = .ok (.rdByteFlash 0x1235#16) ∧
    decode [0x20#8, 0x01#8, 0x03#8, 0xFF#8] = .ok (.rdByteEeprom 0x03FF#16) ∧
    decode [0x21#8, 0x00#8, 0x05#8, 0xA5#8, 0x01#8] = .ok (.wrEebyte 0x0005#16 0xA5#8 true) ∧
    decode [0x22#8, 0x01#8, 0x00#8, 0x06#8, 0x00#8, 1#8, 2#8, 3#8, 4#8] =
      .ok (.wrPageEeprom 0x0006#16 false [1#8, 2#8, 3#8, 4#8]) ∧
    decode [0x23#8] = .ok .erase ∧
    decode [0x24#8, 0x01#8] = .ok (.rdFuse .low) ∧
    decode [0x25#8, 0x02#8, 0xD9#8] = .ok (.wrFuse .high 0xD9#8) ∧
    decode [0x26#8, 0x01#8] = .ok (.rdSig 1#8) ∧
    decode [0x27#8, 0xCD#8] = .ok (.setExt 0xCD#8) := by decide

/-- `WR_PAGE FLASH` with its 128-byte buffer (R93). -/
theorem test_decode_flash_page :
    decode ([0x22#8, 0x00#8, 0x00#8, 0x85#8, 0x01#8] ++ List.replicate 128 0xFF#8) =
      .ok (.wrPageFlash 0x0085#16 true (List.replicate 128 0xFF#8)) := by decide +kernel

/-- HexCodec and write controller operations (R93). -/
theorem test_decode_text_operations :
    decode [0x30#8, 0x02#8, 0x0D#8, 0x0A#8] = .ok (.hexDecode [0x0D#8, 0x0A#8]) ∧
    decode [0x31#8, 0x00#8, 0x30#8, 0x03#8, 0x02#8, 0x33#8, 0x7A#8] =
      .ok (.hexEncData 0x0030#16 [0x02#8, 0x33#8, 0x7A#8]) ∧
    decode [0x32#8] = .ok .hexEncEnd ∧
    decode [0x40#8, 0x00#8] = .ok .progBeginFlash ∧
    decode [0x40#8, 0x01#8] = .ok .progBeginEeprom ∧
    decode [0x41#8, 0x01#8, 0x3A#8] = .ok (.progLine [0x3A#8]) ∧
    decode [0x42#8] = .ok .progFinish ∧
    decode [0x50#8] = .ok .status := by decide

/-- Host-operation rows of the opcode table, their operand bytes zero. -/
theorem test_decode_host_table_words :
    decodeTableWord 8 0x01 = some (.xfer 0x00#8) ∧
    decodeTableWord 8 0x11 = some (.cmd 0x00#8 0x00#8 0x00#8 0x00#8) ∧
    decodeTableWord 16 0x2001 = some (.rdByteEeprom 0x0000#16) ∧
    decodeTableWord 16 0x2200 = some (.wrPageFlash 0x0000#16 false (List.replicate 128 0x00#8)) ∧
    decodeTableWord 8 0x31 = some (.hexEncData 0x0000#16 []) ∧
    decodeTableWord 16 0x4001 = some .progBeginEeprom ∧
    decodeTableWord 8 0x41 = some (.progLine []) := by decide +kernel

/-! ### Small states -/

/-- The state after reset, with the bits the environment presents next. -/
def scripted (bits : List Bool) : State :=
  { State.reset with link := { Link.reset with env := { Link.reset.env with miso := bits } } }

/-- The reset state in front of a target that answers these frames. -/
def answering (replies : List IspFrame) : State := scripted (replies.flatMap replyBits)

/-- A reply of which only the fourth byte matters. -/
def r3 (b : Byte) : IspFrame := ⟨0x00#8, 0x00#8, 0x00#8, b⟩

/-- The reply of a programming-enable frame in sync. -/
def echo : IspFrame := ⟨0x00#8, 0x00#8, 0x53#8, 0x00#8⟩

/-- The state an operation leaves. -/
def after (o : Out) : Option State :=
  match o with
  | .next s => some s
  | _ => none

/-- The model fault an operation ends in. -/
def faultOf (o : Out) : Option Fault :=
  match o with
  | .fault f => some f
  | _ => none

/-- One projection of the state an operation leaves. -/
def see {α : Type} (f : State → α) (o : Out) : Option α := (after o).map f

/-- The characters of a text. -/
def chars (s : String) : List Byte := s.toList.map fun c => BitVec.ofNat 8 c.toNat

/-! ### BitLink (95 V-BL) -/

/-- BL1: `XFER 0xAC` with bits 0,1,0,1,0,0,1,1 returns 0x53. -/
theorem test_xfer_receives :
    see (·.response) (exec (.xfer 0xAC#8) (scripted [false, true, false, true, false, false, true, true])) =
      some [0x00#8, 0x53#8] := by decide

/-- BL1: 48 events, `MOSI` driven 1,0,1,0,1,1,0,0, ending low with `SCK` low. -/
theorem test_xfer_events :
    see (fun s => (s.link.log.length, s.link.mosi, s.link.sck,
        (trace s).filterMap fun e => match e with | .drive .mosi v => some v | _ => none))
      (exec (.xfer 0xAC#8) (scripted (byteBits 0x53#8))) =
      some (48, Level.low, Level.low, [.high, .low, .high, .low, .high, .high, .low, .low]) := by decide +kernel

/-- BL5. -/
theorem test_rst_assert :
    see (fun s => (s.link.rst, s.pstate, trace s)) (exec .rstAssert State.reset) =
      some (Level.low, PState.idle, [.drive .rst .low]) := by decide

/-- BL6. -/
theorem test_rst_release :
    see (fun s => (s.link.rst, s.pstate)) (exec .rstRelease { State.reset with pstate := .programming }) =
      some (Level.high, PState.idle) := by decide

/-- BL7. -/
theorem test_rst_pulse :
    see trace (exec .rstPulse State.reset) =
      some [.drive .rst .low, .wait .tRstPulse, .drive .rst .high] := by decide

/-- BL8. -/
theorem test_link_release :
    see (fun s => (trace s, s.pstate)) (exec .linkRelease { State.reset with pstate := .programming }) =
      some ([.drive .sck .hiZ, .drive .mosi .hiZ, .drive .rst .hiZ], PState.idle) := by decide

/-- BL9, BL10: the write-cycle hazard. -/
theorem test_busy_hazard :
    faultOf (exec (.xfer 0x00#8) { State.reset with wpend := true }) = some .busyHazard ∧
    faultOf (exec .rstAssert { State.reset with wpend := true }) = some .busyHazard := by decide

/-! ### ISPProtocol (95 V-IP) -/

/-- IP1: sync on the first attempt. -/
theorem test_pgm_enter_first :
    see (fun s => (s.response, s.attempt, s.syncOk, s.pstate)) (exec .pgmEnter (answering [echo])) =
      some ([0#8, 1#8], 1, true, PState.programming) ∧
    see (fun s => (s.link.rst, s.link.log.length, s.link.frameTx)) (exec .pgmEnter (answering [echo])) =
      some (Level.low, 196, .written progEnableFrame) := by decide +kernel

/-- IP3: five failed attempts, and the status word 0x00015003. -/
theorem test_pgm_enter_fails :
    see (fun s => (s.response, s.attempt, s.syncOk, s.link.rst, s.link.log.length, statusWord s))
      (exec .pgmEnter (answering (List.replicate 5 (r3 0x00#8)))) =
      some ([1#8], 5, false, Level.low, 992, 0x00015003#32) := by decide +kernel

/-- IP7: a commit frame through `CMD`. -/
theorem test_cmd_commit :
    see (fun s => (s.response, s.wpend)) (exec .chipErase (answering [r3 0x77#8])) =
      some ([0#8, 0x77#8], true) := by decide +kernel

/-- IP8, IP9: a ready poll through `CMD` reads bit 0 alone. -/
theorem test_cmd_poll :
    see (fun s => (s.busy, s.wpend)) (exec .pollRdy { answering [r3 0x01#8] with wpend := true }) = some (true, true) ∧
    see (fun s => (s.busy, s.wpend)) (exec .pollRdy { answering [r3 0xFE#8] with wpend := true }) = some (false, false) := by
  decide +kernel

/-- IP15: `CMD AC 53 00 00` returns `r3` and changes no protocol state. -/
theorem test_cmd_prog_enable :
    see (fun s => (s.response, s.pstate, s.syncOk)) (exec .progEnable (answering [⟨1#8, 2#8, 0x53#8, 4#8⟩])) =
      some ([0#8, 4#8], PState.idle, false) := by decide +kernel

/-- IP11: busy polls leave the operation waiting, `T_POLL` waited out. -/
theorem test_poll_waits :
    see (fun s => (s.busy, s.wpend, s.pending, s.link.log.head?)) (exec .pollReady { answering [r3 0x01#8] with wpend := true }) =
      some (true, true, some .plain, some (.wait .tPoll)) := by decide +kernel

/-- IP12: a target that is ready gives one frame and no wait. -/
theorem test_poll_ready :
    see (fun s => (s.busy, s.pending, s.link.log.length)) (exec .pollReady (answering [r3 0x00#8])) =
      some (false, none, 192) := by decide +kernel

/-! ### MemoryProgrammer (95 V-MP) -/

/-- MP1, MP2, MP3: the frames of flash reads. -/
theorem test_rd_byte_flash :
    see (fun s => (s.link.frameTx, s.response)) (exec (.rdByteFlash 0x1235#16) (answering [r3 0x9C#8])) =
      some (.written ⟨0x28#8, 0x09#8, 0x1A#8, 0x00#8⟩, [0#8, 0x9C#8]) ∧
    readFrame .flash 0x1234#16 = ⟨0x20#8, 0x09#8, 0x1A#8, 0x00#8⟩ ∧
    readFrame .flash 0x7FFF#16 = ⟨0x28#8, 0x3F#8, 0xFF#8, 0x00#8⟩ := by decide +kernel

/-- MP5, MP7: the address bound, with no event. -/
theorem test_rd_byte_bound :
    see (fun s => (s.response, s.link.log)) (exec (.rdByteFlash 0x8000#16) State.reset) = some ([11#8], []) ∧
    see (fun s => (s.response, s.link.log)) (exec (.rdByteEeprom 0x0400#16) State.reset) = some ([11#8], []) := by decide

/-- MP6. -/
theorem test_rd_byte_eeprom :
    see (fun s => s.link.frameTx) (exec (.rdByteEeprom 0x03FF#16) (answering [r3 0x00#8])) =
      some (.written ⟨0xA0#8, 0x03#8, 0xFF#8, 0x00#8⟩) := by decide +kernel

/-- MP8. -/
theorem test_wr_eebyte_verified :
    see (fun s => (s.response, s.verifyOk, s.wpend, s.link.frameTx))
      (exec (.wrEebyte 0x0005#16 0xA5#8 true) (answering [r3 0#8, r3 0#8, r3 0xA5#8])) =
      some ([0#8, 1#8], true, false, .written ⟨0xA0#8, 0x00#8, 0x05#8, 0x00#8⟩) := by decide +kernel

/-- MP9. -/
theorem test_wr_eebyte_mismatch :
    see (fun s => (s.response, s.verifyOk, s.link.frameTx))
      (exec (.wrEebyte 0x0005#16 0xA5#8 true) { answering [r3 0#8, r3 0#8, r3 0x00#8] with verifyOk := true }) =
      some ([10#8], false, .written ⟨0xA0#8, 0x00#8, 0x05#8, 0x00#8⟩) := by decide +kernel

/-- MP13: the wire address of the highest flash page; R63, S6. -/
theorem test_flash_page_frame :
    pageFrame .flash 0x7F80#16 = ⟨0x4C#8, 0x3F#8, 0xC0#8, 0x00#8⟩ ∧
    pageFrame .flash (pageBase .flash 0x0085#16) = ⟨0x4C#8, 0x00#8, 0x40#8, 0x00#8⟩ ∧
    pageBase .flash 0x1234#16 = 0x1200#16 ∧ pageBase .eeprom 0x03FE#16 = 0x03FC#16 ∧
    loadFrame .flash 127 0x12#8 = ⟨0x48#8, 0x00#8, 0x3F#8, 0x12#8⟩ := by decide

/-- MP11 in small (three bytes of a page): load frames, then the page write of the aligned base, with `WPEND` set. -/
theorem test_start_page_flash :
    (match startPage .flash 0x0085#16 [1#8, 2#8, 3#8] (answering (List.replicate 4 (r3 0#8))) with
      | .ok base s => some (base, s.link.frameTx, s.wpend, s.link.env.miso, s.link.log.length)
      | _ => none) = some (0x0080#16, .written ⟨0x4C#8, 0x00#8, 0x40#8, 0x00#8⟩, true, [], 4 * 192) := by decide +kernel

/-- MP15, MP16: an EEPROM page, without verify and verified. -/
theorem test_wr_page_eeprom :
    see (fun s => (s.response, s.link.log.length))
      (exec (.wrPageEeprom 0x0006#16 false [1#8, 2#8, 3#8, 4#8]) (answering (List.replicate 6 (r3 0#8)))) =
      some ([0#8, 1#8], 6 * 192) ∧
    see (fun s => (s.response, s.verifyOk, s.link.frameTx))
      (exec (.wrPageEeprom 0x03FE#16 true [9#8, 8#8, 7#8, 6#8])
        (answering (List.replicate 6 (r3 0#8) ++ [r3 9#8, r3 8#8, r3 7#8, r3 6#8]))) =
      some ([0#8, 1#8], true, .written ⟨0xA0#8, 0x03#8, 0xFF#8, 0x00#8⟩) := by decide +kernel

/-- MP17. -/
theorem test_erase :
    see (fun s => (s.response, s.wpend, s.session.erased, s.link.log.length)) (exec .erase (answering [r3 0#8, r3 0#8])) =
      some ([0#8], false, false, 384) := by decide +kernel

/-- MP18, MP19. -/
theorem test_fuses :
    see (fun s => (s.response, s.link.frameTx)) (exec (.rdFuse .high) (answering [r3 0xD9#8])) =
      some ([0#8, 0xD9#8], .written ⟨0x58#8, 0x08#8, 0x00#8, 0x00#8⟩) ∧
    see (fun s => (s.fuseDirty, s.wpend)) (exec (.wrFuse .low 0xE2#8) (answering [r3 0#8, r3 0#8])) = some (true, false) := by
  decide +kernel

/-- MP21: a second fuse write before re-entry. -/
theorem test_fuse_reentry :
    faultOf (exec (.wrFuse .high 0xD9#8) { State.reset with fuseDirty := true }) = some .fuseReentryHazard := by decide

/-- MP23, MP24. -/
theorem test_rd_sig :
    see (fun s => (s.response, s.link.frameTx, s.sig.isWritten)) (exec (.rdSig 2#8) (answering [r3 0x0F#8])) =
      some ([0#8, 0x0F#8], .written ⟨0x30#8, 0x00#8, 0x02#8, 0x00#8⟩, false) ∧
    see (fun s => (s.response, s.link.log)) (exec (.rdSig 3#8) State.reset) = some ([17#8], []) := by decide +kernel

/-- MP25. -/
theorem test_set_ext :
    see (fun s => (s.response, s.link.frameTx, s.wpend)) (exec (.setExt 0x00#8) (answering [r3 0x0F#8])) =
      some ([0#8], .written ⟨0x4D#8, 0x00#8, 0x00#8, 0x00#8⟩, false) := by decide +kernel

/-! ### HexCodec (95 V-HX) -/

/-- HX1 to HX10. -/
theorem test_hex_early_checks :
    decodeLine (chars "") = .error .tooShort ∧ decodeLine (chars ":0000001FF") = .error .tooShort ∧
    decodeLine (chars "\r\n") = .error .tooShort ∧ decodeLine (chars "X00000001FF") = .error .wrongStart ∧
    decodeLine (chars ":110000000000000000") = .error .wrongLength ∧ decodeLine (chars ":G0000001FF") = .error .wrongLength ∧
    decodeLine (chars ":00G00001FF") = .error .wrongAddressHigh ∧ decodeLine (chars ":0000G001FF") = .error .wrongAddressLow ∧
    decodeLine (chars ":00000006FA") = .error .wrongType ∧ decodeLine (chars ":000000ZZFF") = .error .wrongType := by
  decide +kernel

/-- HX11 to HX14, HX23, HX24. -/
theorem test_hex_late_checks :
    decodeLine (chars ":01000000GG00") = .error .wrongData ∧ decodeLine (chars ":1000000000") = .error .wrongData ∧
    decodeLine (chars ":00000001FE") = .error .wrongChecksum ∧ decodeLine (chars ":00000001FG") = .error .wrongChecksum ∧
    decodeLine (chars ":0300300002337B1E") = .error .wrongChecksum ∧
    decodeLine (chars ":0300300002337A1F") = .error .wrongChecksum := by decide +kernel

/-- HX15 to HX22, HX25. -/
theorem test_hex_accepts :
    decodeLine (chars ":00000001ff") = .ok ⟨0#8, 0#16, 1#8, []⟩ ∧
    decodeLine (chars ":00000001FF\r\r\n") = .ok ⟨0#8, 0#16, 1#8, []⟩ ∧
    decodeLine (chars ":00000001FF x") = .ok ⟨0#8, 0#16, 1#8, []⟩ ∧
    decodeLine (chars ":01000000FF00") = .ok ⟨1#8, 0#16, 0#8, [0xFF#8]⟩ ∧
    decodeLine (chars ":0300300002337A1E") = .ok ⟨3#8, 0x0030#16, 0#8, [0x02#8, 0x33#8, 0x7A#8]⟩ ∧
    decodeLine (chars ":020000021000EC") = .ok ⟨2#8, 0#16, 2#8, [0x10#8, 0x00#8]⟩ ∧
    decodeLine (chars ":1000000000000000000000000000000000000000F0") =
      .ok ⟨16#8, 0#16, 0#8, List.replicate 16 0#8⟩ := by decide +kernel

/-- S1: the corrected line of Scenario A decodes, the literal line lacks its checksum (C2). -/
theorem test_hex_scenario_a :
    decodeLine (chars ":10000000214601360121470136007EFE09D2190141") =
      .ok ⟨16#8, 0#16, 0#8, [0x21#8, 0x46#8, 0x01#8, 0x36#8, 0x01#8, 0x21#8, 0x47#8, 0x01#8,
        0x36#8, 0x00#8, 0x7E#8, 0xFE#8, 0x09#8, 0xD2#8, 0x19#8, 0x01#8]⟩ ∧
    decodeLine (chars ":10000000214601360121470136007EFE09D21901") = .error .wrongChecksum := by decide +kernel

/-- HX26 to HX29. -/
theorem test_hex_encode :
    see (·.response) (exec (.hexEncData 0x0030#16 [0x02#8, 0x33#8, 0x7A#8]) State.reset) =
      some (0#8 :: 17#8 :: chars ":0300300002337A1E") ∧
    see (·.response) (exec (.hexEncData 0x1234#16 []) State.reset) = some (0#8 :: 11#8 :: chars ":00123400BA") ∧
    see (·.response) (exec (.hexEncData 0x0000#16 (List.replicate 17 0#8)) State.reset) = some [4#8] ∧
    see (·.response) (exec .hexEncEnd State.reset) = some (0#8 :: 11#8 :: chars ":00000001FF") := by decide +kernel

/-- `HEX_DECODE` writes `REC` and returns it; EX4: an error outside a session changes no session field. -/
theorem test_hex_decode :
    see (fun s => (s.response, s.record)) (exec (.hexDecode (chars ":01000000FF00")) State.reset) =
      some ([0#8, 1#8, 0#8, 0#8, 0#8, 0xFF#8], .written ⟨1#8, 0#16, 0#8, [0xFF#8]⟩) ∧
    see (fun s => (s.response, s.record.isWritten, s.session.sstate, s.link.log)) (exec (.hexDecode (chars "garbage-line")) State.reset) =
      some ([3#8], false, SState.none, []) := by decide +kernel

/-! ### Write controller (95 V-WC, P1 to P7) -/

/-- A state with the signature 1E 95 0F known (test data, 93 G4). -/
def known (s : State) : State := { s with params := ⟨[⟨0x1E#8, 0x95#8, 0x0F#8⟩], .forward⟩ }

/-- The replies of a session's start: sync, then the signature. -/
def startReplies : List IspFrame := [echo, r3 0x1E#8, r3 0x95#8, r3 0x0F#8]

/-- P2 step 1. -/
theorem test_prog_begin_flash :
    see (fun s => (s.response, s.session.sstate, s.session.erased, s.sig, s.wpend))
      (exec .progBeginFlash (known (answering (startReplies ++ [r3 0#8, r3 0#8])))) =
      some ([0#8], SState.active, true, .written ⟨0x1E#8, 0x95#8, 0x0F#8⟩, false) := by decide +kernel

/-- P7: no sync; the session is aborted, the link released, the status word 0x0001500C. -/
theorem test_prog_begin_no_sync :
    see (fun s => (s.response, statusWord s, s.link.rst, s.link.sck))
      (exec .progBeginFlash (known (answering (List.replicate 5 (r3 0#8))))) =
      some ([1#8], 0x0001500C#32, Level.hiZ, Level.hiZ) := by decide +kernel

/-- P3 step 1, WC25: EEPROM pass, and an unknown signature. -/
theorem test_prog_begin_eeprom :
    see (fun s => (s.response, s.session.sstate, s.session.region, s.link.log.length))
      (exec .progBeginEeprom (known (answering startReplies))) =
      some ([0#8], SState.active, Region.eeprom, 4 + 4 * 192) ∧
    see (fun s => (s.response, s.session.sstate))
      (exec .progBeginEeprom (known (answering [echo, r3 0x1E#8, r3 0x95#8, r3 0x14#8]))) =
      some ([14#8], SState.aborted) := by decide +kernel

/-- WC14. -/
theorem test_prog_begin_active :
    see (·.response) (exec .progBeginEeprom
      { State.reset with session := { Session.reset with sstate := .active } }) = some [16#8] := by decide

/-- An active flash session with its erase done. -/
def flashSession (s : State) : State :=
  { s with session := { s.session with sstate := .active, region := .flash, erased := true } }

/-- An active EEPROM session. -/
def eepromSession (s : State) : State :=
  { s with session := { s.session with sstate := .active, region := .eeprom } }

/-- P2 step 2, WC23: a data record opens a page and merges, with no frame. -/
theorem test_prog_line_merges :
    see (fun s => (s.response, s.session.pageOpen, s.session.pageBase, (s.session.pb.value).take 3, s.link.log))
      (exec (.progLine (chars ":0100000042BD")) (flashSession State.reset)) =
      some ([0#8], true, .written 0#16, [0x42#8, 0xFF#8, 0xFF#8], []) := by decide +kernel

/-- WC4: the range check; the abort returns `LINE_NO`. -/
theorem test_prog_line_range :
    see (fun s => (s.response, s.session.sstate, s.pstate))
      (exec (.progLine (chars ":107FF800000102030405060708090A0B0C0D0E0F01")) (flashSession State.reset)) =
      some ([11#8, 0#8, 1#8], SState.aborted, PState.idle) := by decide +kernel

/-- P3 step 2, WC17: EEPROM bytes written and verified; a mismatch aborts with `LINE_NO`. -/
theorem test_prog_line_eeprom :
    see (·.response) (exec (.progLine (chars ":0100100042AD"))
      (eepromSession (answering [r3 0#8, r3 0#8, r3 0x42#8]))) = some [0#8] ∧
    see (fun s => (s.response, s.session.sstate, s.verifyOk, s.link.frameTx))
      (exec (.progLine (chars ":0300300002337A1E"))
        (eepromSession (answering [r3 0#8, r3 0#8, r3 0x02#8, r3 0#8, r3 0#8, r3 0x00#8]))) =
      some ([10#8, 0#8, 1#8], SState.aborted, false, .written ⟨0xA0#8, 0x00#8, 0x31#8, 0x00#8⟩) := by decide +kernel

/-- A flash session with a page of two bytes open at 0. -/
def shortPage (s : State) : State :=
  { flashSession s with session := { (flashSession s).session with
      page := .opened 0#16 [0xFF#8, 0xFF#8] } }

/-- WC2, WC3 in small: a record of the next page flushes the open page, verified, and opens its own. -/
theorem test_prog_line_flushes :
    see (fun s => (s.response, s.session.pageBase, (s.session.pb.value).take 5, s.link.log.length))
      (exec (.progLine (chars ":040080000102030472"))
        (shortPage (answering (List.replicate 4 (r3 0#8) ++ List.replicate 2 (r3 0xFF#8))))) =
      some ([0#8], .written 0x0080#16, [1#8, 2#8, 3#8, 4#8, 0xFF#8], 6 * 192) := by decide +kernel

/-- WC11 without an open page, WC12, WC13: the end-of-file record, and what follows it. -/
theorem test_prog_finish :
    see (fun s => (s.response, s.session.sstate, trace s)) (exec .progFinish (flashSession State.reset)) =
      some ([0#8], SState.done, [.drive .sck .hiZ, .drive .mosi .hiZ, .drive .rst .hiZ]) ∧
    see (·.response) (exec .progFinish State.reset) = some [15#8] := by decide +kernel

/-- WC8 (forwarded at once), WC10 (count 1). -/
theorem test_prog_line_extended_address :
    see (fun s => (s.response, s.link.frameTx)) (exec (.progLine (chars ":02000004ABCD82")) (flashSession (answering [r3 0#8]))) =
      some ([0#8], .written ⟨0x4D#8, 0x00#8, 0xCD#8, 0x00#8⟩) ∧
    see (·.response) (exec (.progLine (chars ":0100000401FA")) (flashSession State.reset)) =
      some [12#8, 0#8, 1#8] := by decide +kernel

/-- EX1, EX2: `STATUS` after reset and after a `BadOp`, and what it leaves. -/
theorem test_status :
    see (·.response) (exec .status State.reset) = some [0#8, 0#8, 0#8, 0#8, 0#8] ∧
    see (fun s => (s.response, s.lastError)) (exec .status { State.reset with lastError := 17#8 }) =
      some ([0#8, 0#8, 17#8, 0#8, 0#8], 0#8) := by decide +kernel

/-! ### Frames as instructions, one of each format, and the step -/

/-- MP1, MP6, IP6 as frames: the fourth reply byte is the result, and no flag changes. -/
theorem test_read_frames :
    see (fun s => (s.response, s.wpend, s.fuseDirty)) (exec .readFuseLo (answering [r3 0x62#8])) =
      some ([0#8, 0x62#8], false, false) ∧
    see (fun s => s.link.frameTx) (exec (.readFlashHi 0x09#8 0x1A#8) (answering [r3 0#8])) =
      some (.written ⟨0x28#8, 0x09#8, 0x1A#8, 0x00#8⟩) := by decide +kernel

/-- R258 to R261, R273: a fuse write through `CMD` sets `WPEND` and `FUSE_DIRTY`. -/
theorem test_fuse_write_frame :
    see (fun s => (s.wpend, s.fuseDirty)) (exec (.writeLock 0xFF#8) (answering [r3 0#8])) = some (true, true) := by
  decide +kernel

/-- R264, R268, R271: loads and the context are no commit frames. -/
theorem test_load_frames :
    see (·.wpend) (exec (.loadFlashLo 0x3F#8 0x12#8) (answering [r3 0#8])) = some false ∧
    see (·.wpend) (exec (.loadExtAddr 0xCD#8) (answering [r3 0#8])) = some false ∧
    see (·.wpend) (exec (.loadEepromPage 0x03#8 0x04#8) (answering [r3 0#8])) = some false := by decide +kernel

/-- The message a table word lays out is the next operation the step runs. -/
theorem test_step_runs_the_word :
    see (fun s => (s.link.rst, s.inbox)) (step (State.reset.withFetchWord 8 0x02)) = some (Level.low, []) := by decide +kernel

/-- BL11: an unknown code is refused with `BadOp`. -/
theorem test_step_bad_op :
    see (fun s => (s.response, s.lastError, s.link.log)) (step { State.reset with inbox := [[0x06#8]] }) =
      some ([17#8], 17#8, []) := by decide +kernel

/-! ### The reference target (20_memory R72 to R79) -/

/-- A reference target in programming mode that is never busy. -/
def readyTarget : Target :=
  { Target.atPowerUp with mode := .progEnabled, nextBusy := some 0, sig := ⟨0x1E#8, 0x95#8, 0x0F#8⟩ }

/-- The reset state in front of the reference target, whose undetermined reply bits are all 0. -/
def facing (t : Target) : State :=
  { State.reset with link := { Link.reset with env := ⟨.reference, List.replicate 400 false, 0, t⟩ } }

/-- R77, R73: a verified EEPROM write reads back what it wrote. -/
theorem test_target_eeprom :
    see (fun s => (s.response, eepromAt s 5, s.verifyOk)) (exec (.wrEebyte 0x0005#16 0xA5#8 true) (facing readyTarget)) =
      some ([0#8, 1#8], 0xA5#8, true) := by decide +kernel

/-- R72: in sync, programming enable echoes 0x53 and enters programming mode. -/
theorem test_target_sync :
    see (fun s => (s.response, s.attempt, s.link.env.target.mode))
      (exec .pgmEnter (facing { Target.atPowerUp with nextSync := true })) =
      some ([0#8, 1#8], 1, TargetMode.progEnabled) := by decide +kernel

/-- R75, R76: after a chip erase flash reads 0xFF. -/
theorem test_target_erase :
    see (fun s => (flashAt s 7, s.response))
      (exec .erase (facing { readyTarget with flash := [(7, 0x12#8)], eraseEe := false, eraseLock := false })) =
      some (0xFF#8, [0#8]) := by decide +kernel

/-- R72, R115: releasing reset returns a target in programming mode to Running, also where `RST` was `High` already. -/
theorem test_target_release :
    see (·.link.env.target.mode) (exec .rstRelease { facing readyTarget with link := { (facing readyTarget).link with rst := .high } }) =
      some TargetMode.running := by decide

/-- U18, R66: reset asserted during a write cycle leaves the memories unspecified (here seen by the write buffer); not during one, it
touches nothing. -/
theorem test_target_interrupted :
    let t := { readyTarget with flashBuf := [(0, 0x12#8)] }
    see (·.link.env.target.flashBuf) (exec .rstAssert (facing t)) = some [(0, 0x12#8)] ∧
    see (·.link.env.target.flashBuf) (exec .rstAssert (facing { t with busy := some 1 })) = some [] := by decide

/-- R72, R74: a programming-enable frame in sync during a write cycle is answered with the echo and enters programming mode. -/
theorem test_target_sync_busy :
    let t := { Target.atPowerUp with nextSync := true, settled := true, busy := some 1 }
    let s := facing t
    see (fun u => (u.link.frameRx.value.b2, u.link.env.target.mode)) (exec .progEnable { s with link := { s.link with rst := .low } }) =
      some (0x53#8, .progEnabled) := by decide +kernel

/-- U12: a flash page commit with the upper address context not 0 leaves EEPROM and the fuses as they are. -/
theorem test_target_extended_commit :
    see (fun s => (eepromAt s 5, fuseAt s .high, s.link.env.target.mode)) (exec (.writeFlashPage 0x00#8 0x40#8)
      (facing { readyTarget with ext := 1#8, eeprom := [(5, 0xA5#8)] })) = some (0xA5#8, ⟨0xFF#8, 0xFF#8⟩, .progEnabled) := by
  decide +kernel

/-- U16, N7: once a lock byte is written the answer to a flash read is not determined (here the undetermined bits are 0, and the byte
would read 0xFF); a fuse read is answered (R255). -/
theorem test_target_locked :
    see (·.response) (exec (.rdByteFlash 0x0000#16) (facing readyTarget)) = some [0#8, 0xFF#8] ∧
    see (·.response) (exec (.rdByteFlash 0x0000#16) (facing { readyTarget with locked := true })) = some [0#8, 0x00#8] ∧
    see (·.response) (exec (.rdFuse .high) (facing { readyTarget with locked := true })) = some [0#8, 0xFF#8] := by decide +kernel

/-- A target after steps 1 to 6 of 95 P4: the low and high fuses are committed and re-entered. -/
def rewrittenTarget : Target := { readyTarget with fuseLow := ⟨0xE2#8, 0xE2#8⟩, fuseHigh := ⟨0xD9#8, 0xD9#8⟩, fused := true }

/-- P4 steps 7, 9 and 10: the extended fuse is written alone, and the low and high fuses read back. -/
theorem test_target_fuses_after_reentry :
    see (fun s => (s.response, fuseAt s .extended, fuseAt s .low, fuseAt s .high, fuseAt s .lock))
      (exec (.wrFuse .extended 0xFD#8) (facing rewrittenTarget)) =
      some ([0#8], ⟨0xFF#8, 0xFD#8⟩, ⟨0xE2#8, 0xE2#8⟩, ⟨0xD9#8, 0xD9#8⟩, ⟨0xFF#8, 0xFF#8⟩) ∧
    see (·.response) (exec (.rdFuse .low) (facing rewrittenTarget)) = some [0#8, 0xE2#8] ∧
    see (·.response) (exec (.rdFuse .high) (facing rewrittenTarget)) = some [0#8, 0xD9#8] := by decide +kernel

/-- P4 step 8: at the re-entry the extended fuse takes effect. -/
theorem test_target_reentry :
    see (fun s => (s.response, fuseAt s .extended, fuseAt s .low)) (exec .pgmEnter
      (facing { rewrittenTarget with mode := .running, nextSync := true, fuseExt := ⟨0xFF#8, 0xFD#8⟩, fusePending := true })) =
      some ([0#8, 1#8], ⟨0xFD#8, 0xFD#8⟩, ⟨0xE2#8, 0xE2#8⟩) := by decide +kernel

/-! ### Witnesses: for each statement with hypotheses, states and operands that meet them -/

/-- A scripted target gives the scripted replies. -/
theorem exchange_answers (fs rs : List IspFrame) (l : Link) (hk : l.env.kind = .draws)
    (hm : l.env.miso = rs.flatMap replyBits) (h : fs.length ≤ rs.length) : (l.exchange fs).1 = rs.take fs.length := by
  induction fs generalizing rs l with
  | nil => simp
  | cons f fs ih =>
    cases rs with
    | nil => simp at h
    | cons r rs =>
      have h1 := Link.frame_presented f r (rs.flatMap replyBits) l hk (by simpa using hm)
      simp only [Link.exchange_cons, h1, List.length_cons, List.take_succ_cons, List.cons.injEq, true_and]
      exact ih rs _ hk rfl (by simpa using h)

theorem replies_answer {fs rs : List IspFrame} {s : State} (hs : s.link = (answering rs).link) (h : fs.length ≤ rs.length) :
    replies fs s = rs.take fs.length := by
  rw [replies, hs]; exact exchange_answers fs rs _ rfl rfl h

theorem exchange_env (fs rs : List IspFrame) (l : Link) (hk : l.env.kind = .draws) (hm : l.env.miso = rs.flatMap replyBits)
    (h : fs.length ≤ rs.length) :
    (l.exchange fs).2.env.kind = .draws ∧ (l.exchange fs).2.env.miso = (rs.drop fs.length).flatMap replyBits := by
  induction fs generalizing rs l with
  | nil => exact ⟨hk, by simpa using hm⟩
  | cons f fs ih =>
    cases rs with
    | nil => simp at h
    | cons r rs =>
      have h1 := Link.frame_presented f r (rs.flatMap replyBits) l hk (by simpa using hm)
      simp only [Link.exchange_cons, h1, List.length_cons, List.drop_succ_cons]
      exact ih rs _ hk rfl (by simpa using h)

/-- After the frames `fs` have been answered, the replies to the frames after them. -/
theorem replies_after {fs gs rs : List IspFrame} {s t : State} (hs : s.link = (answering rs).link) (ht : t.link = (sent fs s).link)
    (h : fs.length + gs.length ≤ rs.length) : replies gs t = (rs.drop fs.length).take gs.length := by
  have he := exchange_env fs rs s.link (by rw [hs]; rfl) (by rw [hs]; rfl) (by omega)
  rw [replies, ht, sent]
  exact exchange_answers gs _ _ he.1 he.2 (by simp; omega)

theorem lastReply_answer {fs rs : List IspFrame} {s : State} (hs : s.link = (answering rs).link) (h : fs.length ≤ rs.length) :
    lastReply fs s = (rs.take fs.length).getLastD (r3 0#8) := by
  rw [lastReply, replies_answer hs h]; rfl

theorem witness_DecodeOfEncode :
    Instr.wf (.wrPageEeprom 0#16 true [1#8, 2#8, 3#8, 4#8]) = true ∧ Instr.wf (.cmd 0xAC#8 0x53#8 0x00#8 0x01#8) = true ∧
    Instr.wf (.rdSig 2#8) = true ∧ Instr.wf (.hexDecode []) = true := by decide

theorem witness_EncodeOfDecoded :
    decode [0x11#8, 0xAC#8, 0x53#8, 0x00#8, 0x00#8] = .ok .progEnable ∧
    decode [0x31#8, 0x12#8, 0x34#8, 0x01#8, 0xFF#8] = .ok (.hexEncData 0x1234#16 [0xFF#8]) := by decide

theorem witness_FrameRowsDisjoint : ∃ (f : IspFrame) (p : FramePattern),
    p ∈ framePatterns ∧ framePatterns[21]? = some p ∧ p.fits f = true := by
  exact ⟨⟨0x4D#8, 0x00#8, 0xCD#8, 0x00#8⟩, ⟨0x4D#8, some 0x00#8, none, some 0x00#8⟩, by decide, by decide, by decide⟩

theorem witness_StepRunsDecodedInstruction :
    (∃ (s : State) (msg : List Byte) (rest : List (List Byte)) (i : Instr),
      s.pending = none ∧ s.inbox = msg :: rest ∧ decode msg = .ok i) ∧ decodeTableWord 8 0x02 = some .rstAssert :=
  ⟨⟨{ State.reset with inbox := [[0x02#8], [0x03#8]] }, _, _, .rstAssert, rfl, rfl, rfl⟩, rfl⟩

/-- A state that waits for its next poll, which is answered `b`. -/
def waitingFor (b : Byte) : State := { answering [r3 b] with pending := some .plain, wpend := true }

theorem witness_StepWaitsAndIdles :
    (State.reset.pending = none ∧ State.reset.inbox = []) ∧
    ((waitingFor 1#8).pending = some .plain ∧ busyBit (pollReply 0 (waitingFor 1#8)) = true) ∧
    ((waitingFor 0xFE#8).pending = some .plain ∧ busyBit (pollReply 0 (waitingFor 0xFE#8)) = false) := by
  refine ⟨⟨rfl, rfl⟩, ⟨rfl, ?_⟩, rfl, ?_⟩ <;> decide +kernel

theorem witness_IllegalOperationIsBadOp :
    (∀ i : Instr, i.wf = true → encode i ≠ [0x26#8, 3#8]) ∧ Instr.wf (.rdSig 3#8) = false ∧
    (∀ b0 b1 b2 b3, Instr.rdSig 3#8 ≠ .cmd b0 b1 b2 b3) := by
  refine ⟨fun i hi h => ?_, by decide, by simp⟩
  cases i <;> simp [encode, frameMessage, textMessage] at h
  subst h
  simp [Instr.wf] at hi

theorem witness_XferExchange : State.reset.wpend = false ∧ { State.reset with wpend := true }.wpend = true := ⟨rfl, rfl⟩

theorem witness_EveryAnswerIsReceived :
    (State.reset.wpend = false ∧ Presents (scripted (byteBits 0x53#8)).link (byteBits 0x53#8)) ∧
    Presents (answering [r3 1#8, r3 0#8]).link ([r3 1#8, r3 0#8].flatMap replyBits) :=
  ⟨⟨rfl, rfl, [], by simp [scripted, Link.reset]⟩, rfl, [], by simp [answering, scripted]⟩

theorem witness_ResetLineOperations : State.reset.wpend = false ∧ { State.reset with wpend := true }.wpend = true := ⟨rfl, rfl⟩

theorem witness_PgmEnterAttempts :
    SyncsAt 0 (answering [echo]) ∧ SyncsAt 4 (answering (List.replicate 4 (r3 0#8) ++ [echo])) ∧
    NeverSyncs (answering (List.replicate 5 (r3 0#8))) := by
  refine ⟨⟨?_, by simp⟩, ⟨?_, ?_⟩, ?_⟩
  · decide +kernel
  · decide +kernel
  · decide +kernel
  · show ∀ j, j < 5 → _
    decide +kernel

theorem witness_CmdSendsItsFrame :
    (State.reset.wpend = false ∧ State.reset.fuseDirty = false) ∧
    isFuseWriteFrame ⟨0xAC#8, 0xE0#8, 0x00#8, 0xFF#8⟩ = true ∧ isFuseWriteFrame ⟨0xF0#8, 0x00#8, 0x00#8, 0x00#8⟩ = false := by
  refine ⟨⟨rfl, rfl⟩, ?_, ?_⟩ <;> decide

/-- For `ReadAndLoadFramesComplete` and `CommitAndPollFramesComplete`. -/
theorem witness_FrameInstructions : State.reset.wpend = false ∧ State.reset.fuseDirty = false := ⟨rfl, rfl⟩

theorem witness_PollReadyReturns :
    ReadyAfter 0 (answering [r3 0#8]) ∧ ReadyAfter 2 (answering [r3 1#8, r3 1#8, r3 0#8]) ∧
    busyBit (pollReply 0 (answering [r3 1#8])) = true := by
  refine ⟨⟨?_, by simp⟩, ⟨?_, ?_⟩, ?_⟩ <;> decide +kernel

theorem witness_WaitingOperationGoesOn :
    ((waitingFor 0#8).pending = some .plain ∧ ReadyAfter 0 (waitingFor 0#8)) ∧
    { answering [r3 1#8, r3 1#8, r3 0#8] with pending := some (.eeByte 0x03FF#16 0xA5#8 true) }.pending =
      some (.eeByte 0x03FF#16 0xA5#8 true) ∧
    ReadyAfter 2 { answering [r3 1#8, r3 1#8, r3 0#8] with pending := some (.eeByte 0x03FF#16 0xA5#8 true) } := by
  refine ⟨⟨rfl, ?_, by simp⟩, rfl, ?_, ?_⟩ <;> decide +kernel

/-- A reference target that stays busy for ever, with an operation waiting for it. -/
def stuck : State := { facing { readyTarget with busy := none } with pending := some .plain, wpend := true }

theorem witness_BusyForeverIsAnInfiniteRun :
    stuck.pending = some .plain ∧ stuck.link.env.kind = .reference ∧ stuck.link.env.target.mode = .progEnabled ∧
    stuck.link.env.target.rx = [] ∧ stuck.link.env.target.busy = none := ⟨rfl, rfl, rfl, rfl, rfl⟩

theorem witness_AddressBound :
    32768 ≤ (0x8000#16).toNat ∧ 1024 ≤ (0x0400#16).toNat ∧ (List.replicate 128 0#8).length = 128 := by decide +kernel

theorem witness_RdByteReads :
    (0x7FFF#16).toNat < 32768 ∧ (0x03FF#16).toNat < 1024 ∧ State.reset.wpend = false ∧ { State.reset with wpend := true }.wpend = true := by
  refine ⟨by decide, by decide, rfl, rfl⟩

theorem witness_SingleFrameOperations : State.reset.wpend = false ∧ (2#8).toNat < 3 ∧ 3 ≤ (3#8).toNat := ⟨rfl, by decide, by decide⟩

/-- The write and poll frames of `WR_EEBYTE 0x03FF, A5`. -/
def eeByteFrames : List IspFrame := [⟨0xC0#8, 0x03#8, 0xFF#8, 0xA5#8⟩, ⟨0xF0#8, 0x00#8, 0x00#8, 0x00#8⟩]

theorem witness_WrEebyteWritesAndVerifies :
    busyBit (lastReply eeByteFrames (answering [r3 0#8, r3 1#8])) = true ∧
    busyBit (lastReply eeByteFrames (answering [r3 0#8, r3 0#8, r3 0xA5#8])) = false ∧
    (lastReply (eeByteFrames ++ [⟨0xA0#8, 0x03#8, 0xFF#8, 0x00#8⟩]) (answering [r3 0#8, r3 0#8, r3 0xA5#8])).b3 = 0xA5#8 ∧
    (lastReply (eeByteFrames ++ [⟨0xA0#8, 0x03#8, 0xFF#8, 0x00#8⟩]) (answering [r3 0#8, r3 0#8, r3 0#8])).b3 ≠ 0xA5#8 ∧
    BitVec.ofNat 8 ((0x03FF#16).toNat / 256) = 0x03#8 ∧ BitVec.ofNat 8 (0x03FF#16).toNat = 0xFF#8 := by
  refine ⟨?_, ?_, ?_, ?_, ?_, ?_⟩ <;> decide +kernel

theorem witness_PageWriteFrames :
    (0x7FFF#16).toNat < 32768 ∧ (List.replicate 128 0xFF#8).length = 128 ∧ (0x03FF#16).toNat < 1024 := by decide +kernel

/-- The pages of the witnesses: one of each region, its last. -/
def page (region : Region) : List Byte := List.replicate (pageSize region) 0x5A#8

/-- A target that answers a page write not busy, then reads `j` bytes back as written and then another. -/
def readsBack (region : Region) (j : Nat) : List IspFrame :=
  List.replicate (pageSize region + 2) (r3 0#8) ++ List.replicate j (r3 0x5A#8) ++ [r3 0#8]

/-- A target that answers the poll of a page write busy. -/
def staysBusy (region : Region) : List IspFrame := List.replicate (pageSize region + 1) (r3 0#8) ++ [r3 1#8]

theorem witness_WrPageWrites (region : Region) :
    (page region).length = pageSize region ∧
    busyBit (lastReply (pageFrames region 0x03FE#16 (page region)) (answering (staysBusy region))) = true ∧
    (∀ j, j ∈ [0, pageSize region - 1, pageSize region] →
      busyBit (lastReply (pageFrames region 0x03FE#16 (page region)) (answering (readsBack region j))) = false ∧
      ((replies (pageFrames region 0x03FE#16 (page region) ++ readFrames region (pageBase region 0x03FE#16) 0 j)
        (answering (readsBack region j))).drop (pageSize region + 2)).map (·.b3) = (page region).take j) ∧
    (∀ j, j ∈ [0, pageSize region - 1] →
      (lastReply (pageFrames region 0x03FE#16 (page region) ++ readFrames region (pageBase region 0x03FE#16) 0 (j + 1))
        (answering (readsBack region j))).b3 ≠ (page region).getD j 0#8) := by
  refine ⟨?_, ?_, ?_, ?_⟩
  · cases region <;> decide +kernel
  · rw [lastReply_answer (rs := staysBusy region) rfl (by cases region <;> decide +kernel)]
    cases region <;> decide +kernel
  · intro j hj
    simp only [List.mem_cons, List.not_mem_nil, or_false] at hj
    rw [lastReply_answer (rs := readsBack region j) rfl (by rcases hj with rfl | rfl | rfl <;> cases region <;> decide +kernel),
      replies_answer (rs := readsBack region j) rfl (by rcases hj with rfl | rfl | rfl <;> cases region <;> decide +kernel)]
    rcases hj with rfl | rfl | rfl <;> cases region <;> decide +kernel
  · intro j hj
    simp only [List.mem_cons, List.not_mem_nil, or_false] at hj
    rw [lastReply_answer (rs := readsBack region j) rfl (by rcases hj with rfl | rfl <;> cases region <;> decide +kernel)]
    rcases hj with rfl | rfl <;> cases region <;> decide +kernel

theorem witness_ReadbackStopsAtTheFirstMismatch :
    (0x7F80#16).toNat + (page .flash).length ≤ capacity .flash ∧
    (replies (readFrames .eeprom 0x03FC#16 0 4) (answering (List.replicate 4 (r3 0x5A#8)))).map (·.b3) = page .eeprom ∧
    (replies (readFrames .eeprom 0x03FC#16 0 3) (answering (List.replicate 3 (r3 0x5A#8) ++ [r3 0#8]))).map (·.b3) =
      (page .eeprom).take 3 ∧
    (lastReply (readFrames .eeprom 0x03FC#16 0 4) (answering (List.replicate 3 (r3 0x5A#8) ++ [r3 0#8]))).b3 ≠
      (page .eeprom).getD 3 0#8 ∧
    (lastReply [readFrame .eeprom 0x03FF#16] (answering [r3 0x5A#8])).b3 = 0x5A#8 ∧
    (lastReply [readFrame .eeprom 0x03FF#16] (answering [r3 0x5A#8])).b3 ≠ 0xA5#8 := by
  refine ⟨?_, ?_, ?_, ?_, ?_, ?_⟩ <;> decide +kernel

theorem witness_EraseAndWrFuse : ∀ fs ∈ [[(⟨0xAC#8, 0x80#8, 0x00#8, 0x00#8⟩ : IspFrame), ⟨0xF0#8, 0x00#8, 0x00#8, 0x00#8⟩],
      [⟨0xAC#8, 0xE0#8, 0x00#8, 0xFF#8⟩, ⟨0xF0#8, 0x00#8, 0x00#8, 0x00#8⟩]],
    busyBit (lastReply fs (answering [r3 0#8, r3 0#8])) = false ∧ busyBit (lastReply fs (answering [r3 0#8, r3 1#8])) = true := by
  decide +kernel

theorem witness_WriteCycleHazard :
    { State.reset with wpend := true }.wpend = true ∧
    (⟨0x00#8, 0x00#8, 0x00#8, 0x00#8⟩ : IspFrame) ≠ ⟨0xF0#8, 0x00#8, 0x00#8, 0x00#8⟩ ∧ State.reset.session.sstate ≠ .active := by
  refine ⟨rfl, ?_, ?_⟩ <;> decide

theorem witness_FuseReentryHazard :
    { answering [echo] with fuseDirty := true }.wpend = false ∧
    see (fun s => (s.syncOk, s.fuseDirty)) (exec .pgmEnter { answering [echo] with fuseDirty := true }) = some (true, false) ∧
    see (fun s => (s.fuseDirty, s.pending)) (step { waitingFor 0#8 with fuseDirty := true }) = some (true, none) ∧
    see (fun s => (s.fuseDirty, s.pending)) (step { waitingFor 1#8 with fuseDirty := true }) = some (true, some .plain) := by
  refine ⟨rfl, ?_⟩
  decide +kernel

theorem witness_HexRoundTrip :
    (List.replicate 16 0x5A#8).length ≤ 16 ∧
    decodeLine (chars ":0100ab00fe56\r\n") = .ok ⟨1#8, 0x00AB#16, 0x00#8, [0xFE#8]⟩ ∧
    (strip (chars ":0100ab00fe56\r\n")).length = 11 + 2 * (1#8).toNat := by decide +kernel

theorem witness_SingleBitErrorsAreFound :
    (decodeLine (chars ":00000001FF") = .ok ⟨0#8, 0#16, 1#8, []⟩ ∧
      (∀ q, q % 2 = 1 → q ≠ 9 → hexByte (strip (chars ":000000017Fxy")) q = hexByte (strip (chars ":00000001FFxy")) q) ∧
      hexByte (strip (chars ":00000001FF")) 9 = some 0xFF#8 ∧
      hexByte (strip (chars ":000000017F")) 9 = some (0xFF#8 ^^^ (1#8 <<< 7))) ∧
    (decodeLine (chars ":01000000FF00") = .ok ⟨1#8, 0#16, 0#8, [0xFF#8]⟩ ∧
      hexByte (strip (chars ":01000000FF00")) 9 = some 0xFF#8 ∧
      hexByte (strip (chars ":01000000FE00")) 9 = some (0xFF#8 ^^^ (1#8 <<< 0))) := by
  refine ⟨⟨by decide +kernel, ?_, by decide +kernel, by decide +kernel⟩, by decide +kernel⟩
  intro q hq h9
  rcases Nat.lt_or_ge q 13 with h | h
  · have : ∀ q, q < 13 → q % 2 = 1 → q ≠ 9 →
        hexByte (strip (chars ":000000017Fxy")) q = hexByte (strip (chars ":00000001FFxy")) q := by decide +kernel
    exact this q h hq h9
  · have h1 : (strip (chars ":000000017Fxy")).drop q = [] := List.drop_eq_nil_iff.mpr (by
      have : (strip (chars ":000000017Fxy")).length = 13 := by decide +kernel
      omega)
    have h2 : (strip (chars ":00000001FFxy")).drop q = [] := List.drop_eq_nil_iff.mpr (by
      have : (strip (chars ":00000001FFxy")).length = 13 := by decide +kernel
      omega)
    simp [hexByte, h1, h2]

theorem witness_ParseErrorsInOrder :
    let line := chars ":0300300002337A1E"
    line = strip (chars ":0300300002337A1E\n") ∧ 11 ≤ line.length ∧ line.head? = some 0x3A#8 ∧ hexByte line 1 = some 3#8 ∧
    hexByte line 3 = some 0x00#8 ∧ hexByte line 5 = some 0x30#8 ∧ hexByte line 7 = some 0x00#8 ∧
    (∀ k, k < 3 → hexByte line (9 + 2 * k) = [0x02#8, 0x33#8, 0x7A#8][k]?) ∧
    hexByte line 15 = some (checksum 3#8 0x00#8 0x30#8 0x00#8 [0x02#8, 0x33#8, 0x7A#8]) := by decide +kernel

theorem witness_HexOperations :
    (chars ":00000001FF").length < 256 ∧ decodeLine (chars ":00000001FF") = .ok ⟨0#8, 0#16, 1#8, []⟩ ∧
    decodeLine (chars "X00000001FF") = .error .wrongStart ∧ 16 < (List.replicate 17 0#8).length ∧
    (List.replicate 17 0#8).length < 256 := by decide +kernel

theorem witness_WrongSessionState :
    State.reset.session.sstate ≠ .active ∧ (flashSession State.reset).session.sstate = .active := by
  refine ⟨?_, rfl⟩
  decide

/-- The three signature frames. -/
def sigFrames : List IspFrame :=
  [⟨0x30#8, 0x00#8, 0x00#8, 0x00#8⟩, ⟨0x30#8, 0x00#8, 0x01#8, 0x00#8⟩, ⟨0x30#8, 0x00#8, 0x02#8, 0x00#8⟩]

/-- The erase and poll frames. -/
def eraseFrames : List IspFrame := [⟨0xAC#8, 0x80#8, 0x00#8, 0x00#8⟩, ⟨0xF0#8, 0x00#8, 0x00#8, 0x00#8⟩]

/-- `s` after the attempts of a synchronisation. -/
def triedAt (n : Nat) (s : State) : State := { s with link := s.link.tried n }

/-- A target in sync at attempt `n + 1`, which then answers the signature, an erase, and the poll after it with `b`. -/
def opens (n : Nat) (b : Byte) : State :=
  known (answering (List.replicate n (r3 0#8) ++ startReplies ++ [r3 0#8, r3 b]))

/-- For `ProgBeginEepromOpensASession` and `ProgBeginFlashErases`. -/
theorem witness_ProgBegin :
    (SyncsAt 0 (opens 0 0#8) ∧ (replies sigFrames (triedAt 0 (opens 0 0#8))).map (·.b3) = [0x1E#8, 0x95#8, 0x0F#8] ∧
      (⟨0x1E#8, 0x95#8, 0x0F#8⟩ : Signature) ∈ (opens 0 0#8).params.knownSignatures ∧
      busyBit (lastReply (sigFrames ++ eraseFrames) (triedAt 0 (opens 0 0#8))) = false ∧
      busyBit (lastReply (sigFrames ++ eraseFrames) (triedAt 0 (opens 0 1#8))) = true) ∧
    (SyncsAt 4 (opens 4 0#8) ∧ (replies sigFrames (triedAt 4 (opens 4 0#8))).map (·.b3) = [0x1E#8, 0x95#8, 0x0F#8] ∧
      (⟨0x1E#8, 0x95#8, 0x0F#8⟩ : Signature) ∉ ({ opens 4 0#8 with params := ⟨[], .ignore⟩ } : State).params.knownSignatures) ∧
    NeverSyncs (known (answering (List.replicate 5 (r3 0#8)))) := by
  refine ⟨⟨⟨?_, by simp⟩, ?_, ?_, ?_, ?_⟩, ⟨⟨?_, ?_⟩, ?_, ?_⟩, ?_⟩
  rotate_right
  · show ∀ j, j < 5 → _
    decide +kernel
  all_goals decide +kernel

theorem witness_BadLineAbortsTheSession :
    (flashSession State.reset).wpend = false ∧ (flashSession State.reset).session.sstate = .active ∧
    decodeLine (chars "garbage-line") = .error .wrongStart ∧
    decodeLine (chars ":027FFF00000080") = .ok ⟨2#8, 0x7FFF#16, 0x00#8, [0#8, 0#8]⟩ ∧
    decodeLine (chars ":0080000080") = .ok ⟨0#8, 0x8000#16, 0x00#8, []⟩ ∧
    decodeLine (chars ":020000021000EC") = .ok ⟨2#8, 0#16, 0x02#8, [0x10#8, 0x00#8]⟩ ∧
    decodeLine (chars ":0100000401FA") = .ok ⟨1#8, 0#16, 0x04#8, [0x01#8]⟩ := by
  refine ⟨rfl, rfl, ?_⟩
  decide +kernel

/-- A flash session with a page open at `base`, in front of a target that answers `rs`. -/
def openAt (base : Addr) (rs : List IspFrame) : State :=
  { flashSession (answering rs) with session := { (flashSession (answering rs)).session with
      page := .opened base (page .flash) } }

theorem witness_DataRecordIsMerged :
    decodeLine (chars ":017FFF000081") = .ok ⟨1#8, 0x7FFF#16, 0x00#8, [0x00#8]⟩ ∧ (page .flash).length = 128 ∧
    pageBase .flash 0x7FFF#16 = 0x7F80#16 ∧ (openAt 0x7F80#16 []).session.page = .opened 0x7F80#16 (page .flash) ∧
    (flashSession State.reset).session.pageOpen = false := by
  refine ⟨?_, ?_, ?_, rfl, rfl⟩ <;> decide +kernel

/-- A target that reads back the first `j` bytes of a page as written and the next one otherwise, after it has answered `n` frames
with zeros. -/
def readsPage (n : Nat) (pb : List Byte) (j : Nat) : List IspFrame :=
  List.replicate n (r3 0#8) ++ ((pb.take j).map r3 ++ [r3 (pb.getD j 0#8 + 1#8)])

theorem readFrames_length (base : Addr) (j n : Nat) : (readFrames .flash base j n).length = n := by
  induction n generalizing j with
  | zero => rfl
  | succ n ih => simp [readFrames, ih]

/-- Against `readsPage` the frames `fs` of a page write, if any, are answered not busy; after them the readback of the page gives its
first `j` bytes, and then, if the page has more, another: both cases of `FlushOutcome`, for every page, place and `j`. -/
theorem flush_answers {fs : List IspFrame} {s t : State} {base : Addr} {pb : List Byte} {j : Nat} (hj : j ≤ pb.length)
    (hs : s.link = (answering (readsPage fs.length pb j)).link) (ht : t.link = (sent fs s).link) :
    busyBit (lastReply fs s) = false ∧ (replies (readFrames .flash base 0 j) t).map (·.b3) = pb.take j ∧
    (j < pb.length → (lastReply (readFrames .flash base 0 (j + 1)) t).b3 ≠ pb.getD j 0#8) := by
  have hl : (readsPage fs.length pb j).length = fs.length + (j + 1) := by simp [readsPage]; omega
  have htk : ((pb.take j).map r3).length = j := by simp; omega
  have hd : (readsPage fs.length pb j).drop fs.length = (pb.take j).map r3 ++ [r3 (pb.getD j 0#8 + 1#8)] := by
    rw [readsPage, List.drop_append_of_le_length (by simp)]; simp
  refine ⟨?_, ?_, fun _ => ?_⟩
  · rw [lastReply_answer hs (by omega), readsPage, List.take_append_of_le_length (by simp)]
    generalize fs.length = n
    cases n with
    | zero => decide
    | succ n =>
      rw [List.take_of_length_le (by simp), List.replicate_succ', List.getLastD_eq_getLast?, List.getLast?_concat]
      rfl
  · rw [replies_after hs ht (by rw [readFrames_length, hl]; omega), readFrames_length, hd,
      List.take_append_of_le_length (by omega), List.take_of_length_le (by omega)]
    simp [Function.comp_def, r3]
  · rw [lastReply, replies_after hs ht (by rw [readFrames_length, hl]), readFrames_length, hd,
      List.take_of_length_le (by rw [List.length_append, htk]; rfl)]
    simp only [List.getLastD_eq_getLast?, List.getLast?_append, List.getLast?_singleton, Option.some_or, Option.getD_some, r3]
    generalize pb.getD j 0#8 = v
    revert v
    decide

/-- The target that answers the last of `n` frames busy. -/
def endsBusy (n : Nat) : List IspFrame := List.replicate n (r3 0#8) ++ [r3 1#8]

/-- The page of the open page 0x7F00 with the first two bytes of the crossing record in it. -/
def crossed (old : List Byte) : List Byte := mergedPage old 126 [1#8, 2#8]

/-- The records: one of another page, in one page and crossing into the next; and one that crosses the end of the open page 0x7F00 (or
of a page it opens) into the last page of flash. The targets: busy at the poll; and, by `flush_answers`, reading back 0, 127 and all
128 bytes, at once and from a waiting state. -/
theorem witness_FlushPrecedesTheNextPage :
    (decodeLine (chars ":040080000102030472") = .ok ⟨4#8, 0x0080#16, 0x00#8, [1#8, 2#8, 3#8, 4#8]⟩ ∧
      decodeLine (chars ":04007E000102030474") = .ok ⟨4#8, 0x007E#16, 0x00#8, [1#8, 2#8, 3#8, 4#8]⟩ ∧
      (0x7F80#16 : Addr) ≠ pageBase .flash 0x0080#16 ∧ (0x7F80#16 : Addr) ≠ pageBase .flash 0x007E#16 ∧
      busyBit (lastReply (pageFrames .flash 0x7F80#16 (page .flash)) (openAt 0x7F80#16 (endsBusy 129))) = true) ∧
    (decodeLine (chars ":047F7E0001020304F5") = .ok ⟨4#8, 0x7F7E#16, 0x00#8, [1#8, 2#8, 3#8, 4#8]⟩ ∧
      (0x7F00#16 : Addr) = pageBase .flash 0x7F7E#16 ∧ 128 - (0x7F7E#16).toNat % 128 = 2 ∧
      (openAt 0x7F00#16 []).session.page = .opened 0x7F00#16 (page .flash) ∧
      (flashSession State.reset).session.pageOpen = false ∧
      ∀ old ∈ [page .flash, List.replicate 128 0xFF#8], old.length = 128 ∧
        busyBit (lastReply (pageFrames .flash 0x7F00#16 (crossed old)) (openAt 0x7F00#16 (endsBusy 129))) = true) ∧
    (∀ base pb, (base, pb) ∈ [(0x7F80#16, page .flash), (0x7F00#16, crossed (page .flash)),
        (0x7F00#16, crossed (List.replicate 128 0xFF#8))] → ∀ fs, fs = pageFrames .flash base pb ∨ fs = [] →
      ∀ j, j ∈ [0, 127, 128] →
      let s := openAt base (readsPage fs.length pb j)
      let t := { s with link := (sent fs s).link, record := .written ⟨4#8, 0x007E#16, 0x00#8, [1#8, 2#8, 3#8, 4#8]⟩ }
      busyBit (lastReply fs s) = false ∧ (replies (readFrames .flash base 0 j) t).map (·.b3) = pb.take j ∧
      (j < 128 → (lastReply (readFrames .flash base 0 (j + 1)) t).b3 ≠ pb.getD j 0#8) ∧
      t.wpend = false ∧ t.session.sstate = .active ∧ t.session.region = .flash ∧ pb.length = 128 ∧ base.toNat + 128 ≤ 32768) := by
  have hb : ∀ base pb, (pageFrames .flash base pb).length = 130 →
      busyBit (lastReply (pageFrames .flash base pb) (openAt base (endsBusy 129))) = true := fun base pb h => by
    rw [lastReply_answer (s := openAt base (endsBusy 129)) (rs := endsBusy 129) rfl (by rw [h]; decide +kernel), h]
    decide +kernel
  refine ⟨⟨by decide +kernel, by decide +kernel, by decide, by decide, hb _ _ (by decide +kernel)⟩,
    ⟨by decide +kernel, by decide, by decide, rfl, rfl, fun old ho => ⟨?_, hb _ _ ?_⟩⟩,
    fun base pb h fs _ j hj => ?_⟩
  · simp only [List.mem_cons, List.not_mem_nil, or_false] at ho
    rcases ho with rfl | rfl <;> decide +kernel
  · simp only [List.mem_cons, List.not_mem_nil, or_false] at ho
    rcases ho with rfl | rfl <;> decide +kernel
  · have hl : pb.length = 128 ∧ base.toNat + 128 ≤ 32768 := by
      simp only [List.mem_cons, Prod.mk.injEq, List.not_mem_nil, or_false] at h
      rcases h with ⟨rfl, rfl⟩ | ⟨rfl, rfl⟩ | ⟨rfl, rfl⟩ <;> decide +kernel
    have := flush_answers (fs := fs) (s := openAt base (readsPage fs.length pb j)) (base := base) (pb := pb) (j := j)
      (t := { openAt base (readsPage fs.length pb j) with
        link := (sent fs (openAt base (readsPage fs.length pb j))).link
        record := .written ⟨4#8, 0x007E#16, 0x00#8, [1#8, 2#8, 3#8, 4#8]⟩ })
      (by simp only [List.mem_cons, List.not_mem_nil, or_false] at hj; omega) rfl rfl
    exact ⟨this.1, this.2.1, fun hlt => this.2.2 (by omega), rfl, rfl, rfl, hl⟩

/-- The three bytes of the record at 0x0030. -/
def eeRecord : List Byte := [0x02#8, 0x33#8, 0x7A#8]

/-- A record of three bytes of which all are taken, the second is answered busy, or the second reads back otherwise; records at the end of
EEPROM, of one byte and of none; and a line that waits for the second byte, which then reads back, or not. -/
theorem witness_EepromRecordIsWrittenByteByByte :
    (decodeLine (chars ":0300300002337A1E") = .ok ⟨3#8, 0x0030#16, 0x00#8, eeRecord⟩ ∧
      decodeLine (chars ":0103FF00EE0F") = .ok ⟨1#8, 0x03FF#16, 0x00#8, [0xEE#8]⟩ ∧
      decodeLine (chars ":0003FF00FE") = .ok ⟨0#8, 0x03FF#16, 0x00#8, []⟩) ∧
    EeBytesTaken 0x0030 eeRecord 3
      (eepromSession (answering [r3 0#8, r3 0#8, r3 0x02#8, r3 0#8, r3 0#8, r3 0x33#8, r3 0#8, r3 0#8, r3 0x7A#8])) ∧
    (let u := eepromSession (answering [r3 0#8, r3 0#8, r3 0x02#8, r3 0#8, r3 1#8]);
      EeBytesTaken 0x0030 eeRecord 1 u ∧ busyBit (lastReply (eeFrames 0x0030 eeRecord 1 ++ eeWriteFrames 0x0031 0x33#8) u) = true) ∧
    (let u := eepromSession (answering [r3 0#8, r3 0#8, r3 0x02#8, r3 0#8, r3 0#8, r3 0x00#8]);
      EeBytesTaken 0x0030 eeRecord 1 u ∧
      busyBit (lastReply (eeFrames 0x0030 eeRecord 1 ++ eeWriteFrames 0x0031 0x33#8) u) = false ∧
      (lastReply (eeFrames 0x0030 eeRecord 2) u).b3 ≠ 0x33#8) ∧
    ((0x03FE#16).toNat + 1 + [0x7A#8].length ≤ 1024 ∧
      (lastReply [⟨0xA0#8, 0x03#8, 0xFE#8, 0x00#8⟩] (answering [r3 0x33#8, r3 0#8, r3 0#8, r3 0x7A#8])).b3 = 0x33#8 ∧
      (lastReply [⟨0xA0#8, 0x03#8, 0xFE#8, 0x00#8⟩] (answering [r3 0x00#8])).b3 ≠ 0x33#8) := by
  refine ⟨by decide +kernel, ?_, ⟨?_, ?_⟩, ⟨?_, ?_, ?_⟩, by decide, ?_, ?_⟩
  · show ∀ j, j < 3 → _
    decide +kernel
  · show ∀ j, j < 1 → _
    decide +kernel
  · decide +kernel
  · show ∀ j, j < 1 → _
    decide +kernel
  all_goals decide +kernel

theorem witness_ExtendedAddressIsForwarded :
    decodeLine (chars ":02000004ABCD82") = .ok ⟨2#8, 0#16, 0x04#8, [0xAB#8, 0xCD#8]⟩ ∧
    (known (eepromSession State.reset)).params.eeExtPolicy = .forward ∧
    ({ eepromSession State.reset with params := ⟨[], .ignore⟩ } : State).params.eeExtPolicy = .ignore := by
  refine ⟨by decide +kernel, rfl, rfl⟩

/-- With no page open; with one, busy; and, by the last part of `witness_FlushPrecedesTheNextPage` at base 0x7F80, reading back all of
the page or a first mismatch at 0 and 127, at once and from a waiting state. -/
theorem witness_SessionCompletes :
    decodeLine (chars ":00000001FF") = .ok ⟨0#8, 0#16, 1#8, []⟩ ∧ (flashSession State.reset).session.pageOpen = false ∧
    busyBit (lastReply (pageFrames .flash 0x7F80#16 (page .flash)) (openAt 0x7F80#16 (endsBusy 129))) = true ∧
    (∀ fs, fs = pageFrames .flash 0x7F80#16 (page .flash) ∨ fs = [] → ∀ j, j ∈ [0, 127, 128] →
      let s := openAt 0x7F80#16 (readsPage fs.length (page .flash) j)
      let t := { s with link := (sent fs s).link, record := .written ⟨4#8, 0x007E#16, 0x00#8, [1#8, 2#8, 3#8, 4#8]⟩ }
      busyBit (lastReply fs s) = false ∧
      (replies (readFrames .flash 0x7F80#16 0 j) t).map (·.b3) = (page .flash).take j ∧
      (j < 128 → (lastReply (readFrames .flash 0x7F80#16 0 (j + 1)) t).b3 ≠ (page .flash).getD j 0#8)) :=
  ⟨by decide +kernel, rfl, witness_FlushPrecedesTheNextPage.1.2.2.2.2, fun fs hf j hj =>
    have h := witness_FlushPrecedesTheNextPage.2.2 0x7F80#16 (page .flash) (by simp) fs hf j hj
    ⟨h.1, h.2.1, h.2.2.1⟩⟩

/-- The end-of-file record that ends the session at once, and one whose flush waits (in small); the waiting state that polls on and the
one that ends; a step with no session that is no `PROG_BEGIN`. -/
theorem witness_NothingFollowsTheEndOfFile :
    see (fun s => (s.pending, s.session.sstate)) (exec (.progLine (chars ":00000001FF")) (flashSession State.reset)) =
      some (none, .done) ∧
    see (·.pending) (exec (.progLine (chars ":00000001FF")) (shortPage (answering [r3 0#8, r3 0#8, r3 0#8, r3 1#8]))) =
      some (some (.endFlush 0#16 [0xFF#8, 0xFF#8] true)) ∧
    (let k := Pending.endFlush 0#16 [0xFF#8, 0xFF#8] true;
      see (·.pending) (step { flashSession (answering [r3 1#8]) with pending := some k }) = some (some k) ∧
      see (fun s => (s.pending, s.session.sstate))
        (step { flashSession (answering [r3 0#8, r3 0xFF#8, r3 0xFF#8]) with pending := some k }) = some (none, .done) ∧
      see (fun s => (s.pending, s.session.sstate))
        (step { flashSession (answering [r3 0#8, r3 0xFF#8, r3 0#8]) with pending := some k }) = some (none, .aborted)) ∧
    (nextWork { State.reset with inbox := [[0x02#8]] } = .run .rstAssert [] ∧
      see (·.session.sstate) (step { State.reset with inbox := [[0x02#8]] }) = some .none) := by decide +kernel

/-- For `StatusByteIsLastError`, `OnlySessionOperationsWriteTheSession` and `ProtocolStateWriters`. -/
theorem witness_OperationsThatReturn :
    see (·.pending) (exec .status State.reset) = some none ∧
    see (·.pending) (exec .pollReady (answering [r3 1#8])) = some (some .plain) ∧
    see (·.pending) (step (waitingFor 0#8)) = some none ∧ see (·.pending) (step (waitingFor 1#8)) = some (some .plain) := by
  decide +kernel

theorem witness_StepKeepsMachineInv :
    MachineInv { openAt 0x7F80#16 [] with inbox := [[0x50#8]] } ∧
    see (·.lastError) (step { openAt 0x7F80#16 [] with inbox := [[0x50#8]] }) = some 0#8 := by
  refine ⟨⟨⟨fun _ => ⟨⟨rfl, rfl, rfl⟩, _, _, rfl, ?_, ?_, ?_⟩, fun _ _ _ => rfl, fun k hk => ?_, ?_⟩, ?_, ?_, ?_⟩, ?_⟩
  rotate_right
  · decide +kernel
  · decide
  · decide
  · decide +kernel
  · exact nomatch (show (none : Option Pending) = some k from hk)
  · decide
  · refine ⟨?_, ?_, ?_, ?_⟩ <;> decide
  · intro r hr; exact absurd hr (by simp [openAt, flashSession, answering, scripted, State.reset])
  · exact ⟨Memory.wfIn_nil _, Memory.wfIn_nil _⟩

/-- A reference target that stays busy for one poll, with the page at 0x7F80 erased. -/
def pageTarget : Target := { readyTarget with nextBusy := some 1, erasedOnce := true, committed := [0] }

/-- For `TargetAnswersReads`, `TargetEepromWriteVerifies`, `TargetFlashPageWrite`, `StoresNothing` and `StoresWhere`. -/
theorem witness_Target :
    TargetReady (facing pageTarget) ∧ MemInv (facing pageTarget) ∧ (facing pageTarget).wpend = false ∧
    (facing pageTarget).link.env.target.nextBusy = some 1 ∧ (facing pageTarget).link.env.target.pageErased 255 = true ∧
    (facing pageTarget).link.env.target.fusePending = false ∧
    (TargetEnabled (facing rewrittenTarget) ∧ (facing rewrittenTarget).wpend = false ∧
      (facing rewrittenTarget).link.env.target.altered = true ∧ (facing rewrittenTarget).link.env.target.locked = false ∧
      (facing rewrittenTarget).link.env.target.fusePending = false) :=
  ⟨⟨⟨rfl, rfl, rfl, rfl⟩, rfl, rfl⟩, ⟨Memory.wfIn_nil _, Memory.wfIn_nil _⟩, rfl, rfl, by decide, rfl, ⟨rfl, rfl, rfl, rfl⟩, rfl, rfl,
    rfl, rfl⟩

theorem witness_TargetSynchronises :
    let s := facing { Target.atPowerUp with nextSync := true }
    s.wpend = false ∧ s.link.env.kind = .reference ∧ s.link.env.target.busy = some 0 ∧ s.link.rst ≠ .low ∧
    s.link.env.target.nextSync = true ∧ s.link.env.target.mode = .running ∧ ({ s with link := { s.link with rst := .low } } : State).link.rst = .low := by
  refine ⟨rfl, rfl, rfl, ?_, rfl, rfl, rfl⟩
  decide

/-- R74, R77: what `StoresWhere` and `StoresNothing` say of, in small. -/
theorem witness_Stores :
    see (fun s => (eepromAt s 5, eepromAt s 6, s.pending)) (exec (.writeEeprom 0x00#8 0x05#8 0xA5#8) (facing readyTarget)) =
      some (0xA5#8, 0xFF#8, none) ∧
    see (fun s => flashAt s 0) (exec (.loadFlashHi 0x3F#8 0x12#8) (facing readyTarget)) = some 0xFF#8 ∧
    see (fun s => (fuseAt s .high, fuseAt s .low)) (exec (.wrFuse .high 0xD9#8) (facing readyTarget)) =
      some (⟨0xFF#8, 0xD9#8⟩, ⟨0xFF#8, 0xFF#8⟩) ∧
    (let t := { pageTarget with eeBuf := [(0, 1#8), (1, 2#8), (2, 3#8), (3, 4#8)], flashBuf := (List.range 128).map (·, 0x12#8) };
      t.eeLoaded = true ∧ t.pageErased 255 = true ∧ (addrOf 0x3F#8 0xC0#8).toNat / 64 = 255 ∧ TargetReady (facing t) ∧
      see (fun s => (eepromAt s 1022, eepromAt s 1019)) (exec (.writeEepromPage 0x03#8 0xFF#8) (facing t)) = some (3#8, 0xFF#8) ∧
      see (fun s => flashAt s 32767) (exec (.writeFlashPage 0x3F#8 0xC0#8) (facing t)) = some 0x12#8) := by
  refine ⟨?_, ?_, ?_, ?_, ?_, ?_, ⟨⟨rfl, rfl, rfl, rfl⟩, rfl, rfl⟩, ?_, ?_⟩ <;> decide +kernel

end Sys2Proof.Machine.Tests
end

/-! ### The step: the host's messages, and operations that wait (spec/00_scope.md R13, spec/10_state.md R42) -/

namespace Sys2Proof.Machine

/-- With nothing waiting, the first message of the queue is the one that is run (R13, R94). -/
theorem step_runs {s : State} {msg : List Byte} {rest : List (List Byte)} {i : Instr} (hp : s.pending = none)
    (hm : s.inbox = msg :: rest) (hd : decode msg = .ok i) : step s = exec i { s with inbox := rest } := by
  simp only [step, nextWork, hp, hm, hd]

/-- With nothing waiting and no message the sequencer idles (R310). -/
theorem step_idles {s : State} (hp : s.pending = none) (hm : s.inbox = []) : step s = .next s := by
  simp only [step, nextWork, hp, hm]

/-- A table word stands for an instruction exactly when its message decodes to it (log 12). -/
theorem decodeTableWord_eq_some {nbits w : Nat} {i : Instr} :
    decodeTableWord nbits w = some i ↔ decode (layoutTableWord nbits w) = .ok i := by
  cases h : decode (layoutTableWord nbits w) <;> simp [decodeTableWord, h]

theorem run_succ_of_next {s t : State} (h : step s = .next t) (n : Nat) : run (n + 1) s = run n t := by
  simp only [run, h]

theorem run_one (s : State) : run 1 s = step s := by
  cases h : step s <;> simp only [run, h]

/-- `s` after a ready poll that read busy and its wait (R135). -/
def State.polledBusy (s : State) : State := { s with link := s.link.polled 1, busy := true }

/-- The step of a waiting operation whose poll reads busy, from the count of polls (R135). -/
theorem step_polledBusy {s : State} {k : Pending} (hp : s.pending = some k) (hb : busyBit (pollReply 0 s) = true) :
    step s = .next s.polledBusy :=
  step_waits s k hp hb

@[simp] theorem State.polledBusy_pending (s : State) : s.polledBusy.pending = s.pending := rfl

theorem State.polledBusy_link_polled (s : State) (n : Nat) : s.polledBusy.link.polled n = s.link.polled (n + 1) :=
  Link.polled_succ n s.link

/-- The polls after a busy one are those the first state counts from its second on (R135). -/
theorem ReadyAfter.of_succ {n : Nat} {s : State} (h : ReadyAfter (n + 1) s) : ReadyAfter n s.polledBusy := by
  obtain ⟨hready, hbusy⟩ := h
  have hreply (j : Nat) : pollReply j s.polledBusy = pollReply (j + 1) s := pollReply_succ j s
  refine ⟨?_, fun j hj => ?_⟩
  · rw [hreply]; exact hready
  · rw [hreply]; exact hbusy (j + 1) (by omega)

/-- Settles O5: the queue's first message, and a placed table word, which is the first message by construction. -/
theorem stepRunsDecodedInstruction : Obligations.StepRunsDecodedInstruction := by
  refine ⟨fun s msg rest i hp hm hd => step_runs hp hm hd, fun s nbits w i hw => ?_⟩
  exact step_runs (s := s.withFetchWord nbits w) rfl rfl (decodeTableWord_eq_some.mp hw)

/-- Settles O6: the two kinds of poll are the rules of a waiting operation's step. -/
theorem stepWaitsAndIdles : Obligations.StepWaitsAndIdles :=
  ⟨fun _ => step_idles, step_waits, step_goes_on⟩

/-- Settles O19, by induction on the number of polls that read busy: each is one step to `polledBusy`. -/
theorem waitingOperationGoesOn : Obligations.WaitingOperationGoesOn := by
  intro s k n hp hr
  induction n generalizing s with
  | zero =>
    obtain ⟨hready, -⟩ := hr
    rw [run_one, step_goes_on s k hp hready]
    rfl
  | succ n ih =>
    rw [run_succ_of_next (step_polledBusy hp (hr.2 0 n.succ_pos)), ih _ (s.polledBusy_pending.trans hp) hr.of_succ,
      State.polledBusy_link_polled]
    rfl

end Sys2Proof.Machine

/-! ### What the target presents is what is received (spec/00_scope.md R20, spec/20_memory.md R57) -/

namespace Sys2Proof.Machine

/-- `XFER` with no write cycle pending is the exchange of one byte (R111). -/
theorem exec_xfer_eq (tx : Byte) {s : State} (hw : s.wpend = false) :
    exec (.xfer tx) s =
      .next (State.returned [(s.link.xfer tx).1] { s with link := (s.link.xfer tx).2 }) := by
  show execXfer tx s = _
  rw [execXfer, guarded_ok _ _ _ hw (by simp [HazardKind.isFuseWrite])]
  rfl

/-- A sequence of frames receives the replies a target presents (R20, R57). -/
theorem Link.exchange_presented (fs rs : List IspFrame) (l : Link) (hlen : rs.length = fs.length)
    (hp : Presents l (rs.flatMap replyBits)) : (l.exchange fs).1 = rs := by
  induction fs generalizing rs l with
  | nil => exact (List.length_eq_zero_iff.mp hlen).symm
  | cons f fs ih =>
    obtain ⟨r, rs, rfl⟩ := List.exists_cons_of_length_eq_add_one hlen
    obtain ⟨hk, more, hm⟩ := hp
    have hf := Link.frame_presented f r (rs.flatMap replyBits ++ more) l hk (by simpa using hm)
    rw [Link.exchange_cons, hf]
    exact congrArg (r :: ·) (ih rs _ (by simpa using hlen) ⟨hk, more, rfl⟩)

/-- Settles O10: one byte and one frame receive what is presented; a sequence by induction on its frames. -/
theorem everyAnswerIsReceived : Obligations.EveryAnswerIsReceived := by
  refine ⟨fun tx rx s hw hp => ?_, Link.exchange_presented⟩
  obtain ⟨hk, more, hm⟩ := hp
  have hx := Link.xfer_presented tx rx more s.link hk hm
  refine ⟨_, exec_xfer_eq tx hw, ?_, ?_, ?_⟩
  · simp [hx, okCode]
  · simp [hx, Link.afterXfer]
  · simp [hx, trace, Link.afterXfer]

end Sys2Proof.Machine

/-! ### How a host operation ends (spec/30_encoding.md R92, spec/60_exceptions.md R280, spec/41_isp_protocol.md R135) -/

namespace Sys2Proof.Machine

theorem NextIn.mono {o : Out} {P Q : State → Prop} (h : NextIn o P) (hPQ : ∀ t, P t → Q t) : NextIn o Q := by
  cases o with
  | next t => exact hPQ t h
  | fault f => trivial
  | refused r => trivial

theorem NextIn.of_next {o : Out} {P : State → Prop} {t : State} (h : NextIn o P) (ho : o = .next t) : P t := by
  subst ho; exact h

/-- The state an operation ends in, once it has come to a state in `R`: it returns (R92), it ends in an error (R280), or a poll read
busy and it waits with something in `K` left to do (R135; log 6). -/
inductive Concludes (R : State → Prop) (K : Pending → Prop) : State → Prop where
  | returned {u : State} (result : List Byte) : R u → Concludes R K (u.returned result)
  | raised {u : State} {e : Err} (extra : List Byte) : R u → e ≠ .resourceError → Concludes R K (u.raised e extra)
  | waiting {u : State} {k : Pending} : R u → u.busy = true → K k → Concludes R K (u.waiting k)

theorem Concludes.mono {R R' : State → Prop} {K K' : Pending → Prop} {t : State} (h : Concludes R K t)
    (hR : ∀ u, R u → R' u) (hK : ∀ k, K k → K' k) : Concludes R' K' t := by
  cases h with
  | returned result hu => exact .returned result (hR _ hu)
  | raised extra hu he => exact .raised extra (hR _ hu) he
  | waiting hu hb hk => exact .waiting (hR _ hu) hb (hK _ hk)

/-- An end writes `LAST_ERROR`, the result and what waits, besides the link. -/
theorem Concludes.exists_before {R : State → Prop} {K : Pending → Prop} {t : State} (h : Concludes R K t) :
    ∃ u, R u ∧ t.params = u.params ∧ t.inbox = u.inbox ∧ t.sig = u.sig ∧ t.record = u.record ∧ t.session = u.session := by
  cases h with
  | returned result hu => exact ⟨_, hu, rfl, rfl, rfl, rfl, rfl⟩
  | raised extra hu he => exact ⟨_, hu, rfl, rfl, rfl, rfl, rfl⟩
  | waiting hu hb hk => exact ⟨_, hu, rfl, rfl, rfl, rfl, rfl⟩

/-- One turn of the poll loop (R135), from a relation the poll keeps. -/
theorem pollThen_concludes {R : State → Prop} {K : Pending → Prop} {k : Pending} {next : State → Out} {s : State}
    (hs : R s.poll) (hk : K k) (hn : NextIn (next s.poll) (Concludes R K)) : NextIn (pollThen k next s) (Concludes R K) := by
  unfold pollThen
  dsimp only
  split
  · next hbusy => exact .waiting hs hbusy hk
  · exact hn

/-- The start of an operation that polls (R153 to R159): an error ends it, a value goes on. -/
def Res.orRaise {α : Type} (r : Res α) (next : α → State → Out) : Out :=
  match r with
  | .ok a s => next a s
  | .err e s => raise e [] s
  | .fault f => .fault f

theorem execWrEebyte_eq (a : Addr) (v : Byte) (verify : Bool) (s : State) :
    execWrEebyte a v verify s = (startEeByte a v s).orRaise fun _ => pollThen (.eeByte a v verify) (eeByteDone a v verify) := by
  unfold execWrEebyte Res.orRaise; cases startEeByte a v s <;> rfl

theorem writePage_eq (region : Region) (a : Addr) (verify : Bool) (buf : List Byte) (s : State) :
    writePage region a verify buf s =
      if buf.length = pageSize region then
        (startPage region a buf s).orRaise fun base => pollThen (.page region base buf verify) (pageDone region base buf verify)
      else refuseBadOp s := by
  unfold writePage Res.orRaise; cases startPage region a buf s <;> rfl

theorem execErase_eq (s : State) : execErase s = (startErase s).orRaise fun _ => pollThen .plain (finishOk []) := by
  unfold execErase Res.orRaise; cases startErase s <;> rfl

theorem execWrFuse_eq (k : FuseKind) (v : Byte) (s : State) :
    execWrFuse k v s = (startFuse k v s).orRaise fun _ => pollThen .plain (finishOk []) := by
  unfold execWrFuse Res.orRaise; cases startFuse k v s <;> rfl

/-! ### Inner operations: what they leave unwritten (R26, R46) -/

/-- Whatever the inner operation answers, `SIG` is `g` then. -/
def Res.KeepsSig {α : Type} (r : Res α) (g : Reg Signature) : Prop := r.Ends (fun _ t => t.sig = g) (fun _ t => t.sig = g)

theorem Res.KeepsSig.bind {α β : Type} {r : Res α} {next : α → State → Res β} {g : Reg Signature} (h : r.KeepsSig g)
    (hn : ∀ a t, t.sig = g → (next a t).KeepsSig g) : (r.bind next).KeepsSig g :=
  Res.Ends.bind h hn fun _ _ ht => ht

theorem rdByte_keepsSig (region : Region) (a : Addr) (s : State) : (rdByte region a s).KeepsSig s.sig := by
  unfold rdByte
  split
  · exact (rfl : s.sig = s.sig)
  · exact guarded_ends (State.frame_snd_sig _ s)

theorem startEeByte_keepsSig (a : Addr) (v : Byte) (s : State) : (startEeByte a v s).KeepsSig s.sig := by
  unfold startEeByte
  split
  · exact (rfl : s.sig = s.sig)
  · exact guarded_ends (State.commit_sig _ s)

theorem startPage_keepsSig (region : Region) (a : Addr) (buf : List Byte) (s : State) : (startPage region a buf s).KeepsSig s.sig := by
  unfold startPage
  split
  · exact (rfl : s.sig = s.sig)
  · exact guarded_ends (State.commit_sig _ _)

theorem verifyEeByte_keepsSig (a : Addr) (v : Byte) (s : State) : (verifyEeByte a v s).KeepsSig s.sig := by
  refine (rdByte_keepsSig .eeprom a s).bind fun rb t ht => ?_
  split <;> exact ht

theorem verifyFrom_keepsSig (region : Region) (base : Addr) (buf : List Byte) (j : Nat) (s : State) :
    (verifyFrom region base j buf s).KeepsSig s.sig := by
  induction buf generalizing j s with
  | nil => exact (rfl : s.sig = s.sig)
  | cons v buf ih =>
    refine (rdByte_keepsSig region _ s).bind fun rb t ht => ?_
    split
    · exact ht ▸ ih (j + 1) t
    · exact ht

theorem syncLoop_keepsSig (n : Nat) (s : State) : (syncLoop n s).KeepsSig s.sig := by
  induction n generalizing s with
  | zero => exact (rfl : s.sig = s.sig)
  | succ n ih =>
    rw [syncLoop_succ n s rfl]
    split
    · exact (rfl : s.sig = s.sig)
    · split
      · exact (rfl : s.sig = s.sig)
      · exact ih _

/-- `t` is `s` but for the link and the flags of the protocol: what an inner operation may write, the signature gate apart. -/
structure Exchanged (s t : State) : Prop extends Inner s t where
  sig : t.sig = s.sig

theorem Exchanged.refl (s : State) : Exchanged s s := ⟨.refl s, rfl⟩

theorem Exchanged.trans {s t u : State} (h : Exchanged s t) (g : Exchanged t u) : Exchanged s u :=
  ⟨h.toInner.trans g.toInner, g.sig.trans h.sig⟩

theorem Exchanged.poll {s t : State} (h : Exchanged s t) : Exchanged s t.poll := h.trans ⟨inner_poll t, rfl⟩

/-- The inner operation writes the link and the flags of the protocol alone, and raises no `ResourceError`. -/
def Res.Exchanges {α : Type} (r : Res α) (s : State) : Prop :=
  r.Ends (fun _ => Exchanged s) (fun e t => e ≠ .resourceError ∧ Exchanged s t)

theorem Res.KeepsSig.exchanges {α : Type} {r : Res α} {s : State} (h : r.KeepsSig s.sig) (g : r.Ends (fun _ => Inner s) (InnerErr s)) :
    r.Exchanges s := by
  cases r with
  | ok a t => exact ⟨g, h⟩
  | err e t => exact ⟨g.1, g.2, h⟩
  | fault f => trivial

theorem rdByte_exchanges (region : Region) (a : Addr) (s : State) : (rdByte region a s).Exchanges s :=
  (rdByte_keepsSig region a s).exchanges (rdByte_ends region a s)

theorem readReply_exchanges (f : IspFrame) (s : State) : (readReply f s).Exchanges s := guarded_ends ⟨inner_frame f s, rfl⟩

theorem setExt_exchanges (v : Byte) (s : State) : (setExt v s).Exchanges s := guarded_ends ⟨inner_send _ s, rfl⟩

theorem issueFrame_exchanges (f : IspFrame) (s : State) : (issueFrame f s).Exchanges s :=
  Res.KeepsSig.exchanges (guarded_ends (by unfold noteFrame; dsimp only; split <;> rfl)) (issueFrame_ends f s)

theorem startEeByte_exchanges (a : Addr) (v : Byte) (s : State) : (startEeByte a v s).Exchanges s :=
  (startEeByte_keepsSig a v s).exchanges (startEeByte_ends a v s)

theorem verifyEeByte_exchanges (a : Addr) (v : Byte) (s : State) : (verifyEeByte a v s).Exchanges s :=
  (verifyEeByte_keepsSig a v s).exchanges (verifyEeByte_ends a v s)

theorem verifyPage_exchanges (region : Region) (base : Addr) (buf : List Byte) (s : State) : (verifyPage region base buf s).Exchanges s :=
  (verifyFrom_keepsSig region base buf 0 s).exchanges (verifyPage_ends region base buf s)

theorem startPage_exchanges (region : Region) (a : Addr) (buf : List Byte) (s : State) : (startPage region a buf s).Exchanges s :=
  (startPage_keepsSig region a buf s).exchanges ((startPage_ends region a buf s).mono (fun _ _ h => h.1) fun _ _ h => h)

theorem startErase_exchanges (s : State) : (startErase s).Exchanges s := guarded_ends ⟨inner_commit _ s, rfl⟩

theorem startFuse_exchanges (k : FuseKind) (v : Byte) (s : State) : (startFuse k v s).Exchanges s :=
  Res.KeepsSig.exchanges (guarded_ends rfl) (startFuse_ends k v s)

theorem linkRelease_exchanges (s : State) : (linkRelease s).Exchanges s :=
  Res.KeepsSig.exchanges (guarded_ends rfl) (linkRelease_ends s)

theorem pgmEnter_exchanges (s : State) : (pgmEnter s).Exchanges s :=
  Res.KeepsSig.exchanges (guarded_ends (syncLoop_keepsSig _ _)) (pgmEnter_ends s)

end Sys2Proof.Machine

/-! ### Operations outside the sessions (spec/40_bitlink.md to spec/43_hex_codec.md) -/

namespace Sys2Proof.Machine

/-- The operation is no operation of a session and not `HEX_DECODE`: of the block it writes what the link and the protocol hold. -/
def isLinkOp : Instr → Bool
  | .hexDecode _ => false
  | .progBeginFlash => false
  | .progBeginEeprom => false
  | .progLine _ => false
  | .progFinish => false
  | _ => true

/-- An instruction is one of the five that are no link operation, or a link operation. -/
theorem instr_cases {P : Instr → Prop} (linkOp : ∀ i, isLinkOp i = true → P i) (hexDecode : ∀ text, P (.hexDecode text))
    (progBeginFlash : P .progBeginFlash) (progBeginEeprom : P .progBeginEeprom) (progLine : ∀ text, P (.progLine text))
    (progFinish : P .progFinish) (i : Instr) : P i := by
  cases i with
  | hexDecode text => exact hexDecode text
  | progBeginFlash => exact progBeginFlash
  | progBeginEeprom => exact progBeginEeprom
  | progLine text => exact progLine text
  | progFinish => exact progFinish
  | _ => exact linkOp _ rfl

/-- What a link operation can wait with (R135, R153 to R159). -/
def Pending.isLinkOp : Pending → Bool
  | .plain => true
  | .eeByte _ _ _ => true
  | .page _ _ _ _ => true
  | _ => false

/-- An end of a link operation begun in `s`. -/
def LinkOpEnd (s : State) : State → Prop := Concludes (Exchanged s) (·.isLinkOp = true)

theorem Exchanged.returned {s t : State} (h : Exchanged s t) (result : List Byte) : NextIn (finishOk result t) (LinkOpEnd s) :=
  Concludes.returned result h

theorem Res.Exchanges.finish {α : Type} {r : Res α} {s t : State} (h : r.Exchanges t) (hst : Exchanged s t)
    (result : α → List Byte) : NextIn (r.finish result) (LinkOpEnd s) :=
  Res.Ends.finish h (fun _ _ hu => .returned _ (hst.trans hu)) fun _ _ hu => .raised _ (hst.trans hu.2) hu.1

theorem refuseBadOp_linkOpEnd (s : State) : NextIn (refuseBadOp s) (LinkOpEnd s) := Concludes.raised _ (.refl s) (by decide)

theorem pollThen_linkOpEnd {s t : State} {k : Pending} {next : State → Out} (h : Exchanged s t) (hk : k.isLinkOp = true)
    (hn : ∀ u, Exchanged s u → NextIn (next u) (LinkOpEnd s)) : NextIn (pollThen k next t) (LinkOpEnd s) :=
  pollThen_concludes h.poll hk (hn _ h.poll)

theorem Res.Exchanges.orRaise {α : Type} {r : Res α} {s : State} {next : α → State → Out} (h : r.Exchanges s)
    (hn : ∀ a t, Exchanged s t → NextIn (next a t) (LinkOpEnd s)) : NextIn (r.orRaise next) (LinkOpEnd s) := by
  cases r with
  | ok a t => exact hn a t h
  | err e t => exact Concludes.raised _ h.2 h.1
  | fault f => trivial

theorem eeByteDone_linkOpEnd {s t : State} (h : Exchanged s t) (a : Addr) (v : Byte) (verify : Bool) :
    NextIn (eeByteDone a v verify t) (LinkOpEnd s) := by
  unfold eeByteDone
  split
  · exact (verifyEeByte_exchanges a v t).finish h _
  · exact h.returned _

theorem pageDone_linkOpEnd {s t : State} (h : Exchanged s t) (region : Region) (base : Addr) (buf : List Byte) (verify : Bool) :
    NextIn (pageDone region base buf verify t) (LinkOpEnd s) := by
  unfold pageDone
  split
  · exact (verifyPage_exchanges region base buf t).finish h _
  · exact h.returned _

theorem writePage_linkOpEnd (region : Region) (a : Addr) (verify : Bool) (buf : List Byte) (s : State) :
    NextIn (writePage region a verify buf s) (LinkOpEnd s) := by
  rw [writePage_eq]
  split
  · exact (startPage_exchanges region a buf s).orRaise fun base _ ht =>
      pollThen_linkOpEnd ht rfl fun _ hu => pageDone_linkOpEnd hu region base buf verify
  · exact refuseBadOp_linkOpEnd s

theorem sendFrame_linkOpEnd (f : IspFrame) (s : State) : NextIn (sendFrame f s) (LinkOpEnd s) :=
  (issueFrame_exchanges f s).finish (.refl s) _

theorem execXfer_linkOpEnd (tx : Byte) (s : State) : NextIn (execXfer tx s) (LinkOpEnd s) := by
  refine Res.Exchanges.finish (guarded_ends ?_) (.refl s) _
  exact ⟨.of_link s fun h => Link.ok_xfer h tx, rfl⟩

theorem execRstAssert_linkOpEnd (s : State) : NextIn (execRstAssert s) (LinkOpEnd s) := by
  refine Res.Exchanges.finish (guarded_ends ?_) (.refl s) _
  exact ⟨.of_link s fun h => ⟨h.1, Link.memWf_driveRst h.2 .low⟩, rfl⟩

/-- A drive of the reset line that leaves `PSTATE` Idle (R115, R116, D46). -/
theorem Exchanged.idle (s : State) {l : Link} (h : s.link.Ok → l.Ok) : Exchanged s { s with link := l, pstate := .idle } :=
  ⟨⟨h, rfl, fun _ => by simp, id, rfl, rfl, rfl, rfl, rfl, rfl⟩, rfl⟩

theorem execRstRelease_linkOpEnd (s : State) : NextIn (execRstRelease s) (LinkOpEnd s) := by
  refine Res.Exchanges.finish (guarded_ends ?_) (.refl s) _
  exact .idle s fun h => ⟨h.1, Link.memWf_driveRst h.2 .high⟩

theorem execRstPulse_linkOpEnd (s : State) : NextIn (execRstPulse s) (LinkOpEnd s) := by
  refine Res.Exchanges.finish (guarded_ends ?_) (.refl s) _
  exact .idle s Link.ok_resetPulse

theorem execWrEebyte_linkOpEnd (a : Addr) (v : Byte) (verify : Bool) (s : State) :
    NextIn (execWrEebyte a v verify s) (LinkOpEnd s) := by
  rw [execWrEebyte_eq]
  exact (startEeByte_exchanges a v s).orRaise fun _ _ ht =>
    pollThen_linkOpEnd ht rfl fun _ hu => eeByteDone_linkOpEnd hu a v verify

theorem execErase_linkOpEnd (s : State) : NextIn (execErase s) (LinkOpEnd s) := by
  rw [execErase_eq]
  exact (startErase_exchanges s).orRaise fun _ _ ht => pollThen_linkOpEnd ht rfl fun _ hu => hu.returned _

theorem execWrFuse_linkOpEnd (k : FuseKind) (v : Byte) (s : State) : NextIn (execWrFuse k v s) (LinkOpEnd s) := by
  rw [execWrFuse_eq]
  exact (startFuse_exchanges k v s).orRaise fun _ _ ht => pollThen_linkOpEnd ht rfl fun _ hu => hu.returned _

theorem execRdSig_linkOpEnd (i : Byte) (s : State) : NextIn (execRdSig i s) (LinkOpEnd s) := by
  unfold execRdSig
  split
  · exact (readReply_exchanges _ s).finish (.refl s) _
  · exact refuseBadOp_linkOpEnd s

theorem execHexEncData_linkOpEnd (a : Addr) (bytes : List Byte) (s : State) : NextIn (execHexEncData a bytes s) (LinkOpEnd s) := by
  unfold execHexEncData
  split
  · split
    · exact Concludes.raised _ (.refl s) (by decide)
    · exact (Exchanged.refl s).returned _
  · exact refuseBadOp_linkOpEnd s

/-- A link operation writes the link, the flags of the protocol and its result. -/
theorem exec_linkOpEnd {i : Instr} (hi : isLinkOp i = true) (s : State) : NextIn (exec i s) (LinkOpEnd s) := by
  cases i
  case hexDecode | progBeginFlash | progBeginEeprom | progLine | progFinish => cases hi
  case progEnable | chipErase | pollRdy | readSig | readFuseLo | readFuseHi | readFuseExt | readLock | writeFuseLo | writeFuseHi |
      writeFuseExt | writeLock | readEeprom | writeEeprom | loadEepromPage | writeEepromPage | readFlashLo | readFlashHi |
      loadFlashLo | loadFlashHi | writeFlashPage | loadExtAddr | cmd => exact sendFrame_linkOpEnd _ s
  case xfer tx => exact execXfer_linkOpEnd tx s
  case rstAssert => exact execRstAssert_linkOpEnd s
  case rstRelease => exact execRstRelease_linkOpEnd s
  case rstPulse => exact execRstPulse_linkOpEnd s
  case linkRelease => exact (linkRelease_exchanges s).finish (.refl s) _
  case pgmEnter => exact (pgmEnter_exchanges s).finish (.refl s) _
  case pollReady => exact pollThen_linkOpEnd (.refl s) rfl fun _ hu => hu.returned _
  case rdByteFlash a => exact (rdByte_exchanges .flash a s).finish (.refl s) _
  case rdByteEeprom a => exact (rdByte_exchanges .eeprom a s).finish (.refl s) _
  case wrEebyte a v verify => exact execWrEebyte_linkOpEnd a v verify s
  case wrPageFlash a verify buf => exact writePage_linkOpEnd .flash a verify buf s
  case wrPageEeprom a verify buf => exact writePage_linkOpEnd .eeprom a verify buf s
  case erase => exact execErase_linkOpEnd s
  case rdFuse k => exact (readReply_exchanges _ s).finish (.refl s) _
  case wrFuse k v => exact execWrFuse_linkOpEnd k v s
  case rdSig i => exact execRdSig_linkOpEnd i s
  case setExt v => exact (setExt_exchanges v s).finish (.refl s) _
  case hexEncData a bytes => exact execHexEncData_linkOpEnd a bytes s
  case hexEncEnd => exact (Exchanged.refl s).returned _
  case status => exact (Exchanged.refl s).returned _

/-- So does a link operation that goes on (R135). -/
theorem resume_linkOpEnd {k : Pending} (hk : k.isLinkOp = true) (s : State) : NextIn (resume k s) (LinkOpEnd s) := by
  refine pollThen_linkOpEnd (.refl s) hk fun t ht => ?_
  cases k with
  | plain => exact ht.returned _
  | eeByte a v verify => exact eeByteDone_linkOpEnd ht a v verify
  | page region base buf verify => exact pageDone_linkOpEnd ht region base buf verify
  | beginErase | lineFlush | endFlush | lineEeByte => cases hk

end Sys2Proof.Machine

/-! ### Operations of a session (spec/44_write_controller.md R230) -/

namespace Sys2Proof.Machine

/-- `t` holds the parameters and the host's queue, which no operation writes, and the result of the operation before, which only an end
writes, as `s` does. -/
structure Unreturned (s t : State) : Prop where
  params : t.params = s.params
  inbox : t.inbox = s.inbox
  response : t.response = s.response
  lastError : t.lastError = s.lastError

/-- `t` holds `SIG` and `REC` as `s` does, too: what a session does after its start and the decoding of a line. -/
structure Kept (s t : State) : Prop extends Unreturned s t where
  sig : t.sig = s.sig
  record : t.record = s.record

theorem Unreturned.trans {s t u : State} (h : Unreturned s t) (g : Unreturned t u) : Unreturned s u :=
  ⟨g.params.trans h.params, g.inbox.trans h.inbox, g.response.trans h.response, g.lastError.trans h.lastError⟩

theorem Kept.refl (s : State) : Kept s s := ⟨⟨rfl, rfl, rfl, rfl⟩, rfl, rfl⟩

theorem Kept.exchanged {s t u : State} (h : Kept s t) (g : Exchanged t u) : Kept s u :=
  ⟨h.toUnreturned.trans ⟨g.params, g.inbox, g.response, g.lastError⟩, g.sig.trans h.sig, g.record.trans h.record⟩

theorem Kept.setSession {s t : State} (h : Kept s t) (x : Session) : Kept s { t with session := x } :=
  ⟨⟨h.params, h.inbox, h.response, h.lastError⟩, h.sig, h.record⟩

theorem Kept.mergeByte {s t : State} (h : Kept s t) (a : Addr) (v : Byte) : Kept s (mergeByte a v t) := by
  unfold Machine.mergeByte
  split
  · exact h.setSession _
  · exact h

/-- An end of a session step begun in `s`. -/
def SessionEnd (s : State) : State → Prop := Concludes (Kept s) fun _ => True

theorem Kept.returned {s t : State} (h : Kept s t) (result : List Byte) : NextIn (finishOk result t) (SessionEnd s) :=
  Concludes.returned result h

/-- The rest of a link operation keeps what a session step must. -/
theorem NextIn.linkOpEnd_sessionEnd {o : Out} {s t : State} (h : NextIn o (LinkOpEnd t)) (hst : Kept s t) :
    NextIn o (SessionEnd s) :=
  h.mono fun _ hu => hu.mono (fun _ => hst.exchanged) fun _ _ => trivial

theorem pollThen_sessionEnd {s t : State} {k : Pending} {next : State → Out} (h : Kept s t)
    (hn : ∀ u, Kept s u → NextIn (next u) (SessionEnd s)) : NextIn (pollThen k next t) (SessionEnd s) :=
  have hp := h.exchanged (Exchanged.refl t).poll
  pollThen_concludes hp trivial (hn _ hp)

theorem abort_sessionEnd {s t : State} (h : Kept s t) {e : Err} (he : e ≠ .resourceError) (inLine : Bool) :
    NextIn (abort e inLine t) (SessionEnd s) := by
  unfold abort
  dsimp only
  have hl := linkRelease_exchanges { t with session := { t.session with page := t.session.page.close, sstate := .aborted } }
  split
  · next heq => rw [heq] at hl; exact Concludes.raised _ ((h.setSession _).exchanged hl) he
  · next heq => rw [heq] at hl; exact Concludes.raised _ ((h.setSession _).exchanged hl.2) hl.1
  · trivial

theorem complete_sessionEnd {s t : State} (h : Kept s t) : NextIn (complete t) (SessionEnd s) :=
  Res.Ends.finish (linkRelease_exchanges { t with session := { t.session with sstate := .done } })
    (fun _ _ hu => .returned _ ((h.setSession _).exchanged hu)) fun _ _ hu => .raised _ ((h.setSession _).exchanged hu.2) hu.1

theorem Res.Exchanges.orAbort {α : Type} {r : Res α} {s t : State} {inLine : Bool} {next : α → State → Out} (hr : r.Exchanges t)
    (h : Kept s t) (hn : ∀ a u, Kept s u → NextIn (next a u) (SessionEnd s)) : NextIn (r.orAbort inLine next) (SessionEnd s) := by
  cases r with
  | ok a u => exact hn a u (h.exchanged hr)
  | err e u => exact abort_sessionEnd (h.exchanged hr.2) hr.1 inLine
  | fault f => trivial

theorem flushDone_sessionEnd {s t : State} {base : Addr} {pb : List Byte} {inLine : Bool} {next : State → Out} (h : Kept s t)
    (hn : ∀ u, Kept s u → NextIn (next u) (SessionEnd s)) : NextIn (flushDone base pb inLine next t) (SessionEnd s) :=
  (verifyPage_exchanges .flash base pb t).orAbort h fun _ => hn

theorem flushThen_sessionEnd {s t : State} {k : Addr → List Byte → Pending} {inLine : Bool} {next : State → Out} (h : Kept s t)
    (hn : ∀ u, Kept s u → NextIn (next u) (SessionEnd s)) : NextIn (flushThen k inLine next t) (SessionEnd s) := by
  unfold flushThen
  split
  · exact (startPage_exchanges .flash _ _ _).orAbort (h.setSession _) fun base _ hu =>
      pollThen_sessionEnd hu fun _ hv => flushDone_sessionEnd hv hn
  · exact hn t h

theorem mergeBytes_sessionEnd (data : List Byte) (a : Addr) {s t : State} (h : Kept s t) :
    NextIn (mergeBytes a data t) (SessionEnd s) := by
  induction data generalizing a t with
  | nil => exact h.returned []
  | cons v vs ih =>
    unfold mergeBytes
    split
    · exact ih _ (h.mergeByte a v)
    · exact flushThen_sessionEnd h fun u hu => ih _ (Kept.mergeByte (hu.setSession _) a v)

theorem openAndMerge_sessionEnd (data : List Byte) (a : Addr) {s t : State} (h : Kept s t) :
    NextIn (openAndMerge a data t) (SessionEnd s) :=
  mergeBytes_sessionEnd data a (h.setSession _)

theorem flashData_sessionEnd (r : HexRecord) {s t : State} (h : Kept s t) : NextIn (flashData r t) (SessionEnd s) := by
  unfold flashData
  split
  · exact mergeBytes_sessionEnd r.data r.addr h
  · exact flushThen_sessionEnd h fun _ hu => openAndMerge_sessionEnd r.data r.addr hu

theorem endSession_sessionEnd {s t : State} (h : Kept s t) (inLine : Bool) : NextIn (endSession inLine t) (SessionEnd s) :=
  flushThen_sessionEnd h fun _ hu => complete_sessionEnd hu

theorem eepromBytes_sessionEnd (vs : List Byte) (a : Addr) {s t : State} (h : Kept s t) :
    NextIn (eepromBytes a vs t) (SessionEnd s) := by
  induction vs generalizing a t with
  | nil => exact h.returned []
  | cons v vs ih =>
    exact (startEeByte_exchanges a v t).orAbort h fun _ _ hu => pollThen_sessionEnd hu fun w hw =>
      (verifyEeByte_exchanges a v w).orAbort hw fun _ _ hx => ih (a + 1) hx

theorem extAddress_sessionEnd (r : HexRecord) {s t : State} (h : Kept s t) : NextIn (extAddress r t) (SessionEnd s) := by
  unfold extAddress
  split
  · exact (setExt_exchanges _ t).orAbort h fun _ _ hu => hu.returned []
  · exact abort_sessionEnd h (by decide) true

theorem eepromExtAddress_sessionEnd (r : HexRecord) {s t : State} (h : Kept s t) :
    NextIn (eepromExtAddress r t) (SessionEnd s) := by
  unfold eepromExtAddress
  split
  · exact extAddress_sessionEnd r h
  · exact h.returned []

theorem flashRecord_sessionEnd (r : HexRecord) {s t : State} (h : Kept s t) : NextIn (flashRecord r t) (SessionEnd s) := by
  unfold flashRecord
  split
  · split
    · exact flashData_sessionEnd r h
    · exact abort_sessionEnd h (by decide) true
  · split
    · exact endSession_sessionEnd h true
    · split
      · exact extAddress_sessionEnd r h
      · exact abort_sessionEnd h (by decide) true

theorem eepromRecord_sessionEnd (r : HexRecord) {s t : State} (h : Kept s t) : NextIn (eepromRecord r t) (SessionEnd s) := by
  unfold eepromRecord
  split
  · split
    · exact eepromBytes_sessionEnd r.data r.addr h
    · exact abort_sessionEnd h (by decide) true
  · split
    · exact endSession_sessionEnd h true
    · split
      · exact eepromExtAddress_sessionEnd r h
      · exact abort_sessionEnd h (by decide) true

/-- A waiting operation that goes on keeps `SIG` and `REC` (R135, R230). -/
theorem resume_sessionEnd (k : Pending) (s : State) : NextIn (resume k s) (SessionEnd s) := by
  refine pollThen_sessionEnd (.refl s) fun t ht => ?_
  cases k with
  | plain => exact ht.returned []
  | eeByte a v verify => exact (eeByteDone_linkOpEnd (.refl t) a v verify).linkOpEnd_sessionEnd ht
  | page region base buf verify => exact (pageDone_linkOpEnd (.refl t) region base buf verify).linkOpEnd_sessionEnd ht
  | beginErase => exact (ht.setSession _).returned []
  | lineFlush base pb a data => exact flushDone_sessionEnd ht fun _ hu => openAndMerge_sessionEnd data a hu
  | endFlush base pb inLine => exact flushDone_sessionEnd ht fun _ hu => complete_sessionEnd hu
  | lineEeByte a v vs => exact (verifyEeByte_exchanges a v t).orAbort ht fun _ _ hu => eepromBytes_sessionEnd vs (a + 1) hu

/-! ### Every operation (R230, R40, R280) -/

/-- An end of an operation that comes to a state in `R`, whatever it may wait with. -/
abbrev EndFrom (R : State → Prop) : State → Prop := Concludes R fun _ => True

theorem NextIn.sessionEnd_mono {o : Out} {t : State} {R : State → Prop} (h : NextIn o (SessionEnd t))
    (hR : ∀ u, Kept t u → R u) : NextIn o (EndFrom R) :=
  h.mono fun _ hu => hu.mono hR fun _ _ => trivial

theorem NextIn.endFrom_mono {o : Out} {R R' : State → Prop} (h : NextIn o (EndFrom R)) (hR : ∀ u, R u → R' u) :
    NextIn o (EndFrom R') :=
  h.mono fun _ hu => hu.mono hR fun _ _ => trivial

/-- The start of a session may write `SIG` (R212), not `REC`. -/
theorem openSession_orAbort_end (region : Region) (s : State) {next : Unit → State → Out}
    (hn : ∀ t, NextIn (next () t) (SessionEnd t)) :
    NextIn ((openSession region s).orAbort false next) (EndFrom fun u => Unreturned s u ∧ u.record = s.record) := by
  have compose {t u : State} (ht : Inner (beginSession region s) t) (hu : Kept t u) : Unreturned s u ∧ u.record = s.record :=
    ⟨Unreturned.trans ⟨ht.params, ht.inbox, ht.response, ht.lastError⟩ hu.toUnreturned, hu.record.trans ht.record⟩
  have ho := openSession_ends region s
  generalize openSession region s = r at ho ⊢
  cases r with
  | ok a t => exact (hn t).sessionEnd_mono fun _ => compose ho
  | err e t => exact (abort_sessionEnd (.refl t) ho.1 false).sessionEnd_mono fun _ => compose ho.2
  | fault f => trivial

theorem execProgBeginFlash_end (s : State) :
    NextIn (execProgBeginFlash s) (EndFrom fun u => Unreturned s u ∧ u.record = s.record) := by
  unfold execProgBeginFlash
  split
  · exact Concludes.raised [] ⟨(Kept.refl s).toUnreturned, rfl⟩ (by decide)
  · exact openSession_orAbort_end .flash s fun t => (startErase_exchanges t).orAbort (.refl t) fun _ _ hu =>
      pollThen_sessionEnd hu fun _ hv => (hv.setSession _).returned []

theorem execProgBeginEeprom_end (s : State) :
    NextIn (execProgBeginEeprom s) (EndFrom fun u => Unreturned s u ∧ u.record = s.record) := by
  unfold execProgBeginEeprom
  split
  · exact Concludes.raised [] ⟨(Kept.refl s).toUnreturned, rfl⟩ (by decide)
  · exact openSession_orAbort_end .eeprom s fun t => (Kept.refl t).returned []

/-- The decoding of a line may write `REC` (R213, R183), not `SIG`. -/
theorem decodeRecord_orAbort_end (text : List Byte) {s t : State} (ht : Kept s t) {next : HexRecord → State → Out}
    (hn : ∀ r u, NextIn (next r u) (SessionEnd u)) :
    NextIn ((decodeRecord text t).orAbort true next) (EndFrom fun u => Unreturned s u ∧ u.sig = s.sig) := by
  have hd := decodeRecord_ends text t
  generalize decodeRecord text t = d at hd ⊢
  cases d with
  | ok r t' =>
    obtain ⟨rfl, -⟩ := hd
    have ht' : Unreturned s { t with record := .written r } := ⟨ht.params, ht.inbox, ht.response, ht.lastError⟩
    exact (hn r _).sessionEnd_mono fun _ hu => ⟨ht'.trans hu.toUnreturned, hu.sig.trans ht.sig⟩
  | err e t' =>
    obtain ⟨he, rfl⟩ := hd
    exact (abort_sessionEnd ht he true).sessionEnd_mono fun _ hu => ⟨hu.toUnreturned, hu.sig⟩
  | fault f => trivial

theorem execProgLine_end (text : List Byte) (s : State) :
    NextIn (execProgLine text s) (EndFrom fun u => Unreturned s u ∧ u.sig = s.sig) := by
  have hs : Unreturned s s ∧ s.sig = s.sig := ⟨(Kept.refl s).toUnreturned, rfl⟩
  unfold execProgLine
  split
  · split
    · refine decodeRecord_orAbort_end text ((Kept.refl s).setSession _) fun r t => ?_
      split
      · exact flashRecord_sessionEnd r (.refl t)
      · exact eepromRecord_sessionEnd r (.refl t)
    · exact Concludes.raised [] hs (by decide)
  · exact Concludes.raised [] hs (by decide)

theorem execProgFinish_end (s : State) : NextIn (execProgFinish s) (SessionEnd s) := by
  unfold execProgFinish
  split
  · exact endSession_sessionEnd (.refl s) false
  · exact Concludes.raised [] (.refl s) (by decide)

/-- `HEX_DECODE` may write `REC` alone (R183). -/
theorem execHexDecode_end (text : List Byte) (s : State) :
    NextIn (execHexDecode text s) (EndFrom fun u => Unreturned s u ∧ u.sig = s.sig ∧ u.session = s.session) := by
  have hs : Unreturned s s := (Kept.refl s).toUnreturned
  unfold execHexDecode
  split
  · exact (decodeRecord_ends text s).finish
      (fun _ _ ⟨ht, _⟩ => .returned _ (by subst ht; exact ⟨⟨rfl, rfl, rfl, rfl⟩, rfl, rfl⟩))
      fun _ _ ⟨he, ht⟩ => .raised [] (by subst ht; exact ⟨hs, rfl, rfl⟩) he
  · exact Concludes.raised [] ⟨hs, rfl, rfl⟩ (by decide)

theorem NextIn.linkOpEnd_kept {o : Out} {s : State} (h : NextIn o (LinkOpEnd s)) :
    NextIn o (EndFrom fun u => Kept s u ∧ u.session = s.session) :=
  h.mono fun _ hu => hu.mono (fun _ hk => ⟨(Kept.refl s).exchanged hk, hk.session⟩) fun _ _ => trivial

/-- No operation writes the parameters or the host's queue, and none touches the result before it ends. -/
theorem exec_end (i : Instr) (s : State) : NextIn (exec i s) (EndFrom (Unreturned s)) := by
  cases i using instr_cases with
  | linkOp i hi => exact (exec_linkOpEnd hi s).linkOpEnd_kept.endFrom_mono fun _ hu => hu.1.toUnreturned
  | hexDecode text => exact (execHexDecode_end text s).endFrom_mono fun _ hu => hu.1
  | progBeginFlash => exact (execProgBeginFlash_end s).endFrom_mono fun _ hu => hu.1
  | progBeginEeprom => exact (execProgBeginEeprom_end s).endFrom_mono fun _ hu => hu.1
  | progLine text => exact (execProgLine_end text s).endFrom_mono fun _ hu => hu.1
  | progFinish => exact (execProgFinish_end s).endFrom_mono fun _ hu => hu.toUnreturned

theorem exec_keeps_sig {i : Instr} (hf : i ≠ .progBeginFlash) (he : i ≠ .progBeginEeprom) (s : State) :
    NextIn (exec i s) (EndFrom fun u => u.sig = s.sig) := by
  cases i using instr_cases with
  | linkOp i hi => exact (exec_linkOpEnd hi s).linkOpEnd_kept.endFrom_mono fun _ hu => hu.1.sig
  | hexDecode text => exact (execHexDecode_end text s).endFrom_mono fun _ hu => hu.2.1
  | progBeginFlash => exact absurd rfl hf
  | progBeginEeprom => exact absurd rfl he
  | progLine text => exact (execProgLine_end text s).endFrom_mono fun _ hu => hu.2
  | progFinish => exact (execProgFinish_end s).endFrom_mono fun _ hu => hu.sig

theorem exec_keeps_session {i : Instr} (hf : i ≠ .progBeginFlash) (he : i ≠ .progBeginEeprom) (hl : ∀ text, i ≠ .progLine text)
    (hn : i ≠ .progFinish) (s : State) : NextIn (exec i s) (EndFrom fun u => u.session = s.session) := by
  cases i using instr_cases with
  | linkOp i hi => exact (exec_linkOpEnd hi s).linkOpEnd_kept.endFrom_mono fun _ hu => hu.2
  | hexDecode text => exact (execHexDecode_end text s).endFrom_mono fun _ hu => hu.2.2
  | progBeginFlash => exact absurd rfl hf
  | progBeginEeprom => exact absurd rfl he
  | progLine text => exact absurd rfl (hl text)
  | progFinish => exact absurd rfl hn

theorem exec_keeps_record {i : Instr} (hl : ∀ text, i ≠ .progLine text) (hd : ∀ text, i ≠ .hexDecode text) (s : State) :
    NextIn (exec i s) (EndFrom fun u => u.record = s.record) := by
  cases i using instr_cases with
  | linkOp i hi => exact (exec_linkOpEnd hi s).linkOpEnd_kept.endFrom_mono fun _ hu => hu.1.record
  | hexDecode text => exact absurd rfl (hd text)
  | progBeginFlash => exact (execProgBeginFlash_end s).endFrom_mono fun _ hu => hu.2
  | progBeginEeprom => exact (execProgBeginEeprom_end s).endFrom_mono fun _ hu => hu.2
  | progLine text => exact absurd rfl (hl text)
  | progFinish => exact (execProgFinish_end s).endFrom_mono fun _ hu => hu.record

/-- The step of a waiting operation is its next poll (R135). -/
theorem step_resumes {s : State} {k : Pending} (hp : s.pending = some k) : step s = resume k s := by
  rw [step, nextWork, hp]

/-- Settles O49: every instruction and every waiting operation, by what is left unwritten before it ends. -/
theorem onlySessionOperationsWriteTheSession : Obligations.OnlySessionOperationsWriteTheSession := by
  refine ⟨fun s t i ht => ⟨?_, fun hf he => ?_, fun hf he hl hn => ?_, fun hl hd => ?_⟩, fun s t k hp ht => ?_⟩
  · obtain ⟨u, hu, hparams, hinbox, -⟩ := ((exec_end i s).of_next ht).exists_before
    exact ⟨hparams.trans hu.params, hinbox.trans hu.inbox⟩
  · obtain ⟨u, hu, -, -, hsig, -⟩ := ((exec_keeps_sig hf he s).of_next ht).exists_before
    exact hsig.trans hu
  · obtain ⟨u, hu, -, -, -, -, hsession⟩ := ((exec_keeps_session hf he hl hn s).of_next ht).exists_before
    exact hsession.trans hu
  · obtain ⟨u, hu, -, -, -, hrecord, -⟩ := ((exec_keeps_record hl hd s).of_next ht).exists_before
    exact hrecord.trans hu
  · rw [step_resumes hp] at ht
    obtain ⟨u, hu, hparams, hinbox, hsig, hrecord, -⟩ := ((resume_sessionEnd k s).of_next ht).exists_before
    refine ⟨hparams.trans hu.params, hinbox.trans hu.inbox, hsig.trans hu.sig, hrecord.trans hu.record, fun hk => ?_⟩
    have hk : k.isLinkOp = true := by
      obtain rfl | ⟨a, v, y, rfl⟩ | ⟨region, a, buf, y, rfl⟩ := hk <;> rfl
    obtain ⟨u, hu, -, -, -, -, hsession⟩ := ((resume_linkOpEnd hk s).of_next ht).exists_before
    exact hsession.trans hu.session

/-- An operation that ends tells the host its code, which it leaves in `LAST_ERROR` (R92, R40); one that waits has told nothing. -/
theorem Concludes.reports {s t : State} {K : Pending → Prop} (h : Concludes (Unreturned s) K t) :
    (t.pending = none → ∃ rest, t.response = t.lastError :: rest) ∧
    (t.pending ≠ none → t.response = s.response ∧ t.lastError = s.lastError ∧ t.busy = true) := by
  cases h with
  | returned result hu => exact ⟨fun _ => ⟨result, rfl⟩, fun hp => absurd rfl hp⟩
  | raised extra hu he => exact ⟨fun _ => ⟨extra, rfl⟩, fun hp => absurd rfl hp⟩
  | waiting hu hbusy hk => exact ⟨fun hp => by simp at hp, fun _ => ⟨hu.response, hu.lastError, hbusy⟩⟩

/-- Settles O51: the three ways an operation or a step of a waiting one can end. -/
theorem statusByteIsLastError : Obligations.StatusByteIsLastError := by
  refine ⟨fun s t i ht => ((exec_end i s).of_next ht).reports, fun s t hp ht => ?_⟩
  obtain ⟨k, hk⟩ := Option.ne_none_iff_exists'.mp hp
  rw [step_resumes hk] at ht
  exact (((resume_sessionEnd k s).sessionEnd_mono fun _ hu => hu.toUnreturned).of_next ht).reports

end Sys2Proof.Machine

/-! ### The invariant of the machine (spec/10_state.md R38, spec/44_write_controller.md R220, R229, R231) -/

namespace Sys2Proof.Machine

/-- What may wait depends on the session alone. -/
theorem pendingInv_congr {s t : State} (h : t.session = s.session) (k : Pending) : PendingInv s k → PendingInv t k := by
  cases k <;> simp only [PendingInv, FlashPass, h] <;> exact id

/-- While `PROG_BEGIN FLASH` does not wait for its erase, the session part of the invariant is the one of an operation that runs. -/
theorem sessionOk_of_machineInv {s : State} (h : MachineInv s) (hp : s.pending ≠ some .beginErase) : SessionOk s := by
  obtain ⟨⟨hpage, herased, -, -⟩, -⟩ := h
  exact ⟨hpage, fun hactive hflash => herased hactive hflash hp⟩

/-- The invariant holds of every end of a link operation begun in a state with it. -/
theorem machineInv_of_linkOpEnd {s t : State} (hR : Sound s) (hs : SessionOk s) (h : LinkOpEnd s t) : MachineInv t := by
  cases h with
  | returned result hu => exact machineInv_returned (hR.of_inner hu.toInner) (sessionOk_congr hu.session hs) result
  | raised extra hu he => exact machineInv_raised (hR.of_inner hu.toInner) (sessionOk_congr hu.session hs) he extra
  | @waiting u k hu hb hk =>
    refine machineInv_waiting (hR.of_inner hu.toInner) (sessionOk_congr hu.session hs) ?_
    cases k with
    | plain | eeByte | page => trivial
    | beginErase | lineFlush | endFlush | lineEeByte => cases hk

/-- `HEX_DECODE` writes a record of the codec (R27, R183). -/
theorem sound_setRecord {s : State} (h : Sound s) {r : HexRecord}
    (hr : r.data.length = r.count.toNat ∧ r.count.toNat ≤ Config.lineCap ∧ r.type.toNat ≤ 5) :
    Sound { s with record := .written r } := by
  refine ⟨h.link, h.attempt, h.lastError, fun r' hr' => ?_, h.pstate⟩
  obtain rfl : r = r' := Reg.written.inj hr'
  exact hr

theorem execHexDecode_machineInv (text : List Byte) {s : State} (hR : Sound s) (hs : SessionOk s) :
    NextIn (execHexDecode text s) MachineInv := by
  unfold execHexDecode
  split
  · refine (decodeRecord_ends text s).finish (fun r t ⟨ht, hr⟩ => ?_) fun e t ⟨he, ht⟩ => ?_
    · subst ht
      exact machineInv_returned (sound_setRecord hR hr) hs _
    · subst ht
      exact machineInv_raised hR hs he []
  · exact machineInv_raised hR hs (by decide) []

/-- A started EEPROM session has no page open (R211). -/
theorem sessionOk_of_begun_eeprom {s t : State} (h : t.session = (beginSession .eeprom s).session) : SessionOk t := by
  refine ⟨fun hopen => ?_, fun _ hflash => ?_⟩
  · simp [h] at hopen
  · simp [h] at hflash

/-- `PROG_BEGIN FLASH` waits for its chip erase with no page open (R210). -/
theorem machineInv_waiting_beginErase {s : State} (hR : Sound s) (hactive : s.session.sstate = .active)
    (hflash : s.session.region = .flash) (hpage : s.session.pageOpen = false) : MachineInv (s.waiting .beginErase) := by
  refine machineInv_of (hR.waiting _) (fun hopen => ?_) (fun _ _ hp => absurd rfl hp) fun k hk => ?_
  · exact nomatch hpage.symm.trans hopen
  · obtain rfl : Pending.beginErase = k := Option.some.inj hk
    exact ⟨hactive, hflash, hpage⟩

/-- The erase done, the flash pass begins (R210, R231). -/
theorem beginDone_machineInv {s : State} (hR : Sound s) (hpage : s.session.pageOpen = false) : NextIn (beginDone s) MachineInv :=
  machineInv_returned (sound_session hR { s.session with erased := true })
    ⟨fun hopen => (nomatch hpage.symm.trans hopen), fun _ _ => rfl⟩ []

theorem execProgBeginFlash_machineInv {s : State} (hR : Sound s) (hs : SessionOk s) :
    NextIn (execProgBeginFlash s) MachineInv := by
  unfold execProgBeginFlash
  split
  · exact machineInv_raised hR hs (by decide) []
  · have hbegin : Sound (beginSession .flash s) := sound_session hR _
    refine orAbort_machineInv hbegin (openSession_ends .flash s) fun _ t ht => ?_
    refine orAbort_machineInv (hbegin.of_inner ht) (startErase_ends t) fun _ u hu => ?_
    have hp := (ht.trans hu).trans (inner_poll u)
    have hsound := hbegin.of_inner hp
    have hpage : u.poll.session.pageOpen = false := by rw [hp.session]; rfl
    exact pollThen_ends
      (machineInv_waiting_beginErase hsound (by rw [hp.session]; rfl) (by rw [hp.session]; rfl) hpage)
      (beginDone_machineInv hsound hpage)

theorem execProgBeginEeprom_machineInv {s : State} (hR : Sound s) (hs : SessionOk s) :
    NextIn (execProgBeginEeprom s) MachineInv := by
  unfold execProgBeginEeprom
  split
  · exact machineInv_raised hR hs (by decide) []
  · have hbegin : Sound (beginSession .eeprom s) := sound_session hR _
    exact orAbort_machineInv hbegin (openSession_ends .eeprom s) fun _ t ht =>
      machineInv_returned (hbegin.of_inner ht) (sessionOk_of_begun_eeprom ht.session) []

/-- A record of a flash pass (R214, R225). -/
theorem flashRecord_machineInv {s : State} (hR : Sound s) (hs : SessionOk s) (hf : FlashPass s) {r : HexRecord}
    (hl : r.data.length = r.count.toNat) : NextIn (flashRecord r s) MachineInv := by
  unfold flashRecord
  split
  · split
    · next hfit => exact flashData_machineInv hR hs hf hl hfit
    · exact abort_machineInv hR (by decide) true
  · split
    · exact endSession_machineInv hR hs true
    · split
      · exact extAddress_machineInv hR hs r
      · exact abort_machineInv hR (by decide) true

theorem eepromExtAddress_machineInv {s : State} (hR : Sound s) (hs : SessionOk s) (r : HexRecord) :
    NextIn (eepromExtAddress r s) MachineInv := by
  unfold eepromExtAddress
  split
  · exact extAddress_machineInv hR hs r
  · exact machineInv_returned hR hs []

/-- A record of an EEPROM pass (R223, R225). -/
theorem eepromRecord_machineInv {s : State} (hR : Sound s) (hs : SessionOk s)
    (he : s.session.sstate = .active ∧ s.session.region = .eeprom) (r : HexRecord) : NextIn (eepromRecord r s) MachineInv := by
  unfold eepromRecord
  split
  · split
    · exact eepromBytes_machineInv r.data r.addr s hR hs he
    · exact abort_machineInv hR (by decide) true
  · split
    · exact endSession_machineInv hR hs true
    · split
      · exact eepromExtAddress_machineInv hR hs r
      · exact abort_machineInv hR (by decide) true

/-- The decoding of a line leaves a record of the codec, or aborts the session (R213). -/
theorem decodeRecord_orAbort_machineInv (text : List Byte) {s : State} (hR : Sound s) {next : HexRecord → State → Out}
    (hn : ∀ r, r.data.length = r.count.toNat → Sound { s with record := .written r } →
      NextIn (next r { s with record := .written r }) MachineInv) :
    NextIn ((decodeRecord text s).orAbort true next) MachineInv := by
  have hd := (decodeRecord_ends text s).mono (fun _ _ h => h) (err' := InnerErr s) fun e t ⟨he, ht⟩ => by
    subst ht; exact ⟨he, .refl t⟩
  refine orAbort_machineInv hR hd fun r t ⟨ht, hr⟩ => ?_
  subst ht
  exact hn r hr.1 (sound_setRecord hR hr)

theorem execProgLine_machineInv (text : List Byte) {s : State} (hR : Sound s) (hs : SessionOk s) :
    NextIn (execProgLine text s) MachineInv := by
  unfold execProgLine
  split
  · split
    · next hactive =>
      refine decodeRecord_orAbort_machineInv text (sound_session hR _) fun r hl hsound => ?_
      split
      · next hflash => exact flashRecord_machineInv hsound hs ⟨hactive, hflash, hs.2 hactive hflash⟩ hl
      · next heeprom => exact eepromRecord_machineInv hsound hs ⟨hactive, heeprom⟩ r
    · exact machineInv_raised hR hs (by decide) []
  · exact machineInv_raised hR hs (by decide) []

theorem execProgFinish_machineInv {s : State} (hR : Sound s) (hs : SessionOk s) : NextIn (execProgFinish s) MachineInv := by
  unfold execProgFinish
  split
  · exact endSession_machineInv hR hs false
  · exact machineInv_raised hR hs (by decide) []

theorem exec_machineInv (i : Instr) {s : State} (hR : Sound s) (hs : SessionOk s) : NextIn (exec i s) MachineInv := by
  cases i using instr_cases with
  | linkOp i hi => exact (exec_linkOpEnd hi s).mono fun _ => machineInv_of_linkOpEnd hR hs
  | hexDecode text => exact execHexDecode_machineInv text hR hs
  | progBeginFlash => exact execProgBeginFlash_machineInv hR hs
  | progBeginEeprom => exact execProgBeginEeprom_machineInv hR hs
  | progLine text => exact execProgLine_machineInv text hR hs
  | progFinish => exact execProgFinish_machineInv hR hs

/-- A waiting operation that polls on or goes on (R135): each kind by the session it is part of. -/
theorem resume_machineInv {s : State} {k : Pending} (h : MachineInv s) (hp : s.pending = some k) :
    NextIn (resume k s) MachineInv := by
  have hR := sound_of_machineInv h
  have hk : PendingInv s k := h.1.2.2.1 k hp
  have hs : k ≠ .beginErase → SessionOk s := fun hne => sessionOk_of_machineInv h fun heq => hne (Option.some.inj (hp.symm.trans heq))
  have hi := inner_poll s
  have hRp := hR.of_inner hi
  have hkp := pendingInv_congr hi.session k hk
  cases k with
  | plain | eeByte | page => exact (resume_linkOpEnd rfl s).mono fun _ => machineInv_of_linkOpEnd hR (hs (by simp))
  | beginErase =>
    obtain ⟨hactive, hflash, hpage⟩ := hkp
    exact pollThen_ends (machineInv_waiting_beginErase hRp hactive hflash hpage) (beginDone_machineInv hRp hpage)
  | lineFlush base pb a data =>
    obtain ⟨hf, hpage, hargs, hfit⟩ := hk
    refine pollThen_ends (machineInv_waiting hRp (sessionOk_congr hi.session (hs (by simp))) hkp) ?_
    refine flushDone_machineInv hRp fun t ht => openAndMerge_machineInv data a t (hRp.of_inner ht) ?_ hfit
    exact flashPass_of_session (ht.session.trans hi.session) hf
  | endFlush base pb inLine =>
    obtain ⟨hf, hpage, hargs⟩ := hkp
    refine pollThen_ends (machineInv_waiting hRp (sessionOk_congr hi.session (hs (by simp))) ⟨hf, hpage, hargs⟩) ?_
    exact flushDone_machineInv hRp fun t ht => complete_machineInv (hRp.of_inner ht) (by rw [ht.session]; exact hpage)
  | lineEeByte a v vs =>
    have hsp := sessionOk_congr hi.session (hs (by simp))
    refine pollThen_ends (machineInv_waiting hRp hsp hkp) ?_
    exact orAbort_machineInv hRp (verifyEeByte_ends a v s.poll) fun _ t ht =>
      eepromBytes_machineInv vs (a + 1) t (hRp.of_inner ht) (sessionOk_congr ht.session hsp) (by rw [ht.session]; exact hkp)

theorem step_machineInv {s : State} (h : MachineInv s) : NextIn (step s) MachineInv := by
  have hR := sound_of_machineInv h
  have hrest (rest : List (List Byte)) : Sound { s with inbox := rest } := ⟨hR.link, hR.attempt, hR.lastError, hR.record, hR.pstate⟩
  cases hp : s.pending with
  | some k => rw [step_resumes hp]; exact resume_machineInv h hp
  | none =>
    have hs : SessionOk s := sessionOk_of_machineInv h (by simp [hp])
    cases hm : s.inbox with
    | nil => rw [step_idles hp hm]; exact h
    | cons msg rest =>
      cases hd : decode msg with
      | ok i => rw [step_runs hp hm hd]; exact exec_machineInv i (hrest rest) hs
      | error e =>
        have hstep : step s = refuseBadOp { s with inbox := rest } := by simp only [step, nextWork, hp, hm, hd]
        rw [hstep]
        exact machineInv_raised (hrest rest) hs (by decide) []

/-- Settles O52: a step is one more poll of a waiting operation, the first message's operation, a refusal, or nothing. -/
theorem stepKeepsMachineInv : Obligations.StepKeepsMachineInv :=
  fun _ _ h ht => (step_machineInv h).of_next ht

end Sys2Proof.Machine

/-! ### Pages: bases, wire addresses and frames (spec/20_memory.md R62 to R64, spec/42_memory_programmer.md R154, R155) -/

namespace Sys2Proof.Machine

/-- Clearing the low `k` bits of an address rounds it down to a multiple of `2 ^ k`. -/
theorem toNat_and_clearLow {w : Nat} (a : BitVec w) (k : Nat) :
    (a &&& (BitVec.allOnes w <<< k)).toNat = a.toNat / 2 ^ k * 2 ^ k := by
  have hshift : a &&& (BitVec.allOnes w <<< k) = (a >>> k) <<< k := by
    refine BitVec.eq_of_getLsbD_eq fun i hi => ?_
    by_cases hk : i < k
    · simp [hk]
    · simp [hk, hi, show k + (i - k) = i by omega]
  have hle := Nat.div_mul_le_self a.toNat (2 ^ k)
  rw [hshift, BitVec.toNat_shiftLeft, BitVec.toNat_ushiftRight, Nat.shiftLeft_eq, Nat.shiftRight_eq_div_pow]
  exact Nat.mod_eq_of_lt (by omega)

theorem toNat_pageBase (region : Region) (a : Addr) :
    (pageBase region a).toNat = a.toNat / pageSize region * pageSize region := by
  have hlt := a.isLt
  have hdiv := Nat.div_add_mod a.toNat (pageSize region)
  have hmod := Nat.mod_le a.toNat (pageSize region)
  rw [pageBase, BitVec.toNat_sub_of_le, BitVec.toNat_umod, BitVec.toNat_ofNat, Nat.mod_eq_of_lt (a := pageSize region)]
  · rw [Nat.mul_comm]; omega
  · cases region <;> decide
  · exact BitVec.le_def.mpr (by rw [BitVec.toNat_umod]; exact Nat.mod_le _ _)

/-- The wire address of a flash page is its first word (R63). -/
theorem toNat_wpage (a : Addr) : (wpage a).toNat = a.toNat / 128 * 64 := by
  have h := toNat_and_clearLow (a >>> 1) 6
  rw [BitVec.toNat_ushiftRight, Nat.shiftRight_eq_div_pow] at h
  refine h.trans ?_
  omega

/-- The wire address of an EEPROM page is its first byte (R64). -/
theorem toNat_epage (a : Addr) : (epage a).toNat = a.toNat / 4 * 4 := toNat_and_clearLow a 2

/-- Settles O26: each address by its value. -/
theorem pageAddresses : Obligations.PageAddresses := by
  intro a
  have hflash : (pageBase .flash a).toNat = a.toNat / 128 * 128 := toNat_pageBase .flash a
  have heeprom : (pageBase .eeprom a).toNat = a.toNat / 4 * 4 := toNat_pageBase .eeprom a
  refine ⟨?_, hflash, ?_, heeprom, rfl, ?_, ?_, ?_⟩ <;> apply BitVec.eq_of_toNat_eq
  · rw [hflash]; exact (toNat_and_clearLow a 7).symm
  · rw [heeprom]; exact (toNat_and_clearLow a 2).symm
  · rw [toNat_wpage, toNat_wpage, hflash]; omega
  · rw [BitVec.extractLsb'_toNat, toNat_wpage]; simp
  · rw [heeprom, toNat_epage]

theorem loadFrames_length (region : Region) (j : Nat) (buf : List Byte) : (loadFrames region j buf).length = buf.length := by
  induction buf generalizing j with
  | nil => rfl
  | cons v buf ih => simp [loadFrames, ih]

theorem loadFrames_getElem? (region : Region) (j i : Nat) (buf : List Byte) :
    (loadFrames region j buf)[i]? = buf[i]?.map (loadFrame region (j + i)) := by
  induction buf generalizing j i with
  | nil => rfl
  | cons v buf ih =>
    cases i with
    | zero => rfl
    | succ i => simpa [loadFrames, Nat.add_assoc, Nat.add_comm 1] using ih (j + 1) i

/-- The frames of a page write of `n` bytes, one by one (R154, R155). -/
theorem pageFrames_eq (region : Region) (a : Addr) {buf : List Byte} {n : Nat} (hn : buf.length = n) :
    (pageFrames region a buf).length = n + 2 ∧
    (∀ j, j < n → (pageFrames region a buf)[j]? = some (loadFrame region j (buf.getD j 0#8))) ∧
    (pageFrames region a buf)[n]? = some (pageFrame region (pageBase region a)) ∧
    (pageFrames region a buf)[n + 1]? = some pollFrame := by
  subst hn
  have hlen := loadFrames_length region 0 buf
  refine ⟨by simp [pageFrames, hlen], fun j hj => ?_, ?_, ?_⟩
  · rw [pageFrames, List.getElem?_append_left (by omega), loadFrames_getElem?]
    simp [hj]
  · rw [pageFrames, List.getElem?_append_right (by omega), hlen]
    simp
  · rw [pageFrames, List.getElem?_append_right (by omega), hlen]
    simp

/-- Settles O25: the load frames by their offsets, the page write by its wire address. -/
theorem pageWriteFrames : Obligations.PageWriteFrames := by
  refine ⟨fun a buf ha hl => ?_, fun a buf ha hl => ?_⟩
  · obtain ⟨hlen, hload, hpage, hpoll⟩ := pageFrames_eq .flash a hl
    refine ⟨hlen, hload, hpage.trans ?_, hpoll⟩
    have hw : wpage (pageBase .flash a) = BitVec.ofNat 16 (a.toNat / 128 * 64) := by
      apply BitVec.eq_of_toNat_eq
      rw [toNat_wpage, toNat_pageBase, BitVec.toNat_ofNat]
      simp only [pageSize, Config.flashPage]; omega
    rw [pageFrame, hw, addrFrame_ofNat _ (by omega)]
  · obtain ⟨hlen, hload, hpage, hpoll⟩ := pageFrames_eq .eeprom a hl
    refine ⟨hlen, hload, hpage.trans ?_, hpoll⟩
    have he : epage (pageBase .eeprom a) = BitVec.ofNat 16 (a.toNat / 4 * 4) := by
      apply BitVec.eq_of_toNat_eq
      rw [toNat_epage, toNat_pageBase, BitVec.toNat_ofNat]
      simp only [pageSize, Config.eePage]; omega
    rw [pageFrame, he, addrFrame_ofNat _ (by omega)]

end Sys2Proof.Machine

/-! ### The reference target in programming mode, and its ready polls (spec/20_memory.md R72, R74) -/

namespace Sys2Proof.Machine

/-- The reference target is connected, in programming mode, at a frame boundary; a write cycle may be running (R72, R74). -/
structure Link.Enabled (l : Link) : Prop where
  kind : l.env.kind = .reference
  mode : l.env.target.mode = .progEnabled
  rx : l.env.target.rx = []

/-- A ready poll takes one from the busy polls and leaves the target enabled (R74). -/
theorem Link.Enabled.poll {l : Link} (h : l.Enabled) : (l.frame pollFrame).2.Enabled := by
  have ht := Link.frame_polled h.kind h.rx
  exact ⟨by rw [Link.frame_kind, h.kind], by rw [ht]; exact h.mode, by rw [ht]; exact h.rx⟩

/-- An operation waits for a target that stays busy for ever. -/
structure WaitsForEver (s : State) (k : Pending) : Prop where
  pending : s.pending = some k
  enabled : s.link.Enabled
  busy : s.link.env.target.busy = none

/-- Its step is one more poll that reads busy (R289). -/
theorem WaitsForEver.step {s : State} {k : Pending} (h : WaitsForEver s k) :
    step s = .next s.polledBusy ∧ WaitsForEver s.polledBusy k := by
  have hbit : busyBit (pollReply 0 s) = true := by
    refine (Link.frame_busyBit h.enabled.kind h.enabled.rx h.enabled.mode).trans ?_
    simp [Target.isBusy, h.busy]
  have hp := h.enabled.poll
  refine ⟨step_polledBusy h.pending hbit, h.pending, ⟨hp.kind, hp.mode, hp.rx⟩, ?_⟩
  show (s.link.frame pollFrame).2.env.target.busy = none
  rw [Link.frame_polled h.enabled.kind h.enabled.rx, Target.polled, h.busy]
  rfl

/-- Settles O20, by induction on the number of polls. -/
theorem busyForeverIsAnInfiniteRun : Obligations.BusyForeverIsAnInfiniteRun := by
  intro s k hpend hkind hmode hrx hbusy n
  have h : WaitsForEver s k := ⟨hpend, ⟨hkind, hmode, hrx⟩, hbusy⟩
  clear hpend hkind hmode hrx hbusy
  induction n generalizing s with
  | zero => rw [run_one]; exact h.step.1
  | succ n ih =>
    obtain ⟨hstep, hnext⟩ := h.step
    rw [run_succ_of_next hstep, ih _ hnext, State.polledBusy_link_polled]
    rfl

end Sys2Proof.Machine

/-! ### The reference target between frames (spec/20_memory.md R72 to R79) -/

namespace Sys2Proof.Machine

/-- The target is enabled and no write cycle is running: `TargetEnabled` of a link. -/
structure Link.Idle (l : Link) : Prop extends l.Enabled where
  busy : l.env.target.busy = some 0

/-- The target gives all its answers: `TargetReady` of a link. -/
structure Link.Ready (l : Link) : Prop extends l.Idle where
  ext : l.env.target.ext = 0#8
  altered : l.env.target.altered = false

theorem targetEnabled_iff {s : State} : TargetEnabled s ↔ s.link.Idle :=
  ⟨fun ⟨hkind, hmode, hrx, hbusy⟩ => ⟨⟨hkind, hmode, hrx⟩, hbusy⟩, fun h => ⟨h.kind, h.mode, h.rx, h.busy⟩⟩

theorem targetReady_iff {s : State} : TargetReady s ↔ s.link.Ready :=
  ⟨fun ⟨h, hext, haltered⟩ => ⟨targetEnabled_iff.mp h, hext, haltered⟩,
    fun h => ⟨targetEnabled_iff.mpr h.toIdle, h.ext, h.altered⟩⟩

/-- The target's memories hold what those of `m` hold. -/
structure Target.Holds (m t : Target) : Prop where
  flash : t.flash = m.flash
  eeprom : t.eeprom = m.eeprom

theorem Target.Holds.refl (m : Target) : m.Holds m := ⟨rfl, rfl⟩

theorem Target.Holds.sameMemory {s t : State} (h : s.link.env.target.Holds t.link.env.target) : SameMemory s t :=
  fun a => ⟨by rw [flashAt, h.flash, flashAt], by rw [eepromAt, h.eeprom, eepromAt]⟩

/-- The target is at a frame boundary with no write cycle running, in either mode, and its memories hold what those of `m` hold. -/
structure Target.Quiet (m t : Target) : Prop extends m.Holds t where
  rx : t.rx = []
  busy : t.busy = some 0

/-- The reference target is connected and quiet. -/
structure Link.Quiet (m : Target) (l : Link) : Prop where
  kind : l.env.kind = .reference
  target : m.Quiet l.env.target

theorem Link.Idle.quiet {l : Link} (h : l.Idle) : l.Quiet l.env.target := ⟨h.kind, .refl _, h.rx, h.busy⟩

/-! ### What each frame and each drive does to the target -/

theorem Env.onTarget_reference {e : Env} (hk : e.kind = .reference) (f : Target → Target) :
    e.onTarget f = { e with target := f e.target } := by
  rw [Env.onTarget, hk]

/-- A read frame leaves a quiet target quiet, and draws a free value (R79). -/
theorem Link.Quiet.read {m : Target} {l : Link} (h : l.Quiet m) {f : IspFrame} {i : Instr} (hf : decodeFrame f = some i)
    (hi : isReadFrame i = true) : (l.frame f).2.Quiet m := by
  refine ⟨by rw [Link.frame_kind, h.kind], ?_⟩
  rw [Link.frame_read h.kind h.target.rx h.target.busy hf hi]
  exact ⟨⟨h.target.flash, h.target.eeprom⟩, h.target.rx, h.target.busy⟩

theorem Target.Quiet.resetLine {m t : Target} (h : m.Quiet t) (before after : Level) : m.Quiet (t.resetLine before after) := by
  have hrx : (t.resetLine before after).rx = [] := by
    unfold Target.resetLine
    split <;> split <;> simp [h.rx]
  exact ⟨⟨by simp [h.flash], by simp [h.eeprom]⟩, hrx, by simp [h.busy]⟩

/-- A drive of `RST` with no write cycle running (R72). -/
theorem Link.driveRst_idle {l : Link} (hk : l.env.kind = .reference) (hb : l.env.target.busy = some 0) (v : Level) :
    (l.driveRst v).env = { l.env with target := l.env.target.resetLine l.rst v } := by
  rw [Link.driveRst_env, Env.onTarget_reference hk, Target.onRst_idle hb]

/-- A drive of `RST` with no write cycle running keeps the memories (R66, R72). -/
theorem Link.Quiet.driveRst {m : Target} {l : Link} (h : l.Quiet m) (v : Level) : (l.driveRst v).Quiet m := by
  have he := Link.driveRst_idle h.kind h.target.busy v
  exact ⟨by rw [he]; exact h.kind, by rw [he]; exact h.target.resetLine l.rst v⟩

theorem Link.Quiet.resetPulse {m : Target} {l : Link} (h : l.Quiet m) : l.resetPulse.Quiet m :=
  Link.Quiet.driveRst (l := (l.driveRst .low).wait .tRstPulse) ⟨(h.driveRst .low).kind, (h.driveRst .low).target⟩ .high

theorem Link.Quiet.release {m : Target} {l : Link} (h : l.Quiet m) : l.release.Quiet m :=
  Link.Quiet.driveRst (l := (l.driveSck .hiZ).driveMosi .hiZ) ⟨h.kind, h.target⟩ .hiZ

/-- The start of an attempt asserts reset and settles: the target is at a frame boundary then (R72, R132; log 8). -/
theorem Link.attempt_env {l : Link} (hk : l.env.kind = .reference) (hb : l.env.target.busy = some 0)
    (hr : l.rst ≠ .low ∨ l.env.target.rx = []) :
    l.attempt.env = { l.env with target := { l.env.target with settled := true, rx := [] } } := by
  have hline : (l.env.target.resetLine l.rst .low).onSettle .low = { l.env.target with settled := true, rx := [] } := by
    unfold Target.resetLine Target.onSettle
    by_cases hlow : l.rst = .low
    · have hrx := hr.resolve_left (not_not.mpr hlow)
      simp [hlow, ← hrx]
    · simp [hlow]
  rw [← hline]
  simp [Link.attempt, Env.onTarget, hk, Target.onRst_idle hb]

/-- A programming-enable frame to a target that is not busy is taken by R72. -/
theorem Link.frame_progEnable {l : Link} (hk : l.env.kind = .reference) (hr : l.env.target.rx = [])
    (hb : l.env.target.busy = some 0) :
    (l.frame progEnableFrame).2.env.target = l.env.target.progEnable l.rst := by
  have hd : decodeFrame progEnableFrame = some .progEnable := by decide
  rw [Link.frame_target_reference hk hr]
  simp [Target.takeWord, hd, Target.takeFrame, Target.frameEffect, Target.isBusy, hb]

/-- With reset asserted and settled, programming enable keeps the memories, in sync or not (R72). -/
theorem Target.Quiet.progEnable {m t : Target} (h : m.Quiet t) (hs : t.settled = true) : m.Quiet (t.progEnable .low) := by
  rw [Target.progEnable, if_pos ⟨rfl, hs⟩]
  dsimp only
  split <;> exact ⟨⟨h.flash, h.eeprom⟩, h.rx, h.busy⟩

theorem Link.Quiet.attempt {m : Target} {l : Link} (h : l.Quiet m) : (l.attempt.frame progEnableFrame).2.Quiet m := by
  have he := Link.attempt_env h.kind h.target.busy (.inr h.target.rx)
  have hq : m.Quiet l.attempt.env.target := by
    rw [he]; exact ⟨⟨h.target.flash, h.target.eeprom⟩, rfl, h.target.busy⟩
  have hk : l.attempt.env.kind = .reference := by rw [he]; exact h.kind
  refine ⟨by rw [Link.frame_kind, hk], ?_⟩
  rw [Link.frame_progEnable hk hq.rx hq.busy]
  exact hq.progEnable (by rw [he])

/-- A frame that is a command leaves an idle target as R75 to R78 say. -/
theorem Link.Idle.command {l : Link} (h : l.Idle) {f : IspFrame} {i : Instr} (hf : decodeFrame f = some i)
    (ha : l.env.target.forbids i = false) (h1 : i ≠ .pollRdy) (h2 : i ≠ .progEnable) (h3 : isReadFrame i = false) :
    (l.frame f).2.env.target = l.env.target.command i :=
  Link.frame_command h.kind h.rx h.mode h.busy ha hf h1 h2 h3

theorem Link.Ready.command {l : Link} (h : l.Ready) {f : IspFrame} {i : Instr} (hf : decodeFrame f = some i)
    (h1 : i ≠ .pollRdy) (h2 : i ≠ .progEnable) (h3 : isReadFrame i = false) :
    (l.frame f).2.env.target = l.env.target.command i :=
  h.toIdle.command hf (Target.forbids_of_not_altered h.altered i) h1 h2 h3

/-! ### Operations that only read, drive and poll (R79) -/

/-- However the inner operation ends, the target is quiet then and its memories hold what those of `m` hold. -/
def Res.StaysQuiet {α : Type} (r : Res α) (m : Target) : Prop := r.Ends (fun _ t => t.link.Quiet m) (fun _ t => t.link.Quiet m)

/-- However the operation ends, the target's memories hold what those of `m` hold. -/
abbrev HoldsIn (o : Out) (m : Target) : Prop := NextIn o fun t => m.Holds t.link.env.target

theorem Res.StaysQuiet.bind {α β : Type} {r : Res α} {next : α → State → Res β} {m : Target} (h : r.StaysQuiet m)
    (hn : ∀ a t, t.link.Quiet m → (next a t).StaysQuiet m) : (r.bind next).StaysQuiet m :=
  Res.Ends.bind h hn fun _ _ ht => ht

theorem Res.StaysQuiet.finish {α : Type} {r : Res α} {m : Target} (h : r.StaysQuiet m) (result : α → List Byte) :
    HoldsIn (r.finish result) m :=
  Res.Ends.finish h (fun _ _ ht => ht.target.toHolds) fun _ _ ht => ht.target.toHolds

theorem readReply_staysQuiet {m : Target} {s : State} (h : s.link.Quiet m) {f : IspFrame} {i : Instr} (hf : decodeFrame f = some i)
    (hi : isReadFrame i = true) : (readReply f s).StaysQuiet m :=
  guarded_ends (h.read hf hi)

/-- The read frame of a byte, as the frame table has it. -/
def readInstr : Region → Addr → Instr
  | .flash, a =>
    if a.getLsbD 0 then .readFlashHi (hiByte (wordAddr a)) (loByte (wordAddr a))
    else .readFlashLo (hiByte (wordAddr a)) (loByte (wordAddr a))
  | .eeprom, a => .readEeprom (hiByte a) (loByte a)

theorem decodeFrame_readFrame (region : Region) (a : Addr) : decodeFrame (readFrame region a) = some (readInstr region a) := by
  cases region with
  | flash => simp only [readFrame, readFlashFrame, readInstr]; split <;> rfl
  | eeprom => rfl

theorem isReadFrame_readInstr (region : Region) (a : Addr) : isReadFrame (readInstr region a) = true := by
  cases region with
  | flash => simp only [readInstr]; split <;> rfl
  | eeprom => rfl

/-- `RD_BYTE` of an address in range is a read frame without more to check (R151, R152). -/
theorem rdByte_eq_readReply {region : Region} {a : Addr} (ha : a.toNat < capacity region) (s : State) :
    rdByte region a s = readReply (readFrame region a) s := by
  rw [rdByte, if_neg (by omega), readReply]

theorem rdByte_staysQuiet (region : Region) (a : Addr) {m : Target} {s : State} (h : s.link.Quiet m) :
    (rdByte region a s).StaysQuiet m := by
  unfold rdByte
  split
  · exact h
  · exact readReply_staysQuiet h (decodeFrame_readFrame region a) (isReadFrame_readInstr region a)

theorem verifyEeByte_staysQuiet (a : Addr) (v : Byte) {m : Target} {s : State} (h : s.link.Quiet m) :
    (verifyEeByte a v s).StaysQuiet m := by
  refine (rdByte_staysQuiet .eeprom a h).bind fun rb t ht => ?_
  split <;> exact ht

theorem verifyFrom_staysQuiet (region : Region) (base : Addr) (buf : List Byte) (j : Nat) {m : Target} {s : State}
    (h : s.link.Quiet m) : (verifyFrom region base j buf s).StaysQuiet m := by
  induction buf generalizing j s with
  | nil => exact h
  | cons v buf ih =>
    refine (rdByte_staysQuiet region _ h).bind fun rb t ht => ?_
    split
    · exact ih (j + 1) ht
    · exact ht

theorem eeByteDone_holds (a : Addr) (v : Byte) (verify : Bool) {m : Target} {s : State} (h : s.link.Quiet m) :
    HoldsIn (eeByteDone a v verify s) m := by
  unfold eeByteDone
  split
  · exact (verifyEeByte_staysQuiet a v h).finish _
  · exact h.target.toHolds

theorem pageDone_holds (region : Region) (base : Addr) (buf : List Byte) (verify : Bool) {m : Target} {s : State}
    (h : s.link.Quiet m) : HoldsIn (pageDone region base buf verify s) m := by
  unfold pageDone
  split
  · exact (verifyFrom_staysQuiet region base buf 0 h).finish _
  · exact h.target.toHolds

theorem syncLoop_staysQuiet (n : Nat) {m : Target} {s : State} (h : s.link.Quiet m) : (syncLoop n s).StaysQuiet m := by
  induction n generalizing s with
  | zero => exact h
  | succ n ih =>
    rw [syncLoop_succ n s rfl]
    split
    · exact h.attempt
    · split
      · exact h.attempt
      · exact ih h.attempt.resetPulse

theorem pgmEnter_staysQuiet {m : Target} {s : State} (h : s.link.Quiet m) : (pgmEnter s).StaysQuiet m :=
  guarded_ends (syncLoop_staysQuiet _ h)

theorem linkRelease_staysQuiet {m : Target} {s : State} (h : s.link.Quiet m) : (linkRelease s).StaysQuiet m :=
  guarded_ends h.release

theorem signatureGate_staysQuiet {m : Target} {s : State} (h : s.link.Quiet m) : (signatureGate s).StaysQuiet m := by
  have read {t : State} (ht : t.link.Quiet m) (i : Byte) : (readReply (readSigFrame i) t).StaysQuiet m :=
    readReply_staysQuiet ht (i := .readSig i) rfl rfl
  refine (read h 0#8).bind fun s0 t0 h0 => (read h0 1#8).bind fun s1 t1 h1 => (read h1 2#8).bind fun s2 t2 h2 => ?_
  dsimp only
  split <;> exact h2

theorem abort_holds (e : Err) (inLine : Bool) {m : Target} {s : State} (h : s.link.Quiet m) : HoldsIn (abort e inLine s) m := by
  unfold abort
  dsimp only
  have hl := linkRelease_staysQuiet (s := { s with session := { s.session with page := s.session.page.close, sstate := .aborted } }) h
  generalize linkRelease _ = r at hl ⊢
  cases r with
  | ok a t => exact hl.target.toHolds
  | err e t => exact hl.target.toHolds
  | fault f => trivial

theorem Res.StaysQuiet.orAbort {α : Type} {r : Res α} {m : Target} (h : r.StaysQuiet m) {inLine : Bool} {next : α → State → Out}
    (hn : ∀ a t, t.link.Quiet m → HoldsIn (next a t) m) : HoldsIn (r.orAbort inLine next) m := by
  cases r with
  | ok a t => exact hn a t h
  | err e t => exact abort_holds e inLine h
  | fault f => trivial

/-- `PROG_BEGIN EEPROM` synchronises and reads the signature (R211). -/
theorem execProgBeginEeprom_holds {m : Target} {s : State} (h : s.link.Quiet m) : HoldsIn (execProgBeginEeprom s) m := by
  unfold execProgBeginEeprom
  split
  · exact h.target.toHolds
  · have hopen : (openSession .eeprom s).StaysQuiet m :=
      (pgmEnter_staysQuiet (s := beginSession .eeprom s) h).bind fun _ _ => signatureGate_staysQuiet
    exact hopen.orAbort fun _ _ ht => ht.target.toHolds

/-! ### The poll loop against the target (R74, R135) -/

/-- An enabled target of which a poll reads not busy has no write cycle running, and the poll leaves it quiet (R74). -/
theorem Link.Enabled.ready_poll {l : Link} (h : l.Enabled) (hb : busyBit (l.frame pollFrame).1 = false) :
    (l.frame pollFrame).2.Quiet l.env.target := by
  rw [Link.frame_busyBit h.kind h.rx h.mode] at hb
  have hbusy : l.env.target.busy = some 0 := by simpa [Target.isBusy] using hb
  have ht := Link.frame_polled h.kind h.rx
  exact ⟨h.poll.kind, ⟨by rw [ht]; rfl, by rw [ht]; rfl⟩, h.poll.rx, by rw [ht, Target.polled, hbusy]; rfl⟩

theorem Link.Quiet.of_holds {m t : Target} {l : Link} (h : l.Quiet t) (hm : m.Holds t) : l.Quiet m :=
  ⟨h.kind, ⟨h.target.flash.trans hm.flash, h.target.eeprom.trans hm.eeprom⟩, h.target.rx, h.target.busy⟩

/-- The poll loop keeps the memories, if what follows it does (R135). -/
theorem pollThen_holds {m : Target} {k : Pending} {next : State → Out} {s : State} (h : s.link.Enabled)
    (hm : m.Holds s.link.env.target) (hn : ∀ t, t.link.Quiet m → HoldsIn (next t) m) : HoldsIn (pollThen k next s) m := by
  cases hb : busyBit (s.link.frame pollFrame).1 with
  | true =>
    rw [pollThen_busy k next s hb]
    show m.Holds (s.link.frame pollFrame).2.env.target
    rw [Link.frame_polled h.kind h.rx]
    exact ⟨hm.flash, hm.eeprom⟩
  | false =>
    rw [pollThen_ready k next s hb]
    exact hn _ ((h.ready_poll hb).of_holds hm)

/-- A poll loop with nothing left to do after it polls the target once (R135, R74). -/
theorem pollThen_plain_target {s : State} (h : s.link.Enabled) :
    NextIn (pollThen .plain (finishOk []) s) fun t => t.link.env.target = s.link.env.target.polled :=
  have hp : s.poll.link.env.target = s.link.env.target.polled := Link.frame_polled h.kind h.rx
  pollThen_ends hp hp

/-- The poll loop of an operation whose target is busy for `n` polls: `n` more steps, and then what is left of the operation, from a
state in which the write cycle is over (R74, R135; log 6). -/
theorem pollThen_run {k : Pending} (n : Nat) {s : State} (h : s.link.Enabled) (hb : s.link.env.target.busy = some n) :
    ∃ w : State, w.wpend = false ∧ w.link.Enabled ∧ w.link.env.target = { s.link.env.target with busy := some 0 } ∧
      ∀ u, afterPoll k w = .next u → ∃ t, pollThen k (afterPoll k) s = .next t ∧ run n t = .next u := by
  have hbit := Link.frame_busyBit h.kind h.rx h.mode
  have htarget := Link.frame_polled h.kind h.rx
  induction n generalizing s with
  | zero =>
    have hready : busyBit (s.link.frame pollFrame).1 = false := by simp [hbit, Target.isBusy, hb]
    refine ⟨_, rfl, h.poll, ?_, fun u hu => ⟨u, (pollThen_ready k _ s hready).trans hu, rfl⟩⟩
    rw [htarget, Target.polled, hb]
    rfl
  | succ n ih =>
    have hbusy : busyBit (s.link.frame pollFrame).1 = true := by simp [hbit, Target.isBusy, hb]
    have hl : Link.Enabled ((s.link.frame pollFrame).2.wait .tPoll) := ⟨h.poll.kind, h.poll.mode, h.poll.rx⟩
    have hn : (s.link.frame pollFrame).2.env.target.busy = some n := by rw [htarget, Target.polled, hb]; rfl
    obtain ⟨w, hwpend, hwl, hwt, hw⟩ := ih (s := { s with
      link := (s.link.frame pollFrame).2.wait .tPoll, busy := true, pending := some k }) hl hn
      (Link.frame_busyBit hl.kind hl.rx hl.mode) (Link.frame_polled hl.kind hl.rx)
    refine ⟨w, hwpend, hwl, ?_, fun u hu => ⟨_, pollThen_busy k _ s hbusy, ?_⟩⟩
    · rw [hwt, Link.wait_env, htarget]; rfl
    · obtain ⟨t, ht, hrun⟩ := hw u hu
      rw [run_succ_of_next ((step_resumes rfl).trans ht), hrun]

end Sys2Proof.Machine

/-! ### Synchronisation and reads against the target (spec/20_memory.md R72, R73, R76 to R78) -/

namespace Sys2Proof.Machine

/-- A fuse or lock byte of the target: `fuseAt` of a target. -/
def Target.fuse (t : Target) : FuseKind → FuseCell
  | .low => t.fuseLow
  | .high => t.fuseHigh
  | .extended => t.fuseExt
  | .lock => t.fuseLock

theorem fuseAt_eq (s : State) (k : FuseKind) : fuseAt s k = s.link.env.target.fuse k := by cases k <;> rfl

@[simp] theorem Target.fuse_resetLine (t : Target) (before after : Level) (k : FuseKind) :
    (t.resetLine before after).fuse k = t.fuse k := by
  unfold Target.resetLine
  split <;> [split; skip] <;> cases k <;> rfl

/-- A programming-enable frame in sync puts the target in programming mode; from Running every fuse change takes effect (R72, R78). -/
theorem Target.progEnable_inSync {t : Target} (hs : t.settled = true) (hn : t.nextSync = true) :
    (t.progEnable .low).mode = .progEnabled ∧
    ∀ k, (t.progEnable .low).fuse k = if t.mode = .running then ⟨(t.fuse k).new, (t.fuse k).new⟩ else t.fuse k := by
  rw [Target.progEnable, if_pos ⟨rfl, hs⟩]
  cases hm : t.mode with
  | running => exact ⟨by simp [hn, Target.reenter], fun k => by cases k <;> simp [hn, Target.reenter, Target.fuse]⟩
  | progEnabled => exact ⟨by simp [hm], fun k => by cases k <;> simp [Target.fuse]⟩

/-- Driving reset `High` or `HiZ` returns a target without a write cycle to Running and keeps its bytes (R72, R115, R138). -/
theorem Link.driveRst_releases {l : Link} (hk : l.env.kind = .reference) (hb : l.env.target.busy = some 0) {v : Level}
    (hv : v ≠ .low) :
    (l.driveRst v).env.target.mode = .running ∧ l.env.target.Holds (l.driveRst v).env.target ∧
    ∀ k, (l.driveRst v).env.target.fuse k = l.env.target.fuse k := by
  rw [Link.driveRst_idle hk hb]
  exact ⟨by simp [Target.resetLine, hv], ⟨by simp, by simp⟩, by simp⟩

theorem Link.resetPulse_releases {l : Link} (hk : l.env.kind = .reference) (hb : l.env.target.busy = some 0) :
    l.resetPulse.env.target.mode = .running ∧ l.env.target.Holds l.resetPulse.env.target ∧
    ∀ k, l.resetPulse.env.target.fuse k = l.env.target.fuse k := by
  have he := Link.driveRst_idle hk hb .low
  obtain ⟨hmode, hholds, hfuse⟩ := Link.driveRst_releases (l := (l.driveRst .low).wait .tRstPulse) (v := .high)
    (by rw [Link.wait_env, he]; exact hk) (by rw [Link.wait_env, he]; simpa using hb) (by decide)
  rw [Link.wait_env, he] at hholds hfuse
  exact ⟨hmode, ⟨hholds.flash.trans (Target.resetLine_flash ..), hholds.eeprom.trans (Target.resetLine_eeprom ..)⟩,
    fun k => (hfuse k).trans (Target.fuse_resetLine ..)⟩

theorem guarded_reset_ok {α : Type} {s : State} (hw : s.wpend = false) (go : State → Res α) : guarded .reset s go = go s :=
  guarded_ok .reset s go hw nofun

/-- The reset operations with no write cycle pending (R115 to R117). -/
theorem exec_reset_eq {s : State} (hw : s.wpend = false) :
    exec .rstRelease s = .next (State.returned [] { s with link := s.link.driveRst .high, pstate := .idle }) ∧
    exec .rstPulse s = .next (State.returned [] { s with link := s.link.resetPulse, pstate := .idle }) ∧
    exec .linkRelease s = .next (State.returned [] { s with link := s.link.release, pstate := .idle }) := by
  refine ⟨?_, ?_, ?_⟩
  · show execRstRelease s = _
    rw [execRstRelease, guarded_reset_ok hw]; rfl
  · show execRstPulse s = _
    rw [execRstPulse, guarded_reset_ok hw]; rfl
  · show execLinkRelease s = _
    rw [execLinkRelease, linkRelease_eq s hw]; rfl

/-- `PGM_ENTER` against a target in sync at the first attempt (R132, R133). -/
theorem exec_pgmEnter_inSync {s : State} (hw : s.wpend = false) (hk : s.link.env.kind = .reference)
    (hb : s.link.env.target.busy = some 0) (hr : s.link.rst ≠ .low ∨ s.link.env.target.rx = [])
    (hn : s.link.env.target.nextSync = true) :
    exec .pgmEnter s = .next (State.returned [boolCode true] { s with
      link := (s.link.attempt.frame progEnableFrame).2
      attempt := 1, pstate := .programming, syncOk := true, fuseDirty := false }) := by
  have he := Link.attempt_env hk hb hr
  have hecho : (s.link.attempt.frame progEnableFrame).1.b2 = Config.syncEcho :=
    Link.frame_echo (by rw [he]; exact hk) (by rw [he]) (by rw [he]; simp [Link.attempt, Target.inSync, hn])
  show execPgmEnter s = _
  rw [execPgmEnter, pgmEnter, guarded_reset_ok hw, Config.syncAttempts, syncLoop_succ _ _ rfl, if_pos hecho]
  rfl

/-- Settles O55: the attempt finds the target at a frame boundary, reset asserted and settled; a release acts on the mode alone. -/
theorem targetSynchronises : Obligations.TargetSynchronises := by
  intro s hw hk hb
  refine ⟨fun hr hn => ⟨_, exec_pgmEnter_inSync hw hk hb hr hn, rfl, rfl, rfl, rfl, ?_⟩, fun ins hins => ?_⟩
  · have he := Link.attempt_env hk hb hr
    have hq : s.link.env.target.Quiet s.link.attempt.env.target := by rw [he]; exact ⟨⟨rfl, rfl⟩, rfl, hb⟩
    have hsettled : s.link.attempt.env.target.settled = true := by rw [he]
    have hframe := Link.frame_progEnable (l := s.link.attempt) (by rw [he]; exact hk) hq.rx hq.busy
    obtain ⟨hmode, hfuse⟩ := Target.progEnable_inSync hsettled (by rw [he]; exact hn)
    have hquiet := hq.progEnable hsettled
    rw [← show s.link.attempt.rst = .low from rfl, ← hframe] at hmode hfuse hquiet
    refine ⟨hmode, hquiet.rx, hquiet.busy, hquiet.toHolds.sameMemory, fun k => ?_⟩
    rw [fuseAt_eq, fuseAt_eq]
    refine (hfuse k).trans ?_
    rw [he]
    cases k <;> rfl
  · obtain ⟨hrelease, hpulse, hlink⟩ := exec_reset_eq hw
    have kept {l : Link} {p : PState} (h : l.env.target.mode = .running ∧ s.link.env.target.Holds l.env.target ∧
          ∀ k, l.env.target.fuse k = s.link.env.target.fuse k)
        (hx : exec ins s = .next (State.returned [] { s with link := l, pstate := p })) :
        ∃ t, exec ins s = .next t ∧ t.link.env.target.mode = .running ∧ SameMemory s t ∧ ∀ k, fuseAt t k = fuseAt s k := by
      obtain ⟨hmode, hholds, hfuse⟩ := h
      exact ⟨_, hx, hmode, hholds.sameMemory, fun k => by rw [fuseAt_eq, fuseAt_eq]; exact hfuse k⟩
    simp only [List.mem_cons, List.not_mem_nil, or_false] at hins
    rcases hins with rfl | rfl | rfl
    · exact kept (Link.driveRst_releases hk hb (by decide)) hrelease
    · exact kept (Link.resetPulse_releases hk hb) hpulse
    · exact kept (Link.driveRst_releases (l := (s.link.driveSck .hiZ).driveMosi .hiZ) hk hb (by decide)) hlink

/-! ### What the target answers -/

theorem Target.Holds.tick (t : Target) : t.Holds t.tick := ⟨rfl, rfl⟩

theorem Link.Idle.read {l : Link} (h : l.Idle) {f : IspFrame} {i : Instr} (hf : decodeFrame f = some i)
    (hi : isReadFrame i = true) : (l.frame f).2.env.target = l.env.target.tick ∧ (l.frame f).2.Idle := by
  have ht := Link.frame_read h.kind h.rx h.busy hf hi
  exact ⟨ht, ⟨by rw [Link.frame_kind, h.kind], by rw [ht]; exact h.mode, by rw [ht]; exact h.rx⟩, by rw [ht]; exact h.busy⟩

theorem Link.Ready.read {l : Link} (h : l.Ready) {f : IspFrame} {i : Instr} (hf : decodeFrame f = some i)
    (hi : isReadFrame i = true) : (l.frame f).2.Ready := by
  obtain ⟨ht, hidle⟩ := h.toIdle.read hf hi
  exact ⟨hidle, by rw [ht]; exact h.ext, by rw [ht]; exact h.altered⟩

/-- An idle target answers a read frame with the byte its rule gives (R73). -/
theorem Link.Idle.answers {l : Link} (h : l.Idle) {f : IspFrame} {i : Instr} {b : Byte} (hf : decodeFrame f = some i)
    (ha : l.env.target.forbids i = false) (hb : l.env.target.readAnswer i = some b) : (l.frame f).1.b3 = b := by
  refine Link.frame_reply_known h.kind h.rx f ?_
  simp only [Target.lastReply, h.mode, hf]
  split
  · next heq => cases heq
  · next heq => cases heq; simp [Target.readAnswer] at hb
  · next heq => cases heq; simp [Target.isBusy, h.busy, ha, hb]

/-- A memory of the target. -/
def Target.memory (t : Target) : Region → Memory
  | .flash => t.flash
  | .eeprom => t.eeprom

/-- With context 0, a read frame is answered with the byte at its address (R76, R77). -/
theorem Target.readAnswer_readInstr {t : Target} (he : t.ext = 0#8) {region : Region} {a : Addr} (ha : a.toNat < capacity region) :
    t.readAnswer (readInstr region a) = some (Memory.read (t.memory region) a.toNat) := by
  cases region with
  | eeprom => simp [readInstr, Target.readAnswer, Target.eepromRead, Target.memory, show a.toNat < Config.eeSize from ha]
  | flash =>
    have hw : (wordAddr a).toNat = a.toNat / 2 := by simp [wordAddr, Nat.shiftRight_eq_div_pow]
    have hlt : a.toNat / 2 < Config.flashWords := by
      simp only [capacity, Config.flashSize] at ha
      simp only [Config.flashWords]; omega
    have hbit : a.getLsbD 0 = decide (a.toNat % 2 = 1) := by rw [BitVec.getLsbD, Nat.testBit_zero]
    simp only [readInstr, hbit, decide_eq_true_eq]
    split
    · simp [Target.readAnswer, Target.flashRead, Target.memory, hw, hlt, he, show 2 * (a.toNat / 2) + 1 = a.toNat by omega]
    · simp [Target.readAnswer, Target.flashRead, Target.memory, hw, hlt, he, show 2 * (a.toNat / 2) = a.toNat by omega]

/-- A target that gives all its answers reads a byte back (R73, R76, R77). -/
theorem Link.Ready.readFrame {l : Link} (h : l.Ready) {region : Region} {a : Addr} (ha : a.toNat < capacity region) :
    (l.frame (readFrame region a)).1.b3 = Memory.read (l.env.target.memory region) a.toNat ∧
    (l.frame (readFrame region a)).2.Ready ∧ (l.frame (readFrame region a)).2.env.target = l.env.target.tick := by
  have hf := decodeFrame_readFrame region a
  have hi := isReadFrame_readInstr region a
  exact ⟨h.toIdle.answers hf (Target.forbids_of_not_altered h.altered _) (Target.readAnswer_readInstr h.ext ha), h.read hf hi,
    (h.toIdle.read hf hi).1⟩

/-- A read as a host operation, with no write cycle pending: the fourth reply byte (R151, R158, R160). -/
theorem readReply_finish {s : State} {f : IspFrame} {i : Instr} (hw : s.wpend = false) (hf : decodeFrame f = some i)
    (hi : isReadFrame i = true) :
    ((readReply f s).finish fun b => [b]) =
      .next (State.returned [(s.link.frame f).1.b3] { s with link := (s.link.frame f).2 }) := by
  have hfuse : isFuseWriteFrame f = false := by
    unfold isFuseWriteFrame
    rw [hf]
    cases i <;> simp [isReadFrame] at hi ⊢
  rw [readReply, guarded_ok _ _ _ hw (by simp [HazardKind.isFuseWrite, hfuse])]
  rfl

/-- The instruction of the read frame of a fuse or lock byte (R158). -/
def fuseReadInstr : FuseKind → Instr
  | .low => .readFuseLo
  | .high => .readFuseHi
  | .extended => .readFuseExt
  | .lock => .readLock

theorem Target.fuseRead_old_or_new (t : Target) (c : FuseCell) : t.fuseRead c = c.old ∨ t.fuseRead c = c.new := by
  unfold Target.fuseRead
  split
  · exact .inl rfl
  · split <;> [exact .inr rfl; exact .inl rfl]

/-- An operation that is one read frame, against an idle target: the byte answered, and the target as it was. -/
theorem readReply_answers {s : State} (h : s.link.Idle) (hw : s.wpend = false) {f : IspFrame} {i : Instr} {b : Byte}
    (hf : decodeFrame f = some i) (hi : isReadFrame i = true) (ha : s.link.env.target.forbids i = false)
    (hb : s.link.env.target.readAnswer i = some b) :
    ∃ t, ((readReply f s).finish fun b => [b]) = .next t ∧ t.response = [0#8, b] ∧ t.link = (s.link.frame f).2 ∧
      TargetEnabled t ∧ SameMemory s t ∧ ∀ j, fuseAt t j = fuseAt s j := by
  obtain ⟨ht, hidle⟩ := h.read hf hi
  have hholds : s.link.env.target.Holds (s.link.frame f).2.env.target := by rw [ht]; exact .tick _
  refine ⟨_, readReply_finish hw hf hi, by rw [h.answers hf ha hb]; rfl, rfl, targetEnabled_iff.mpr hidle, hholds.sameMemory,
    fun j => ?_⟩
  rw [fuseAt_eq, fuseAt_eq]
  show (s.link.frame f).2.env.target.fuse j = _
  rw [ht]
  cases j <;> rfl

/-- Settles O56: each read operation is one read frame. -/
theorem targetAnswersReads : Obligations.TargetAnswersReads := by
  intro s henabled hw
  have hidle := targetEnabled_iff.mp henabled
  refine ⟨fun hr => ?_, fun k => ?_, fun i b hib => ?_⟩
  · have hready := targetReady_iff.mp hr
    have read (region : Region) (a : Addr) (ha : a.toNat < capacity region) : ∃ t,
        ((rdByte region a s).finish fun b => [b]) = .next t ∧
        t.response = [0#8, Memory.read (s.link.env.target.memory region) a.toNat] ∧ TargetReady t ∧ SameMemory s t := by
      have hf := decodeFrame_readFrame region a
      have hi := isReadFrame_readInstr region a
      obtain ⟨t, hx, hresp, hlink, -, hmem, -⟩ := readReply_answers hidle hw hf hi
        (Target.forbids_of_not_altered hready.altered _) (Target.readAnswer_readInstr hready.ext ha)
      rw [rdByte_eq_readReply ha]
      exact ⟨t, hx, hresp, targetReady_iff.mpr (by rw [hlink]; exact hready.read hf hi), hmem⟩
    exact ⟨read .flash, read .eeprom⟩
  · have hf : decodeFrame (readFuseFrame k) = some (fuseReadInstr k) := by cases k <;> rfl
    have hb : s.link.env.target.readAnswer (fuseReadInstr k) = some (s.link.env.target.fuseRead (fuseAt s k)) := by cases k <;> rfl
    have hopen : reachesMemory (fuseReadInstr k) = false := by cases k <;> rfl
    obtain ⟨t, hx, hresp, -, hen, hmem, hfuse⟩ := readReply_answers hidle hw hf (by cases k <;> rfl)
      (Target.forbids_of_not_reachesMemory _ hopen) hb
    refine ⟨t, hx, ?_, hen, hmem, hfuse⟩
    rw [hresp]
    exact (Target.fuseRead_old_or_new _ (fuseAt s k)).imp (by rw [·]) (by rw [·])
  · have hi3 : i.toNat < 3 := by
      simp only [List.mem_cons, Prod.mk.injEq, List.not_mem_nil, or_false] at hib
      rcases hib with ⟨rfl, -⟩ | ⟨rfl, -⟩ | ⟨rfl, -⟩ <;> decide
    have hb : s.link.env.target.readAnswer (.readSig i) = some b := by
      simp only [List.mem_cons, Prod.mk.injEq, List.not_mem_nil, or_false] at hib
      rcases hib with ⟨rfl, rfl⟩ | ⟨rfl, rfl⟩ | ⟨rfl, rfl⟩ <;> rfl
    obtain ⟨t, hx, hresp, -, hen, hmem, -⟩ := readReply_answers (f := readSigFrame i) hidle hw rfl rfl
      (Target.forbids_of_not_reachesMemory _ rfl) hb
    refine ⟨t, Eq.trans ?_ hx, hresp, hen, hmem⟩
    show execRdSig i s = _
    rw [execRdSig, if_pos hi3]

end Sys2Proof.Machine

/-! ### What the writes of the target store (spec/20_memory.md R75 to R78) -/

namespace Sys2Proof.Machine

/-- A page written whole: its bytes are those written, every other byte is as it was. -/
theorem Memory.read_writeRange_page {m : Memory} (hm : Memory.wf m) {n : Nat} (hn : 0 < n) (p x : Nat) (f : Nat → Byte) :
    Memory.read (Memory.writeRange m (n * p) n f) x = if x / n = p then f (x % n) else Memory.read m x := by
  split
  · next hp =>
    subst hp
    simpa only [Nat.div_add_mod] using Memory.read_writeRange_in hm (n * (x / n)) f (Nat.mod_lt x hn)
  · next hp =>
    refine Memory.read_writeRange_out m (n * p) n f ?_
    by_contra hin
    exact hp (Nat.div_eq_of_lt_le (by rw [Nat.mul_comm]; omega) (by rw [Nat.succ_mul, Nat.mul_comm]; omega))

/-- A commit has started its write cycle: `u` is as `t` in mode, frame boundary and openness, and busy for the polls drawn (R74). -/
structure Target.Committed (t u : Target) : Prop where
  mode : u.mode = t.mode
  rx : u.rx = t.rx
  ext : u.ext = t.ext
  altered : u.altered = t.altered
  busy : u.busy = t.nextBusy

/-- The bytes a page commit stores in page `p` (R76, R77). -/
def Target.pageBytes (t : Target) : Region → Nat → Nat → Byte
  | .flash, p => if t.pageErased p then t.latch else Config.tgtFlashRewrite t.draws
  | .eeprom, _ => t.eeLatch

/-- A page commit: the page `p` of the region holds the bytes stored, every other byte is as it was. -/
structure Target.PageWritten (t : Target) (region : Region) (p : Nat) (u : Target) : Prop extends t.Committed u where
  page : ∀ x, Memory.read (u.memory region) x =
    if x / pageSize region = p then t.pageBytes region p (x % pageSize region) else Memory.read (t.memory region) x
  other : ∀ r, r ≠ region → u.memory r = t.memory r

theorem Target.pageWritten_writeFlashPage {t : Target} (hm : Memory.wf t.flash) (he : t.ext = 0#8) {w : Addr}
    (hw : w.toNat < Config.flashWords) : t.PageWritten .flash (w.toNat / 64) (t.writeFlashPage w) := by
  rw [Target.writeFlashPage, if_pos hw, if_pos he]
  refine ⟨⟨rfl, rfl, rfl, rfl, rfl⟩, fun x => ?_, fun r hr => ?_⟩
  · exact Memory.read_writeRange_page hm (by decide) _ x _
  · cases r with
    | flash => exact absurd rfl hr
    | eeprom => rfl

theorem Target.pageWritten_writeEepromPage {t : Target} (hm : Memory.wf t.eeprom) {a : Addr} (ha : a.toNat < Config.eeSize) :
    t.PageWritten .eeprom (a.toNat / 4) (t.writeEepromPage a) := by
  rw [Target.writeEepromPage, if_pos ha]
  refine ⟨⟨rfl, rfl, rfl, rfl, rfl⟩, fun x => ?_, fun r hr => ?_⟩
  · exact Memory.read_writeRange_page hm (by decide) _ x _
  · cases r with
    | flash => rfl
    | eeprom => exact absurd rfl hr

/-- The commit of the page at `base` (R154, R155). -/
def Target.commitPage (t : Target) : Region → Addr → Target
  | .flash, base => t.writeFlashPage (wpage base)
  | .eeprom, base => t.writeEepromPage (epage base)

theorem Target.pageWritten_commitPage {t : Target} {region : Region} (hm : Memory.wf (t.memory region)) (he : t.ext = 0#8) {a : Addr}
    (ha : a.toNat < capacity region) :
    t.PageWritten region (a.toNat / pageSize region) (t.commitPage region (pageBase region a)) := by
  cases region with
  | flash =>
    simp only [capacity, Config.flashSize] at ha
    have hbase : (wpage (pageBase .flash a)).toNat = a.toNat / 128 * 64 := by
      rw [toNat_wpage, toNat_pageBase]; simp only [pageSize, Config.flashPage]; omega
    have hpage : (wpage (pageBase .flash a)).toNat / 64 = a.toNat / pageSize .flash := by
      rw [hbase]; simp only [pageSize, Config.flashPage]; omega
    exact hpage ▸ Target.pageWritten_writeFlashPage hm he (by rw [hbase]; simp only [Config.flashWords]; omega)
  | eeprom =>
    simp only [capacity, Config.eeSize] at ha
    have hbase : (epage (pageBase .eeprom a)).toNat = a.toNat / 4 * 4 := by
      rw [toNat_epage, toNat_pageBase]; simp only [pageSize, Config.eePage]; omega
    have hpage : (epage (pageBase .eeprom a)).toNat / 4 = a.toNat / pageSize .eeprom := by
      rw [hbase]; simp only [pageSize, Config.eePage]; omega
    exact hpage ▸ Target.pageWritten_writeEepromPage hm (by rw [hbase]; simp only [Config.eeSize]; omega)

theorem Target.committed_writeEeprom (t : Target) {a : Addr} (v : Byte) (ha : a.toNat < Config.eeSize) :
    t.Committed (t.writeEeprom a v) := by
  rw [Target.writeEeprom, if_pos ha]
  exact ⟨rfl, rfl, rfl, rfl, rfl⟩

theorem Target.read_writeEeprom {t : Target} (hm : Memory.wf t.eeprom) {a : Addr} (v : Byte) (ha : a.toNat < Config.eeSize) :
    (∀ x, Memory.read (t.writeEeprom a v).eeprom x = if x = a.toNat then v else Memory.read t.eeprom x) ∧
    (t.writeEeprom a v).flash = t.flash := by
  rw [Target.writeEeprom, if_pos ha]
  refine ⟨fun x => ?_, rfl⟩
  show Memory.read (Memory.write t.eeprom a.toNat v) x = _
  split
  · next hx => rw [hx, Memory.read_write_self hm.1]
  · next hx => exact Memory.read_write_of_ne t.eeprom v hx

/-- What a chip erase leaves in the memories (R75); the mode and the frame boundary stay. -/
theorem Target.chipErase_eq (t : Target) :
    t.chipErase.flash = [] ∧ t.chipErase.eeprom = (if t.eraseEe then [] else t.eeprom) ∧
    t.chipErase.mode = t.mode ∧ t.chipErase.rx = t.rx := by
  unfold Target.chipErase Target.startCycle
  cases t.eraseEe <;> cases t.eraseLock <;> simp

/-- A fuse or lock write: its own byte will take effect at the next re-entry, every other byte is as it was (R78). -/
structure Target.FuseWritten (t : Target) (k : FuseKind) (v : Byte) (u : Target) : Prop extends t.Holds u where
  own : u.fuse k = ⟨(t.fuse k).old, if t.locked then Config.tgtLockedWrite t.draws else v⟩
  others : ∀ j, j ≠ k → u.fuse j = t.fuse j

theorem Target.fuseWritten_writeFuse {t : Target} (hp : t.fusePending = false) (k : FuseKind) (v : Byte) :
    t.FuseWritten k v (t.writeFuse k v) ∧ (t.writeFuse k v).mode = t.mode ∧ (t.writeFuse k v).rx = t.rx := by
  rw [Target.writeFuse, if_neg (by simp [hp])]
  cases k <;> refine ⟨⟨⟨rfl, rfl⟩, rfl, fun j hj => ?_⟩, rfl, rfl⟩ <;> cases j <;>
    simp [Target.fuse, Target.startCycle] at hj ⊢

theorem Target.FuseWritten.polled {t u : Target} {k : FuseKind} {v : Byte} (h : t.FuseWritten k v u) : t.FuseWritten k v u.polled := by
  have hf (j : FuseKind) : u.polled.fuse j = u.fuse j := by cases j <;> rfl
  exact ⟨⟨h.flash, h.eeprom⟩, (hf k).trans h.own, fun j hj => (hf j).trans (h.others j hj)⟩

/-! ### The write buffers (R76, R77) -/

/-- A write buffer of the target. -/
def Target.buffer (t : Target) : Region → List Host.Cell
  | .flash => t.flashBuf
  | .eeprom => t.eeBuf

/-- The target with other bytes in a write buffer. -/
def Target.withBuffer (t : Target) : Region → List Host.Cell → Target
  | .flash, cells => { t with flashBuf := cells }
  | .eeprom, cells => { t with eeBuf := cells }

/-- A buffer into which bytes are loaded from offset `j` on. -/
def loadCells : List Host.Cell → Nat → List Byte → List Host.Cell
  | cells, _, [] => cells
  | cells, j, v :: buf => loadCells (putCell cells j v) (j + 1) buf

theorem findCell_putCell (cells : List Host.Cell) (a : Nat) (v : Byte) (b : Nat) :
    findCell (putCell cells a v) b = if b = a then some v else findCell cells b := by
  split
  · next h => rw [h, findCell_putCell_self]
  · next h => exact findCell_putCell_of_ne cells v h

theorem findCell_loadCells_below (buf : List Byte) (cells : List Host.Cell) {j i : Nat} (h : i < j) :
    findCell (loadCells cells j buf) i = findCell cells i := by
  induction buf generalizing cells j with
  | nil => rfl
  | cons v buf ih =>
    rw [loadCells, ih (putCell cells j v) (by omega), findCell_putCell, if_neg (by omega)]

/-- A loaded byte stands at its offset. -/
theorem findCell_loadCells (buf : List Byte) (cells : List Host.Cell) (j : Nat) {i : Nat} (h : i < buf.length) :
    findCell (loadCells cells j buf) (j + i) = some (buf.getD i 0#8) := by
  induction buf generalizing cells j i with
  | nil => simp at h
  | cons v buf ih =>
    rw [loadCells]
    cases i with
    | zero => rw [findCell_loadCells_below buf _ (by omega), findCell_putCell, if_pos (Nat.add_zero j)]; rfl
    | succ i =>
      rw [show j + (i + 1) = j + 1 + i by omega, ih _ _ (by simpa using h)]
      rfl

/-- The instruction of a load frame (R154, R155). -/
def loadInstr : Region → Nat → Byte → Instr
  | .flash, j, v => if j % 2 = 0 then .loadFlashLo (BitVec.ofNat 8 (j / 2)) v else .loadFlashHi (BitVec.ofNat 8 (j / 2)) v
  | .eeprom, j, v => .loadEepromPage (BitVec.ofNat 8 j) v

theorem decodeFrame_loadFrame (region : Region) (j : Nat) (v : Byte) :
    decodeFrame (loadFrame region j v) = some (loadInstr region j v) := by
  cases region with
  | flash => simp only [loadFrame, loadInstr]; split <;> rfl
  | eeprom => rfl

theorem Target.loadFlash_eq {t : Target} (he : t.ext = 0#8) {i : Byte} (hi : i.toNat < 64) (odd : Nat) (v : Byte) :
    t.loadFlash i odd v = t.withBuffer .flash (putCell t.flashBuf (2 * i.toNat + odd) v) := by
  rw [Target.loadFlash, if_pos (show i.toNat < Config.flashPageWords from hi), if_pos he]; rfl

theorem Target.loadEeprom_eq (t : Target) {i : Byte} (hi : i.toNat < 4) (v : Byte) :
    t.loadEeprom i v = t.withBuffer .eeprom (putCell t.eeBuf i.toNat v) := by
  rw [Target.loadEeprom, if_pos (show i.toNat < Config.eePage from hi)]; rfl

/-- A load within the page stores its byte at its offset (R76, R77). -/
theorem Target.command_loadInstr {t : Target} (he : t.ext = 0#8) {region : Region} {j : Nat} (hj : j < pageSize region) (v : Byte) :
    t.command (loadInstr region j v) = t.withBuffer region (putCell (t.buffer region) j v) := by
  cases region with
  | flash =>
    simp only [pageSize, Config.flashPage] at hj
    have hi : (BitVec.ofNat 8 (j / 2)).toNat = j / 2 := by rw [BitVec.toNat_ofNat]; omega
    simp only [loadInstr]
    split
    · next hodd =>
      rw [Target.command, Target.loadFlash_eq he (by omega), hi, show 2 * (j / 2) + 0 = j by omega]; rfl
    · next hodd =>
      rw [Target.command, Target.loadFlash_eq he (by omega), hi, show 2 * (j / 2) + 1 = j by omega]; rfl
  | eeprom =>
    simp only [pageSize, Config.eePage] at hj
    have hi : (BitVec.ofNat 8 j).toNat = j := by rw [BitVec.toNat_ofNat]; omega
    rw [loadInstr, Target.command, Target.loadEeprom_eq t (by omega), hi]; rfl

theorem Link.Ready.withBuffer {l l' : Link} (h : l.Ready) (hk : l'.env.kind = l.env.kind) {region : Region} {cells : List Host.Cell}
    (ht : l'.env.target = l.env.target.withBuffer region cells) : l'.Ready := by
  obtain ⟨⟨⟨hkind, hmode, hrx⟩, hbusy⟩, hext, haltered⟩ := h
  refine ⟨⟨⟨hk.trans hkind, ?_, ?_⟩, ?_⟩, ?_, ?_⟩ <;> rw [ht] <;> cases region <;> assumption

theorem Link.Ready.load {l : Link} (h : l.Ready) {region : Region} {j : Nat} (hj : j < pageSize region) (v : Byte) :
    (l.frame (loadFrame region j v)).2.env.target = l.env.target.withBuffer region (putCell (l.env.target.buffer region) j v) := by
  have hn : loadInstr region j v ≠ .pollRdy ∧ loadInstr region j v ≠ .progEnable ∧ isReadFrame (loadInstr region j v) = false := by
    cases region with
    | flash => simp only [loadInstr]; split <;> exact ⟨nofun, nofun, rfl⟩
    | eeprom => exact ⟨nofun, nofun, rfl⟩
  rw [h.command (decodeFrame_loadFrame region j v) hn.1 hn.2.1 hn.2.2, Target.command_loadInstr h.ext hj]

/-- The load frames of a page leave its bytes in the write buffer (R154, R155). -/
theorem Link.Ready.loadPage {region : Region} (buf : List Byte) {j : Nat} {l : Link} (h : l.Ready)
    (hfit : j + buf.length ≤ pageSize region) :
    (l.loadPage region j buf).Ready ∧
    (l.loadPage region j buf).env.target =
      l.env.target.withBuffer region (loadCells (l.env.target.buffer region) j buf) := by
  induction buf generalizing j l with
  | nil => exact ⟨h, by cases region <;> rfl⟩
  | cons v buf ih =>
    simp only [List.length_cons] at hfit
    have ht := h.load (region := region) (j := j) (by omega) v
    obtain ⟨hready, htarget⟩ := ih (j := j + 1) (h.withBuffer (Link.frame_kind _ l) ht) (by omega)
    refine ⟨hready, htarget.trans ?_⟩
    rw [ht]
    cases region <;> rfl

/-! ### The commits of the block's operations against the target (R153 to R159) -/

theorem Link.Enabled.of_committed {l l' : Link} (h : l.Enabled) (hk : l'.env.kind = l.env.kind) {u : Target}
    (hu : l'.env.target = u) (hmode : u.mode = l.env.target.mode) (hrx : u.rx = l.env.target.rx) : l'.Enabled := by
  subst hu
  exact ⟨hk.trans h.kind, hmode.trans h.mode, hrx.trans h.rx⟩

/-- The instruction of a page write frame. -/
def pageInstr : Region → Addr → Instr
  | .flash, base => .writeFlashPage (hiByte (wpage base)) (loByte (wpage base))
  | .eeprom, base => .writeEepromPage (hiByte (epage base)) (loByte (epage base))

theorem Link.Ready.pageFrame {l : Link} (h : l.Ready) (region : Region) (base : Addr) :
    (l.frame (pageFrame region base)).2.env.target = l.env.target.commitPage region base := by
  have hf : decodeFrame (Machine.pageFrame region base) = some (pageInstr region base) := by cases region <;> rfl
  have hc : l.env.target.command (pageInstr region base) = l.env.target.commitPage region base := by
    cases region <;> simp [pageInstr, Target.command, Target.commitPage]
  rw [← hc]
  cases region <;> exact h.command hf nofun nofun rfl

/-- The target behind a link, as the load and page write frames of the page of `a` leave it. -/
def Target.writePage (t : Target) (region : Region) (a : Addr) (buf : List Byte) : Target :=
  (t.withBuffer region (loadCells (t.buffer region) 0 buf)).commitPage region (pageBase region a)

theorem Target.memory_withBuffer (t : Target) (r region : Region) (cells : List Host.Cell) :
    (t.withBuffer region cells).memory r = t.memory r := by
  cases region <;> cases r <;> rfl

/-- `WR_PAGE` writes its page alone (R154, R155). -/
theorem Target.pageWritten_writePage {t : Target} {region : Region} (hm : Memory.wf (t.memory region)) (he : t.ext = 0#8) {a : Addr}
    (ha : a.toNat < capacity region) (buf : List Byte) :
    (t.withBuffer region (loadCells (t.buffer region) 0 buf)).PageWritten region (a.toNat / pageSize region)
      (t.writePage region a buf) :=
  Target.pageWritten_commitPage (by rwa [Target.memory_withBuffer]) (by cases region <;> exact he) ha

/-- A page whose bytes are all loaded is committed as loaded: of EEPROM always, of flash where it is erased (R76, R77). -/
theorem Target.pageBytes_loaded {t : Target} {region : Region} {buf : List Byte} (hl : buf.length = pageSize region) {p : Nat}
    (hp : region = .flash → t.pageErased p = true) {j : Nat} (hj : j < pageSize region) :
    (t.withBuffer region (loadCells (t.buffer region) 0 buf)).pageBytes region p j = buf.getD j 0#8 := by
  have hcell (i : Nat) (hi : i < pageSize region) :
      findCell (loadCells (t.buffer region) 0 buf) i = some (buf.getD i 0#8) := by
    simpa using findCell_loadCells buf (t.buffer region) 0 (i := i) (by omega)
  cases region with
  | flash =>
    have he : (t.withBuffer .flash (loadCells (t.buffer .flash) 0 buf)).pageErased p = true := hp rfl
    rw [Target.pageBytes, if_pos he]
    show (findCell (loadCells (t.buffer .flash) 0 buf) j).getD _ = _
    rw [hcell j hj, Option.getD_some]
  | eeprom =>
    have hall : (t.withBuffer .eeprom (loadCells (t.buffer .eeprom) 0 buf)).eeLoaded = true := by
      refine List.all_eq_true.mpr fun i hi => ?_
      exact congrArg Option.isSome (hcell i (List.mem_range.mp hi))
    rw [Target.pageBytes, Target.eeLatch, if_pos hall]
    show (findCell (loadCells (t.buffer .eeprom) 0 buf) j).getD _ = _
    rw [hcell j hj, Option.getD_some]

/-- `WR_PAGE` up to its poll, against a target that gives all its answers. -/
theorem startPage_target {s : State} (h : s.link.Ready) {region : Region} (hm : Memory.wf (s.link.env.target.memory region)) {a : Addr}
    (ha : a.toNat < capacity region) {buf : List Byte} (hl : buf.length = pageSize region) :
    (startPage region a buf s).Ends (fun base t => base = pageBase region a ∧ t.link.Enabled ∧
      t.link.env.target = s.link.env.target.writePage region a buf) fun _ _ => False := by
  unfold startPage
  rw [if_neg (by omega)]
  obtain ⟨hready, htarget⟩ := h.loadPage (region := region) buf (j := 0) (by omega)
  have hpage := hready.pageFrame region (pageBase region a)
  have hwritten := Target.pageWritten_writePage hm h.ext ha buf
  rw [htarget] at hpage
  refine guarded_ends ⟨rfl, hready.toEnabled.of_committed (Link.frame_kind _ _) hpage ?_ ?_, hpage⟩
  · rw [htarget]; exact hwritten.mode
  · rw [htarget]; exact hwritten.rx

/-- `WR_EEBYTE` up to its poll. -/
theorem startEeByte_target {s : State} (h : s.link.Ready) {a : Addr} (ha : a.toNat < capacity .eeprom) (v : Byte) :
    (startEeByte a v s).Ends (fun _ t => t.link.Enabled ∧ t.link.env.target = s.link.env.target.writeEeprom a v)
      fun _ _ => False := by
  unfold startEeByte
  rw [if_neg (by omega)]
  have hframe : (s.link.frame (writeEepromFrame a v)).2.env.target = s.link.env.target.writeEeprom a v := by
    have := h.command (f := writeEepromFrame a v) (i := .writeEeprom (hiByte a) (loByte a) v) rfl nofun nofun rfl
    rwa [Target.command, addrOf_hiByte_loByte] at this
  have hc := s.link.env.target.committed_writeEeprom v ha
  exact guarded_ends ⟨h.toEnabled.of_committed (Link.frame_kind _ _) hframe hc.mode hc.rx, hframe⟩

/-- The start of an operation that raises no error goes on or faults. -/
theorem Res.Ends.orRaise {α : Type} {r : Res α} {next : α → State → Out} {P : State → Prop} {ok : α → State → Prop}
    (h : r.Ends ok fun _ _ => False) (hn : ∀ a t, ok a t → NextIn (next a t) P) : NextIn (r.orRaise next) P := by
  cases r with
  | ok a t => exact hn a t h
  | err e t => exact h.elim
  | fault f => trivial

/-- A commit frame and its poll loop, with nothing left to do after it: the command, polled once (R157, R159). -/
theorem commit_then_poll {s : State} (h : s.link.Idle) {f : IspFrame} {i : Instr} (hf : decodeFrame f = some i)
    (hopen : reachesMemory i = false) (h1 : i ≠ .pollRdy) (h2 : i ≠ .progEnable) (h3 : isReadFrame i = false)
    (hmode : (s.link.env.target.command i).mode = s.link.env.target.mode)
    (hrx : (s.link.env.target.command i).rx = s.link.env.target.rx) {r : Res Unit}
    (hr : r.Ends (fun _ t => t.link = (s.link.frame f).2) fun _ _ => False) :
    NextIn (r.orRaise fun _ => pollThen .plain (finishOk [])) fun t =>
      t.link.env.target = (s.link.env.target.command i).polled := by
  have ht := h.command hf (Target.forbids_of_not_reachesMemory _ hopen) h1 h2 h3
  refine hr.orRaise fun _ t hlink => ?_
  rw [← ht, ← hlink]
  refine pollThen_plain_target ?_
  rw [hlink]
  exact h.toEnabled.of_committed (Link.frame_kind _ _) ht hmode hrx

/-- A frame issued by the host does to the link what the frame does (R131). -/
theorem sendFrame_link (f : IspFrame) (s : State) : NextIn (sendFrame f s) fun t => t.link = (s.link.frame f).2 := by
  have h : (issueFrame f s).Ends (fun _ t => t.link = (s.link.frame f).2) fun _ t => t.link = (s.link.frame f).2 := by
    refine guarded_ends ?_
    unfold noteFrame
    dsimp only
    split <;> rfl
  exact h.finish (fun _ _ ht => ht) fun _ _ ht => ht

/-- A command frame issued by the host. -/
theorem sendFrame_command {s : State} (h : s.link.Idle) {f : IspFrame} {i : Instr} (hf : decodeFrame f = some i)
    (ha : s.link.env.target.forbids i = false) (h1 : i ≠ .pollRdy) (h2 : i ≠ .progEnable) (h3 : isReadFrame i = false) :
    NextIn (sendFrame f s) fun t => t.link.env.target = s.link.env.target.command i :=
  (sendFrame_link f s).mono fun _ ht => by rw [ht, h.command hf ha h1 h2 h3]

end Sys2Proof.Machine

/-! ### What stores nothing (spec/20_memory.md R79) -/

namespace Sys2Proof.Machine

/-- A read frame issued by the host. -/
theorem sendFrame_read_holds {m : Target} {s : State} (h : s.link.Quiet m) {f : IspFrame} {i : Instr} (hf : decodeFrame f = some i)
    (hi : isReadFrame i = true) : HoldsIn (sendFrame f s) m :=
  (sendFrame_link f s).mono fun _ ht => by rw [ht]; exact (h.read hf hi).target.toHolds

/-- A command frame that keeps the memories, issued by the host. -/
theorem sendFrame_command_holds {s : State} (h : s.link.Ready) {f : IspFrame} {i : Instr} (hf : decodeFrame f = some i)
    (h1 : i ≠ .pollRdy) (h2 : i ≠ .progEnable) (h3 : isReadFrame i = false)
    (hc : s.link.env.target.Holds (s.link.env.target.command i)) : HoldsIn (sendFrame f s) s.link.env.target :=
  (sendFrame_command h.toIdle hf (Target.forbids_of_not_altered h.altered i) h1 h2 h3).mono fun _ ht => by rw [ht]; exact hc

theorem Target.Holds.withBuffer (t : Target) (region : Region) (cells : List Host.Cell) : t.Holds (t.withBuffer region cells) := by
  cases region <;> exact ⟨rfl, rfl⟩

theorem execPollRdy_holds {s : State} (h : s.link.Enabled) : HoldsIn (execPollRdy s) s.link.env.target :=
  (sendFrame_link pollFrame s).mono fun _ ht => by rw [ht, Link.frame_polled h.kind h.rx]; exact ⟨rfl, rfl⟩

theorem execProgEnable_holds {s : State} (h : s.link.Idle) (hr : s.link.rst = .low) (hs : s.link.env.target.settled = true) :
    HoldsIn (execProgEnable s) s.link.env.target :=
  (sendFrame_link progEnableFrame s).mono fun _ ht => by
    rw [ht, Link.frame_progEnable h.kind h.rx h.busy, hr]
    exact (h.quiet.target.progEnable hs).toHolds

/-- One byte sent at a frame boundary is kept as the first of a frame (R80). -/
theorem execXfer_holds (tx : Byte) {s : State} (h : s.link.Idle) : HoldsIn (execXfer tx s) s.link.env.target := by
  have ht : s.link.env.target.Holds (s.link.xfer tx).2.env.target := by
    obtain ⟨rx, env, hx, -, -, henv⟩ := s.link.xfer_spec tx
    rw [hx]
    show s.link.env.target.Holds env.target
    rw [henv, Env.onTarget_reference h.kind, Target.take, h.rx]
    exact ⟨rfl, rfl⟩
  exact Res.Ends.finish (ok := fun _ t => s.link.env.target.Holds t.link.env.target) (err := fun _ _ => False)
    (guarded_ends ht) (fun _ _ hu => hu) fun _ _ hu => hu.elim

theorem execRstAssert_holds {m : Target} {s : State} (h : s.link.Quiet m) : HoldsIn (execRstAssert s) m := by
  refine Res.StaysQuiet.finish (guarded_ends ?_) _
  exact h.driveRst .low

theorem execRstRelease_holds {m : Target} {s : State} (h : s.link.Quiet m) : HoldsIn (execRstRelease s) m := by
  refine Res.StaysQuiet.finish (guarded_ends ?_) _
  exact h.driveRst .high

theorem execRstPulse_holds {m : Target} {s : State} (h : s.link.Quiet m) : HoldsIn (execRstPulse s) m := by
  refine Res.StaysQuiet.finish (guarded_ends ?_) _
  exact h.resetPulse

theorem execRdFuse_holds (k : FuseKind) {m : Target} {s : State} (h : s.link.Quiet m) : HoldsIn (execRdFuse k s) m :=
  (readReply_staysQuiet h (i := fuseReadInstr k) (by cases k <;> rfl) (by cases k <;> rfl)).finish _

theorem execRdSig_holds (i : Byte) {m : Target} {s : State} (h : s.link.Quiet m) : HoldsIn (execRdSig i s) m := by
  unfold execRdSig
  split
  · exact (readReply_staysQuiet h (f := readSigFrame i) (i := .readSig i) rfl rfl).finish _
  · exact h.target.toHolds

theorem execSetExt_holds (v : Byte) {s : State} (h : s.link.Ready) : HoldsIn (execSetExt v s) s.link.env.target := by
  have hf := h.command (f := extFrame v) (i := .loadExtAddr v) rfl nofun nofun rfl
  have hs : (setExt v s).Ends (fun _ t => s.link.env.target.Holds t.link.env.target) fun _ _ => False := by
    refine guarded_ends ?_
    show s.link.env.target.Holds (s.link.frame (extFrame v)).2.env.target
    rw [hf]
    exact ⟨rfl, rfl⟩
  exact hs.finish (fun _ _ hu => hu) fun _ _ hu => hu.elim

theorem execHexDecode_holds (text : List Byte) (s : State) : HoldsIn (execHexDecode text s) s.link.env.target := by
  unfold execHexDecode
  split
  · exact (decodeRecord_ends text s).finish (fun _ _ ht => by rw [ht.1]; exact .refl _) fun _ _ ht => by rw [ht.2]; exact .refl _
  · exact Target.Holds.refl _

theorem execHexEncData_holds (a : Addr) (bytes : List Byte) (s : State) : HoldsIn (execHexEncData a bytes s) s.link.env.target := by
  unfold execHexEncData
  split
  · split <;> exact Target.Holds.refl _
  · exact Target.Holds.refl _

/-- The instruction of the write frame of a fuse or lock byte (R159). -/
def fuseWriteInstr (v : Byte) : FuseKind → Instr
  | .low => .writeFuseLo v
  | .high => .writeFuseHi v
  | .extended => .writeFuseExt v
  | .lock => .writeLock v

/-- A fuse or lock write of the host, as a frame or as `WR_FUSE`: the target's byte is written, and at most polled once (R78). -/
theorem exec_fuseWritten {s : State} (h : s.link.Idle) (hp : s.link.env.target.fusePending = false) (k : FuseKind) (v : Byte) :
    (NextIn (exec (fuseWriteInstr v k) s) fun t => s.link.env.target.FuseWritten k v t.link.env.target) ∧
    (NextIn (exec (.wrFuse k v) s) fun t => s.link.env.target.FuseWritten k v t.link.env.target) := by
  obtain ⟨hwritten, hmode, hrx⟩ := Target.fuseWritten_writeFuse hp k v
  have hf : decodeFrame (writeFuseFrame k v) = some (fuseWriteInstr v k) := by cases k <;> rfl
  have hc : s.link.env.target.command (fuseWriteInstr v k) = s.link.env.target.writeFuse k v := by cases k <;> rfl
  have hopen : reachesMemory (fuseWriteInstr v k) = false := by cases k <;> rfl
  have hpoll : fuseWriteInstr v k ≠ .pollRdy := by cases k <;> nofun
  have henable : fuseWriteInstr v k ≠ .progEnable := by cases k <;> nofun
  have hread : isReadFrame (fuseWriteInstr v k) = false := by cases k <;> rfl
  rw [← hc] at hmode hrx hwritten
  constructor
  · have hx : exec (fuseWriteInstr v k) s = sendFrame (writeFuseFrame k v) s := by cases k <;> rfl
    rw [hx]
    exact (sendFrame_command h hf (Target.forbids_of_not_reachesMemory _ hopen) hpoll henable hread).mono
      fun _ ht => by rw [ht]; exact hwritten
  · have hstart : (startFuse k v s).Ends (fun _ t => t.link = (s.link.frame (writeFuseFrame k v)).2) fun _ _ => False :=
      guarded_ends rfl
    show NextIn (execWrFuse k v s) _
    rw [execWrFuse_eq]
    exact (commit_then_poll h hf hopen hpoll henable hread hmode hrx hstart).mono
      fun _ ht => by rw [ht]; exact hwritten.polled

/-- Settles O59: a read, a drive or a poll keeps the memories by the rule of its frame, a load or a fuse write by its command. -/
theorem storesNothing : Obligations.StoresNothing := by
  intro s t ins i hi lo val tx a k text bytes hr ht hins
  have hready := targetReady_iff.mp hr
  have hidle := hready.toIdle
  have hq := hidle.quiet
  refine Target.Holds.sameMemory (NextIn.of_next (P := fun t => s.link.env.target.Holds t.link.env.target) ?_ ht)
  rcases hins with hins | ⟨hpage, hins⟩ | ⟨hpage, rfl⟩ | ⟨hrst, hsettled, rfl⟩ | ⟨hpending, hins⟩
  · simp only [List.mem_append, List.mem_cons, List.not_mem_nil, or_false, or_assoc] at hins
    rcases hins with rfl | rfl | rfl | rfl | rfl | rfl | rfl | rfl | rfl | rfl | rfl | rfl | rfl | rfl | rfl | rfl | rfl | rfl |
      rfl | rfl | rfl | rfl | rfl | rfl | rfl | rfl | rfl
    · exact execPollRdy_holds hidle.toEnabled
    · exact sendFrame_read_holds (i := .readSig i) hq rfl rfl
    · exact sendFrame_read_holds (i := .readFuseLo) hq rfl rfl
    · exact sendFrame_read_holds (i := .readFuseHi) hq rfl rfl
    · exact sendFrame_read_holds (i := .readFuseExt) hq rfl rfl
    · exact sendFrame_read_holds (i := .readLock) hq rfl rfl
    · exact sendFrame_read_holds (i := .readEeprom hi lo) hq rfl rfl
    · exact sendFrame_read_holds (i := .readFlashLo hi lo) hq rfl rfl
    · exact sendFrame_read_holds (i := .readFlashHi hi lo) hq rfl rfl
    · exact sendFrame_command_holds (i := .loadExtAddr val) hready rfl nofun nofun rfl ⟨rfl, rfl⟩
    · exact execXfer_holds tx hidle
    · exact execRstAssert_holds hq
    · exact execRstRelease_holds hq
    · exact execRstPulse_holds hq
    · exact (linkRelease_staysQuiet hq).finish _
    · exact (pgmEnter_staysQuiet hq).finish _
    · exact pollThen_holds hidle.toEnabled (.refl _) fun _ hu => hu.target.toHolds
    · exact (rdByte_staysQuiet .flash a hq).finish _
    · exact (rdByte_staysQuiet .eeprom a hq).finish _
    · exact execRdFuse_holds k hq
    · exact execRdSig_holds i hq
    · exact execSetExt_holds val hready
    · exact execHexDecode_holds text s
    · exact execHexEncData_holds a bytes s
    · exact Target.Holds.refl _
    · exact execProgBeginEeprom_holds hq
    · exact Target.Holds.refl _
  · simp only [List.mem_cons, List.not_mem_nil, or_false] at hins
    rcases hins with rfl | rfl
    · refine sendFrame_command_holds (i := .loadFlashLo i val) hready rfl nofun nofun rfl ?_
      rw [Target.command, Target.loadFlash_eq hready.ext hpage]
      exact .withBuffer ..
    · refine sendFrame_command_holds (i := .loadFlashHi i val) hready rfl nofun nofun rfl ?_
      rw [Target.command, Target.loadFlash_eq hready.ext hpage]
      exact .withBuffer ..
  · refine sendFrame_command_holds (i := .loadEepromPage i val) hready rfl nofun nofun rfl ?_
    rw [Target.command, Target.loadEeprom_eq _ hpage]
    exact .withBuffer ..
  · exact execProgEnable_holds hidle hrst hsettled
  · have frame (k : FuseKind) : HoldsIn (exec (fuseWriteInstr val k) s) s.link.env.target :=
      (exec_fuseWritten hidle hpending k val).1.mono fun _ hu => hu.toHolds
    simp only [List.mem_cons, List.not_mem_nil, or_false] at hins
    rcases hins with rfl | rfl | rfl | rfl | rfl
    · exact frame .low
    · exact frame .high
    · exact frame .extended
    · exact frame .lock
    · exact (exec_fuseWritten hidle hpending k val).2.mono fun _ hu => hu.toHolds

end Sys2Proof.Machine

/-! ### What stores where (spec/20_memory.md R75 to R78) -/

namespace Sys2Proof.Machine

/-- `WR_EEBYTE` against the target, at its return and while it waits: the byte write, whatever the readback gives (R77, R153). -/
theorem execWrEebyte_holds {s : State} (h : s.link.Ready) {a : Addr} (ha : a.toNat < capacity .eeprom) (v : Byte) (verify : Bool) :
    HoldsIn (execWrEebyte a v verify s) (s.link.env.target.writeEeprom a v) := by
  rw [execWrEebyte_eq]
  refine (startEeByte_target h ha v).orRaise fun _ t ⟨hl, ht⟩ => ?_
  exact pollThen_holds hl (ht ▸ .refl _) fun _ hu => eeByteDone_holds a v verify hu

/-- `WR_PAGE` against the target likewise (R76, R77, R154, R155). -/
theorem writePage_holds {s : State} (h : s.link.Ready) {region : Region} (hm : Memory.wf (s.link.env.target.memory region)) {a : Addr}
    (ha : a.toNat < capacity region) (verify : Bool) {buf : List Byte} (hl : buf.length = pageSize region) :
    HoldsIn (writePage region a verify buf s) (s.link.env.target.writePage region a buf) := by
  rw [writePage_eq, if_pos hl]
  refine (startPage_target h hm ha hl).orRaise fun base t ⟨hbase, hen, ht⟩ => ?_
  exact pollThen_holds hen (ht ▸ .refl _) fun _ hu => pageDone_holds region base buf verify hu

/-- The bytes the memories of a state hold, from those of a target. -/
theorem Target.Holds.bytes {m : Target} {t : State} (h : m.Holds t.link.env.target) :
    (∀ x, flashAt t x = Memory.read m.flash x) ∧ ∀ x, eepromAt t x = Memory.read m.eeprom x :=
  ⟨fun x => by rw [flashAt, h.flash], fun x => by rw [eepromAt, h.eeprom]⟩

/-- A page commit of EEPROM, in the bytes of a state. -/
theorem Target.PageWritten.eeprom_bytes {m u : Target} {p : Nat} (h : m.PageWritten .eeprom p u) {t : State}
    (ht : u.Holds t.link.env.target) :
    (∀ x, eepromAt t x = if x / 4 = p then m.pageBytes .eeprom p (x % 4) else Memory.read m.eeprom x) ∧
    ∀ x, flashAt t x = Memory.read m.flash x :=
  ⟨fun x => (ht.bytes.2 x).trans (h.page x), fun x => (ht.bytes.1 x).trans (congrArg (Memory.read · x) (h.other .flash nofun))⟩

/-- A page commit of flash, in the bytes of a state. -/
theorem Target.PageWritten.flash_bytes {m u : Target} {p : Nat} (h : m.PageWritten .flash p u) {t : State}
    (ht : u.Holds t.link.env.target) :
    (∀ x, flashAt t x = if x / 128 = p then m.pageBytes .flash p (x % 128) else Memory.read m.flash x) ∧
    ∀ x, eepromAt t x = Memory.read m.eeprom x :=
  ⟨fun x => (ht.bytes.1 x).trans (h.page x), fun x => (ht.bytes.2 x).trans (congrArg (Memory.read · x) (h.other .eeprom nofun))⟩

/-- The page write frames of the host, against a target that gives all its answers (R76, R77). -/
theorem exec_writeEepromPage_target {s : State} (h : s.link.Ready) (hi lo : Byte) :
    NextIn (exec (.writeEepromPage hi lo) s) fun t => t.link.env.target = s.link.env.target.writeEepromPage (addrOf hi lo) :=
  sendFrame_command (i := .writeEepromPage hi lo) h.toIdle rfl (Target.forbids_of_not_altered h.altered _) nofun nofun rfl

theorem exec_writeFlashPage_target {s : State} (h : s.link.Ready) (hi lo : Byte) :
    NextIn (exec (.writeFlashPage hi lo) s) fun t => t.link.env.target = s.link.env.target.writeFlashPage (addrOf hi lo) :=
  sendFrame_command (i := .writeFlashPage hi lo) h.toIdle rfl (Target.forbids_of_not_altered h.altered _) nofun nofun rfl

/-- The bytes after an EEPROM byte write, by `WR_EEBYTE` or by its frame: that byte, and no other (R77). -/
theorem eepromByte_bytes {s t : State} (h : s.link.Ready) (hm : Memory.wf s.link.env.target.eeprom) {hi lo v : Byte} {a : Addr}
    {y : Bool} (ha : a.toNat < capacity .eeprom)
    (hx : exec (.wrEebyte a v y) s = .next t ∨ (a = addrOf hi lo ∧ exec (.writeEeprom hi lo v) s = .next t)) :
    (∀ x, eepromAt t x = if x = a.toNat then v else eepromAt s x) ∧ ∀ x, flashAt t x = flashAt s x := by
  have hholds : (s.link.env.target.writeEeprom a v).Holds t.link.env.target := by
    obtain hx | ⟨rfl, hx⟩ := hx
    · exact (execWrEebyte_holds h ha v y).of_next hx
    · have ht := (sendFrame_command (i := .writeEeprom hi lo v) h.toIdle rfl (Target.forbids_of_not_altered h.altered _)
        nofun nofun rfl).of_next hx
      exact ht ▸ .refl _
  obtain ⟨hbyte, hflash⟩ := Target.read_writeEeprom hm v ha
  exact ⟨fun x => (hholds.bytes.2 x).trans (hbyte x), fun x => (hholds.bytes.1 x).trans (congrArg (Memory.read · x) hflash)⟩

/-- The bytes after an EEPROM page commit, by `WR_PAGE` or by its frame: its page, and no other byte (R77). -/
theorem eepromPage_bytes {s t : State} (h : s.link.Ready) (hm : Memory.wf s.link.env.target.eeprom) {hi lo : Byte} {a : Addr}
    {y : Bool} {buf : List Byte} (ha : a.toNat < capacity .eeprom) (hl : buf.length = 4)
    (hx : exec (.wrPageEeprom a y buf) s = .next t ∨ (a = addrOf hi lo ∧ exec (.writeEepromPage hi lo) s = .next t)) :
    (∀ x, x / 4 ≠ a.toNat / 4 → eepromAt t x = eepromAt s x) ∧ ∀ x, flashAt t x = flashAt s x := by
  obtain hx | ⟨rfl, hx⟩ := hx
  · obtain ⟨hee, hfl⟩ := (Target.pageWritten_writePage (region := .eeprom) hm h.ext ha buf).eeprom_bytes
      ((writePage_holds h (region := .eeprom) hm ha y hl).of_next hx)
    exact ⟨fun x hne => (hee x).trans (if_neg hne), hfl⟩
  · have ht := (exec_writeEepromPage_target h hi lo).of_next hx
    obtain ⟨hee, hfl⟩ := (Target.pageWritten_writeEepromPage hm ha).eeprom_bytes (t := t) (ht ▸ .refl _)
    exact ⟨fun x hne => (hee x).trans (if_neg hne), hfl⟩

/-- The bytes after a flash page commit, by `WR_PAGE` or by its frame: its page, and no other byte (R76). -/
theorem flashPage_bytes {s t : State} (h : s.link.Ready) (hm : Memory.wf s.link.env.target.flash) {hi lo : Byte} {a : Addr}
    {y : Bool} {buf : List Byte} (ha : a.toNat < capacity .flash) (hl : buf.length = 128)
    (hx : exec (.wrPageFlash a y buf) s = .next t ∨
      (a.toNat / 2 = (addrOf hi lo).toNat ∧ exec (.writeFlashPage hi lo) s = .next t)) :
    (∀ x, x / 128 ≠ a.toNat / 128 → flashAt t x = flashAt s x) ∧ ∀ x, eepromAt t x = eepromAt s x := by
  obtain hx | ⟨hw, hx⟩ := hx
  · obtain ⟨hfl, hee⟩ := (Target.pageWritten_writePage (region := .flash) hm h.ext ha buf).flash_bytes
      ((writePage_holds h (region := .flash) hm ha y hl).of_next hx)
    exact ⟨fun x hne => (hfl x).trans (if_neg hne), hee⟩
  · simp only [capacity, Config.flashSize] at ha
    have ht := (exec_writeFlashPage_target h hi lo).of_next hx
    obtain ⟨hfl, hee⟩ := (Target.pageWritten_writeFlashPage hm h.ext (w := addrOf hi lo)
      (by simp only [Config.flashWords]; omega)).flash_bytes (t := t) (ht ▸ .refl _)
    exact ⟨fun x hne => (hfl x).trans (if_neg (by omega)), hee⟩

/-- The page `WR_PAGE EEPROM` writes holds the buffer's bytes (R77, R155). -/
theorem wrPageEeprom_bytes {s t : State} (h : s.link.Ready) (hm : Memory.wf s.link.env.target.eeprom) {a : Addr} {y : Bool}
    {buf : List Byte} (ha : a.toNat < capacity .eeprom) (hl : buf.length = 4) (hx : exec (.wrPageEeprom a y buf) s = .next t)
    (x : Nat) (hpage : x / 4 = a.toNat / 4) : eepromAt t x = buf.getD (x % 4) 0#8 := by
  have hw := (Target.pageWritten_writePage (region := .eeprom) hm h.ext ha buf).eeprom_bytes
    ((writePage_holds h (region := .eeprom) hm ha y hl).of_next hx)
  exact (hw.1 x).trans ((if_pos hpage).trans (Target.pageBytes_loaded (region := .eeprom) hl nofun (Nat.mod_lt x (by decide))))

/-- The page an EEPROM commit frame writes with all four bytes loaded holds the loaded bytes (R77). -/
theorem writeEepromPage_bytes {s t : State} (h : s.link.Ready) (hm : Memory.wf s.link.env.target.eeprom) {hi lo : Byte}
    (ha : (addrOf hi lo).toNat < capacity .eeprom) (hloaded : s.link.env.target.eeLoaded = true)
    (hx : exec (.writeEepromPage hi lo) s = .next t) (x : Nat) (hpage : x / 4 = (addrOf hi lo).toNat / 4) :
    findCell s.link.env.target.eeBuf (x % 4) = some (eepromAt t x) := by
  have ht := (exec_writeEepromPage_target h hi lo).of_next hx
  have hcell := List.all_eq_true.mp hloaded (x % 4) (List.mem_range.mpr (Nat.mod_lt x (by decide)))
  obtain ⟨v, hv⟩ := Option.isSome_iff_exists.mp hcell
  rw [((Target.pageWritten_writeEepromPage hm ha).eeprom_bytes (t := t) (ht ▸ .refl _)).1 x, if_pos hpage, Target.pageBytes,
    Target.eeLatch, if_pos hloaded, hv, Option.getD_some]

/-- A loaded byte is stored where a flash commit frame writes an erased page (R76). -/
theorem writeFlashPage_bytes {s t : State} (h : s.link.Ready) (hm : Memory.wf s.link.env.target.flash) {hi lo v : Byte} {x : Nat}
    (hw : (addrOf hi lo).toNat < Config.flashWords) (herased : s.link.env.target.pageErased ((addrOf hi lo).toNat / 64) = true)
    (hx : exec (.writeFlashPage hi lo) s = .next t) (hpage : x / 128 = (addrOf hi lo).toNat / 64)
    (hcell : findCell s.link.env.target.flashBuf (x % 128) = some v) : flashAt t x = v := by
  have ht := (exec_writeFlashPage_target h hi lo).of_next hx
  rw [((Target.pageWritten_writeFlashPage hm h.ext hw).flash_bytes (t := t) (ht ▸ .refl _)).1 x, if_pos hpage,
    Target.pageBytes, if_pos herased, Target.latch, hcell, Option.getD_some]

/-- The bytes after `ERASE` or the chip erase frame (R75, R157). -/
theorem erase_bytes {s t : State} (h : s.link.Idle) (hx : exec .erase s = .next t ∨ exec .chipErase s = .next t) :
    (∀ x, flashAt t x = 0xFF#8) ∧
    ∀ x, eepromAt t x = if s.link.env.target.eraseEe = true then 0xFF#8 else eepromAt s x := by
  obtain ⟨hflash, heeprom, hmode, hrx⟩ := s.link.env.target.chipErase_eq
  have hholds : s.link.env.target.chipErase.Holds t.link.env.target := by
    obtain hx | hx := hx
    · have hstart : (startErase s).Ends (fun _ t => t.link = (s.link.frame chipEraseFrame).2) fun _ _ => False := guarded_ends rfl
      have ht := (commit_then_poll (i := .chipErase) h rfl rfl nofun nofun rfl hmode hrx hstart).of_next
        ((execErase_eq s).symm.trans hx)
      exact ht ▸ ⟨rfl, rfl⟩
    · have ht := (sendFrame_command (i := .chipErase) h rfl (Target.forbids_of_not_reachesMemory _ rfl) nofun nofun rfl).of_next hx
      exact ht ▸ .refl _
  refine ⟨fun x => ?_, fun x => ?_⟩
  · rw [hholds.bytes.1, hflash]; rfl
  · rw [hholds.bytes.2, heeprom, eepromAt]
    split <;> rfl

/-- A load of the host within the page: its byte stands in the write buffer, and no other offset is touched (R76, R77). -/
theorem exec_load_cells {s t : State} (h : s.link.Ready) (i v : Byte) :
    (∀ (odd : Nat) (ins : Instr), (odd, ins) ∈ [(0, Instr.loadFlashLo i v), (1, .loadFlashHi i v)] → i.toNat < 64 →
      exec ins s = .next t → ∀ j, findCell t.link.env.target.flashBuf j =
        if j = 2 * i.toNat + odd then some v else findCell s.link.env.target.flashBuf j) ∧
    (i.toNat < 4 → exec (.loadEepromPage i v) s = .next t → ∀ j, findCell t.link.env.target.eeBuf j =
      if j = i.toNat then some v else findCell s.link.env.target.eeBuf j) := by
  have hopen (i : Instr) := Target.forbids_of_not_altered h.altered i
  refine ⟨fun odd ins hins hi hx j => ?_, fun hi hx j => ?_⟩
  · have ht : t.link.env.target = s.link.env.target.loadFlash i odd v := by
      simp only [List.mem_cons, Prod.mk.injEq, List.not_mem_nil, or_false] at hins
      obtain ⟨rfl, rfl⟩ | ⟨rfl, rfl⟩ := hins
      · exact (sendFrame_command (i := .loadFlashLo i v) h.toIdle rfl (hopen _) nofun nofun rfl).of_next hx
      · exact (sendFrame_command (i := .loadFlashHi i v) h.toIdle rfl (hopen _) nofun nofun rfl).of_next hx
    rw [ht, Target.loadFlash_eq h.ext hi]
    exact findCell_putCell ..
  · have ht := (sendFrame_command (i := .loadEepromPage i v) h.toIdle rfl (hopen _) nofun nofun rfl).of_next hx
    rw [ht, Target.command, Target.loadEeprom_eq _ hi]
    exact findCell_putCell ..

/-- Settles O60: what each command stores, and that the polls and readbacks around it store nothing. -/
theorem storesWhere : Obligations.StoresWhere := by
  refine ⟨fun s t k v ins hen hp ht hins => ?_, fun s t hr hinv => ?_⟩
  · obtain ⟨hframe, hop⟩ := exec_fuseWritten (targetEnabled_iff.mp hen) hp k v
    have hw : s.link.env.target.FuseWritten k v t.link.env.target := by
      obtain hins | rfl := hins
      · have hi : ins = fuseWriteInstr v k := by
          simp only [List.mem_cons, Prod.mk.injEq, List.not_mem_nil, or_false] at hins
          obtain ⟨rfl, rfl⟩ | ⟨rfl, rfl⟩ | ⟨rfl, rfl⟩ | ⟨rfl, rfl⟩ := hins <;> rfl
        exact hframe.of_next (hi ▸ ht)
      · exact hop.of_next ht
    simp only [fuseAt_eq]
    exact ⟨fun hlocked => by rw [hw.own, hlocked]; rfl, by rw [hw.own], hw.others, hw.toHolds.sameMemory⟩
  · have h := targetReady_iff.mp hr
    obtain ⟨⟨hwfFlash, -⟩, hwfEeprom, -⟩ := hinv
    exact ⟨fun hi lo v a y => eepromByte_bytes h hwfEeprom, fun hi lo a y buf => eepromPage_bytes h hwfEeprom,
      fun a y buf => wrPageEeprom_bytes h hwfEeprom, fun hi lo => writeEepromPage_bytes h hwfEeprom,
      fun hi lo a y buf => flashPage_bytes h hwfFlash, fun hi lo v x => writeFlashPage_bytes h hwfFlash,
      exec_load_cells h, erase_bytes h.toIdle⟩

/-! ### Writes with verify, to their end (spec/42_memory_programmer.md R153 to R156) -/

/-- The readback has found every byte as written: the target gives all its answers, its memories are as before. -/
structure Verified (w t : State) : Prop where
  ready : t.link.Ready
  holds : w.link.env.target.Holds t.link.env.target
  wpend : t.wpend = false
  verifyOk : t.verifyOk = true

theorem verifyEeByte_verified {w : State} (h : w.link.Ready) (hw : w.wpend = false) {a : Addr} {v : Byte}
    (ha : a.toNat < capacity .eeprom) (hv : Memory.read w.link.env.target.eeprom a.toNat = v) :
    ∃ t, verifyEeByte a v w = .ok () t ∧ Verified w t := by
  obtain ⟨hreply, hready, htarget⟩ := h.readFrame (region := .eeprom) ha
  have hb : (w.link.frame (readFrame .eeprom a)).1.b3 = v := hreply.trans hv
  rw [verifyEeByte, rdByte_eq .eeprom a w ha hw]
  exact ⟨_, if_pos hb, hready, htarget ▸ .tick _, hw, rfl⟩

/-- The readback of bytes that the memory holds from offset `j` on, by induction on the bytes (R156). -/
theorem verifyFrom_verified {region : Region} {base : Addr} (buf : List Byte) {j : Nat} {w : State} (h : w.link.Ready)
    (hw : w.wpend = false) (hfit : base.toNat + j + buf.length ≤ capacity region)
    (hv : ∀ i, i < buf.length → Memory.read (w.link.env.target.memory region) (base.toNat + j + i) = buf.getD i 0#8) :
    ∃ t, verifyFrom region base j buf w = .ok () t ∧ Verified w t := by
  induction buf generalizing j w with
  | nil => exact ⟨_, rfl, h, .refl _, hw, rfl⟩
  | cons v buf ih =>
    simp only [List.length_cons] at hfit hv
    have hcap : capacity region ≤ 32768 := by cases region <;> decide
    have haddr : (base + BitVec.ofNat 16 j).toNat = base.toNat + j := by
      rw [BitVec.toNat_add, BitVec.toNat_ofNat, Nat.mod_eq_of_lt (a := j) (by omega), Nat.mod_eq_of_lt (by omega)]
    have ha : (base + BitVec.ofNat 16 j).toNat < capacity region := by omega
    obtain ⟨hreply, hready, htarget⟩ := h.readFrame ha
    have hb : (w.link.frame (readFrame region (base + BitVec.ofNat 16 j))).1.b3 = v := by
      rw [hreply, haddr]; exact hv 0 (by omega)
    obtain ⟨t, ht, hverified⟩ := ih (j := j + 1)
      (w := { w with link := (w.link.frame (readFrame region (base + BitVec.ofNat 16 j))).2 }) hready hw (by omega) fun i hi => by
        have hnext := hv (i + 1) (by omega)
        rw [show base.toNat + j + (i + 1) = base.toNat + (j + 1) + i by omega] at hnext
        rw [htarget]
        cases region <;> exact hnext
    refine ⟨t, ?_, hverified.ready, ?_, hverified.wpend, hverified.verifyOk⟩
    · rw [verifyFrom, rdByte_eq region _ w ha hw]
      exact (if_pos hb).trans ht
    · have hholds := hverified.holds
      rw [htarget] at hholds
      exact ⟨hholds.flash, hholds.eeprom⟩

/-- After its write cycle a committed target gives all its answers again. -/
theorem Link.Ready.of_committed {l l' : Link} (h : l.Ready) {u : Target} (hu : l.env.target.Committed u) (hl : l'.Enabled)
    (ht : l'.env.target = { u with busy := some 0 }) : l'.Ready :=
  ⟨⟨hl, by rw [ht]⟩, by rw [ht]; exact hu.ext.trans h.ext, by rw [ht]; exact hu.altered.trans h.altered⟩

/-- A write with verify whose commit `u` the target is busy with for `n` polls, and which then reads back as written: it ends with true
after `n` more steps, the memories as the commit left them. -/
theorem verified_run {s c : State} {k : Pending} {u : Target} {n : Nat} (h : s.link.Ready) (hu : s.link.env.target.Committed u)
    (hn : s.link.env.target.nextBusy = some n) (hc : c.link.Enabled) (hcu : c.link.env.target = u)
    {verify : State → Res Unit} (hk : ∀ w, afterPoll k w = (verify w).finish fun _ => [boolCode true])
    (hv : ∀ w : State, w.link.Ready → w.wpend = false → w.link.env.target = { u with busy := some 0 } →
      ∃ t, verify w = .ok () t ∧ Verified w t) :
    ∃ t e, pollThen k (afterPoll k) c = .next t ∧ run n t = .next e ∧ e.pending = none ∧ e.response = [0#8, 1#8] ∧
      e.verifyOk = true ∧ e.wpend = false ∧ TargetReady e ∧ u.Holds e.link.env.target := by
  subst hcu
  obtain ⟨w, hwpend, hl, htarget, hrun⟩ := pollThen_run (k := k) n hc (hu.busy.trans hn)
  obtain ⟨t, ht, hverified⟩ := hv w (h.of_committed hu hl htarget) hwpend htarget
  obtain ⟨t', hx, hr⟩ := hrun (t.returned [boolCode true]) (by rw [hk, ht]; rfl)
  have hholds := hverified.holds
  rw [htarget] at hholds
  exact ⟨t', _, hx, hr, rfl, rfl, hverified.verifyOk, hverified.wpend, targetReady_iff.mpr hverified.ready,
    hholds.flash, hholds.eeprom⟩

/-- Settles O57: the byte is committed, the target polled until it is ready, and the byte reads back. -/
theorem targetEepromWriteVerifies : Obligations.TargetEepromWriteVerifies := by
  intro s a v n hr hinv hw ha hn
  have h := targetReady_iff.mp hr
  obtain ⟨-, hwf, -⟩ := hinv
  obtain ⟨hbyte, hflash⟩ := Target.read_writeEeprom hwf v ha
  have hstart := startEeByte_target h ha v
  rw [startEeByte_eq a v s ha hw] at hstart
  obtain ⟨hc, hcu⟩ := hstart
  obtain ⟨t, u, hx, hrun, hpend, hresp, hverify, hwpend, hready, hholds⟩ := verified_run (k := .eeByte a v true) h
    (s.link.env.target.committed_writeEeprom v ha) hn hc hcu (fun _ => rfl) fun w hwr hww hwt =>
      verifyEeByte_verified hwr hww ha (by rw [hwt]; exact (hbyte a.toNat).trans (if_pos rfl))
  refine ⟨t, u, ?_, hrun, hpend, hresp, hverify, hwpend, hready, fun x => (hholds.bytes.2 x).trans (hbyte x),
    fun x => (hholds.bytes.1 x).trans (congrArg (Memory.read · x) hflash)⟩
  show execWrEebyte a v true s = _
  rw [execWrEebyte_eq, startEeByte_eq a v s ha hw]
  exact hx

/-- Settles O58: the page is loaded and committed, the target polled until it is ready, and its 128 bytes read back. -/
theorem targetFlashPageWrite : Obligations.TargetFlashPageWrite := by
  intro s a buf n hr hinv hw ha hl hn herased
  have h := targetReady_iff.mp hr
  obtain ⟨⟨hwf, -⟩, -⟩ := hinv
  have hwritten := Target.pageWritten_writePage (region := .flash) hwf h.ext ha buf
  have hpage (x : Nat) : Memory.read (s.link.env.target.writePage .flash a buf).flash x =
      if x / 128 = a.toNat / 128 then buf.getD (x % 128) 0#8 else flashAt s x := by
    refine (hwritten.page x).trans (if_congr Iff.rfl ?_ rfl)
    exact Target.pageBytes_loaded hl (fun _ => herased) (Nat.mod_lt x (by decide))
  have hstart := startPage_target h (region := .flash) hwf ha hl
  rw [startPage_eq .flash a buf s ha hw] at hstart
  obtain ⟨-, hc, hcu⟩ := hstart
  have hbase : (pageBase .flash a).toNat = a.toNat / 128 * 128 := toNat_pageBase .flash a
  have hcommit : s.link.env.target.Committed (s.link.env.target.writePage .flash a buf) :=
    ⟨hwritten.mode, hwritten.rx, hwritten.ext, hwritten.altered, hwritten.busy⟩
  obtain ⟨t, u, hx, hrun, hpend, hresp, hverify, hwpend, hready, hholds⟩ := verified_run
    (k := .page .flash (pageBase .flash a) buf true) h hcommit hn hc hcu (fun _ => rfl) fun w hwr hww hwt =>
      verifyFrom_verified buf hwr hww (by rw [hbase, hl]; simp only [capacity, Config.flashSize]; omega) fun i hi => by
        rw [hwt, hbase]
        refine (hpage _).trans ((if_pos (by omega)).trans ?_)
        rw [show (a.toNat / 128 * 128 + 0 + i) % 128 = i by omega]
  refine ⟨t, u, ?_, hrun, hpend, hresp, hverify, hwpend, hready, fun x => (hholds.bytes.1 x).trans (hpage x),
    fun x => (hwritten.flash_bytes hholds).2 x⟩
  show writePage .flash a true buf s = _
  rw [writePage_eq, if_pos (show buf.length = pageSize .flash from hl), startPage_eq .flash a buf s ha hw]
  exact hx

end Sys2Proof.Machine

/-! ### The frame table: match and mask, and rows that share no word (spec/30_encoding.md R80 to R84) -/

namespace Sys2Proof.Machine

/-- Words put together from two parts of the same widths are equal part by part. -/
theorem append_eq_append_iff {w v : Nat} {a b : BitVec w} {x y : BitVec v} : a ++ x = b ++ y ↔ a = b ∧ x = y := by
  refine ⟨fun h => ?_, fun ⟨ha, hx⟩ => by rw [ha, hx]⟩
  have hx : x = y := by rw [← BitVec.setWidth_append_eq_right (a := a) (b := x), h, BitVec.setWidth_append_eq_right]
  subst hx
  exact ⟨(BitVec.append_left_inj x).mp h, rfl⟩

theorem byteFits_iff (p : Option Byte) (b : Byte) : byteFits p b = true ↔ b &&& maskByte p = p.getD 0#8 := by
  cases p with
  | none => simp [byteFits, maskByte]
  | some v =>
    have hmask : b &&& 0xFF#8 = b := BitVec.and_allOnes
    simp [byteFits, maskByte, hmask]

/-- A pattern fits the frames that agree with its match under its mask (R84), byte by byte. -/
theorem fits_iff_and_mask (p : FramePattern) (f : IspFrame) : p.fits f = true ↔ frameWord f &&& maskWord p = matchWord p := by
  have hmask : f.b0 &&& 0xFF#8 = f.b0 := BitVec.and_allOnes
  simp only [FramePattern.fits, Bool.and_eq_true, beq_iff_eq, byteFits_iff]
  change _ ↔ @Eq (BitVec (8 + 8 + 8 + 8)) ((f.b0 ++ f.b1 ++ f.b2 ++ f.b3) &&&
    (0xFF#8 ++ maskByte p.p1 ++ maskByte p.p2 ++ maskByte p.p3)) (p.p0 ++ p.p1.getD 0#8 ++ p.p2.getD 0#8 ++ p.p3.getD 0#8)
  simp only [BitVec.and_append, append_eq_append_iff, hmask]

/-- Two rows that one word spells have matches that agree under both masks. -/
theorem match_and_mask_eq {p q : FramePattern} {f : IspFrame} (hp : p.fits f = true) (hq : q.fits f = true) :
    matchWord p &&& maskWord q = matchWord q &&& maskWord p := by
  rw [← (fits_iff_and_mask p f).mp hp, ← (fits_iff_and_mask q f).mp hq, BitVec.and_assoc, BitVec.and_comm (maskWord p),
    ← BitVec.and_assoc]

/-- The matches of two rows of the frame table differ under both masks (R84). -/
theorem framePatterns_apart :
    framePatterns.Pairwise fun p q => matchWord p &&& maskWord q ≠ matchWord q &&& maskWord p := by decide

/-- Settles O3: a word that spells two rows would make their matches agree under both masks, and no two of the table do. -/
theorem frameRowsDisjoint : Obligations.FrameRowsDisjoint := by
  refine ⟨fun p f _ => fits_iff_and_mask p f, fun f j k p q hj hk hp hq => ?_, fun f => (isFrame_eq_isSome f).symm⟩
  obtain ⟨hj_lt, rfl⟩ := List.getElem?_eq_some_iff.mp hj
  obtain ⟨hk_lt, rfl⟩ := List.getElem?_eq_some_iff.mp hk
  have happart := List.pairwise_iff_getElem.mp framePatterns_apart
  rcases Nat.lt_trichotomy j k with hlt | heq | hgt
  · exact absurd (match_and_mask_eq hp hq) (happart j k hj_lt hk_lt hlt)
  · exact heq
  · exact absurd (match_and_mask_eq hq hp) (happart k j hk_lt hj_lt hgt)

/-- Settles O4: the columns and the words computed. -/
theorem tableWords : Obligations.TableWords := by
  refine ⟨?_, ?_, ?_, ?_, ?_, ?_, ?_, ?_, ?_⟩ <;> decide

end Sys2Proof.Machine

/-! ### Messages: the decoder accepts exactly the encodings of the well-formed instructions (spec/30_encoding.md R92 to R94) -/

namespace Sys2Proof.Machine

/-- A byte that counts `bytes` is the length byte of a list of at most 255 bytes (R92). -/
theorem length_eq_toNat_iff {bytes : List Byte} {n : Byte} :
    bytes.length = n.toNat ↔ bytes.length < 256 ∧ n = BitVec.ofNat 8 bytes.length := by
  constructor
  · intro h
    exact ⟨h ▸ n.isLt, by simp [h]⟩
  · rintro ⟨h, rfl⟩
    exact (toNat_length h).symm

/-- The instruction of a frame row is well-formed. -/
theorem wf_of_decodeFrame {f : IspFrame} {i : Instr} (h : decodeFrame f = some i) : i.wf = true := by
  have h := decodeFrame_cases h
  casesm* _ ∨ _, _ ∧ _ <;> (subst_vars; rfl)

/-- The message of a word is read as the row it spells, or else as that word's `CMD` (R84, R93). -/
theorem decode_frameMessage (b0 b1 b2 b3 : Byte) :
    decode (frameMessage b0 b1 b2 b3) = .ok ((decodeFrame ⟨b0, b1, b2, b3⟩).getD (.cmd b0 b1 b2 b3)) := rfl

/-! What each operand decoder accepts: the operand bytes of a well-formed instruction's message. -/

/-- The message `code :: ops` is the encoding of the well-formed instruction `i` (R92, R93). -/
def Encodes (i : Instr) (code : Byte) (ops : List Byte) : Prop := i.wf = true ∧ encode i = code :: ops

theorem decodeNone_encodes {code : Byte} {j i : Instr} {ops : List Byte} (hj : Encodes j code []) (h : decodeNone j ops = .ok i) :
    Encodes i code ops := by
  unfold decodeNone at h
  split at h
  · obtain rfl := Except.ok.inj h
    exact hj
  · cases h

theorem decodeOne_encodes {code : Byte} {k : Byte → Instr} {i : Instr} {ops : List Byte} (hk : ∀ b, Encodes (k b) code [b])
    (h : decodeOne k ops = .ok i) : Encodes i code ops := by
  unfold decodeOne at h
  split at h
  · obtain rfl := Except.ok.inj h
    exact hk _
  · cases h

theorem decodeText_encodes {code : Byte} {k : List Byte → Instr} {i : Instr} {ops : List Byte}
    (hk : ∀ text, text.length < 256 → Encodes (k text) code (BitVec.ofNat 8 text.length :: text))
    (h : decodeText k ops = .ok i) : Encodes i code ops := by
  unfold decodeText at h
  split at h
  · split at h
    · next hlen =>
      obtain rfl := Except.ok.inj h
      obtain ⟨hlt, rfl⟩ := length_eq_toNat_iff.mp hlen
      exact hk _ hlt
    · cases h
  · cases h

theorem decodeCmd_encodes {i : Instr} {ops : List Byte} (h : decodeCmd ops = .ok i) : Encodes i 0x11#8 ops := by
  unfold decodeCmd at h
  split at h
  · next b0 b1 b2 b3 =>
    obtain rfl := Except.ok.inj h
    cases hf : decodeFrame ⟨b0, b1, b2, b3⟩ with
    | none => exact ⟨by simp [Instr.wf, isFrame_eq_isSome, hf], rfl⟩
    | some j => exact ⟨wf_of_decodeFrame hf, encode_of_decodeFrame hf⟩
  · cases h

theorem decodeRdByte_encodes {i : Instr} {ops : List Byte} (h : decodeRdByte ops = .ok i) : Encodes i 0x20#8 ops := by
  unfold decodeRdByte at h
  split at h
  · split_ifs at h with h0 h1 <;> (obtain rfl := Except.ok.inj h; subst_vars; exact ⟨rfl, by simp [encode, Region.code]⟩)
  · cases h

theorem decodeWrEebyte_encodes {i : Instr} {ops : List Byte} (h : decodeWrEebyte ops = .ok i) : Encodes i 0x21#8 ops := by
  unfold decodeWrEebyte at h
  split at h
  · split at h
    · next hy =>
      obtain rfl := Except.ok.inj h
      exact ⟨rfl, by simp [encode, boolOf_eq_some hy]⟩
    · cases h
  · cases h

theorem decodeWrPage_encodes {i : Instr} {ops : List Byte} (h : decodeWrPage ops = .ok i) : Encodes i 0x22#8 ops := by
  unfold decodeWrPage at h
  split at h
  · split at h
    · cases h
    · next hy =>
      split_ifs at h with h0 hlen h1 hlen <;>
        (obtain rfl := Except.ok.inj h; subst_vars
         exact ⟨beq_iff_eq.mpr hlen, by simp [encode, Region.code, boolOf_eq_some hy]⟩)
  · cases h

theorem decodeRdFuse_encodes {i : Instr} {ops : List Byte} (h : decodeRdFuse ops = .ok i) : Encodes i 0x24#8 ops := by
  unfold decodeRdFuse at h
  split at h
  · split at h
    · next hk =>
      obtain rfl := Except.ok.inj h
      exact ⟨rfl, by simp [encode, fuseKindOf_eq_some hk]⟩
    · cases h
  · cases h

theorem decodeWrFuse_encodes {i : Instr} {ops : List Byte} (h : decodeWrFuse ops = .ok i) : Encodes i 0x25#8 ops := by
  unfold decodeWrFuse at h
  split at h
  · split at h
    · next hk =>
      obtain rfl := Except.ok.inj h
      exact ⟨rfl, by simp [encode, fuseKindOf_eq_some hk]⟩
    · cases h
  · cases h

theorem decodeRdSig_encodes {i : Instr} {ops : List Byte} (h : decodeRdSig ops = .ok i) : Encodes i 0x26#8 ops := by
  unfold decodeRdSig at h
  split at h
  · split_ifs at h with hi
    obtain rfl := Except.ok.inj h
    exact ⟨decide_eq_true hi, rfl⟩
  · cases h

theorem decodeHexEncData_encodes {i : Instr} {ops : List Byte} (h : decodeHexEncData ops = .ok i) : Encodes i 0x31#8 ops := by
  unfold decodeHexEncData at h
  split at h
  · split_ifs at h with hlen
    obtain rfl := Except.ok.inj h
    obtain ⟨hlt, rfl⟩ := length_eq_toNat_iff.mp hlen
    exact ⟨decide_eq_true hlt, by simp [encode]⟩
  · cases h

theorem decodeProgBegin_encodes {i : Instr} {ops : List Byte} (h : decodeProgBegin ops = .ok i) : Encodes i 0x40#8 ops := by
  unfold decodeProgBegin at h
  split at h
  · split_ifs at h with h0 h1 <;> (obtain rfl := Except.ok.inj h; subst_vars; exact ⟨rfl, rfl⟩)
  · cases h

/-- One row of R93's table: the code `c` with its operand decoder `x`, the other codes left to `y`. -/
theorem row_encodes {code c : Byte} {ops : List Byte} {i : Instr} {x y : Except Reject Instr}
    (h : (if code = c then x else y) = .ok i) (hx : x = .ok i → Encodes i c ops) (hy : y = .ok i → Encodes i code ops) :
    Encodes i code ops := by
  split_ifs at h with hc
  · exact hc ▸ hx h
  · exact hy h

/-- Every accepted message is the encoding of the well-formed instruction it is read as, row by row of R93's table. -/
theorem decodeOp_encodes {code : Byte} {ops : List Byte} {i : Instr} (h : decodeOp code ops = .ok i) : Encodes i code ops := by
  unfold decodeOp at h
  refine row_encodes h (decodeOne_encodes (fun _ => ⟨rfl, rfl⟩)) fun h => ?_
  refine row_encodes h (decodeNone_encodes ⟨rfl, rfl⟩) fun h => ?_
  refine row_encodes h (decodeNone_encodes ⟨rfl, rfl⟩) fun h => ?_
  refine row_encodes h (decodeNone_encodes ⟨rfl, rfl⟩) fun h => ?_
  refine row_encodes h (decodeNone_encodes ⟨rfl, rfl⟩) fun h => ?_
  refine row_encodes h (decodeNone_encodes ⟨rfl, rfl⟩) fun h => ?_
  refine row_encodes h decodeCmd_encodes fun h => ?_
  refine row_encodes h (decodeNone_encodes ⟨rfl, rfl⟩) fun h => ?_
  refine row_encodes h decodeRdByte_encodes fun h => ?_
  refine row_encodes h decodeWrEebyte_encodes fun h => ?_
  refine row_encodes h decodeWrPage_encodes fun h => ?_
  refine row_encodes h (decodeNone_encodes ⟨rfl, rfl⟩) fun h => ?_
  refine row_encodes h decodeRdFuse_encodes fun h => ?_
  refine row_encodes h decodeWrFuse_encodes fun h => ?_
  refine row_encodes h decodeRdSig_encodes fun h => ?_
  refine row_encodes h (decodeOne_encodes (fun _ => ⟨rfl, rfl⟩)) fun h => ?_
  refine row_encodes h (decodeText_encodes (fun _ ht => ⟨decide_eq_true ht, rfl⟩)) fun h => ?_
  refine row_encodes h decodeHexEncData_encodes fun h => ?_
  refine row_encodes h (decodeNone_encodes ⟨rfl, rfl⟩) fun h => ?_
  refine row_encodes h decodeProgBegin_encodes fun h => ?_
  refine row_encodes h (decodeText_encodes (fun _ ht => ⟨decide_eq_true ht, rfl⟩)) fun h => ?_
  refine row_encodes h (decodeNone_encodes ⟨rfl, rfl⟩) fun h => ?_
  refine row_encodes h (decodeNone_encodes ⟨rfl, rfl⟩) fun h => ?_
  cases h

/-- Settles O2: the message without a code byte is refused, every other is read by its code. -/
theorem encodeOfDecoded : Obligations.EncodeOfDecoded := by
  intro msg i h
  cases msg with
  | nil => cases h
  | cons code ops => exact decodeOp_encodes h

theorem decodeText_textMessage (k : List Byte → Instr) {text : List Byte} (h : text.length < 256) :
    decodeText k (BitVec.ofNat 8 text.length :: text) = .ok (k text) := if_pos (toNat_length h).symm

/-- The decoder reads a page write's buffer when it fills a page of its region (R92). -/
theorem decodeWrPage_flash (a : Addr) (y : Bool) {buf : List Byte} (h : buf.length = Config.flashPage) :
    decodeWrPage (Region.code .flash :: hiByte a :: loByte a :: boolCode y :: buf) = .ok (.wrPageFlash a y buf) := by
  simp [decodeWrPage, Region.code, h]

theorem decodeWrPage_eeprom (a : Addr) (y : Bool) {buf : List Byte} (h : buf.length = Config.eePage) :
    decodeWrPage (Region.code .eeprom :: hiByte a :: loByte a :: boolCode y :: buf) = .ok (.wrPageEeprom a y buf) := by
  simp [decodeWrPage, Region.code, h]

/-- A `CMD` whose word spells no frame row is read back as itself (R84). -/
theorem decode_encode_cmd {b0 b1 b2 b3 : Byte} (h : isFrame ⟨b0, b1, b2, b3⟩ = false) :
    decode (encode (.cmd b0 b1 b2 b3)) = .ok (.cmd b0 b1 b2 b3) := by
  rw [isFrame_eq_isSome, Option.isSome_eq_false_iff, Option.isNone_iff_eq_none] at h
  show decode (frameMessage b0 b1 b2 b3) = _
  rw [decode_frameMessage, h, Option.getD_none]

/-- Settles O1, instruction by instruction. The code bytes and the fixed bytes of the frame rows are literals, so the last case is the
decoder computed; the cases before it read operands back: addresses, operand codes, and lengths that well-formedness bounds. -/
theorem decodeOfEncode : Obligations.DecodeOfEncode := by
  intro i hwf
  cases i with
  | cmd b0 b1 b2 b3 => exact decode_encode_cmd (by simpa [Instr.wf] using hwf)
  | rdByteFlash a => exact congrArg (fun x => Except.ok (Instr.rdByteFlash x)) (addrOf_hiByte_loByte a)
  | rdByteEeprom a => exact congrArg (fun x => Except.ok (Instr.rdByteEeprom x)) (addrOf_hiByte_loByte a)
  | wrEebyte a v y =>
    show decodeWrEebyte [hiByte a, loByte a, v, boolCode y] = _
    simp [decodeWrEebyte]
  | wrPageFlash a y buf => exact decodeWrPage_flash a y (by simpa [Instr.wf] using hwf)
  | wrPageEeprom a y buf => exact decodeWrPage_eeprom a y (by simpa [Instr.wf] using hwf)
  | rdFuse k =>
    show decodeRdFuse [k.code] = _
    simp [decodeRdFuse]
  | wrFuse k v =>
    show decodeWrFuse [k.code, v] = _
    simp [decodeWrFuse]
  | rdSig i => exact if_pos (of_decide_eq_true hwf)
  | hexDecode text => exact decodeText_textMessage .hexDecode (of_decide_eq_true hwf)
  | hexEncData a bytes =>
    show decodeHexEncData (hiByte a :: loByte a :: BitVec.ofNat 8 bytes.length :: bytes) = _
    rw [decodeHexEncData, if_pos (toNat_length (of_decide_eq_true hwf)).symm, addrOf_hiByte_loByte]
  | progLine text => exact decodeText_textMessage .progLine (of_decide_eq_true hwf)
  | _ => rfl

/-- The sequencer refuses the first message when it does not decode (R94). -/
theorem step_refuses {s : State} {msg : List Byte} {rest : List (List Byte)} {e : Reject} (hp : s.pending = none)
    (hm : s.inbox = msg :: rest) (hd : decode msg = .error e) : step s = refuseBadOp { s with inbox := rest } := by
  simp only [step, nextWork, hp, hm, hd]

/-- With nothing waiting a refusal writes the status alone, `BadOp` (17). -/
theorem refuseBadOp_eq {s : State} (hp : s.pending = none) :
    refuseBadOp s = .next { s with lastError := 17#8, response := [17#8] } := by
  rw [refuseBadOp, raise, State.raised, ← hp]
  rfl

/-- An operation whose operands lie outside their encodings is refused before any state is read (R94, R283). -/
theorem exec_refuses {i : Instr} (hwf : i.wf = false) (hcmd : ∀ b0 b1 b2 b3, i ≠ .cmd b0 b1 b2 b3) (s : State) :
    exec i s = refuseBadOp s := by
  cases i with
  | cmd b0 b1 b2 b3 => exact absurd rfl (hcmd b0 b1 b2 b3)
  | wrPageFlash a y buf => exact if_neg (ne_of_beq_false hwf)
  | wrPageEeprom a y buf => exact if_neg (ne_of_beq_false hwf)
  | rdSig i => exact if_neg (of_decide_eq_false hwf)
  | hexDecode text => exact if_neg (of_decide_eq_false hwf)
  | hexEncData a bytes => exact if_neg (of_decide_eq_false hwf)
  | progLine text => exact if_neg (of_decide_eq_false hwf)
  | _ => cases hwf

/-- Settles O7: a message that is accepted would be the encoding of a well-formed instruction, so this one is refused. -/
theorem illegalOperationIsBadOp : Obligations.IllegalOperationIsBadOp := by
  refine ⟨fun s msg rest hp hm hnone => ?_, fun s i hwf hcmd => exec_refuses hwf hcmd s⟩
  cases hd : decode msg with
  | ok i =>
    obtain ⟨hwf, hmsg⟩ := encodeOfDecoded msg i hd
    exact absurd hmsg (hnone i hwf)
  | error e =>
    exact (step_refuses hp hm hd).trans (refuseBadOp_eq hp)

end Sys2Proof.Machine

/-! ### One exchange and the reset line (spec/40_bitlink.md R111, R114 to R117) -/

namespace Sys2Proof.Machine

@[simp] theorem bitEvents_length (tx rx : Bool) : (bitEvents tx rx).length = 6 := rfl

theorem xferEvents_length (tx rx : Byte) : (xferEvents tx rx).length = 48 := by
  simp [xferEvents, byteBits]

/-- Settles O8: the exchange is that of one byte, whatever is received; a pending write cycle faults before it. -/
theorem xferExchange : Obligations.XferExchange := by
  refine fun tx s => ⟨fun hw => ?_, fun hw => ?_⟩
  · obtain ⟨rx, env, hx, -, hkind, -⟩ := s.link.xfer_spec tx
    refine ⟨rx, env, ?_, xferEvents_length tx rx, hkind⟩
    rw [exec_xfer_eq tx hw, hx]
    rfl
  · show execXfer tx s = _
    rw [execXfer, guarded_busy .shift s _ hw rfl]
    rfl

/-! A change of the target leaves what the environment presents as it is (R20). -/

@[simp] theorem Env.onTarget_kind (e : Env) (f : Target → Target) : (e.onTarget f).kind = e.kind := by
  unfold Env.onTarget
  split <;> rfl

@[simp] theorem Env.onTarget_miso (e : Env) (f : Target → Target) : (e.onTarget f).miso = e.miso := by
  unfold Env.onTarget
  split <;> rfl

@[simp] theorem Env.onTarget_draws (e : Env) (f : Target → Target) : (e.onTarget f).draws = e.draws := by
  unfold Env.onTarget
  split <;> rfl

theorem exec_rstAssert_eq {s : State} (hw : s.wpend = false) :
    exec .rstAssert s = .next (State.returned [] { s with link := s.link.driveRst .low }) := by
  show execRstAssert s = _
  rw [execRstAssert, guarded_reset_ok hw]
  rfl

/-- While a write cycle is pending, each reset operation is the model fault `BusyHazard` (R314). -/
theorem exec_reset_busyHazard {s : State} (hw : s.wpend = true) {i : Instr}
    (hi : i ∈ [Instr.rstAssert, .rstRelease, .rstPulse, .linkRelease]) : exec i s = .fault .busyHazard := by
  have hbusy {go : State → Res Unit} : guarded .reset s go = .fault .busyHazard := guarded_busy .reset s go hw rfl
  simp only [List.mem_cons, List.not_mem_nil, or_false] at hi
  obtain rfl | rfl | rfl | rfl := hi
  · show execRstAssert s = _
    rw [execRstAssert, hbusy]; rfl
  · show execRstRelease s = _
    rw [execRstRelease, hbusy]; rfl
  · show execRstPulse s = _
    rw [execRstPulse, hbusy]; rfl
  · show execLinkRelease s = _
    rw [execLinkRelease, linkRelease, hbusy]; rfl

/-- Settles O11: the link of each operation is its drives and waits; the target behind it may change, not what is presented. -/
theorem resetLineOperations : Obligations.ResetLineOperations := by
  refine fun s => ⟨fun hw => ?_, fun hw i hi => exec_reset_busyHazard hw hi⟩
  obtain ⟨hrelease, hpulse, hlink⟩ := exec_reset_eq hw
  refine ⟨(s.link.driveRst .low).env, (s.link.driveRst .high).env, s.link.resetPulse.env, s.link.release.env,
    exec_rstAssert_eq hw, hrelease, hpulse, hlink, ?_⟩
  simp [Link.resetPulse, Link.release]

end Sys2Proof.Machine

/-! ### Who writes `PSTATE`, `ATTEMPT` and `SYNC_OK`, and who drives `RST` (spec/40_bitlink.md, R134) -/

namespace Sys2Proof.Machine

/-- The state of the programming protocol: `PSTATE`, the level of `RST`, `ATTEMPT` and `SYNC_OK` (R21, R28 to R30). -/
structure Protocol where
  pstate : PState
  rst : Level
  attempt : Nat
  syncOk : Bool

/-- What the synchronisation alone writes (R134). -/
def Protocol.sync (p : Protocol) : Nat × Bool := (p.attempt, p.syncOk)

def State.protocol (s : State) : Protocol := ⟨s.pstate, s.link.rst, s.attempt, s.syncOk⟩

theorem State.protocol_congr {s t : State} (h : t.protocol = s.protocol) :
    t.pstate = s.pstate ∧ t.link.rst = s.link.rst ∧ t.attempt = s.attempt ∧ t.syncOk = s.syncOk :=
  Protocol.mk.inj h

theorem State.sync_congr {s t : State} (h : t.protocol.sync = s.protocol.sync) : t.attempt = s.attempt ∧ t.syncOk = s.syncOk :=
  Prod.mk.inj h

/-! ### Frames keep the protocol's state -/

/-- An exchange writes the link, and not the level of `RST`. -/
theorem State.protocol_setLink (s : State) {l : Link} (h : l.rst = s.link.rst) : { s with link := l }.protocol = s.protocol := by
  simp only [State.protocol, h]

theorem State.frame_protocol (f : IspFrame) (s : State) : (s.frame f).2.protocol = s.protocol :=
  s.protocol_setLink (Link.frame_rst f s.link)

theorem State.commit_protocol (f : IspFrame) (s : State) : (s.commit f).protocol = s.protocol := s.frame_protocol f

theorem State.poll_protocol (s : State) : s.poll.protocol = s.protocol := s.frame_protocol pollFrame

theorem State.waiting_protocol (k : Pending) (s : State) : (s.waiting k).protocol = s.protocol := rfl

theorem Link.xfer_rst (tx : Byte) (l : Link) : (l.xfer tx).2.rst = l.rst := by
  obtain ⟨rx, env, hx, -⟩ := l.xfer_spec tx
  rw [hx]
  rfl

theorem Link.loadPage_rst (region : Region) (j : Nat) (buf : List Byte) (l : Link) : (l.loadPage region j buf).rst = l.rst := by
  rw [Link.loadPage_eq, Link.exchange_rst]

theorem noteFrame_protocol (f r : IspFrame) (s : State) : (noteFrame f r s).protocol = s.protocol := by
  unfold noteFrame
  dsimp only
  split <;> rfl

theorem mergeByte_protocol (a : Addr) (v : Byte) (s : State) : (mergeByte a v s).protocol = s.protocol := by
  unfold mergeByte
  split <;> rfl

/-- Whatever the inner operation answers, the protocol's state is `p` then. -/
def Res.KeepsProtocol {α : Type} (r : Res α) (p : Protocol) : Prop := r.Ends (fun _ t => t.protocol = p) (fun _ t => t.protocol = p)

theorem Res.KeepsProtocol.bind {α β : Type} {r : Res α} {next : α → State → Res β} {p : Protocol} (h : r.KeepsProtocol p)
    (hn : ∀ a t, t.protocol = p → (next a t).KeepsProtocol p) : (r.bind next).KeepsProtocol p :=
  Res.Ends.bind h hn fun _ _ ht => ht

theorem rdByte_keepsProtocol (region : Region) (a : Addr) (s : State) : (rdByte region a s).KeepsProtocol s.protocol := by
  unfold rdByte
  split
  · exact (rfl : s.protocol = s.protocol)
  · exact guarded_ends (s.frame_protocol _)

theorem readReply_keepsProtocol (f : IspFrame) (s : State) : (readReply f s).KeepsProtocol s.protocol :=
  guarded_ends (s.frame_protocol f)

theorem setExt_keepsProtocol (v : Byte) (s : State) : (setExt v s).KeepsProtocol s.protocol := guarded_ends (s.frame_protocol _)

theorem issueFrame_keepsProtocol (f : IspFrame) (s : State) : (issueFrame f s).KeepsProtocol s.protocol :=
  guarded_ends ((noteFrame_protocol f _ _).trans (s.frame_protocol f))

theorem startEeByte_keepsProtocol (a : Addr) (v : Byte) (s : State) : (startEeByte a v s).KeepsProtocol s.protocol := by
  unfold startEeByte
  split
  · exact (rfl : s.protocol = s.protocol)
  · exact guarded_ends (s.commit_protocol _)

theorem verifyEeByte_keepsProtocol (a : Addr) (v : Byte) (s : State) : (verifyEeByte a v s).KeepsProtocol s.protocol := by
  refine (rdByte_keepsProtocol .eeprom a s).bind fun rb t ht => ?_
  split <;> exact ht

theorem verifyFrom_keepsProtocol (region : Region) (base : Addr) (buf : List Byte) (j : Nat) (s : State) :
    (verifyFrom region base j buf s).KeepsProtocol s.protocol := by
  induction buf generalizing j s with
  | nil => exact (rfl : s.protocol = s.protocol)
  | cons v buf ih =>
    refine (rdByte_keepsProtocol region _ s).bind fun rb t ht => ?_
    split
    · exact ht ▸ ih (j + 1) t
    · exact ht

theorem startPage_keepsProtocol (region : Region) (a : Addr) (buf : List Byte) (s : State) :
    (startPage region a buf s).KeepsProtocol s.protocol := by
  unfold startPage
  split
  · exact (rfl : s.protocol = s.protocol)
  · exact guarded_ends ((State.commit_protocol _ _).trans (s.protocol_setLink (Link.loadPage_rst region 0 buf s.link)))

theorem startErase_keepsProtocol (s : State) : (startErase s).KeepsProtocol s.protocol := guarded_ends (s.commit_protocol _)

theorem startFuse_keepsProtocol (k : FuseKind) (v : Byte) (s : State) : (startFuse k v s).KeepsProtocol s.protocol :=
  guarded_ends (s.commit_protocol _)

theorem decodeRecord_keepsProtocol (text : List Byte) (s : State) : (decodeRecord text s).KeepsProtocol s.protocol := by
  unfold decodeRecord
  split <;> exact (rfl : s.protocol = s.protocol)

/-! ### Operations of frames alone: they keep the protocol's state -/

/-- A host operation or a step that answers a next state leaves the protocol's state in `P`. -/
def ProtocolIn (o : Out) (P : Protocol → Prop) : Prop := NextIn o fun t => P t.protocol

/-- One turn of the poll loop (R135) is a frame and, at most, a wait. -/
theorem pollThen_protocolIn {P : Protocol → Prop} {k : Pending} {next : State → Out} {s : State} (h : P s.protocol)
    (hn : ∀ t, P t.protocol → ProtocolIn (next t) P) : ProtocolIn (pollThen k next s) P :=
  have hp : P s.poll.protocol := by rwa [s.poll_protocol]
  pollThen_ends (by rwa [State.waiting_protocol]) (hn s.poll hp)

/-- The operation leaves the protocol's state `p`. -/
abbrev LeavesProtocol (o : Out) (p : Protocol) : Prop := ProtocolIn o (· = p)

theorem Res.KeepsProtocol.finish {α : Type} {r : Res α} {p : Protocol} (h : r.KeepsProtocol p) (result : α → List Byte) :
    LeavesProtocol (r.finish result) p :=
  Res.Ends.finish h (fun _ _ ht => ht) fun _ _ ht => ht

theorem Res.KeepsProtocol.orRaise {α : Type} {r : Res α} {p : Protocol} {next : α → State → Out} (h : r.KeepsProtocol p)
    (hn : ∀ a t, t.protocol = p → LeavesProtocol (next a t) p) : LeavesProtocol (r.orRaise next) p := by
  cases r with
  | ok a t => exact hn a t h
  | err e t => exact h
  | fault f => trivial

theorem sendFrame_leavesProtocol (f : IspFrame) (s : State) : LeavesProtocol (sendFrame f s) s.protocol :=
  (issueFrame_keepsProtocol f s).finish _

theorem execXfer_leavesProtocol (tx : Byte) (s : State) : LeavesProtocol (execXfer tx s) s.protocol := by
  refine Res.KeepsProtocol.finish (guarded_ends ?_) _
  exact s.protocol_setLink (Link.xfer_rst tx s.link)

theorem eeByteDone_leavesProtocol (a : Addr) (v : Byte) (verify : Bool) (s : State) :
    LeavesProtocol (eeByteDone a v verify s) s.protocol := by
  unfold eeByteDone
  split
  · exact (verifyEeByte_keepsProtocol a v s).finish _
  · exact (rfl : s.protocol = s.protocol)

theorem pageDone_leavesProtocol (region : Region) (base : Addr) (buf : List Byte) (verify : Bool) (s : State) :
    LeavesProtocol (pageDone region base buf verify s) s.protocol := by
  unfold pageDone
  split
  · exact (verifyFrom_keepsProtocol region base buf 0 s).finish _
  · exact (rfl : s.protocol = s.protocol)

theorem execWrEebyte_leavesProtocol (a : Addr) (v : Byte) (verify : Bool) (s : State) :
    LeavesProtocol (execWrEebyte a v verify s) s.protocol := by
  rw [execWrEebyte_eq]
  exact (startEeByte_keepsProtocol a v s).orRaise fun _ _ ht =>
    pollThen_protocolIn ht fun u hu => hu ▸ eeByteDone_leavesProtocol a v verify u

theorem writePage_leavesProtocol (region : Region) (a : Addr) (verify : Bool) (buf : List Byte) (s : State) :
    LeavesProtocol (writePage region a verify buf s) s.protocol := by
  rw [writePage_eq]
  split
  · exact (startPage_keepsProtocol region a buf s).orRaise fun base _ ht =>
      pollThen_protocolIn ht fun u hu => hu ▸ pageDone_leavesProtocol region base buf verify u
  · exact (rfl : s.protocol = s.protocol)

theorem execErase_leavesProtocol (s : State) : LeavesProtocol (execErase s) s.protocol := by
  rw [execErase_eq]
  exact (startErase_keepsProtocol s).orRaise fun _ _ ht => pollThen_protocolIn ht fun _ hu => hu

theorem execWrFuse_leavesProtocol (k : FuseKind) (v : Byte) (s : State) : LeavesProtocol (execWrFuse k v s) s.protocol := by
  rw [execWrFuse_eq]
  exact (startFuse_keepsProtocol k v s).orRaise fun _ _ ht => pollThen_protocolIn ht fun _ hu => hu

theorem execRdSig_leavesProtocol (i : Byte) (s : State) : LeavesProtocol (execRdSig i s) s.protocol := by
  unfold execRdSig
  split
  · exact (readReply_keepsProtocol _ s).finish _
  · exact (rfl : s.protocol = s.protocol)

theorem execHexDecode_leavesProtocol (text : List Byte) (s : State) : LeavesProtocol (execHexDecode text s) s.protocol := by
  unfold execHexDecode
  split
  · exact (decodeRecord_keepsProtocol text s).finish _
  · exact (rfl : s.protocol = s.protocol)

theorem execHexEncData_leavesProtocol (a : Addr) (bytes : List Byte) (s : State) :
    LeavesProtocol (execHexEncData a bytes s) s.protocol := by
  unfold execHexEncData
  split
  · split <;> exact (rfl : s.protocol = s.protocol)
  · exact (rfl : s.protocol = s.protocol)

/-- All operations but the synchronisation, the resets and those of a session keep the protocol's state. -/
theorem exec_leavesProtocol {i : Instr} (s : State)
    (hi : i ∉ [Instr.rstAssert, .rstRelease, .rstPulse, .linkRelease, .pgmEnter, .progBeginFlash, .progBeginEeprom, .progFinish])
    (hl : ∀ text, i ≠ .progLine text) : LeavesProtocol (exec i s) s.protocol := by
  cases i
  case rstAssert | rstRelease | rstPulse | linkRelease | pgmEnter | progBeginFlash | progBeginEeprom | progFinish => simp at hi
  case progLine text => exact absurd rfl (hl text)
  case progEnable | chipErase | pollRdy | readSig | readFuseLo | readFuseHi | readFuseExt | readLock | writeFuseLo | writeFuseHi |
      writeFuseExt | writeLock | readEeprom | writeEeprom | loadEepromPage | writeEepromPage | readFlashLo | readFlashHi |
      loadFlashLo | loadFlashHi | writeFlashPage | loadExtAddr | cmd => exact sendFrame_leavesProtocol _ s
  case xfer tx => exact execXfer_leavesProtocol tx s
  case pollReady => exact pollThen_protocolIn rfl fun _ ht => ht
  case rdByteFlash a => exact (rdByte_keepsProtocol .flash a s).finish _
  case rdByteEeprom a => exact (rdByte_keepsProtocol .eeprom a s).finish _
  case wrEebyte a v verify => exact execWrEebyte_leavesProtocol a v verify s
  case wrPageFlash a verify buf => exact writePage_leavesProtocol .flash a verify buf s
  case wrPageEeprom a verify buf => exact writePage_leavesProtocol .eeprom a verify buf s
  case erase => exact execErase_leavesProtocol s
  case rdFuse k => exact (readReply_keepsProtocol _ s).finish _
  case wrFuse k v => exact execWrFuse_leavesProtocol k v s
  case rdSig i => exact execRdSig_leavesProtocol i s
  case setExt v => exact (setExt_keepsProtocol v s).finish _
  case hexDecode text => exact execHexDecode_leavesProtocol text s
  case hexEncData a bytes => exact execHexEncData_leavesProtocol a bytes s
  case hexEncEnd | status => exact (rfl : s.protocol = s.protocol)

/-- So do the operations that can wait outside a session, and the start of a flash session after its erase (R135, R210). -/
theorem resume_leavesProtocol {k : Pending} (hk : k.isLinkOp = true ∨ k = .beginErase) (s : State) :
    LeavesProtocol (resume k s) s.protocol := by
  refine pollThen_protocolIn rfl fun t ht => ?_
  cases k with
  | plain | beginErase => exact ht
  | eeByte a v verify => exact ht ▸ eeByteDone_leavesProtocol a v verify t
  | page region base buf verify => exact ht ▸ pageDone_leavesProtocol region base buf verify t
  | lineFlush | endFlush | lineEeByte => simp [Pending.isLinkOp] at hk

/-! ### The steps of a session release the link and keep the outcome of the synchronisation -/

/-- The operation leaves `ATTEMPT` and `SYNC_OK` as `q`. -/
abbrev LeavesSync (o : Out) (q : Nat × Bool) : Prop := ProtocolIn o (·.sync = q)

theorem LeavesProtocol.leavesSync {o : Out} {s : State} (h : LeavesProtocol o s.protocol) : LeavesSync o s.protocol.sync :=
  NextIn.mono h fun _ ht => congrArg Protocol.sync ht

/-- Whatever the inner operation answers, `ATTEMPT` and `SYNC_OK` are `q` then. -/
def Res.KeepsSync {α : Type} (r : Res α) (q : Nat × Bool) : Prop :=
  r.Ends (fun _ t => t.protocol.sync = q) (fun _ t => t.protocol.sync = q)

theorem Res.KeepsSync.finish {α : Type} {r : Res α} {q : Nat × Bool} (h : r.KeepsSync q) (result : α → List Byte) :
    LeavesSync (r.finish result) q :=
  Res.Ends.finish h (fun _ _ ht => ht) fun _ _ ht => ht

/-- `LINK_RELEASE` (R117) writes `PSTATE` and the level of `RST` alone. -/
theorem linkRelease_keepsSync (s : State) : (linkRelease s).KeepsSync s.protocol.sync :=
  guarded_ends (rfl : s.protocol.sync = s.protocol.sync)

section
variable {q : Nat × Bool} {s : State}

theorem abort_leavesSync (h : s.protocol.sync = q) (e : Err) (inLine : Bool) : LeavesSync (abort e inLine s) q := by
  unfold abort
  dsimp only
  have hl := linkRelease_keepsSync { s with session := { s.session with page := s.session.page.close, sstate := .aborted } }
  split
  · next heq => rw [heq] at hl; exact hl.trans h
  · next heq => rw [heq] at hl; exact hl.trans h
  · trivial

theorem complete_leavesSync (h : s.protocol.sync = q) : LeavesSync (complete s) q :=
  Res.KeepsSync.finish (h ▸ linkRelease_keepsSync { s with session := { s.session with sstate := .done } }) _

theorem Res.KeepsProtocol.orAbort {α : Type} {r : Res α} {inLine : Bool} {next : α → State → Out}
    (hr : r.KeepsProtocol s.protocol) (h : s.protocol.sync = q) (hn : ∀ a t, t.protocol.sync = q → LeavesSync (next a t) q) :
    LeavesSync (r.orAbort inLine next) q := by
  cases r with
  | ok a t => exact hn a t ((congrArg Protocol.sync hr).trans h)
  | err e t => exact abort_leavesSync ((congrArg Protocol.sync hr).trans h) e inLine
  | fault f => trivial

theorem flushDone_leavesSync {base : Addr} {pb : List Byte} {inLine : Bool} {next : State → Out} (h : s.protocol.sync = q)
    (hn : ∀ t, t.protocol.sync = q → LeavesSync (next t) q) : LeavesSync (flushDone base pb inLine next s) q :=
  (verifyFrom_keepsProtocol .flash base pb 0 s).orAbort h fun _ => hn

theorem flushThen_leavesSync {k : Addr → List Byte → Pending} {inLine : Bool} {next : State → Out} (h : s.protocol.sync = q)
    (hn : ∀ t, t.protocol.sync = q → LeavesSync (next t) q) : LeavesSync (flushThen k inLine next s) q := by
  unfold flushThen
  split
  · exact (startPage_keepsProtocol .flash _ _ _).orAbort h fun base _ ht =>
      pollThen_protocolIn ht fun _ hu => flushDone_leavesSync hu hn
  · exact hn s h

theorem mergeBytes_leavesSync (data : List Byte) (a : Addr) (h : s.protocol.sync = q) : LeavesSync (mergeBytes a data s) q := by
  induction data generalizing a s with
  | nil => exact h
  | cons v vs ih =>
    have merged {t : State} (ht : t.protocol.sync = q) : (mergeByte a v t).protocol.sync = q :=
      (congrArg Protocol.sync (mergeByte_protocol a v t)).trans ht
    unfold mergeBytes
    split
    · exact ih _ (merged h)
    · exact flushThen_leavesSync h fun t ht => ih _ (merged (t := openPage _ t) ht)

theorem flashData_leavesSync (r : HexRecord) (h : s.protocol.sync = q) : LeavesSync (flashData r s) q := by
  unfold flashData
  split
  · exact mergeBytes_leavesSync r.data r.addr h
  · exact flushThen_leavesSync h fun t ht => mergeBytes_leavesSync r.data r.addr (s := openPage _ t) ht

theorem endSession_leavesSync (h : s.protocol.sync = q) (inLine : Bool) : LeavesSync (endSession inLine s) q :=
  flushThen_leavesSync h fun _ => complete_leavesSync

theorem eepromBytes_leavesSync (vs : List Byte) (a : Addr) (h : s.protocol.sync = q) : LeavesSync (eepromBytes a vs s) q := by
  induction vs generalizing a s with
  | nil => exact h
  | cons v vs ih =>
    exact (startEeByte_keepsProtocol a v s).orAbort h fun _ _ ht => pollThen_protocolIn ht fun u hu =>
      (verifyEeByte_keepsProtocol a v u).orAbort hu fun _ _ => ih (a + 1)

theorem extAddress_leavesSync (r : HexRecord) (h : s.protocol.sync = q) : LeavesSync (extAddress r s) q := by
  unfold extAddress
  split
  · exact (setExt_keepsProtocol _ s).orAbort h fun _ _ ht => ht
  · exact abort_leavesSync h _ true

theorem eepromExtAddress_leavesSync (r : HexRecord) (h : s.protocol.sync = q) : LeavesSync (eepromExtAddress r s) q := by
  unfold eepromExtAddress
  split
  · exact extAddress_leavesSync r h
  · exact h

theorem flashRecord_leavesSync (r : HexRecord) (h : s.protocol.sync = q) : LeavesSync (flashRecord r s) q := by
  unfold flashRecord
  split
  · split
    · exact flashData_leavesSync r h
    · exact abort_leavesSync h _ true
  · split
    · exact endSession_leavesSync h true
    · split
      · exact extAddress_leavesSync r h
      · exact abort_leavesSync h _ true

theorem eepromRecord_leavesSync (r : HexRecord) (h : s.protocol.sync = q) : LeavesSync (eepromRecord r s) q := by
  unfold eepromRecord
  split
  · split
    · exact eepromBytes_leavesSync r.data r.addr h
    · exact abort_leavesSync h _ true
  · split
    · exact endSession_leavesSync h true
    · split
      · exact eepromExtAddress_leavesSync r h
      · exact abort_leavesSync h _ true

end

theorem execProgLine_leavesSync (text : List Byte) (s : State) : LeavesSync (execProgLine text s) s.protocol.sync := by
  unfold execProgLine
  split
  · split
    · refine (decodeRecord_keepsProtocol text _).orAbort rfl fun r t ht => ?_
      split
      · exact flashRecord_leavesSync r ht
      · exact eepromRecord_leavesSync r ht
    · exact (rfl : s.protocol.sync = s.protocol.sync)
  · exact (rfl : s.protocol.sync = s.protocol.sync)

theorem execProgFinish_leavesSync (s : State) : LeavesSync (execProgFinish s) s.protocol.sync := by
  unfold execProgFinish
  split
  · exact endSession_leavesSync rfl false
  · exact (rfl : s.protocol.sync = s.protocol.sync)

theorem resume_leavesSync (k : Pending) (s : State) : LeavesSync (resume k s) s.protocol.sync := by
  refine pollThen_protocolIn rfl fun t ht => ?_
  cases k with
  | plain | beginErase => exact ht
  | eeByte a v verify => exact ht ▸ (eeByteDone_leavesProtocol a v verify t).leavesSync
  | page region base buf verify => exact ht ▸ (pageDone_leavesProtocol region base buf verify t).leavesSync
  | lineFlush base pb a data => exact flushDone_leavesSync ht fun u hu => mergeBytes_leavesSync data a (s := openPage _ u) hu
  | endFlush base pb inLine => exact flushDone_leavesSync ht fun _ => complete_leavesSync
  | lineEeByte a v vs => exact (verifyEeByte_keepsProtocol a v t).orAbort ht fun _ _ => eepromBytes_leavesSync vs (a + 1)

/-- All operations but `PGM_ENTER` and the starts of a session keep `ATTEMPT` and `SYNC_OK`. -/
theorem exec_leavesSync {i : Instr} (s : State) (hi : i ∉ [Instr.pgmEnter, .progBeginFlash, .progBeginEeprom]) :
    LeavesSync (exec i s) s.protocol.sync := by
  cases i with
  | pgmEnter | progBeginFlash | progBeginEeprom => simp at hi
  | rstAssert | rstRelease | rstPulse =>
    refine Res.KeepsSync.finish (guarded_ends ?_) _
    exact (rfl : s.protocol.sync = s.protocol.sync)
  | linkRelease => exact (linkRelease_keepsSync s).finish _
  | progLine text => exact execProgLine_leavesSync text s
  | progFinish => exact execProgFinish_leavesSync s
  | _ => exact (exec_leavesProtocol s (by simp) (by simp)).leavesSync

/-- `RST_ASSERT` drives `RST` and leaves `PSTATE` as it is (R114). -/
theorem exec_rstAssert_pstate (s : State) : NextIn (exec .rstAssert s) fun t => t.pstate = s.pstate := by
  cases hw : s.wpend with
  | false => rw [exec_rstAssert_eq hw]; exact (rfl : s.pstate = s.pstate)
  | true => rw [exec_reset_busyHazard hw (by simp)]; trivial

/-- Settles O50: every instruction and every waiting operation, by the protocol's state it keeps, or `ATTEMPT` and `SYNC_OK` of it. -/
theorem protocolStateWriters : Obligations.ProtocolStateWriters := by
  refine ⟨fun s t i ht => ⟨fun hi hl => ?_, fun hi => ?_, fun hi => ?_⟩, fun s t k hp ht => ?_⟩
  · obtain ⟨hpstate, hrst, -⟩ := State.protocol_congr ((exec_leavesProtocol s hi hl).of_next ht)
    exact ⟨hpstate, hrst⟩
  · exact State.sync_congr ((exec_leavesSync s hi).of_next ht)
  · subst hi
    exact (exec_rstAssert_pstate s).of_next ht
  · rw [step_resumes hp] at ht
    obtain ⟨hattempt, hsyncOk⟩ := State.sync_congr ((resume_leavesSync k s).of_next ht)
    refine ⟨hattempt, hsyncOk, fun hk => ?_⟩
    have hk : k.isLinkOp = true ∨ k = .beginErase := by
      obtain rfl | rfl | ⟨a, v, y, rfl⟩ | ⟨region, a, buf, y, rfl⟩ := hk <;> simp [Pending.isLinkOp]
    obtain ⟨hpstate, hrst, -⟩ := State.protocol_congr ((resume_leavesProtocol hk s).of_next ht)
    exact ⟨hpstate, hrst⟩

end Sys2Proof.Machine

/-! ### Frames, synchronisation attempts and ready polls (spec/41_isp_protocol.md R130 to R135) -/

namespace Sys2Proof.Machine

theorem frameEvents_length (tx rx : IspFrame) : (frameEvents tx rx).length = 192 := by
  simp [frameEvents, xferEvents_length]

/-- A frame appends its events to the trace and nothing else (R130). -/
theorem Link.frame_log (f : IspFrame) (l : Link) : (l.frame f).2.log = (frameEvents f (l.frame f).1).reverse ++ l.log := by
  obtain ⟨r, env, hf, -⟩ := l.frame_spec f
  rw [hf]
  rfl

theorem Link.frame_frameTx (f : IspFrame) (l : Link) : (l.frame f).2.frameTx = .written f := rfl

/-- Nothing stands between the frames of a sequence (R69). -/
theorem Link.exchange_log (fs : List IspFrame) (l : Link) :
    (l.exchange fs).2.log = ((fs.zip (l.exchange fs).1).flatMap fun p => frameEvents p.1 p.2).reverse ++ l.log := by
  induction fs generalizing l with
  | nil => rfl
  | cons f fs ih => simp [Link.exchange_cons, ih, Link.frame_log]

/-- Settles O9: a frame is four exchanges of 48 events; a sequence by induction on its frames. -/
theorem frameExchange : Obligations.FrameExchange := by
  refine ⟨fun f l => ?_, fun fs l => ⟨l.exchange_length fs, l.exchange_log fs, l.exchange_rst fs⟩⟩
  obtain ⟨r, env, hf, hkind, -⟩ := l.frame_spec f
  exact ⟨r, env, hf, frameEvents_length f r, hkind⟩

/-! The events of an attempt, a reset pulse and a poll, each on top of the trace before it. -/

theorem Link.resetPulse_log (l : Link) : l.resetPulse.log = pulseEvents.reverse ++ l.log := rfl

/-- The four events before the frame of an attempt are its drives and the settling time (R132). -/
theorem Link.attempt_frame_log (l : Link) :
    (l.attempt.frame progEnableFrame).2.log = (attemptEvents (l.attempt.frame progEnableFrame).1).reverse ++ l.log := by
  rw [Link.frame_log, attemptEvents, List.reverse_append, List.append_assoc]
  rfl

theorem Link.tried_log (n : Nat) (s : State) :
    (s.link.tried n).log = (attemptEvents (attemptReply n s)).reverse ++ (s.link.failed n).log :=
  (s.link.failed n).attempt_frame_log

theorem Link.failed_log (n : Nat) (s : State) :
    (s.link.failed n).log =
      ((List.range n).flatMap fun j => attemptEvents (attemptReply j s) ++ pulseEvents).reverse ++ s.link.log := by
  induction n with
  | zero => rfl
  | succ n ih =>
    have hlast : (s.link.failed (n + 1)).log = pulseEvents.reverse ++ (s.link.tried n).log := Link.resetPulse_log _
    rw [hlast, Link.tried_log, ih, List.range_succ]
    simp

theorem Link.tried_rst (n : Nat) (l : Link) : (l.tried n).rst = .low := (l.failed n).attempt.frame_rst progEnableFrame

theorem Link.polled_log (n : Nat) (s : State) :
    (s.link.polled n).log =
      ((List.range n).flatMap fun j => frameEvents pollFrame (pollReply j s) ++ [.wait .tPoll]).reverse ++ s.link.log := by
  induction n with
  | zero => rfl
  | succ n ih =>
    have hlast : (s.link.polled (n + 1)).log = .wait .tPoll :: ((s.link.polled n).frame pollFrame).2.log := rfl
    rw [hlast, Link.frame_log, ih, List.range_succ]
    simp [pollReply]

theorem Link.polled_rst (n : Nat) (l : Link) : (l.polled n).rst = l.rst := by
  induction n with
  | zero => rfl
  | succ n ih => simp only [Link.polled, Link.wait, Link.frame_rst, ih]

/-- Settles O13: the last attempt on top of the failed ones; both counts of turns by induction. -/
theorem loopEvents : Obligations.LoopEvents := by
  refine ⟨fun s n => ⟨?_, Link.tried_rst n s.link, Link.frame_frameTx _ _⟩,
    fun s n => ⟨Link.polled_log n s, Link.polled_rst n s.link⟩⟩
  rw [Link.tried_log, Link.failed_log, List.reverse_append, List.append_assoc]

/-! Synchronisation (R132, R133). -/

/-- The first attempt in sync ends the synchronisation, if there is one. -/
theorem syncsAt_or_neverSyncs (s : State) : (∃ n, n < 5 ∧ SyncsAt n s) ∨ NeverSyncs s := by
  by_cases h : ∃ n, n < 5 ∧ (attemptReply n s).b2 = 0x53#8
  · obtain ⟨hlt, hsync⟩ := Nat.find_spec h
    exact .inl ⟨Nat.find h, hlt, hsync, fun j hj hs => Nat.find_min h hj ⟨hj.trans hlt, hs⟩⟩
  · exact .inr fun j hj hs => h ⟨j, hj, hs⟩

/-- The state in which the attempts of a synchronisation begin (R132). -/
def State.syncing (s : State) : State := { s with pstate := .syncing, syncOk := false, attempt := 0 }

/-- `PGM_ENTER` with no write cycle pending is the attempt loop (R132). -/
theorem exec_pgmEnter_eq {s : State} (hw : s.wpend = false) :
    exec .pgmEnter s = (syncLoop 5 s.syncing).finish fun _ => [boolCode true] := by
  show execPgmEnter s = _
  rw [execPgmEnter, pgmEnter, guarded_reset_ok hw]
  rfl

theorem exec_pgmEnter_syncs {n : Nat} {s : State} (hw : s.wpend = false) (hn : n < 5) (hs : SyncsAt n s) :
    exec .pgmEnter s = .next (State.returned [boolCode true] { s with
      link := s.link.tried n, pstate := .programming, attempt := n + 1, syncOk := true, fuseDirty := false }) := by
  rw [exec_pgmEnter_eq hw, show 5 = n + 1 + (4 - n) by omega, syncLoop_syncs n _ s.syncing hs,
    show s.syncing.attempt + (n + 1) = n + 1 from Nat.zero_add _]
  rfl

theorem exec_pgmEnter_fails {s : State} (hw : s.wpend = false) (hs : NeverSyncs s) :
    exec .pgmEnter s = .next (State.raised .linkError [] { s with
      link := s.link.tried 4, pstate := .failed, attempt := 5, syncOk := false }) := by
  rw [exec_pgmEnter_eq hw, syncLoop_fails 4 s.syncing hs]
  rfl

/-- Settles O12: the attempt loop by its first attempt in sync, or by none; a pending write cycle faults before it. -/
theorem pgmEnterAttempts : Obligations.PgmEnterAttempts := by
  refine fun s => ⟨fun n => exec_pgmEnter_syncs, exec_pgmEnter_fails, syncsAt_or_neverSyncs s, fun hw => ?_⟩
  show execPgmEnter s = _
  rw [execPgmEnter, pgmEnter, guarded_busy .reset s _ hw rfl]
  rfl

/-! The ready poll (R135). -/

theorem exec_pollReady_busy {s : State} (hb : busyBit (pollReply 0 s) = true) :
    exec .pollReady s = .next { s with link := s.link.polled 1, busy := true, pending := some .plain } :=
  pollThen_busy .plain _ s hb

/-- Settles O18: a first poll that reads not busy ends the operation; after a busy one it goes on by `waitingOperationGoesOn`. -/
theorem pollReadyReturns : Obligations.PollReadyReturns := by
  refine ⟨fun s n hr => ?_, fun s => exec_pollReady_busy⟩
  cases n with
  | zero => exact ⟨_, pollThen_ready .plain _ s hr.1, rfl⟩
  | succ n =>
    refine ⟨_, exec_pollReady_busy (hr.2 0 n.succ_pos), ?_⟩
    rw [waitingOperationGoesOn { s with link := s.link.polled 1, busy := true, pending := some .plain } .plain n rfl hr.of_succ,
      show (s.link.polled 1).polled n = s.link.polled (n + 1) from s.polledBusy_link_polled n]
    rfl

/-! A frame sent by the host (R131). -/

@[simp] theorem isCommitFrame_pollFrame : isCommitFrame pollFrame = false := rfl

@[simp] theorem isFuseWriteFrame_pollFrame : isFuseWriteFrame pollFrame = false := rfl

@[simp] theorem isPollFrame_pollFrame : isPollFrame pollFrame = true := rfl

/-- With a write cycle pending the ready poll alone goes on (R314). -/
theorem guarded_frame_ok {α : Type} {f : IspFrame} {s : State} (go : State → Res α) (hw : s.wpend = false ∨ f = pollFrame)
    (hd : isFuseWriteFrame f = true → s.fuseDirty = false) : guarded (.frame f) s go = go s := by
  obtain hw | rfl := hw
  · exact guarded_ok _ s go hw hd
  · simp [guarded, hazard, HazardKind.isPoll, HazardKind.isFuseWrite]

/-- A fuse or lock write faults while an earlier one has not taken effect (R316). -/
theorem guarded_fuseReentry {α : Type} {k : HazardKind} {s : State} (go : State → Res α) (hw : s.wpend = false)
    (hk : k.isFuseWrite = true) (hd : s.fuseDirty = true) : guarded k s go = .fault .fuseReentryHazard := by
  simp [guarded, hazard, hw, hk, hd]

theorem isPollFrame_eq_false {f : IspFrame} (hf : f ≠ pollFrame) : isPollFrame f = false := by
  simpa [isPollFrame] using hf

/-- What a frame does to the flags: `BUSY` by the ready poll alone, which is no commit frame (R131). -/
theorem noteFrame_eq (f r : IspFrame) (s : State) :
    noteFrame f r s = { s with
      busy := if f = pollFrame then busyBit r else s.busy
      wpend := if f = pollFrame then s.wpend && busyBit r else s.wpend || isCommitFrame f
      fuseDirty := s.fuseDirty || isFuseWriteFrame f } := by
  by_cases hf : f = pollFrame
  · subst hf
    simp [noteFrame, State.notePoll]
  · simp [noteFrame, isPollFrame_eq_false hf, hf]

theorem exec_cmd_eq (f : IspFrame) (s : State) : exec (.cmd f.b0 f.b1 f.b2 f.b3) s = sendFrame f s := rfl

/-- A frame that passes its hazard check is sent, whatever answers it, and its flags are set (R131). -/
theorem sendFrame_eq {f : IspFrame} {s : State} (hw : s.wpend = false ∨ f = pollFrame)
    (hd : isFuseWriteFrame f = true → s.fuseDirty = false) :
    sendFrame f s = .next (State.returned [(s.link.frame f).1.b3]
      (noteFrame f (s.link.frame f).1 { s with link := (s.link.frame f).2 })) := by
  rw [sendFrame, issueFrame, guarded_frame_ok _ hw hd]
  rfl

/-- Settles O14: the frame, against whatever answers it, then its flags; the two hazards fault before it. -/
theorem cmdSendsItsFrame : Obligations.CmdSendsItsFrame := by
  refine fun f s => ⟨fun hw hd => ?_, fun hw hf => ?_, fun hw hfuse hd => ?_⟩
  · obtain ⟨r, env, hframe, hkind, -⟩ := s.link.frame_spec f
    refine ⟨r, env, ?_, hkind⟩
    rw [exec_cmd_eq, sendFrame_eq hw hd, hframe, noteFrame_eq]
    rfl
  · rw [exec_cmd_eq, sendFrame, issueFrame, guarded_busy (.frame f) s _ hw (isPollFrame_eq_false hf)]
    rfl
  · rw [exec_cmd_eq, sendFrame, issueFrame, guarded_fuseReentry (k := .frame f) _ hw hfuse hd]
    rfl

end Sys2Proof.Machine

/-! ### Frames of addresses, and what a memory operation does around its frames (spec/42_memory_programmer.md) -/

namespace Sys2Proof.Machine

/-- The bytes of an address in a frame, high byte first (R58). -/
theorem addrFrame_eq (op : Byte) (a : Addr) (v : Byte) :
    addrFrame op a v = ⟨op, BitVec.ofNat 8 (a.toNat / 256), BitVec.ofNat 8 a.toNat, v⟩ := by
  rw [← addrFrame_ofNat op a.isLt v, BitVec.ofNat_toNat, BitVec.setWidth_eq]

/-- The read frame of a flash byte: the word address, and the parity of the byte address in the code (R60, R151). -/
theorem readFrame_flash (a : Addr) : readFrame .flash a =
    ⟨if a.toNat % 2 = 0 then 0x20#8 else 0x28#8, BitVec.ofNat 8 (a.toNat / 2 / 256), BitVec.ofNat 8 (a.toNat / 2), 0x00#8⟩ := by
  have hword : (wordAddr a).toNat = a.toNat / 2 := by simp [wordAddr, Nat.shiftRight_eq_div_pow]
  have hodd : a.getLsbD 0 = !decide (a.toNat % 2 = 0) := by
    rw [BitVec.getLsbD, Nat.testBit_zero]
    rcases Nat.mod_two_eq_zero_or_one a.toNat with h | h <;> simp [h]
  rw [readFrame, readFlashFrame, addrFrame_eq, hword, hodd]
  by_cases h : a.toNat % 2 = 0 <;> simp [h]

theorem readFrame_eeprom (a : Addr) :
    readFrame .eeprom a = ⟨0xA0#8, BitVec.ofNat 8 (a.toNat / 256), BitVec.ofNat 8 a.toNat, 0x00#8⟩ :=
  addrFrame_eq 0xA0#8 a 0x00#8

/-- No read frame is the ready poll. -/
theorem isPollFrame_of_isReadFrame {f : IspFrame} {i : Instr} (hf : decodeFrame f = some i) (hi : isReadFrame i = true) :
    isPollFrame f = false := by
  refine isPollFrame_eq_false fun hpoll => ?_
  subst hpoll
  cases hf
  cases hi

/-- A read as a host operation sends its frame, whatever answers it, and returns the fourth reply byte (R151, R158, R160). -/
theorem readReply_received {s : State} {f : IspFrame} {i : Instr} (hw : s.wpend = false) (hf : decodeFrame f = some i)
    (hi : isReadFrame i = true) : ∃ r env,
    ((readReply f s).finish fun b => [b]) = .next { s with
      link := s.link.afterFrame f r env, lastError := 0#8, response := [0#8, r.b3], pending := none } ∧
    env.kind = s.link.env.kind := by
  obtain ⟨r, env, hframe, hkind, -⟩ := s.link.frame_spec f
  refine ⟨r, env, ?_, hkind⟩
  rw [readReply_finish hw hf hi, hframe]
  rfl

/-- A read faults while a write cycle is pending (R314). -/
theorem readReply_busyHazard {s : State} {f : IspFrame} {i : Instr} (hw : s.wpend = true) (hf : decodeFrame f = some i)
    (hi : isReadFrame i = true) (result : Byte → List Byte) : (readReply f s).finish result = .fault .busyHazard := by
  rw [readReply, guarded_busy (.frame f) s _ hw (isPollFrame_of_isReadFrame hf hi)]
  rfl

/-- `RD_BYTE` of an address out of range (R150). -/
theorem rdByte_outOfRange {region : Region} {a : Addr} (ha : capacity region ≤ a.toNat) (s : State) (result : Byte → List Byte) :
    (rdByte region a s).finish result = .next { s with lastError := 11#8, response := [11#8], pending := none } := by
  rw [rdByte, if_pos ha]
  rfl

/-- `RD_BYTE` of a region: one read frame, the hazard, the bound (R150 to R152). -/
theorem rdByte_finish (region : Region) (a : Addr) (s : State) :
    (a.toNat < capacity region → s.wpend = false → ∃ r env,
      ((rdByte region a s).finish fun b => [b]) = .next { s with
        link := s.link.afterFrame (readFrame region a) r env, lastError := 0#8, response := [0#8, r.b3], pending := none } ∧
      env.kind = s.link.env.kind) ∧
    (a.toNat < capacity region → s.wpend = true → ((rdByte region a s).finish fun b => [b]) = .fault .busyHazard) ∧
    (capacity region ≤ a.toNat →
      ((rdByte region a s).finish fun b => [b]) = .next { s with lastError := 11#8, response := [11#8], pending := none }) := by
  have hf := decodeFrame_readFrame region a
  have hi := isReadFrame_readInstr region a
  refine ⟨fun ha hw => ?_, fun ha hw => ?_, fun ha => rdByte_outOfRange ha s _⟩
  · rw [rdByte_eq_readReply ha]
    exact readReply_received hw hf hi
  · rw [rdByte_eq_readReply ha]
    exact readReply_busyHazard hw hf hi _

/-- Settles O22: `RD_BYTE` of each region, with its read frame written out. -/
theorem rdByteReads : Obligations.RdByteReads := by
  intro s a
  obtain ⟨hread, hbusy, hrange⟩ := rdByte_finish .flash a s
  obtain ⟨heread, hebusy, herange⟩ := rdByte_finish .eeprom a s
  rw [readFrame_flash] at hread
  rw [readFrame_eeprom] at heread
  exact ⟨hread, hbusy, hrange, heread, hebusy, herange⟩

theorem decodeFrame_readFuseFrame (k : FuseKind) : decodeFrame (readFuseFrame k) = some (fuseReadInstr k) := by cases k <;> rfl

theorem isReadFrame_fuseReadInstr (k : FuseKind) : isReadFrame (fuseReadInstr k) = true := by cases k <;> rfl

theorem exec_rdSig_eq {i : Byte} (hi : i.toNat < 3) (s : State) :
    exec (.rdSig i) s = (readReply (readSigFrame i) s).finish fun b => [b] := if_pos hi

theorem isFuseWriteFrame_extFrame (v : Byte) : isFuseWriteFrame (extFrame v) = false := rfl

/-- `SET_EXT` sends its frame, whatever answers it (R161). -/
theorem exec_setExt_received (v : Byte) {s : State} (hw : s.wpend = false) : ∃ r env,
    exec (.setExt v) s = .next { s with
      link := s.link.afterFrame (extFrame v) r env, lastError := 0#8, response := [0#8], pending := none } ∧
    env.kind = s.link.env.kind := by
  obtain ⟨r, env, hframe, hkind, -⟩ := s.link.frame_spec (extFrame v)
  refine ⟨r, env, ?_, hkind⟩
  show execSetExt v s = _
  rw [execSetExt, setExt, guarded_ok _ s _ hw (by simp [HazardKind.isFuseWrite, isFuseWriteFrame_extFrame]), State.send,
    State.frame, hframe]
  rfl

/-- Settles O23: two operations are reads; `SET_EXT` is its frame; an index out of range is refused. -/
theorem singleFrameOperations : Obligations.SingleFrameOperations := by
  refine fun s => ⟨fun hw => ⟨fun k f hkf => ?_, fun i hi => ?_, fun v => exec_setExt_received v hw⟩,
    fun hw => ⟨fun k => ?_, fun i hi => ?_, fun v => ?_⟩, fun i hi => if_neg (Nat.not_lt.mpr hi)⟩
  · have hframe : f = readFuseFrame k := by
      revert hkf
      cases k <;> simp [readFuseFrame]
    subst hframe
    exact readReply_received hw (decodeFrame_readFuseFrame k) (isReadFrame_fuseReadInstr k)
  · rw [exec_rdSig_eq hi]
    exact readReply_received hw (f := readSigFrame i) (i := .readSig i) rfl rfl
  · exact readReply_busyHazard hw (decodeFrame_readFuseFrame k) (isReadFrame_fuseReadInstr k) _
  · rw [exec_rdSig_eq hi]
    exact readReply_busyHazard hw (f := readSigFrame i) (i := .readSig i) rfl rfl _
  · show execSetExt v s = _
    rw [execSetExt, setExt, guarded_busy _ s _ hw rfl]
    rfl

/-! What starts a write is refused out of range, before its hazard check (R150). -/

theorem startEeByte_outOfRange {a : Addr} (ha : 1024 ≤ a.toNat) (v : Byte) (s : State) :
    startEeByte a v s = .err .addressRangeError s := if_pos ha

theorem startPage_outOfRange {region : Region} {a : Addr} (ha : capacity region ≤ a.toNat) (buf : List Byte) (s : State) :
    startPage region a buf s = .err .addressRangeError s := if_pos ha

theorem writePage_outOfRange {region : Region} {a : Addr} (ha : capacity region ≤ a.toNat) (y : Bool) {buf : List Byte}
    (hl : buf.length = pageSize region) (s : State) :
    writePage region a y buf s = .next { s with lastError := 11#8, response := [11#8], pending := none } := by
  rw [writePage_eq, if_pos hl, startPage_outOfRange ha]
  rfl

/-- Settles O21: each operation checks the bound before its hazard and its events. -/
theorem addressBound : Obligations.AddressBound := by
  refine fun s a v y buf => ⟨fun ha => ⟨?_, fun hl => ?_⟩, fun ha => ⟨?_, ?_, fun hl => ?_⟩⟩
  · exact rdByte_outOfRange (region := .flash) ha s _
  · exact writePage_outOfRange (region := .flash) ha y hl s
  · exact rdByte_outOfRange (region := .eeprom) ha s _
  · show execWrEebyte a v y s = _
    rw [execWrEebyte_eq, startEeByte_outOfRange ha]
    rfl
  · exact writePage_outOfRange (region := .eeprom) ha y hl s

end Sys2Proof.Machine

/-! ### A commit, its ready poll and its readback (spec/42_memory_programmer.md R153 to R159) -/

namespace Sys2Proof.Machine

/-- The ready poll after the frames `fs` sent from `s`: the operation waits, or goes on (R135). -/
theorem pollThen_sent (fs : List IspFrame) {s t : State} (ht : t.link = (sent fs s).link) (k : Pending) (next : State → Out) :
    (busyBit (lastReply (fs ++ [pollFrame]) s) = true → pollThen k next t = .next { t with
      link := (sent (fs ++ [pollFrame]) s).link.wait .tPoll, busy := true, pending := some k }) ∧
    (busyBit (lastReply (fs ++ [pollFrame]) s) = false → pollThen k next t = next { t with
      link := (sent (fs ++ [pollFrame]) s).link, busy := false, wpend := false }) := by
  rw [lastReply_append_singleton, sent_append_singleton, ← ht]
  exact ⟨pollThen_busy k next t, pollThen_ready k next t⟩

/-! The readback (R153, R156). -/

/-- The readback of one EEPROM byte (R153). -/
theorem eeByteDone_verify {a : Addr} (ha : a.toNat < 1024) (v : Byte) {t : State} (hw : t.wpend = false) :
    ((lastReply [readFrame .eeprom a] t).b3 = v → eeByteDone a v true t = .next { t with
      link := (sent [readFrame .eeprom a] t).link, verifyOk := true
      lastError := 0#8, response := [0#8, 1#8], pending := none }) ∧
    ((lastReply [readFrame .eeprom a] t).b3 ≠ v → eeByteDone a v true t = .next { t with
      link := (sent [readFrame .eeprom a] t).link, verifyOk := false
      lastError := 10#8, response := [10#8], pending := none }) := by
  have hdone : eeByteDone a v true t = (verifyEeByte a v t).finish fun _ => [boolCode true] := if_pos rfl
  rw [hdone, verifyEeByte, rdByte_eq .eeprom a t ha hw, Res.bind]
  refine ⟨fun hv => ?_, fun hv => ?_⟩
  · rw [if_pos (show (t.link.frame (readFrame .eeprom a)).1.b3 = v from hv)]
    rfl
  · rw [if_neg (show ¬ (t.link.frame (readFrame .eeprom a)).1.b3 = v from hv)]
    rfl

/-- The readback of a page that reads as written (R156). -/
theorem pageDone_equal {region : Region} {base : Addr} {buf : List Byte} (hfit : base.toNat + buf.length ≤ capacity region)
    {t : State} (hw : t.wpend = false) (heq : (replies (readFrames region base 0 buf.length) t).map (·.b3) = buf) :
    pageDone region base buf true t = .next { t with
      link := (sent (readFrames region base 0 buf.length) t).link, verifyOk := true
      lastError := 0#8, response := [0#8, 1#8], pending := none } := by
  rw [pageDone, if_pos rfl, verifyPage, verifyFrom_equal region base buf 0 t hfit hw heq]
  rfl

/-- The readback of a page whose byte at offset `j` is the first to read otherwise (R156). -/
theorem pageDone_mismatch {region : Region} {base : Addr} {buf : List Byte} (hfit : base.toNat + buf.length ≤ capacity region)
    {t : State} (hw : t.wpend = false) {j : Nat} (hj : j < buf.length)
    (heq : (replies (readFrames region base 0 j) t).map (·.b3) = buf.take j)
    (hne : (lastReply (readFrames region base 0 (j + 1)) t).b3 ≠ buf.getD j 0#8) :
    pageDone region base buf true t = .next { t with
      link := (sent (readFrames region base 0 (j + 1)) t).link, verifyOk := false
      lastError := 10#8, response := [10#8], pending := none } := by
  rw [pageDone, if_pos rfl, verifyPage, verifyFrom_mismatch region base buf 0 j t hfit hw hj heq hne]
  rfl

/-- Settles O28: what is left after the last poll is the readback, or the return. -/
theorem readbackStopsAtTheFirstMismatch : Obligations.ReadbackStopsAtTheFirstMismatch := by
  refine ⟨fun s region base buf hw hfit => ⟨pageDone_equal hfit hw, fun j => pageDone_mismatch hfit hw, rfl⟩,
    fun s a v hw ha => ?_⟩
  obtain ⟨hequal, hmismatch⟩ := eeByteDone_verify ha v hw
  exact ⟨hequal, hmismatch, rfl⟩

/-! `WR_EEBYTE` (R153). -/

/-- `WR_EEBYTE` with no write cycle pending is its write frame, then its poll loop (R153). -/
theorem exec_wrEebyte_eq {a : Addr} (ha : a.toNat < 1024) (v : Byte) (y : Bool) {s : State} (hw : s.wpend = false) :
    exec (.wrEebyte a v y) s = pollThen (.eeByte a v y) (eeByteDone a v y)
      { s with link := (sent [writeEepromFrame a v] s).link, wpend := true } := by
  show execWrEebyte a v y s = _
  rw [execWrEebyte_eq, startEeByte_eq a v s ha hw]
  rfl

/-- Settles O24: the poll after the write frame, then the readback. -/
theorem wrEebyteWritesAndVerifies : Obligations.WrEebyteWritesAndVerifies := by
  intro s a v y hi lo fs ha hhi hlo hfs
  subst hhi hlo
  have hsplit : fs = [writeEepromFrame a v] ++ [pollFrame] := by rw [writeEepromFrame, addrFrame_eq, hfs]; rfl
  rw [hsplit, ← readFrame_eeprom, lastReply_append _ [readFrame .eeprom a] (by simp), sent_append _ [readFrame .eeprom a]]
  obtain ⟨hwait, hready⟩ := pollThen_sent [writeEepromFrame a v] (s := s)
    (t := { s with link := (sent [writeEepromFrame a v] s).link, wpend := true }) rfl (.eeByte a v y) (eeByteDone a v y)
  obtain ⟨hequal, hmismatch⟩ := eeByteDone_verify ha v
    (t := { s with link := (sent ([writeEepromFrame a v] ++ [pollFrame]) s).link, busy := false, wpend := false }) rfl
  refine ⟨fun hw hb => ?_, fun hw hb hy => ?_, fun hw hb hy hv => ?_, fun hw hb hy hv => ?_, fun hw => ?_⟩
  · rw [exec_wrEebyte_eq ha v y hw, hwait hb]
  · rw [exec_wrEebyte_eq ha v y hw, hready hb, hy]
    rfl
  · rw [exec_wrEebyte_eq ha v y hw, hready hb, hy]
    exact hequal hv
  · rw [exec_wrEebyte_eq ha v y hw, hready hb, hy]
    exact hmismatch hv
  · show execWrEebyte a v y s = _
    rw [execWrEebyte_eq, startEeByte, if_neg (show ¬ capacity .eeprom ≤ a.toNat from Nat.not_le.mpr ha), guarded_busy _ s _ hw rfl]
    rfl

/-! `WR_PAGE` (R154, R155). -/

/-- The page of an address in range lies in its region (R62). -/
theorem pageBase_add_pageSize_le {region : Region} {a : Addr} (ha : a.toNat < capacity region) :
    (pageBase region a).toNat + pageSize region ≤ capacity region := by
  rw [toNat_pageBase]
  cases region <;> simp only [pageSize, capacity, Config.flashPage, Config.eePage, Config.flashSize, Config.eeSize] at * <;> omega

theorem loadFrame_isPollFrame (region : Region) (j : Nat) (v : Byte) : isPollFrame (loadFrame region j v) = false := by
  refine isPollFrame_eq_false fun h => ?_
  have hcode : (loadFrame region j v).b0 = 0xF0#8 := congrArg IspFrame.b0 h
  cases region with
  | flash => simp only [loadFrame] at hcode; split at hcode <;> simp at hcode
  | eeprom => simp [loadFrame] at hcode

/-- `WR_PAGE` with no write cycle pending is its loads and its page write, then its poll loop (R154, R155). -/
theorem writePage_starts {region : Region} {a : Addr} (ha : a.toNat < capacity region) (y : Bool) {buf : List Byte}
    (hl : buf.length = pageSize region) {s : State} (hw : s.wpend = false) :
    writePage region a y buf s = pollThen (.page region (pageBase region a) buf y) (pageDone region (pageBase region a) buf y)
      { s with link := (sent (loadFrames region 0 buf ++ [pageFrame region (pageBase region a)]) s).link, wpend := true } := by
  rw [writePage_eq, if_pos hl, startPage_eq region a buf s ha hw]
  rfl

/-- `WR_PAGE` faults while a write cycle is pending (R314). -/
theorem writePage_busyHazard {region : Region} {a : Addr} (ha : a.toNat < capacity region) (y : Bool) {buf : List Byte}
    (hl : buf.length = pageSize region) {s : State} (hw : s.wpend = true) : writePage region a y buf s = .fault .busyHazard := by
  rw [writePage_eq, if_pos hl, startPage, if_neg (Nat.not_le.mpr ha), guarded_busy (.frame _) s _ hw (loadFrame_isPollFrame region 0 _)]
  rfl

theorem readFrames_succ_ne_nil (region : Region) (base : Addr) (j n : Nat) : readFrames region base j (n + 1) ≠ [] := nofun

/-- What the readback of a page is answered, behind the frames of its write. -/
theorem replies_drop_pageFrames (region : Region) (a : Addr) {buf : List Byte} {n : Nat} (hl : buf.length = n) (gs : List IspFrame)
    (s : State) : (replies (pageFrames region a buf ++ gs) s).drop (n + 2) = replies gs (sent (pageFrames region a buf) s) := by
  obtain ⟨hlen, -⟩ := pageFrames_eq region a hl
  rw [replies_append, List.drop_left' (by rw [replies_length, hlen])]

/-- Settles O27: the poll after the page write, then the readback, for both regions at once. -/
theorem wrPageWrites : Obligations.WrPageWrites := by
  intro s region ins size cap a y buf hins ha hl
  obtain ⟨hexec, rfl, rfl⟩ : exec ins s = writePage region a y buf s ∧ size = pageSize region ∧ cap = capacity region := by
    simp only [List.mem_cons, Prod.mk.injEq, List.not_mem_nil, or_false] at hins
    obtain ⟨rfl, rfl, rfl, rfl⟩ | ⟨rfl, rfl, rfl, rfl⟩ := hins <;> exact ⟨rfl, rfl, rfl⟩
  have hframes : pageFrames region a buf = (loadFrames region 0 buf ++ [pageFrame region (pageBase region a)]) ++ [pollFrame] := by
    simp [pageFrames]
  obtain ⟨hwait, hready⟩ := pollThen_sent (loadFrames region 0 buf ++ [pageFrame region (pageBase region a)]) (s := s)
    (t := { s with link := (sent (loadFrames region 0 buf ++ [pageFrame region (pageBase region a)]) s).link, wpend := true }) rfl
    (.page region (pageBase region a) buf y) (pageDone region (pageBase region a) buf y)
  rw [← hframes] at hwait hready
  have hfit := pageBase_add_pageSize_le ha
  rw [← hl] at hfit
  rw [hexec]
  refine ⟨fun hw hb => ?_, fun hw hb hy => ?_, fun hw hb hy heq => ?_, fun j hw hb hy hj heq hne => ?_, fun hw => ?_⟩
  · rw [writePage_starts ha y hl hw, hwait hb]
  · rw [writePage_starts ha y hl hw, hready hb, hy]
    rfl
  · rw [replies_drop_pageFrames region a hl, ← hl] at heq
    rw [writePage_starts ha y hl hw, hready hb, hy, sent_append (pageFrames region a buf), ← hl]
    refine pageDone_equal hfit ?_ ?_ <;> [rfl; exact heq]
  · rw [replies_drop_pageFrames region a hl] at heq
    rw [lastReply_append _ _ (readFrames_succ_ne_nil region _ 0 j)] at hne
    rw [writePage_starts ha y hl hw, hready hb, hy, sent_append (pageFrames region a buf)]
    refine pageDone_mismatch hfit ?_ (hl ▸ hj) ?_ ?_ <;> [rfl; exact heq; exact hne]
  · exact writePage_busyHazard ha y hl hw

/-! `ERASE` and `WR_FUSE` (R157, R159). -/

theorem isFuseWriteFrame_chipEraseFrame : isFuseWriteFrame chipEraseFrame = false := rfl

theorem exec_erase_eq {s : State} (hw : s.wpend = false) :
    exec .erase s = pollThen .plain (finishOk []) { s with link := (sent [chipEraseFrame] s).link, wpend := true } := by
  show execErase s = _
  rw [execErase_eq, startErase, guarded_ok _ s _ hw (by simp [HazardKind.isFuseWrite, isFuseWriteFrame_chipEraseFrame])]
  rfl

theorem isFuseWriteFrame_writeFuseFrame (k : FuseKind) (v : Byte) : isFuseWriteFrame (writeFuseFrame k v) = true := by cases k <;> rfl

theorem isPollFrame_writeFuseFrame (k : FuseKind) (v : Byte) : isPollFrame (writeFuseFrame k v) = false := by cases k <;> rfl

theorem exec_wrFuse_eq (k : FuseKind) (v : Byte) {s : State} (hw : s.wpend = false) (hd : s.fuseDirty = false) :
    exec (.wrFuse k v) s = pollThen .plain (finishOk [])
      { s with link := (sent [writeFuseFrame k v] s).link, wpend := true, fuseDirty := true } := by
  show execWrFuse k v s = _
  rw [execWrFuse_eq, startFuse, guarded_ok _ s _ hw fun _ => hd]
  rfl

/-- Settles O29: each is one commit frame and its ready poll, behind its hazard check. -/
theorem eraseAndWrFuse : Obligations.EraseAndWrFuse := by
  intro s v k sub fs gs hk hfs hgs
  have hfuse : gs = [writeFuseFrame k v] ++ [pollFrame] := by
    subst hgs
    revert hk
    cases k <;> simp [writeFuseFrame, pollFrame]
  rw [hfuse, show fs = [chipEraseFrame] ++ [pollFrame] from hfs]
  obtain ⟨hewait, heready⟩ := pollThen_sent [chipEraseFrame] (s := s)
    (t := { s with link := (sent [chipEraseFrame] s).link, wpend := true }) rfl .plain (finishOk [])
  obtain ⟨hfwait, hfready⟩ := pollThen_sent [writeFuseFrame k v] (s := s)
    (t := { s with link := (sent [writeFuseFrame k v] s).link, wpend := true, fuseDirty := true }) rfl .plain (finishOk [])
  refine ⟨fun hw hb => ?_, fun hw hb => ?_, fun hw hd hb => ?_, fun hw hd hb => ?_, fun hw => ⟨?_, ?_⟩, fun hw hd => ?_⟩
  · rw [exec_erase_eq hw, heready hb]
    rfl
  · rw [exec_erase_eq hw, hewait hb]
  · rw [exec_wrFuse_eq k v hw hd, hfready hb]
    rfl
  · rw [exec_wrFuse_eq k v hw hd, hfwait hb]
  · show execErase s = _
    rw [execErase_eq, startErase, guarded_busy _ s _ hw rfl]
    rfl
  · show execWrFuse k v s = _
    rw [execWrFuse_eq, startFuse, guarded_busy (.frame _) s _ hw (isPollFrame_writeFuseFrame k v)]
    rfl
  · show execWrFuse k v s = _
    rw [execWrFuse_eq, startFuse, guarded_fuseReentry (k := .frame _) _ hw (isFuseWriteFrame_writeFuseFrame k v) hd]
    rfl

end Sys2Proof.Machine

/-! ### The lines of a session: flushes, records and the end (spec/44_write_controller.md R213 to R226) -/

namespace Sys2Proof.Machine

/-! A line that decodes (R213). -/

/-- The state in which a session works on a decoded line: counted, with its record in `REC` (R213, R47). -/
def State.lineTaken (r : HexRecord) (s : State) : State :=
  { s with record := .written r, session := { s.session with lineNo := s.session.lineNo + 1 } }

/-- What a record does in a pass of a region (R214, R223). -/
def takeRecord : Region → HexRecord → State → Out
  | .flash => flashRecord
  | .eeprom => eepromRecord

/-- A line of an active session that decodes is what its record does. -/
theorem exec_progLine_decoded {s : State} {text : List Byte} {r : HexRecord} (hactive : s.session.sstate = .active)
    (hl : text.length < 256) (hd : decodeLine text = .ok r) :
    exec (.progLine text) s = takeRecord s.session.region r (s.lineTaken r) := by
  show execProgLine text s = _
  simp only [execProgLine, if_pos hl, if_pos hactive, decodeRecord, hd, Res.orAbort]
  split
  · next h => show flashRecord r (s.lineTaken r) = _; rw [h]; rfl
  · next h => show eepromRecord r (s.lineTaken r) = _; rw [h]; rfl

/-- A record that is decoded holds as many bytes as its count, at most 16 (R186, R190). -/
theorem decodeLine_data {text : List Byte} {r : HexRecord} (h : decodeLine text = .ok r) :
    r.data.length = r.count.toNat ∧ r.count.toNat ≤ 16 := by
  have hd := decodeRecord_ends text State.reset
  rw [decodeRecord, h] at hd
  obtain ⟨-, hlength, hcap, -⟩ := hd
  exact ⟨hlength, hcap⟩

theorem recordFits_iff (r : HexRecord) (region : Region) :
    recordFits r region = true ↔ r.addr.toNat < capacity region ∧ r.addr.toNat + r.count.toNat ≤ capacity region := by
  simp [recordFits]

/-- A data record of a flash pass that lies in flash (R214, R220). -/
theorem exec_progLine_flashData {s : State} {text : List Byte} {r : HexRecord} (hactive : s.session.sstate = .active)
    (hregion : s.session.region = .flash) (hl : text.length < 256) (hd : decodeLine text = .ok r) (ht : r.type = 0x00#8)
    (ha : r.addr.toNat < 32768) (hfit : r.addr.toNat + r.count.toNat ≤ 32768) :
    exec (.progLine text) s = flashData r (s.lineTaken r) := by
  rw [exec_progLine_decoded hactive hl hd, hregion, takeRecord, flashRecord, if_pos ht,
    if_pos ((recordFits_iff r .flash).mpr ⟨ha, hfit⟩)]

/-- A data record of an EEPROM pass that lies in the EEPROM (R223, R220). -/
theorem exec_progLine_eepromBytes {s : State} {text : List Byte} {r : HexRecord} (hactive : s.session.sstate = .active)
    (hregion : s.session.region = .eeprom) (hl : text.length < 256) (hd : decodeLine text = .ok r) (ht : r.type = 0x00#8)
    (ha : r.addr.toNat < 1024) (hfit : r.addr.toNat + r.count.toNat ≤ 1024) :
    exec (.progLine text) s = eepromBytes r.addr r.data (s.lineTaken r) := by
  rw [exec_progLine_decoded hactive hl hd, hregion, takeRecord, eepromRecord, if_pos ht,
    if_pos ((recordFits_iff r .eeprom).mpr ⟨ha, hfit⟩)]

/-- The end-of-file record, in a pass of either region (R214, R222, R223). -/
theorem exec_progLine_endSession {s : State} {text : List Byte} {r : HexRecord} (hactive : s.session.sstate = .active)
    (hl : text.length < 256) (hd : decodeLine text = .ok r) (ht : r.type = 0x01#8) :
    exec (.progLine text) s = endSession true (s.lineTaken r) := by
  have hdata : ¬ r.type = 0x00#8 := by rw [ht]; decide
  rw [exec_progLine_decoded hactive hl hd]
  cases s.session.region with
  | flash => rw [takeRecord, flashRecord, if_neg hdata, if_pos ht]
  | eeprom => rw [takeRecord, eepromRecord, if_neg hdata, if_pos ht]

/-! An EEPROM record (R223). -/

/-- Settles O44: the line is the bytes of its record; a waiting byte is read back, and the bytes after it follow. -/
theorem eepromRecordIsWrittenByteByByte : Obligations.EepromRecordIsWrittenByteByByte := by
  have hofNat (a : Addr) : BitVec.ofNat 16 a.toNat = a := by simp
  refine ⟨fun s u text r hw hactive hregion hl hd ht hfit ha hu => ?_, fun t a v rest rd hw hfit hrd => ?_⟩
  · subst hu
    rw [exec_progLine_eepromBytes hactive hregion hl hd ht ha hfit]
    have hout := eepromBytes_outcome r.data r.addr.toNat (s.lineTaken r) hw (by rw [(decodeLine_data hd).1]; exact hfit)
    rwa [hofNat] at hout
  · subst hrd
    obtain ⟨hequal, hmismatch⟩ := verifyEeByte_orAbort a.toNat v (eepromBytes (a + 1) rest) t hw (by omega)
    rw [hofNat] at hequal hmismatch
    refine ⟨fun hv => ?_, hmismatch⟩
    have hnext : a + 1 = BitVec.ofNat 16 (a.toNat + 1) := by apply BitVec.eq_of_toNat_eq; simp
    have hout := eepromBytes_outcome rest (a.toNat + 1)
      { t with link := (sent [eeReadFrame a.toNat] t).link, verifyOk := true } hw hfit
    rw [← hnext] at hout
    have hgo : afterPoll (.lineEeByte a v rest) t = _ := hequal hv
    rw [hgo]
    exact hout

/-! A flush (R218). -/

/-- A flush goes on as its continuation does after the readback. -/
theorem FlushOutcome.congr {base : Addr} {pb : List Byte} {inLine : Bool} {t : State} {o : Out} {good good' : State → Out}
    (h : FlushOutcome base pb inLine t o good)
    (hgood : ∀ l, good { t with link := l, verifyOk := true } = good' { t with link := l, verifyOk := true }) :
    FlushOutcome base pb inLine t o good' :=
  ⟨fun he => (h.1 he).trans (hgood _), h.2⟩

/-- A flush of an open page whose poll reads not busy (R218): the readback, and what follows it. -/
theorem flushThen_outcome {k : Addr → List Byte → Pending} {inLine : Bool} {next : State → Out} {s : State} {base : Addr}
    {pb : List Byte} (hp : s.session.page = .opened base pb) (hl : pb.length = 128) (hal : base.toNat % 128 = 0)
    (hlt : base.toNat < 32768) (hw : s.wpend = false) (hb : busyBit (lastReply (pageFrames .flash base pb) s) = false) :
    FlushOutcome base pb inLine { s with
      link := (sent (pageFrames .flash base pb) s).link, busy := false, wpend := false
      session := { s.session with page := s.session.page.close } } (flushThen k inLine next s) next := by
  rw [(flushThen_open k inLine next s base pb hp hal hlt hw).2 hb]
  exact flushDone_outcome base pb inLine next _ rfl hl (by omega)

theorem lastReply_congr {s t : State} (h : t.link = s.link) (fs : List IspFrame) : lastReply fs t = lastReply fs s := by
  rw [lastReply, replies, h]
  rfl

theorem sent_link_congr {s t : State} (h : t.link = s.link) (fs : List IspFrame) : (sent fs t).link = (sent fs s).link :=
  congrArg (fun l => (Link.exchange fs l).2) h

/-- Settles O46: a flush, of an open page or of none, with the completion after it. -/
theorem sessionCompletes : Obligations.SessionCompletes := by
  refine ⟨fun s u ins inLine hw hactive hins => ?_, fun t base pb inLine hw hl hfit => ?_⟩
  · obtain ⟨hexec, hlink, hwpend, hpage⟩ : exec ins s = endSession inLine u ∧
        u.link = s.link ∧ u.wpend = s.wpend ∧ u.session.page = s.session.page := by
      obtain ⟨rfl, rfl, rfl⟩ | ⟨text, r, rfl, hl, hd, ht, rfl, rfl⟩ := hins
      · exact ⟨if_pos hactive, rfl, rfl, rfl⟩
      · exact ⟨exec_progLine_endSession hactive hl hd ht, rfl, rfl, rfl⟩
    rw [hw] at hwpend
    rw [hexec, endSession]
    refine ⟨fun hopen => ?_, fun v base pb fs hp hl hal hlt hfs hv => ?_⟩
    · rw [flushThen_closed _ _ _ u (by rw [Session.pageOpen, hpage]; exact hopen)]
      exact complete_eq u hwpend
    · subst hfs hv
      rw [← lastReply_congr hlink, ← sent_link_congr hlink]
      refine ⟨fun hb => ?_, (flushThen_open _ inLine complete u base pb (hpage.trans hp) hal hlt hwpend).1⟩
      exact (flushThen_outcome (hpage.trans hp) hl hal hlt hwpend hb).congr fun l => complete_eq _ rfl
  · exact (flushDone_outcome base pb inLine complete t hw hl hfit).congr fun l => complete_eq _ hw

/-! The pages of a flash pass (R216 to R219). -/

theorem pageBase_flash_offset (a : Addr) :
    (pageBase .flash a).toNat ≤ a.toNat ∧ a.toNat - (pageBase .flash a).toNat = a.toNat % 128 := by
  rw [pageBase_flash]; omega

/-- A data record of another page than the open one, or with no page open, is a flush first (R219). -/
theorem flashData_flushes {s : State} {r : HexRecord} (h : s.session.page.isAt (pageBase .flash r.addr) = false) :
    flashData r s = flushThen (fun b pb => .lineFlush b pb r.addr r.data) true (openAndMerge r.addr r.data) s := by
  rw [flashData, h]
  rfl

theorem PageState.isAt_of_not_isOpen {p : PageState} (h : p.isOpen = false) (b : Addr) : p.isAt b = false := by
  cases p with
  | closed => rfl
  | opened => cases h

theorem flashData_closed {s : State} (r : HexRecord) (h : s.session.pageOpen = false) :
    flashData r s = openAndMerge r.addr r.data s := by
  rw [flashData_flushes (PageState.isAt_of_not_isOpen h _), flushThen_closed _ _ _ s h]

/-- Bytes of one page, after the flush of the page before it (R219): the page is open with them in it. -/
theorem openAndMerge_onePage {a : Addr} (ha : a.toNat < 32768) {data : List Byte} (hfit : a.toNat % 128 + data.length ≤ 128) (t : State) :
    openAndMerge a data t = .next (t.pageFilled (pageBase .flash a) (mergedPage (List.replicate 128 0xFF#8) (a.toNat % 128) data)) := by
  obtain ⟨hle, hoff⟩ := pageBase_flash_offset a
  have hbase := pageBase_flash a
  have hmerge := mergeBytes_page data [] a (openPage (pageBase .flash a) t) (pageBase .flash a) _ rfl List.length_replicate
    (by omega) hle (by omega) (by omega)
  rw [List.append_nil, hoff] at hmerge
  rw [openAndMerge, hmerge]
  rfl

/-- The first byte that lies in another page than the open one flushes it (R219, D20). -/
theorem mergeBytes_flushes {a : Addr} {data : List Byte} (hne : data ≠ []) {s : State}
    (h : s.session.page.isAt (pageBase .flash a) = false) :
    mergeBytes a data s = flushThen (fun b pb => .lineFlush b pb a data) true (openAndMerge a data) s := by
  cases data with
  | nil => exact absurd rfl hne
  | cons v vs =>
    have hopen (t : State) : openAndMerge a (v :: vs) t = mergeBytes (a + 1) vs (mergeByte a v (openPage (pageBase .flash a) t)) := by
      rw [openAndMerge, mergeBytes]
      exact if_pos (by simp [openPage])
    rw [mergeBytes, h, if_neg (by simp), ← funext hopen]

/-- `s` with another page (R38, R39). -/
def State.withPage (p : PageState) (s : State) : State := { s with session := { s.session with page := p } }

/-- Bytes that cross the end of the open page fill it, and flush it (R217, R219). -/
theorem mergeBytes_crosses {a : Addr} {data : List Byte} {n : Nat} (hn : n = 128 - a.toNat % 128) (hlt : n < data.length)
    (hfit : a.toNat + data.length ≤ 32768) {old : List Byte} (hold : old.length = 128) {s : State}
    (hp : s.session.page = .opened (pageBase .flash a) old) :
    mergeBytes a data s =
      flushThen (fun b pb => .lineFlush b pb (pageBase .flash a + 128#16) (data.drop n)) true
        (openAndMerge (pageBase .flash a + 128#16) (data.drop n))
        (s.withPage (.opened (pageBase .flash a) (mergedPage old (a.toNat % 128) (data.take n)))) := by
  obtain ⟨hle, hoff⟩ := pageBase_flash_offset a
  have hbase := pageBase_flash a
  have htake : (data.take n).length = n := List.length_take_of_le hlt.le
  have hnext : a + BitVec.ofNat 16 n = pageBase .flash a + 128#16 := by
    apply BitVec.eq_of_toNat_eq
    rw [BitVec.toNat_add, BitVec.toNat_add, BitVec.toNat_ofNat, BitVec.toNat_ofNat]
    omega
  have hmerge := mergeBytes_page (data.take n) (data.drop n) a s (pageBase .flash a) old hp hold (by omega) hle (by omega) (by omega)
  rw [List.take_append_drop, hoff, htake, hnext] at hmerge
  rw [hmerge, mergeBytes_flushes (List.ne_nil_of_length_pos (by rw [List.length_drop]; omega)), State.withPage]
  refine decide_eq_false fun heq => ?_
  have hnat := congrArg BitVec.toNat heq
  rw [pageBase_flash (pageBase .flash a + 128#16), BitVec.toNat_add, BitVec.toNat_ofNat] at hnat
  omega

/-- A data record is merged into its page, if that is open, or into a new one, if none is (R219). -/
theorem flashData_merges {s : State} {r : HexRecord} {old : List Byte}
    (h : s.session.page = .opened (pageBase .flash r.addr) old ∨ s.session.pageOpen = false ∧ old = List.replicate 128 0xFF#8) :
    flashData r s = mergeBytes r.addr r.data (s.withPage (.opened (pageBase .flash r.addr) old)) := by
  obtain hp | ⟨hp, rfl⟩ := h
  · rw [flashData, State.withPage, ← hp, if_pos (by simp [hp])]
  · exact flashData_closed r hp

/-- A record that crosses the end of its page fills that page, and flushes it (R217, R219). -/
theorem flashData_crosses {s : State} {r : HexRecord} {old : List Byte} {n : Nat}
    (h : s.session.page = .opened (pageBase .flash r.addr) old ∧ old.length = 128 ∨
      s.session.pageOpen = false ∧ old = List.replicate 128 0xFF#8)
    (hn : n = 128 - r.addr.toNat % 128) (hlt : n < r.data.length) (hfit : r.addr.toNat + r.data.length ≤ 32768) :
    flashData r s =
      flushThen (fun b pb => .lineFlush b pb (pageBase .flash r.addr + 128#16) (r.data.drop n)) true
        (openAndMerge (pageBase .flash r.addr + 128#16) (r.data.drop n))
        (s.withPage (.opened (pageBase .flash r.addr) (mergedPage old (r.addr.toNat % 128) (r.data.take n)))) := by
  have hold : old.length = 128 := by
    obtain ⟨-, hold⟩ | ⟨-, rfl⟩ := h
    · exact hold
    · exact List.length_replicate
  rw [flashData_merges (h.imp_left And.left), mergeBytes_crosses hn hlt hfit hold rfl]
  rfl

/-- The bytes of such a record that lie in the next page leave that page open with them in it (R219, D20). -/
theorem openAndMerge_nextPage {a : Addr} (ha : (pageBase .flash a).toNat + 128 < 32768) {data : List Byte} (hfit : data.length ≤ 128)
    (t : State) : openAndMerge (pageBase .flash a + 128#16) data t =
      .next (t.pageFilled (pageBase .flash a + 128#16) (mergedPage (List.replicate 128 0xFF#8) 0 data)) := by
  have hbase := pageBase_flash a
  have hnext : (pageBase .flash a + 128#16).toNat = (pageBase .flash a).toNat + 128 := by
    rw [BitVec.toNat_add, BitVec.toNat_ofNat]; omega
  rw [openAndMerge_onePage (by omega) (by omega), pageBase_self (by omega),
    show (pageBase .flash a + 128#16).toNat % 128 = 0 by omega]

/-- A data record of a flash pass with no page open (R219). -/
theorem exec_progLine_pageClosed {s : State} {text : List Byte} {r : HexRecord} (hclosed : s.session.pageOpen = false)
    (hactive : s.session.sstate = .active) (hregion : s.session.region = .flash) (hl : text.length < 256)
    (hd : decodeLine text = .ok r) (ht : r.type = 0x00#8) (ha : r.addr.toNat < 32768)
    (hfit : r.addr.toNat + r.count.toNat ≤ 32768) :
    exec (.progLine text) s = openAndMerge r.addr r.data (s.lineTaken r) :=
  (exec_progLine_flashData hactive hregion hl hd ht ha hfit).trans (flashData_closed r hclosed)

/-- Settles O43: what waits or follows a flush is `openAndMerge`, which a line with no page open is, too. -/
theorem flushPrecedesTheNextPage : Obligations.FlushPrecedesTheNextPage := by
  refine ⟨fun s u v text r base pb fs hw hactive hregion hl hd ht hfit ha hp hpl hal hlt hne hfs hu hv => ?_,
    fun s u v text r n base old pb fs hw hactive hregion hl hd ht hfit hbase hpage hn hcross hpb hfs hu hv => ?_,
    fun t base a pb data hw hpl hfit ha hdata => ?_,
    fun t text r base pb hw hpl hbfit hactive hregion hl hd hrec ht hfit ha => ?_⟩
  · subst hfs hu hv
    have hother : (s.lineTaken r).session.page.isAt (pageBase .flash r.addr) = false := by
      show s.session.page.isAt _ = false
      rw [hp]
      exact decide_eq_false hne
    rw [exec_progLine_flashData hactive hregion hl hd ht ha hfit, flashData_flushes hother]
    refine ⟨(flushThen_open _ true _ (s.lineTaken r) base pb hp hal hlt hw).1, fun hb => ?_⟩
    have hout := flushThen_outcome (k := fun b pb => .lineFlush b pb r.addr r.data) (inLine := true)
      (next := openAndMerge r.addr r.data) (s := s.lineTaken r) hp hpl hal hlt hw hb
    refine ⟨hout.congr fun l => ?_, fun hpfit => hout.congr fun l => ?_⟩
    · refine Eq.trans ?_ (exec_progLine_pageClosed ?_ ?_ ?_ hl hd ht ha hfit).symm
      · rfl
      · rfl
      · exact hactive
      · exact hregion
    · exact openAndMerge_onePage ha (by rwa [(decodeLine_data hd).1]) _
  · obtain ⟨hlength, hcap⟩ := decodeLine_data hd
    have hbase_nat := pageBase_flash r.addr
    have hal : (pageBase .flash r.addr).toNat % 128 = 0 := by omega
    subst hbase hfs hu hv hpb
    rw [exec_progLine_flashData hactive hregion hl hd ht (by omega) hfit,
      flashData_crosses (s := s.lineTaken r) hpage hn (by omega) (by omega)]
    refine ⟨(flushThen_open _ true _ ((s.lineTaken r).withPage _) _ _ rfl hal (by omega) hw).1, fun hb => ?_⟩
    refine (flushThen_outcome (s := (s.lineTaken r).withPage _) rfl (mergedPage_length _ _ _) hal (by omega) hw hb).congr fun l => ?_
    exact openAndMerge_nextPage (by omega) (by rw [List.length_drop]; omega) _
  · exact (flushDone_outcome base pb true (openAndMerge a data) t hw hpl hfit).congr fun l => openAndMerge_onePage ha hdata _
  · refine (flushDone_outcome base pb true (openAndMerge r.addr r.data) t hw hpl hbfit).congr fun l => ?_
    refine Eq.trans ?_ (exec_progLine_pageClosed ?_ ?_ ?_ hl hd ht ha hfit).symm
    · simp [openAndMerge, openPage, State.lineTaken, hrec]
    · rfl
    · exact hactive
    · exact hregion

end Sys2Proof.Machine

/-! ### The characters of a line (spec/43_hex_codec.md R181, R182, R89) -/

namespace Sys2Proof.Machine

/-! The end of a text (R181). -/

theorem strip_eq_rdropWhile (text : List Byte) : strip text = text.rdropWhile isLineEnd := rfl

theorem isLineEnd_iff {c : Byte} : isLineEnd c = true ↔ c = 0x0D#8 ∨ c = 0x0A#8 := by simp [isLineEnd]

theorem strip_append_lineEnds (text : List Byte) : strip text ++ text.rtakeWhile isLineEnd = text :=
  List.rdropWhile_append_rtakeWhile

theorem isLineEnd_getLast?_strip {text : List Byte} {c : Byte} (h : (strip text).getLast? = some c) : isLineEnd c = false := by
  obtain ⟨hne, rfl⟩ := List.mem_getLast?_eq_getLast h
  exact Bool.eq_false_iff.mpr (List.rdropWhile_last_not isLineEnd text hne)

/-- A text that ends in no line-ending character is stripped of nothing. -/
theorem strip_concat {c : Byte} (h : isLineEnd c = false) (cs : List Byte) : strip (cs ++ [c]) = cs ++ [c] :=
  List.rdropWhile_concat_neg isLineEnd cs c (Bool.eq_false_iff.mp h)

/-! The digits (R182). -/

/-- The 22 hex digits and their values. -/
theorem hexVal_eq_some_iff {c : Byte} {n : Nat} : hexVal c = some n ↔
    (c.toNat = 0x30 + n ∧ n < 10) ∨ (10 ≤ n ∧ n < 16 ∧ (c.toNat = 0x41 + (n - 10) ∨ c.toNat = 0x61 + (n - 10))) := by
  dsimp only [hexVal]
  split
  · rw [Option.some.injEq]; omega
  split
  · rw [Option.some.injEq]; omega
  split
  · rw [Option.some.injEq]; omega
  · simp only [reduceCtorEq, false_iff]; omega

/-- Two digits spell one byte, the high digit first. -/
theorem hexPair_eq_some_iff {c d v : Byte} :
    hexPair c d = some v ↔ ∃ h l, hexVal c = some h ∧ hexVal d = some l ∧ v.toNat = 16 * h + l := by
  constructor
  · intro hv
    unfold hexPair at hv
    split at hv
    · next h l hc hd =>
      have hh := hexVal_lt hc
      have hl := hexVal_lt hd
      obtain rfl := Option.some.inj hv
      exact ⟨h, l, hc, hd, by rw [BitVec.toNat_ofNat]; omega⟩
    · cases hv
  · rintro ⟨h, l, hc, hd, hv⟩
    rw [hexPair, hc, hd]
    exact congrArg some (by simp [← hv])

/-- A byte is read from the two characters at its position, and from no fewer. -/
theorem hexByte_eq_some_iff {cs : List Byte} {p : Nat} {v : Byte} :
    hexByte cs p = some v ↔ ∃ c d, cs[p]? = some c ∧ cs[p + 1]? = some d ∧ hexPair c d = some v := by
  have hfirst : (cs.drop p)[0]? = cs[p]? := List.getElem?_drop
  have hsecond : (cs.drop p)[1]? = cs[p + 1]? := List.getElem?_drop
  rw [hexByte, ← hfirst, ← hsecond]
  split
  · next hdrop => simp [hdrop]
  · next hshort =>
    rcases hdrop : cs.drop p with _ | ⟨c, _ | ⟨d, rest⟩⟩
    · simp
    · simp
    · exact absurd hdrop (hshort c d rest)

/-- Settles O36: `strip` splits off the longest tail of line endings; a byte is two digits and a digit one of 22. -/
theorem hexCharacters : Obligations.HexCharacters := by
  refine ⟨fun text => ⟨text.rtakeWhile isLineEnd, (strip_append_lineEnds text).symm, ?_, ?_⟩,
    fun _ _ => hexVal_eq_some_iff, fun cs p v => ?_⟩
  · exact fun c hc => isLineEnd_iff.mp (List.mem_rtakeWhile_imp hc)
  · intro c hc
    exact not_or.mp (isLineEnd_iff.not.mp (Bool.eq_false_iff.mp (isLineEnd_getLast?_strip hc)))
  · rw [hexByte_eq_some_iff]
    simp only [hexPair_eq_some_iff]
    exact ⟨fun ⟨c, d, hc, hd, h, l, hv⟩ => ⟨c, d, h, l, hc, hd, hv⟩, fun ⟨c, d, h, l, hc, hd, hv⟩ => ⟨c, d, hc, hd, h, l, hv⟩⟩

end Sys2Proof.Machine

/-! ### The checksum (spec/43_hex_codec.md R197) -/

namespace Sys2Proof.Machine

theorem checksum_toNat (n ah al t : Byte) (d : List Byte) :
    (checksum n ah al t d).toNat = (256 - (n.toNat + ah.toNat + al.toNat + t.toNat + byteSum d) % 256) % 256 := by
  rw [checksum, BitVec.toNat_ofNat, Nat.mod_mod]

/-- Settles O33. -/
theorem checksumIdentity : Obligations.ChecksumIdentity := by
  intro n ah al t d
  have hcks := checksum_toNat n ah al t d
  rw [show byteSum d = (d.map (·.toNat)).sum from rfl] at hcks
  exact ⟨hcks, by rw [hcks]; omega⟩

/-- Two lines with the same header bytes have the same checksum only if their data sums agree modulo 256. -/
theorem byteSum_mod_of_checksum_eq {n ah al t : Byte} {d d' : List Byte} (h : checksum n ah al t d = checksum n ah al t d') :
    byteSum d % 256 = byteSum d' % 256 := by
  have hnat := congrArg BitVec.toNat h
  rw [checksum_toNat, checksum_toNat] at hnat
  omega

/-- The sum after a change of one byte. -/
theorem byteSum_set {d : List Byte} {k : Nat} {v : Byte} (h : d[k]? = some v) (w : Byte) :
    byteSum (d.set k w) + v.toNat = byteSum d + w.toNat := by
  induction d generalizing k with
  | nil => cases h
  | cons b bs ih =>
    cases k with
    | zero =>
      obtain rfl : b = v := Option.some.inj h
      rw [List.set_cons_zero, byteSum_cons, byteSum_cons]
      omega
    | succ k =>
      have := ih h
      rw [List.set_cons_succ, byteSum_cons, byteSum_cons]
      omega

/-- No two values of one data byte have the same checksum (R198). -/
theorem checksum_set_ne {d : List Byte} {k : Nat} {v w : Byte} (h : d[k]? = some v) (hw : w ≠ v) (n ah al t : Byte) :
    checksum n ah al t (d.set k w) ≠ checksum n ah al t d := by
  intro heq
  have hmod := byteSum_mod_of_checksum_eq heq
  have hset := byteSum_set h w
  have hv := v.isLt
  have hw' := w.isLt
  exact hw (BitVec.eq_of_toNat_eq (by omega))

end Sys2Proof.Machine

/-! ### The encoder and the decoder (spec/43_hex_codec.md R192, R194 to R196) -/

namespace Sys2Proof.Machine

/-! An encoded line is read back. -/

theorem encodeRecord_length (n : Byte) (a : Addr) (t : Byte) (bytes : List Byte) :
    (encodeRecord n a t bytes).length = 11 + 2 * bytes.length := by
  simp only [encodeRecord, List.length_cons, List.length_append, hex2_length, flatMap_hex2_length]
  omega

theorem isLineEnd_hexDigit {n : Nat} (h : n < 16) : isLineEnd (hexDigit n) = false := by
  revert h; revert n; decide

theorem strip_append_hex2 (cs : List Byte) (v : Byte) : strip (cs ++ hex2 v) = cs ++ hex2 v := by
  rw [hex2, List.append_cons]
  exact strip_concat (isLineEnd_hexDigit (Nat.mod_lt _ (by omega))) _

/-- An encoded line ends in the digits of its checksum. -/
theorem strip_encodeRecord (n : Byte) (a : Addr) (t : Byte) (bytes : List Byte) :
    strip (encodeRecord n a t bytes) = encodeRecord n a t bytes :=
  strip_append_hex2 (0x3A#8 :: (hex2 n ++ hex2 (hiByte a) ++ hex2 (loByte a) ++ hex2 t ++ bytes.flatMap hex2)) _

/-- A record of a known type with at most 16 bytes is what its line decodes to. -/
theorem decodeLine_encodeRecord (a : Addr) {t : Byte} (ht : t.toNat ≤ 5) {bytes : List Byte} (hlen : bytes.length ≤ 16) :
    decodeLine (encodeRecord (BitVec.ofNat 8 bytes.length) a t bytes) = .ok ⟨BitVec.ofNat 8 bytes.length, a, t, bytes⟩ := by
  have hcount : (BitVec.ofNat 8 bytes.length).toNat = bytes.length := toNat_length (by omega)
  rw [decodeLine, strip_encodeRecord, decodeStripped_ok_iff]
  refine ⟨by rw [encodeRecord_length]; omega, rfl, ?_, by rwa [hcount], ?_, ?_, ?_, ht, ?_, ?_⟩
  · exact hexByte_hex2 (pre := [0x3A#8]) rfl
  · exact hexByte_hex2 (pre := 0x3A#8 :: hex2 _) rfl
  · exact hexByte_hex2 (pre := 0x3A#8 :: (hex2 _ ++ hex2 _)) rfl
  · exact hexByte_hex2 (pre := 0x3A#8 :: (hex2 _ ++ hex2 _ ++ hex2 _)) rfl
  · rw [hcount, encodeRecord, List.append_assoc]
    exact hexData_flatMap (pre := 0x3A#8 :: (hex2 _ ++ hex2 _ ++ hex2 _ ++ hex2 _)) bytes rfl
  · rw [hcount, encodeRecord, ← List.append_nil (hex2 (checksum _ _ _ _ _)), ← List.cons_append]
    exact hexByte_hex2 (by simp; omega)

/-! A decoded line is what its record encodes to, in uppercase. -/

/-- A hex digit in uppercase is the digit of its value (R194, R196). -/
theorem hexDigit_of_hexVal {c : Byte} {n : Nat} (h : hexVal c = some n) : hexDigit n = upperDigit c := by
  apply BitVec.eq_of_toNat_eq
  unfold hexDigit upperDigit
  rcases hexVal_eq_some_iff.mp h with ⟨hc, hn⟩ | ⟨hge, hlt, hc | hc⟩
  · rw [if_pos hn, if_neg (by omega), BitVec.toNat_ofNat]; omega
  · rw [if_neg (by omega), if_neg (by omega), BitVec.toNat_ofNat]; omega
  · rw [if_neg (by omega), if_pos (by omega), BitVec.toNat_ofNat, BitVec.toNat_sub, BitVec.toNat_ofNat]; omega

/-- The two characters that spell a byte, in uppercase, are its two digits. -/
theorem hex2_of_hexPair {c d v : Byte} (h : hexPair c d = some v) : hex2 v = [upperDigit c, upperDigit d] := by
  obtain ⟨hi, lo, hc, hd, hv⟩ := hexPair_eq_some_iff.mp h
  have hlo := hexVal_lt hd
  rw [hex2, show v.toNat / 16 = hi by omega, show v.toNat % 16 = lo by omega, hexDigit_of_hexVal hc, hexDigit_of_hexVal hd]

/-- A line in uppercase from position `p` on (R196). -/
def upperFrom (line : List Byte) (p : Nat) : List Byte := (line.drop p).map upperDigit

/-- Where a byte is read, the line in uppercase has the byte's digits. -/
theorem upperFrom_of_hexByte {line : List Byte} {p : Nat} {v : Byte} (h : hexByte line p = some v) :
    upperFrom line p = hex2 v ++ upperFrom line (p + 2) := by
  unfold hexByte at h
  split at h
  · next c d rest hdrop =>
    have hrest : line.drop (p + 2) = rest := by rw [← List.drop_drop, hdrop]; rfl
    rw [upperFrom, upperFrom, hrest, hdrop, hex2_of_hexPair h]
    rfl
  · cases h

/-- Where data is read, the line in uppercase has the digits of the data. -/
theorem upperFrom_of_hexData {line : List Byte} {n p : Nat} {bs : List Byte} (h : hexData line p n = some bs) :
    upperFrom line p = bs.flatMap hex2 ++ upperFrom line (p + 2 * n) := by
  induction n generalizing p bs with
  | zero =>
    obtain rfl : [] = bs := Option.some.inj h
    rfl
  | succ n ih =>
    unfold hexData at h
    split at h
    · next b bs' hb hbs =>
      obtain rfl : b :: bs' = bs := Option.some.inj h
      rw [upperFrom_of_hexByte hb, ih hbs, List.flatMap_cons, List.append_assoc, show p + 2 + 2 * n = p + 2 * (n + 1) by omega]
    · cases h

/-- Nothing is left of a line past its end. -/
theorem upperFrom_length {line : List Byte} {p : Nat} (h : line.length = p) : upperFrom line p = [] := by
  rw [upperFrom, List.drop_of_length_le (by omega), List.map_nil]

/-- A line that is accepted and ends with its checksum is, in uppercase, the line its record encodes to (R196). -/
theorem encodeRecord_of_decodeStripped {line : List Byte} {r : HexRecord} (h : decodeStripped line = .ok r)
    (hlen : line.length = 11 + 2 * r.count.toNat) : encodeRecord r.count r.addr r.type r.data = line.map upperDigit := by
  obtain ⟨-, hstart, hcount, -, hah, hal, htype, -, hdata, hcks⟩ := (decodeStripped_ok_iff line r).mp h
  obtain ⟨cs, rfl⟩ := List.head?_eq_some_iff.mp hstart
  have hend := upperFrom_length (p := 9 + 2 * r.count.toNat + 2) (by rw [hlen]; omega)
  have hfields := upperFrom_of_hexByte hcount
  rw [upperFrom_of_hexByte hah, upperFrom_of_hexByte hal, upperFrom_of_hexByte htype, upperFrom_of_hexData hdata,
    upperFrom_of_hexByte hcks, hend] at hfields
  rw [List.map_cons, show cs.map upperDigit = upperFrom (0x3A#8 :: cs) 1 from rfl, hfields, encodeRecord]
  simp [upperDigit]

/-- Settles O32: an encoded line passes the eight checks; a decoded line has the digits of its record field by field. -/
theorem hexRoundTrip : Obligations.HexRoundTrip := by
  refine ⟨fun a bytes hlen => decodeLine_encodeRecord a (by decide) hlen, fun text r hok htype hlen => ?_,
    decodeLine_encodeRecord 0x0000#16 (t := 0x01#8) (by decide) (bytes := []) (Nat.zero_le 16)⟩
  have hcount : BitVec.ofNat 8 r.data.length = r.count := by rw [(decodeLine_data hok).1]; simp
  rw [encodeDataRecord, hcount, ← htype]
  exact encodeRecord_of_decodeStripped hok hlen

end Sys2Proof.Machine

/-! ### The eight checks of a line (spec/43_hex_codec.md R184 to R192, R198) -/

namespace Sys2Proof.Machine

/-- Data is not read exactly when one of its bytes is not (R190). -/
theorem hexData_eq_none_iff {line : List Byte} {n p : Nat} :
    hexData line p n = none ↔ ∃ k, k < n ∧ hexByte line (p + 2 * k) = none := by
  induction n generalizing p with
  | zero => simp [hexData]
  | succ n ih =>
    have hshift (k : Nat) : p + 2 * (k + 1) = p + 2 + 2 * k := by omega
    rw [Nat.exists_lt_succ_left]
    simp only [hshift, ← ih]
    rw [hexData]
    cases hexByte line p <;> cases hexData line (p + 2) n <;> simp

/-- The checks 1 to 3 pass, with count `n` (R184 to R186). -/
structure CountRead (line : List Byte) (n : Byte) : Prop where
  long : 11 ≤ line.length
  start : line.head? = some 0x3A#8
  count : hexByte line 1 = some n
  fits : n.toNat ≤ 16

/-- The checks 1 to 6 pass, with the header bytes `n`, `ah`, `al`, `t` (R184 to R189). -/
structure HeaderRead (line : List Byte) (n ah al t : Byte) : Prop extends CountRead line n where
  addrHigh : hexByte line 3 = some ah
  addrLow : hexByte line 5 = some al
  type : hexByte line 7 = some t
  known : t.toNat ≤ 5

theorem CountRead.unique {line : List Byte} {n m : Byte} (hn : CountRead line n) (hm : CountRead line m) : n = m :=
  Option.some.inj (hn.count.symm.trans hm.count)

/-- The decoder goes on to the fields (R187). -/
theorem CountRead.decodeStripped_eq {line : List Byte} {n : Byte} (h : CountRead line n) :
    decodeStripped line = decodeFields line n := by
  have hcap : ¬ Config.lineCap < n.toNat := Nat.not_lt.mpr h.fits
  simp only [decodeStripped, if_neg (Nat.not_lt.mpr h.long), h.start, h.count, if_neg hcap, ne_eq, not_true_eq_false, if_false]

/-- A digit of the data is missing (R190). -/
theorem HeaderRead.decodeStripped_of_noData {line : List Byte} {n ah al t : Byte} (h : HeaderRead line n ah al t)
    (hd : hexData line 9 n.toNat = none) : decodeStripped line = .error .wrongData := by
  rw [h.decodeStripped_eq]
  simp only [decodeFields, h.addrHigh, h.addrLow, h.type, if_neg (Nat.not_lt.mpr h.known), hd]

/-- The decoder goes on to the checksum (R191). -/
theorem HeaderRead.decodeStripped_of_data {line : List Byte} {n ah al t : Byte} {d : List Byte} (h : HeaderRead line n ah al t)
    (hd : hexData line 9 n.toNat = some d) : decodeStripped line = decodeChecksum line n ah al t d := by
  rw [h.decodeStripped_eq]
  simp only [decodeFields, h.addrHigh, h.addrLow, h.type, if_neg (Nat.not_lt.mpr h.known), hd]

/-- A line is refused by the first of the eight checks that fails: the ones before it pass (R183 to R191). -/
inductive RefusedWith (line : List Byte) : Err → Prop where
  | tooShort (h : line.length < 11) : RefusedWith line .tooShort
  | wrongStart (hlong : 11 ≤ line.length) (h : line.head? ≠ some 0x3A#8) : RefusedWith line .wrongStart
  | wrongLength (hlong : 11 ≤ line.length) (hstart : line.head? = some 0x3A#8)
      (h : ∀ n, hexByte line 1 = some n → 16 < n.toNat) : RefusedWith line .wrongLength
  | wrongAddressHigh {n : Byte} (hn : CountRead line n) (h : hexByte line 3 = none) : RefusedWith line .wrongAddressHigh
  | wrongAddressLow {n : Byte} (hn : CountRead line n) (hah : hexByte line 3 ≠ none) (h : hexByte line 5 = none) :
      RefusedWith line .wrongAddressLow
  | wrongType {n : Byte} (hn : CountRead line n) (hah : hexByte line 3 ≠ none) (hal : hexByte line 5 ≠ none)
      (h : ∀ t, hexByte line 7 = some t → 5 < t.toNat) : RefusedWith line .wrongType
  | wrongData {n ah al t : Byte} (hh : HeaderRead line n ah al t) (h : hexData line 9 n.toNat = none) :
      RefusedWith line .wrongData
  | wrongChecksum {n ah al t : Byte} {d : List Byte} (hh : HeaderRead line n ah al t) (hd : hexData line 9 n.toNat = some d)
      (h : hexByte line (9 + 2 * n.toNat) ≠ some (checksum n ah al t d)) : RefusedWith line .wrongChecksum

theorem refusedWith_of_decodeFields {line : List Byte} {n : Byte} {e : Err} (hn : CountRead line n)
    (h : decodeFields line n = .error e) : RefusedWith line e := by
  unfold decodeFields at h
  split at h
  · next h3 => cases h; exact .wrongAddressHigh hn h3
  next ah h3 =>
  have hah := Option.ne_none_iff_exists'.mpr ⟨ah, h3⟩
  split at h
  · next h5 => cases h; exact .wrongAddressLow hn hah h5
  next al h5 =>
  have hal := Option.ne_none_iff_exists'.mpr ⟨al, h5⟩
  split at h
  · next h7 => cases h; exact .wrongType hn hah hal (by simp [h7])
  next t h7 =>
  split at h
  · next ht => cases h; exact .wrongType hn hah hal fun t' h' => by rwa [← Option.some.inj (h7.symm.trans h')]
  next ht =>
  have hh : HeaderRead line n ah al t := ⟨hn, h3, h5, h7, Nat.not_lt.mp ht⟩
  split at h
  · next hd => cases h; exact .wrongData hh hd
  next d hd =>
  unfold decodeChecksum at h
  split at h
  · cases h
  next hcks => cases h; exact .wrongChecksum hh hd hcks

/-- A line is refused with an error exactly when the error's check is the first that fails. -/
theorem decodeStripped_error_iff {line : List Byte} {e : Err} : decodeStripped line = .error e ↔ RefusedWith line e := by
  constructor
  · intro h
    unfold decodeStripped at h
    split at h
    · next hshort => cases h; exact .tooShort hshort
    next hlong =>
    replace hlong := Nat.not_lt.mp hlong
    split at h
    · next hstart => cases h; exact .wrongStart hlong hstart
    next hstart =>
    replace hstart := not_not.mp hstart
    split at h
    · next h1 => cases h; exact .wrongLength hlong hstart (by simp [h1])
    next n h1 =>
    split at h
    · next hcap => cases h; exact .wrongLength hlong hstart fun n' h' => by rwa [← Option.some.inj (h1.symm.trans h')]
    next hcap => exact refusedWith_of_decodeFields ⟨hlong, hstart, h1, Nat.not_lt.mp hcap⟩ h
  · intro h
    cases h with
    | tooShort h => rw [decodeStripped, if_pos h]
    | wrongStart hlong h => rw [decodeStripped, if_neg (Nat.not_lt.mpr hlong), if_pos h]
    | wrongLength hlong hstart h =>
      rw [decodeStripped, if_neg (Nat.not_lt.mpr hlong), if_neg (not_not.mpr hstart)]
      split
      · rfl
      · next n h1 => exact if_pos (h n h1)
    | wrongAddressHigh hn h => rw [hn.decodeStripped_eq, decodeFields, h]
    | wrongAddressLow hn hah h =>
      obtain ⟨ah, h3⟩ := Option.ne_none_iff_exists'.mp hah
      simp only [hn.decodeStripped_eq, decodeFields, h3, h]
    | wrongType hn hah hal h =>
      obtain ⟨ah, h3⟩ := Option.ne_none_iff_exists'.mp hah
      obtain ⟨al, h5⟩ := Option.ne_none_iff_exists'.mp hal
      simp only [hn.decodeStripped_eq, decodeFields, h3, h5]
      split
      · rfl
      · next t h7 => exact if_pos (h t h7)
    | wrongData hh h => exact hh.decodeStripped_of_noData h
    | wrongChecksum hh hd h => rw [hh.decodeStripped_of_data hd, decodeChecksum, if_neg h]

/-- Settles O35: each error is the failure of its check after those before it, and a line that fails none is read. -/
theorem parseErrorsInOrder : Obligations.ParseErrorsInOrder := by
  intro text line hline
  rw [show decodeLine text = decodeStripped line by rw [hline, decodeLine]]
  simp only [decodeStripped_error_iff]
  refine ⟨⟨fun | .tooShort h => h, .tooShort⟩, ⟨fun | .wrongStart hlong h => ⟨hlong, h⟩, fun ⟨hlong, h⟩ => .wrongStart hlong h⟩,
    fun hlong hstart => ⟨⟨fun | .wrongLength _ _ h => h, .wrongLength hlong hstart⟩, fun n hcount hfits => ?_⟩⟩
  have hn : CountRead line n := ⟨hlong, hstart, hcount, hfits⟩
  refine ⟨⟨fun | .wrongAddressHigh _ h => h, .wrongAddressHigh hn⟩,
    ⟨fun | .wrongAddressLow _ hah h => ⟨hah, h⟩, fun ⟨hah, h⟩ => .wrongAddressLow hn hah h⟩,
    ⟨fun | .wrongType _ hah hal h => ⟨hah, hal, h⟩, fun ⟨hah, hal, h⟩ => .wrongType hn hah hal h⟩,
    fun ah al t h3 h5 h7 hknown => ?_⟩
  have hh : HeaderRead line n ah al t := ⟨hn, h3, h5, h7, hknown⟩
  rw [← hexData_eq_none_iff]
  refine ⟨⟨fun | .wrongData hh' h => by rwa [hn.unique hh'.toCountRead], .wrongData hh⟩, fun d hlength hbytes => ?_⟩
  have hd := hexData_of_getElem hlength hbytes
  rw [← decodeStripped_error_iff, hh.decodeStripped_of_data hd, decodeChecksum]
  refine ⟨by simp, fun hcks => ⟨_, if_pos hcks, rfl, ?_, rfl, rfl⟩⟩
  show (ah ++ al).toNat = _
  rw [BitVec.toNat_append, ← Nat.shiftLeft_add_eq_or_of_lt al.isLt, Nat.shiftLeft_eq]

/-! One changed bit (R198). -/

theorem flipBit_ne {b : Nat} (hb : b < 8) (v : Byte) : v ^^^ (1#8 <<< b) ≠ v := by
  have hbit : 1#8 <<< b ≠ 0#8 := by revert hb; revert b; decide
  simpa using hbit

/-- Data whose bytes read the same but for one is the data with that byte changed. -/
theorem hexData_of_oneChanged {line line' : List Byte} {n p k : Nat} {d : List Byte} {w : Byte} (hd : hexData line p n = some d)
    (hw : hexByte line' (p + 2 * k) = some w)
    (hsame : ∀ j, j ≠ k → hexByte line' (p + 2 * j) = hexByte line (p + 2 * j)) : hexData line' p n = some (d.set k w) := by
  have hlength := hexData_length hd
  refine hexData_of_getElem (by rw [List.length_set, hlength]) fun j hj => ?_
  by_cases hjk : j = k
  · rw [hjk, hw, List.getElem?_set_self (by omega)]
  · rw [hsame j hjk, List.getElem?_set_ne (Ne.symm hjk), hexData_getElem hd hj]

/-- Settles O34: the header reads as before; the data, or the checksum that is read, is not what it was. -/
theorem singleBitErrorsAreFound : Obligations.SingleBitErrorsAreFound := by
  intro text text' r p b v hok hb hp hlength hhead hsame hv hv'
  obtain ⟨hlong, hstart, hcount, hfits, hah, hal, htype, hknown, hdata, hcks⟩ := (decodeStripped_ok_iff _ r).mp hok
  have hflip := flipBit_ne hb v
  have hp9 : 9 ≤ p := by omega
  have hh : HeaderRead (strip text') r.count (hiByte r.addr) (loByte r.addr) r.type :=
    { long := hlength ▸ hlong
      start := hhead.trans hstart
      count := (hsame 1 rfl (by omega)).trans hcount
      fits := hfits
      addrHigh := (hsame 3 rfl (by omega)).trans hah
      addrLow := (hsame 5 rfl (by omega)).trans hal
      type := (hsame 7 rfl (by omega)).trans htype
      known := hknown }
  rw [decodeLine, decodeStripped_error_iff]
  obtain rfl | ⟨k, hk, rfl⟩ := hp
  · have hdata' : hexData (strip text') 9 r.count.toNat = some r.data :=
      hexData_of_getElem (hexData_length hdata) fun j hj => by
        rw [hsame _ (by omega) (by omega), hexData_getElem hdata hj]
    refine .wrongChecksum hh hdata' ?_
    rw [hv', ← hcks, hv]
    exact fun h => hflip (Option.some.inj h)
  · have hdata' := hexData_of_oneChanged hdata hv' fun _ _ => hsame _ (by omega) (by omega)
    refine .wrongChecksum hh hdata' ?_
    rw [hsame _ (by omega) (by omega), hcks]
    have hold : r.data[k]? = some v := (hexData_getElem hdata hk).symm.trans hv
    exact fun h => checksum_set_ne hold hflip _ _ _ _ (Option.some.inj h).symm

end Sys2Proof.Machine

/-! ### The operations of the codec (spec/43_hex_codec.md R183, R194, R195) -/

namespace Sys2Proof.Machine

theorem exec_hexDecode_ok {text : List Byte} {r : HexRecord} (hl : text.length < 256) (hd : decodeLine text = .ok r) (s : State) :
    exec (.hexDecode text) s = finishOk (recordBytes r) { s with record := .written r } := by
  show execHexDecode text s = _
  rw [execHexDecode, if_pos hl, decodeRecord, hd, Res.finish]

theorem exec_hexDecode_error {text : List Byte} {e : Err} (hl : text.length < 256) (hd : decodeLine text = .error e) (s : State) :
    exec (.hexDecode text) s = raise e [] s := by
  show execHexDecode text s = _
  rw [execHexDecode, if_pos hl, decodeRecord, hd, Res.finish]

theorem exec_hexEncData_ok {bytes : List Byte} (hlen : bytes.length ≤ 16) (a : Addr) (s : State) :
    exec (.hexEncData a bytes) s = finishOk (textBytes (encodeDataRecord a bytes)) s := by
  show execHexEncData a bytes s = _
  rw [execHexEncData, if_pos (by omega), if_neg (show ¬ Config.lineCap < _ from Nat.not_lt.mpr hlen)]

theorem exec_hexEncData_tooMany {bytes : List Byte} (hmany : 16 < bytes.length) (hlen : bytes.length < 256) (a : Addr)
    (s : State) : exec (.hexEncData a bytes) s = raise .wrongLength [] s := by
  show execHexEncData a bytes s = _
  rw [execHexEncData, if_pos hlen, if_pos (show Config.lineCap < _ from hmany)]

theorem hiByte_eq_ofNat (a : Addr) : hiByte a = BitVec.ofNat 8 (a.toNat / 256) := by
  apply BitVec.eq_of_toNat_eq
  rw [hiByte, BitVec.extractLsb'_toNat, BitVec.toNat_ofNat, Nat.shiftRight_eq_div_pow]

theorem loByte_eq_ofNat (a : Addr) : loByte a = BitVec.ofNat 8 a.toNat := rfl

/-- Settles O37. -/
theorem hexOperations : Obligations.HexOperations := by
  refine fun s text bytes a => ⟨fun r hl hd => ?_, fun e hl hd => exec_hexDecode_error hl hd s, fun hlen => ?_,
    fun hmany hlen => exec_hexEncData_tooMany hmany hlen a s, rfl⟩
  · rw [exec_hexDecode_ok hl hd, recordBytes, hiByte_eq_ofNat, loByte_eq_ofNat]
    rfl
  · have hlength : (encodeDataRecord a bytes).length = 11 + 2 * bytes.length := encodeRecord_length _ a _ bytes
    refine ⟨hlength, ?_⟩
    rw [exec_hexEncData_ok hlen, textBytes, hlength]
    rfl

end Sys2Proof.Machine

/-! ### What a session refuses, and the bad lines that abort it (spec/44_write_controller.md R213, R220, R225, R227, R230) -/

namespace Sys2Proof.Machine

/-- With no session active a line is refused, and nothing of it is done (R230). -/
theorem exec_progLine_noSession {s : State} {text : List Byte} (hinactive : s.session.sstate ≠ .active) (hl : text.length < 256) :
    exec (.progLine text) s = raise .noSession [] s := by
  show execProgLine text s = _
  rw [execProgLine, if_pos hl, if_neg hinactive]

theorem exec_progFinish_noSession {s : State} (hinactive : s.session.sstate ≠ .active) :
    exec .progFinish s = raise .noSession [] s := if_neg hinactive

theorem exec_progBegin_sessionActive {s : State} (hactive : s.session.sstate = .active) {i : Instr}
    (hi : i ∈ [Instr.progBeginFlash, .progBeginEeprom]) : exec i s = raise .sessionActive [] s := by
  simp only [List.mem_cons, List.not_mem_nil, or_false] at hi
  obtain rfl | rfl := hi <;> exact if_pos hactive

/-- Settles O38: each of the four operations looks at `SSTATE` before anything else. -/
theorem wrongSessionState : Obligations.WrongSessionState := by
  refine fun s text hl => ⟨fun hinactive i hi => ?_, fun hactive i hi => exec_progBegin_sessionActive hactive hi⟩
  simp only [List.mem_cons, List.not_mem_nil, or_false] at hi
  obtain rfl | rfl := hi
  · exact exec_progLine_noSession hinactive hl
  · exact exec_progFinish_noSession hinactive

/-- The state in which a line of a session is decoded: it is counted (R213, R47). -/
def State.lineCounted (s : State) : State := { s with session := { s.session with lineNo := s.session.lineNo + 1 } }

/-- A line that does not decode is counted and aborts the session (R213, R227). -/
theorem exec_progLine_undecoded {s : State} {text : List Byte} {e : Err} (hactive : s.session.sstate = .active)
    (hl : text.length < 256) (hd : decodeLine text = .error e) :
    exec (.progLine text) s = abort e true s.lineCounted := by
  show execProgLine text s = _
  simp only [execProgLine, if_pos hl, if_pos hactive, decodeRecord, hd, Res.orAbort]
  rfl

/-- A data record that does not lie in its region (R220). -/
theorem takeRecord_outOfRegion {region : Region} {r : HexRecord} (ht : r.type = 0x00#8)
    (hout : capacity region < r.addr.toNat + r.count.toNat ∨ capacity region ≤ r.addr.toNat) (s : State) :
    takeRecord region r s = abort .addressRangeError true s := by
  have hfits : ¬ recordFits r region = true := by rw [recordFits_iff]; omega
  cases region with
  | flash => rw [takeRecord, flashRecord, if_pos ht, if_neg hfits]
  | eeprom => rw [takeRecord, eepromRecord, if_pos ht, if_neg hfits]

/-- A record of a type the session does not take (R225). -/
theorem takeRecord_unexpectedType {r : HexRecord} (ht : r.type = 0x02#8 ∨ r.type = 0x03#8 ∨ r.type = 0x05#8) (region : Region)
    (s : State) : takeRecord region r s = abort .unexpectedType true s := by
  obtain ⟨hdata, heof, hext⟩ : ¬ r.type = 0x00#8 ∧ ¬ r.type = 0x01#8 ∧ ¬ r.type = 0x04#8 := by
    obtain ht | ht | ht := ht <;> simp [ht]
  cases region with
  | flash => rw [takeRecord, flashRecord, if_neg hdata, if_neg heof, if_neg hext]
  | eeprom => rw [takeRecord, eepromRecord, if_neg hdata, if_neg heof, if_neg hext]

/-- A type 04 record is an extended address, or ignored by an EEPROM pass whose policy says so (R221, R224). -/
theorem takeRecord_extAddress {region : Region} {r : HexRecord} (ht : r.type = 0x04#8) {s : State}
    (hpolicy : region = .flash ∨ s.params.eeExtPolicy = .forward) : takeRecord region r s = extAddress r s := by
  have hdata : ¬ r.type = 0x00#8 := by simp [ht]
  have heof : ¬ r.type = 0x01#8 := by simp [ht]
  cases region with
  | flash => rw [takeRecord, flashRecord, if_neg hdata, if_neg heof, if_pos ht]
  | eeprom =>
    obtain hregion | hforward := hpolicy
    · cases hregion
    · rw [takeRecord, eepromRecord, if_neg hdata, if_neg heof, if_pos ht, eepromExtAddress, hforward]

theorem takeRecord_extAddress_ignored {r : HexRecord} (ht : r.type = 0x04#8) {s : State}
    (hignore : s.params.eeExtPolicy = .ignore) : takeRecord .eeprom r s = finishOk [] s := by
  rw [takeRecord, eepromRecord, if_neg (by simp [ht]), if_neg (by simp [ht]), if_pos ht, eepromExtAddress, hignore]

/-- Settles O41: a line that decodes aborts in the state with its record in `REC`, one that does not in the counted one. -/
theorem badLineAbortsTheSession : Obligations.BadLineAbortsTheSession := by
  intro s text e rec hw hactive hl hbad
  obtain ⟨hd, rfl⟩ | ⟨r, hd, rfl, hbad⟩ := hbad
  · rw [exec_progLine_undecoded hactive hl hd, abort_eq e true s.lineCounted hw]
    rfl
  · have habort : takeRecord s.session.region r (s.lineTaken r) = abort e true (s.lineTaken r) := by
      obtain ⟨ht, hout, rfl⟩ | ⟨ht, hout, rfl⟩ | ⟨ht, rfl⟩ | ⟨ht, hcount, hpolicy, rfl⟩ := hbad
      · exact takeRecord_outOfRegion ht (.inl hout) _
      · exact takeRecord_outOfRegion ht (.inr hout) _
      · exact takeRecord_unexpectedType ht _ _
      · rw [takeRecord_extAddress (s := s.lineTaken r) ht hpolicy, extAddress, if_neg hcount]
    rw [exec_progLine_decoded hactive hl hd, habort, abort_eq e true (s.lineTaken r) hw]
    rfl

end Sys2Proof.Machine

/-! ### Records a session takes at once: a merge, an extended address (spec/44_write_controller.md R216 to R224) -/

namespace Sys2Proof.Machine

/-- Bytes of one page, with that page open (R217): the page holds them, and the operation returns. -/
theorem mergeBytes_onePage {a : Addr} (ha : a.toNat < 32768) {data : List Byte} (hfit : a.toNat % 128 + data.length ≤ 128)
    {old : List Byte} (hold : old.length = 128) (s : State) :
    mergeBytes a data (s.withPage (.opened (pageBase .flash a) old)) =
      .next (s.pageFilled (pageBase .flash a) (mergedPage old (a.toNat % 128) data)) := by
  obtain ⟨hle, hoff⟩ := pageBase_flash_offset a
  have hbase := pageBase_flash a
  have hmerge := mergeBytes_page data [] a (s.withPage (.opened (pageBase .flash a) old)) (pageBase .flash a) old rfl hold
    (by omega) hle (by omega) (by omega)
  rw [List.append_nil, hoff] at hmerge
  rw [hmerge]
  rfl

/-- A page after a merge holds the bytes of the data at their offsets, and the old ones elsewhere (R217). -/
theorem mergedPage_getElem?_eq {old : List Byte} (hold : old.length = 128) (off : Nat) (data : List Byte) {j : Nat} (hj : j < 128) :
    (mergedPage old off data)[j]? = if off ≤ j ∧ j < off + data.length then data[j - off]? else old[j]? := by
  rw [mergedPage_getElem? old off data j hj]
  split
  · rw [List.getD_eq_getElem _ _ (by omega), List.getElem?_eq_getElem]
  · rw [List.getD_eq_getElem _ _ (by omega), List.getElem?_eq_getElem]

/-- Settles O42: the new contents are those of `mergedPage`. -/
theorem dataRecordIsMerged : Obligations.DataRecordIsMerged := by
  intro s text r old hactive hregion hl hd ht hfit ha hpage hold hopen
  obtain ⟨hlength, -⟩ := decodeLine_data hd
  refine ⟨mergedPage old (r.addr.toNat % 128) r.data, ?_, mergedPage_length _ _ _, fun j hj => ?_⟩
  · rw [exec_progLine_flashData hactive hregion hl hd ht ha hfit, flashData_merges (s := s.lineTaken r) hopen,
      mergeBytes_onePage ha (by omega) hold]
    rfl
  · rw [mergedPage_getElem?_eq hold _ _ hj, hlength]

/-- `SET_EXT` in a session with no write cycle pending: one frame (R161, R221). -/
theorem setExt_eq (v : Byte) {s : State} (hw : s.wpend = false) :
    setExt v s = .ok () { s with link := (sent [extFrame v] s).link } := by
  rw [setExt, guarded_ok _ s _ hw (by simp [HazardKind.isFuseWrite, isFuseWriteFrame_extFrame])]
  rfl

/-- An extended address of two bytes forwards the low one (R221). -/
theorem extAddress_forwards {r : HexRecord} {hi lo : Byte} (hcount : r.count = 2#8) (hdata : r.data = [hi, lo]) {s : State}
    (hw : s.wpend = false) :
    extAddress r s = finishOk [] { s with link := (sent [extFrame lo] s).link } := by
  have hlo : (r.data.tail).headD 0#8 = lo := by rw [hdata]; rfl
  rw [extAddress, if_pos hcount, hlo, setExt_eq lo hw]
  rfl

/-- Settles O45: a record of two data bytes has count 2, so it is forwarded; the policy alone decides that it is ignored. -/
theorem extendedAddressIsForwarded : Obligations.ExtendedAddressIsForwarded := by
  intro s u text r hactive hl hd ht hu
  subst hu
  rw [exec_progLine_decoded hactive hl hd]
  refine ⟨fun hi lo hw hdata hpolicy => ?_, fun hregion hignore => ?_⟩
  · have hcount : r.count = 2#8 := by
      apply BitVec.eq_of_toNat_eq
      rw [← (decodeLine_data hd).1, hdata]
      rfl
    rw [takeRecord_extAddress (s := s.lineTaken r) ht hpolicy, extAddress_forwards (s := s.lineTaken r) hcount hdata hw]
    rfl
  · rw [hregion, takeRecord_extAddress_ignored ht (s := s.lineTaken r) hignore]
    rfl

end Sys2Proof.Machine

/-! ### The status word (spec/10_state.md R41, spec/44_write_controller.md R232) -/

namespace Sys2Proof.Machine

theorem wordBytes_eq (w : Word) : wordBytes w =
    [BitVec.ofNat 8 (w.toNat / 16777216), BitVec.ofNat 8 (w.toNat / 65536), BitVec.ofNat 8 (w.toNat / 256),
      BitVec.ofNat 8 w.toNat] := by
  have hbyte (i : Nat) : w.extractLsb' i 8 = BitVec.ofNat 8 (w.toNat / 2 ^ i) := by
    rw [BitVec.extractLsb', Nat.shiftRight_eq_div_pow]
  rw [wordBytes, hbyte 24, hbyte 16, hbyte 8, hbyte 0, Nat.pow_zero, Nat.div_one]
  rfl

/-- A field behind others, by its value. -/
theorem toNat_append_eq_add {m n : Nat} (x : BitVec m) (y : BitVec n) : (x ++ y).toNat = 2 ^ n * x.toNat + y.toNat := by
  rw [BitVec.toNat_append, ← Nat.shiftLeft_add_eq_or_of_lt y.isLt, Nat.shiftLeft_eq, Nat.mul_comm]

/-- The status word is the sum of its fields, by their codes, at their places (R41). -/
theorem statusWord_toNat (s : State) : (statusWord s).toNat =
    s.pstate.code.toNat + 4 * s.session.sstate.code.toNat + 16 * (regionBit s.session.region).toNat +
    32 * s.session.erased.toNat + 64 * s.session.pageOpen.toNat + 128 * s.busy.toNat + 256 * s.wpend.toNat +
    512 * s.fuseDirty.toNat + 1024 * s.syncOk.toNat + 2048 * s.verifyOk.toNat + 4096 * (s.attempt % 16) +
    65536 * s.lastError.toNat := by
  simp only [statusWord, toNat_append_eq_add, BitVec.toNat_ofBool, BitVec.toNat_ofNat]
  omega

/-- Settles O48: the four bytes of the word, and its sum term by term: the three codes by their cases. -/
theorem statusReturnsTheStatusWord : Obligations.StatusWord := by
  refine fun s => ⟨?_, ?_⟩
  · show execStatus s = _
    rw [execStatus, wordBytes_eq]
    rfl
  · rw [statusWord_toNat]
    congr 11
    · cases s.pstate <;> rfl
    · cases s.session.sstate <;> rfl
    · cases s.session.region <;> rfl

end Sys2Proof.Machine

/-! ### The start of a session (spec/44_write_controller.md R210 to R212) -/

namespace Sys2Proof.Machine

/-- A synchronisation in sync at its attempt `n + 1` (R132, R133). -/
theorem pgmEnter_syncs {n : Nat} {s : State} (hw : s.wpend = false) (hn : n < 5) (hs : SyncsAt n s) :
    pgmEnter s = .ok () { s with
      link := s.link.tried n, pstate := .programming, attempt := n + 1, syncOk := true, fuseDirty := false } := by
  rw [pgmEnter, guarded_reset_ok hw, show Config.syncAttempts = n + 1 + (4 - n) by simp only [Config.syncAttempts]; omega]
  refine (syncLoop_syncs n _ s.syncing hs).trans ?_
  rw [show s.syncing.attempt + (n + 1) = n + 1 from Nat.zero_add _]
  rfl

/-- A synchronisation none of whose attempts is in sync (R132). -/
theorem pgmEnter_fails {s : State} (hw : s.wpend = false) (hs : NeverSyncs s) :
    pgmEnter s = .err .linkError { s with link := s.link.tried 4, pstate := .failed, attempt := 5, syncOk := false } := by
  rw [pgmEnter, guarded_reset_ok hw]
  exact syncLoop_fails 4 s.syncing hs

/-- The three reads of the signature gate (R212, R253). -/
def signatureFrames : List IspFrame := [readSigFrame 0#8, readSigFrame 1#8, readSigFrame 2#8]

theorem isFuseWriteFrame_readSigFrame (i : Byte) : isFuseWriteFrame (readSigFrame i) = false := rfl

theorem readReply_readSigFrame (i : Byte) {s : State} (hw : s.wpend = false) :
    readReply (readSigFrame i) s =
      .ok (s.link.frame (readSigFrame i)).1.b3 { s with link := (s.link.frame (readSigFrame i)).2 } := by
  rw [readReply, guarded_ok _ s _ hw (by simp [HazardKind.isFuseWrite, isFuseWriteFrame_readSigFrame])]
  rfl

/-- The signature gate reads the three bytes into `SIG`, and passes if they are a known signature (R212). -/
theorem signatureGate_eq {s : State} (hw : s.wpend = false) {sig : Signature}
    (hread : (replies signatureFrames s).map (·.b3) = [sig.s0, sig.s1, sig.s2]) :
    signatureGate s =
      if s.params.knownSignatures.contains sig then
        .ok () { s with link := (sent signatureFrames s).link, sig := .written sig }
      else .err .signatureError { s with link := (sent signatureFrames s).link, sig := .written sig } := by
  obtain ⟨s0, s1, s2⟩ := sig
  simp only [signatureFrames, replies, Link.exchange_cons, Link.exchange_nil, List.map_cons, List.map_nil, List.cons.injEq,
    and_true] at hread
  obtain ⟨h0, h1, h2⟩ := hread
  simp only [signatureGate, readReply_readSigFrame, hw, Res.bind, h0, h1, h2]
  rfl

/-- The state in which a session has read its signature, in sync at attempt `n + 1` (R210 to R212). -/
def State.signatureRead (region : Region) (n : Nat) (sig : Signature) (s : State) : State :=
  { beginSession region s with
    link := (sent signatureFrames { s with link := s.link.tried n }).link
    pstate := .programming, attempt := n + 1, syncOk := true, fuseDirty := false, sig := .written sig }

/-- The start both passes share, once it is in sync: it goes on with a known signature, any other is an error (R210 to R212). -/
theorem openSession_syncs (region : Region) {n : Nat} {s : State} {sig : Signature} (hw : s.wpend = false) (hn : n < 5)
    (hs : SyncsAt n s)
    (hread : (replies signatureFrames { s with link := s.link.tried n }).map (·.b3) = [sig.s0, sig.s1, sig.s2]) :
    openSession region s =
      if s.params.knownSignatures.contains sig then .ok () (s.signatureRead region n sig)
      else .err .signatureError (s.signatureRead region n sig) := by
  rw [openSession, pgmEnter_syncs (s := beginSession region s) hw hn hs, Res.bind]
  exact signatureGate_eq (s := { beginSession region s with
    link := s.link.tried n, pstate := .programming, attempt := n + 1, syncOk := true, fuseDirty := false }) hw hread

theorem openSession_neverSyncs (region : Region) {s : State} (hw : s.wpend = false) (hs : NeverSyncs s) :
    openSession region s = .err .linkError { beginSession region s with
      link := s.link.tried 4, pstate := .failed, attempt := 5, syncOk := false } := by
  rw [openSession, pgmEnter_fails (s := beginSession region s) hw hs, Res.bind]
  rfl

/-- The start of a session and what follows it: the session goes on with a known signature, and aborts with any other (R212) and when
nothing is in sync (R132, R227). -/
theorem openSession_orAbort (region : Region) {s : State} (hw : s.wpend = false) (next : Unit → State → Out) :
    (∀ n sig, n < 5 → SyncsAt n s →
      (replies signatureFrames { s with link := s.link.tried n }).map (·.b3) = [sig.s0, sig.s1, sig.s2] →
      (sig ∈ s.params.knownSignatures → (openSession region s).orAbort false next = next () (s.signatureRead region n sig)) ∧
      (sig ∉ s.params.knownSignatures → (openSession region s).orAbort false next =
        .next (State.abortedBy .signatureError false (s.signatureRead region n sig)))) ∧
    (NeverSyncs s → (openSession region s).orAbort false next = .next (State.abortedBy .linkError false
      { beginSession region s with link := s.link.tried 4, attempt := 5, syncOk := false })) := by
  refine ⟨fun n sig hn hs hread => ⟨fun hknown => ?_, fun hunknown => ?_⟩, fun hs => ?_⟩
  · rw [openSession_syncs region hw hn hs hread, if_pos (List.contains_iff_mem.mpr hknown), Res.orAbort]
  · rw [openSession_syncs region hw hn hs hread, if_neg (mt List.contains_iff_mem.mp hunknown), Res.orAbort,
      abort_eq _ _ (s.signatureRead region n sig) hw]
  · rw [openSession_neverSyncs region hw hs, Res.orAbort]
    exact abort_eq _ _ _ hw

/-- Settles O39: the start both passes share, and nothing after it. -/
theorem progBeginEepromOpensASession : Obligations.ProgBeginEepromOpensASession := by
  intro s u n sgs hw hinactive hn hsgs hu began
  subst hu
  obtain rfl : sgs = signatureFrames := hsgs
  have hexec : exec .progBeginEeprom s = (openSession .eeprom s).orAbort false fun _ => finishOk [] := if_neg hinactive
  obtain ⟨hsyncs, hnever⟩ := openSession_orAbort .eeprom hw fun _ => finishOk []
  rw [hexec]
  exact ⟨fun sig hs hread hknown => (hsyncs n sig hn hs hread).1 hknown,
    fun sig hs hread hunknown => (hsyncs n sig hn hs hread).2 hunknown, hnever⟩

/-- `ERASE` with no write cycle pending, up to its poll (R157). -/
theorem startErase_eq {s : State} (hw : s.wpend = false) :
    startErase s = .ok () { s with link := (sent [chipEraseFrame] s).link, wpend := true } := by
  rw [startErase, guarded_ok _ s _ hw (by simp [HazardKind.isFuseWrite, isFuseWriteFrame_chipEraseFrame])]
  rfl

/-- The chip erase of a flash session, sent from `s` behind the frames `fs` sent from `u` (R210): the session waits, or is done. -/
theorem beginErase_sent (fs : List IspFrame) {s u : State} (hw : s.wpend = false) (hlink : s.link = (sent fs u).link) :
    (busyBit (lastReply (fs ++ [chipEraseFrame, pollFrame]) u) = true →
      ((startErase s).orAbort false fun _ => pollThen .beginErase beginDone) = .next { s with
        link := (sent (fs ++ [chipEraseFrame, pollFrame]) u).link.wait .tPoll, busy := true, wpend := true
        pending := some .beginErase }) ∧
    (busyBit (lastReply (fs ++ [chipEraseFrame, pollFrame]) u) = false →
      ((startErase s).orAbort false fun _ => pollThen .beginErase beginDone) = beginDone { s with
        link := (sent (fs ++ [chipEraseFrame, pollFrame]) u).link, busy := false, wpend := false }) := by
  have herased : (sent [chipEraseFrame] s).link = (sent (fs ++ [chipEraseFrame]) u).link := by
    rw [sent_append]
    exact sent_link_congr hlink _
  rw [startErase_eq hw, Res.orAbort, show fs ++ [chipEraseFrame, pollFrame] = (fs ++ [chipEraseFrame]) ++ [pollFrame] by simp]
  exact pollThen_sent (fs ++ [chipEraseFrame]) (t := { s with link := (sent [chipEraseFrame] s).link, wpend := true }) herased
    .beginErase beginDone

/-- Settles O40: the start both passes share, and then the chip erase behind the reads of the signature. -/
theorem progBeginFlashErases : Obligations.ProgBeginFlashErases := by
  refine ⟨fun s => rfl, ?_⟩
  intro s u n sgs ers hw hinactive hn hsgs hers hu began
  subst hu
  obtain rfl : sgs = signatureFrames := hsgs
  obtain rfl : ers = [chipEraseFrame, pollFrame] := hers
  have hexec : exec .progBeginFlash s = (openSession .flash s).orAbort false fun _ t =>
    (startErase t).orAbort false fun _ => pollThen .beginErase beginDone := if_neg hinactive
  obtain ⟨hsyncs, hnever⟩ := openSession_orAbort .flash hw fun _ t =>
    (startErase t).orAbort false fun _ => pollThen .beginErase beginDone
  rw [hexec]
  refine ⟨fun sig hs hread hknown => ?_, fun sig hs hread hunknown => (hsyncs n sig hn hs hread).2 hunknown, hnever⟩
  obtain ⟨hwait, hready⟩ := beginErase_sent signatureFrames (s := s.signatureRead .flash n sig)
    (u := { s with link := s.link.tried n }) hw rfl
  rw [(hsyncs n sig hn hs hread).1 hknown]
  exact ⟨hready, hwait⟩

end Sys2Proof.Machine

/-! ### The end of a session, and what follows it (spec/44_write_controller.md R222, R226, R230, R234) -/

namespace Sys2Proof.Machine

/-! Whatever a step of a session does, it activates none: `SSTATE` becomes Done or Aborted, or stays. -/

/-- `s` has no active session (R35). -/
def Inactive (s : State) : Prop := s.session.sstate ≠ .active

theorem Inactive.of_exchanged {s t : State} (h : Inactive s) (g : Exchanged s t) : Inactive t := by
  rw [Inactive, g.session]
  exact h

/-- The session has ended, and so has the operation that ended it (R35). -/
def SessionOver (s : State) : Prop := s.pending = none ∧ (s.session.sstate = .done ∨ s.session.sstate = .aborted)

theorem SessionOver.inactive {s : State} (h : SessionOver s) : Inactive s := by
  obtain ⟨-, hend | hend⟩ := h <;> simp [Inactive, hend]

/-- An abort ends the session, whatever the release of the link answers (R227). -/
theorem abort_sessionOver (e : Err) (inLine : Bool) (s : State) : NextIn (abort e inLine s) SessionOver := by
  have hl := linkRelease_exchanges { s with session := { s.session with page := s.session.page.close, sstate := .aborted } }
  unfold abort
  dsimp only
  split
  · next heq => rw [heq] at hl; exact ⟨rfl, .inr (congrArg Session.sstate hl.session)⟩
  · next heq => rw [heq] at hl; exact ⟨rfl, .inr (congrArg Session.sstate hl.2.session)⟩
  · trivial

/-- So does a completion (R233). -/
theorem complete_sessionOver (s : State) : NextIn (complete s) SessionOver :=
  Res.Ends.finish (linkRelease_exchanges { s with session := { s.session with sstate := .done } })
    (fun _ _ hu => ⟨rfl, .inl (congrArg Session.sstate hu.session)⟩)
    fun _ _ hu => ⟨rfl, .inl (congrArg Session.sstate hu.2.session)⟩

/-- A step of a session ends it, or goes on as what follows does (R282). -/
theorem Res.Exchanges.orAbort_in {α : Type} {r : Res α} {s : State} {inLine : Bool} {next : α → State → Out} {P : State → Prop}
    (hr : r.Exchanges s) (hover : ∀ t, SessionOver t → P t) (hn : ∀ a t, Exchanged s t → NextIn (next a t) P) :
    NextIn (r.orAbort inLine next) P := by
  cases r with
  | ok a t => exact hn a t hr
  | err e t => exact (abort_sessionOver e inLine t).mono hover
  | fault f => trivial

/-! The end-of-file record (R222). -/

/-- The session has ended, or its last flush waits (R222, R226). -/
def EndsSession (inLine : Bool) (t : State) : Prop :=
  SessionOver t ∨ ∃ base pb, t.pending = some (.endFlush base pb inLine)

/-- The last readback of a session ends it (R218, R222). -/
theorem endFlush_sessionOver (base : Addr) (pb : List Byte) (inLine : Bool) (s : State) :
    NextIn (flushDone base pb inLine complete s) SessionOver :=
  (verifyPage_exchanges .flash base pb s).orAbort_in (fun _ ht => ht) fun _ t _ => complete_sessionOver t

theorem endSession_endsSession (inLine : Bool) (s : State) : NextIn (endSession inLine s) (EndsSession inLine) := by
  unfold endSession flushThen
  split
  · refine (startPage_exchanges .flash _ _ _).orAbort_in (fun _ => .inl) fun base t _ => ?_
    exact pollThen_ends (.inr ⟨base, _, rfl⟩) ((endFlush_sessionOver base _ inLine t.poll).mono fun _ => .inl)
  · exact (complete_sessionOver s).mono fun _ => .inl

/-- The wait of a last flush polls on, or ends the session (R135, R222). -/
theorem resume_endFlush (base : Addr) (pb : List Byte) (inLine : Bool) (s : State) :
    NextIn (resume (.endFlush base pb inLine) s) fun t => t.pending = some (.endFlush base pb inLine) ∨ SessionOver t :=
  pollThen_ends (.inl rfl) ((endFlush_sessionOver base pb inLine s.poll).mono fun _ => .inr)

/-! No session becomes active again (R230, R234). -/

theorem Res.Exchanges.orAbort_inactive {α : Type} {r : Res α} {t : State} {inLine : Bool} {next : α → State → Out}
    (hr : r.Exchanges t) (ht : Inactive t) (hn : ∀ a u, Inactive u → NextIn (next a u) Inactive) :
    NextIn (r.orAbort inLine next) Inactive :=
  hr.orAbort_in (fun _ => SessionOver.inactive) fun a u hu => hn a u (ht.of_exchanged hu)

theorem pollThen_inactive {k : Pending} {next : State → Out} {s : State} (h : Inactive s)
    (hn : ∀ t, Inactive t → NextIn (next t) Inactive) : NextIn (pollThen k next s) Inactive := by
  have hp : Inactive s.poll := h.of_exchanged (Exchanged.refl s).poll
  refine pollThen_ends ?_ (hn _ hp)
  rw [Inactive, State.waiting_session]
  exact hp

theorem flushDone_inactive {base : Addr} {pb : List Byte} {inLine : Bool} {next : State → Out} {s : State} (h : Inactive s)
    (hn : ∀ t, Inactive t → NextIn (next t) Inactive) : NextIn (flushDone base pb inLine next s) Inactive :=
  (verifyPage_exchanges .flash base pb s).orAbort_inactive h fun _ => hn

theorem flushThen_inactive {k : Addr → List Byte → Pending} {inLine : Bool} {next : State → Out} {s : State} (h : Inactive s)
    (hn : ∀ t, Inactive t → NextIn (next t) Inactive) : NextIn (flushThen k inLine next s) Inactive := by
  unfold flushThen
  split
  · exact (startPage_exchanges .flash _ _ _).orAbort_inactive h fun base _ ht =>
      pollThen_inactive ht fun _ hu => flushDone_inactive hu hn
  · exact hn s h

theorem Inactive.mergeByte {s : State} (h : Inactive s) (a : Addr) (v : Byte) : Inactive (mergeByte a v s) := by
  unfold Machine.mergeByte
  split <;> exact h

theorem mergeBytes_inactive (data : List Byte) (a : Addr) {s : State} (h : Inactive s) :
    NextIn (mergeBytes a data s) Inactive := by
  induction data generalizing a s with
  | nil => exact h
  | cons v vs ih =>
    unfold mergeBytes
    split
    · exact ih _ (h.mergeByte a v)
    · exact flushThen_inactive h fun t ht => ih _ (Inactive.mergeByte (s := openPage _ t) ht a v)

theorem eepromBytes_inactive (vs : List Byte) (a : Addr) {s : State} (h : Inactive s) :
    NextIn (eepromBytes a vs s) Inactive := by
  induction vs generalizing a s with
  | nil => exact h
  | cons v vs ih =>
    exact (startEeByte_exchanges a v s).orAbort_inactive h fun _ _ ht => pollThen_inactive ht fun u hu =>
      (verifyEeByte_exchanges a v u).orAbort_inactive hu fun _ _ => ih (a + 1)

/-- An end of an operation that leaves the session as it was leaves it inactive. -/
theorem Concludes.inactive {s t : State} {R : State → Prop} {K : Pending → Prop} (h : Concludes R K t) (hs : Inactive s)
    (hR : ∀ u, R u → u.session = s.session) : Inactive t := by
  obtain ⟨u, hu, -, -, -, -, hsession⟩ := h.exists_before
  rw [Inactive, hsession, hR u hu]
  exact hs

/-- Nor does an operation that waits activate a session, whatever it waits with. -/
theorem resume_inactive (k : Pending) {s : State} (h : Inactive s) : NextIn (resume k s) Inactive := by
  have linkOp (hk : k.isLinkOp = true) : NextIn (resume k s) Inactive :=
    (resume_linkOpEnd hk s).mono fun _ ht => ht.inactive h fun _ hu => hu.session
  cases k with
  | plain | eeByte | page => exact linkOp rfl
  | beginErase => exact pollThen_inactive h fun _ ht => ht
  | lineFlush base pb a data =>
    exact pollThen_inactive h fun _ ht => flushDone_inactive ht fun u hu => mergeBytes_inactive data a (s := openPage _ u) hu
  | endFlush base pb inLine =>
    exact pollThen_inactive h fun _ ht => flushDone_inactive ht fun u _ => (complete_sessionOver u).mono fun _ => SessionOver.inactive
  | lineEeByte a v vs =>
    exact pollThen_inactive h fun t ht =>
      (verifyEeByte_exchanges a v t).orAbort_inactive ht fun _ _ => eepromBytes_inactive vs (a + 1)

/-- The only operations that activate a session are the two that begin one (R230). -/
theorem exec_inactive {i : Instr} (hf : i ≠ .progBeginFlash) (he : i ≠ .progBeginEeprom) {s : State} (h : Inactive s) :
    NextIn (exec i s) Inactive := by
  cases i using instr_cases with
  | linkOp i hi => exact (exec_linkOpEnd hi s).mono fun _ ht => ht.inactive h fun _ hu => hu.session
  | hexDecode text => exact (execHexDecode_end text s).mono fun _ ht => ht.inactive h fun _ hu => hu.2.2
  | progBeginFlash => exact absurd rfl hf
  | progBeginEeprom => exact absurd rfl he
  | progLine text =>
    by_cases hl : text.length < 256
    · rw [exec_progLine_noSession h hl]
      exact h
    · have hrefused : exec (.progLine text) s = refuseBadOp s := if_neg hl
      rw [hrefused]
      exact h
  | progFinish =>
    rw [exec_progFinish_noSession h]
    exact h

/-- No step but the start of a session makes one active (R230, R234). -/
theorem step_inactive {s : State} (h : Inactive s)
    (hbegin : ∀ rest, nextWork s ≠ .run .progBeginFlash rest ∧ nextWork s ≠ .run .progBeginEeprom rest) :
    NextIn (step s) Inactive := by
  unfold step
  split
  · exact resume_inactive _ h
  · exact h
  · next i rest hwork =>
    obtain ⟨hf, he⟩ := hbegin rest
    exact exec_inactive (fun hi => hf (hi ▸ hwork)) (fun hi => he (hi ▸ hwork)) (s := { s with inbox := rest }) h
  · exact h

/-- Settles O47: the end-of-file record ends the session, or its flush does; nothing but a `PROG_BEGIN` leaves the inactive states. -/
theorem nothingFollowsTheEndOfFile : Obligations.NothingFollowsTheEndOfFile := by
  refine ⟨fun s t text r hactive hl hd ht hnext => ?_, fun s t base pb inLine hp hnext => ?_,
    fun s t hinactive hnext hbegin => (step_inactive hinactive hbegin).of_next hnext,
    fun s line hinactive hl => exec_progLine_noSession hinactive hl⟩
  · rw [exec_progLine_endSession hactive hl hd ht] at hnext
    obtain ⟨hnone, hover⟩ | hwaits := (endSession_endsSession true _).of_next hnext
    · exact ⟨fun _ => hover, fun hsome => absurd hnone hsome⟩
    · obtain ⟨base, pb, hp⟩ := hwaits
      exact ⟨fun hnone => by simp [hp] at hnone, fun _ => ⟨base, pb, hp⟩⟩
  · rw [step_resumes hp] at hnext
    rw [hp]
    exact (resume_endFlush base pb inLine s).of_next hnext

end Sys2Proof.Machine

/-! ### The ISP frames as instructions (spec/45_isp_frames.md R250 to R273) -/

namespace Sys2Proof.Machine

/-! Which words are commit frames. A word is read from its instruction, so each row of the frame table gives back its bytes. -/

/-- Two words that spell one instruction are one word (R83). -/
theorem decodeFrame_inj {f g : IspFrame} {i : Instr} (hf : decodeFrame f = some i) (hg : decodeFrame g = some i) : f = g := by
  have hbytes := (encode_of_decodeFrame hf).symm.trans (encode_of_decodeFrame hg)
  obtain ⟨f0, f1, f2, f3⟩ := f
  obtain ⟨g0, g1, g2, g3⟩ := g
  simpa [frameMessage] using hbytes

/-- The frames that write a fuse or lock byte, by the byte that says which (R258 to R261). -/
theorem isFuseWriteFrame_iff (f : IspFrame) :
    isFuseWriteFrame f = true ↔
      f.b0 = 0xAC#8 ∧ f.b2 = 0x00#8 ∧ (f.b1 = 0xA0#8 ∨ f.b1 = 0xA8#8 ∨ f.b1 = 0xA4#8 ∨ f.b1 = 0xE0#8) := by
  constructor
  · intro hf
    unfold isFuseWriteFrame at hf
    split at hf
    next v hd => simp [decodeFrame_inj (g := ⟨0xAC#8, 0xA0#8, 0x00#8, v⟩) hd rfl]
    next v hd => simp [decodeFrame_inj (g := ⟨0xAC#8, 0xA8#8, 0x00#8, v⟩) hd rfl]
    next v hd => simp [decodeFrame_inj (g := ⟨0xAC#8, 0xA4#8, 0x00#8, v⟩) hd rfl]
    next v hd => simp [decodeFrame_inj (g := ⟨0xAC#8, 0xE0#8, 0x00#8, v⟩) hd rfl]
    next => cases hf
  · obtain ⟨b0, b1, b2, b3⟩ := f
    rintro ⟨rfl, rfl, rfl | rfl | rfl | rfl⟩ <;> rfl

/-- A fuse or lock write starts a write cycle (R273). -/
theorem isCommitFrame_of_isFuseWriteFrame {f : IspFrame} (hf : isFuseWriteFrame f = true) : isCommitFrame f = true := by
  unfold isFuseWriteFrame at hf
  split at hf
  case h_5 => cases hf
  all_goals next hd => simp [isCommitFrame, hd]

/-- The frames that start a write cycle: the chip erase, the fuse and lock writes, and the writes of the memories (R273). -/
theorem isCommitFrame_iff (f : IspFrame) :
    isCommitFrame f = true ↔
      f = ⟨0xAC#8, 0x80#8, 0x00#8, 0x00#8⟩ ∨ isFuseWriteFrame f = true ∨ f.b0 = 0xC0#8 ∨
      (f.b0 = 0xC2#8 ∧ f.b3 = 0x00#8) ∨ (f.b0 = 0x4C#8 ∧ f.b3 = 0x00#8) := by
  constructor
  · intro hf
    unfold isCommitFrame at hf
    split at hf
    next hd => exact .inl (decodeFrame_inj hd rfl)
    case h_2 hd | h_3 hd | h_4 hd | h_5 hd => simp [isFuseWriteFrame, hd]
    next hi lo v hd => simp [decodeFrame_inj (g := ⟨0xC0#8, hi, lo, v⟩) hd rfl]
    next hi lo hd => simp [decodeFrame_inj (g := ⟨0xC2#8, hi, lo, 0x00#8⟩) hd rfl]
    next hi lo hd => simp [decodeFrame_inj (g := ⟨0x4C#8, hi, lo, 0x00#8⟩) hd rfl]
    next => cases hf
  · obtain ⟨b0, b1, b2, b3⟩ := f
    rintro (h | h | rfl | ⟨rfl, rfl⟩ | ⟨rfl, rfl⟩)
    · rw [h]; rfl
    · exact isCommitFrame_of_isFuseWriteFrame h
    all_goals rfl

/-- Settles O15: a commit frame is the row of its instruction; a word of the listed bytes is decoded. -/
theorem commitFrameWords : Obligations.CommitFrameWords :=
  fun f => ⟨isFuseWriteFrame_iff f, isCommitFrame_iff f⟩

/-! The instruction of a frame row is `CMD` with the word of the row (R96, log 11). -/

theorem exec_of_decodeFrame {f : IspFrame} {i : Instr} (hf : decodeFrame f = some i) (s : State) :
    exec i s = exec (.cmd f.b0 f.b1 f.b2 f.b3) s := by
  obtain ⟨b0, b1, b2, b3⟩ := f
  have hrow := decodeFrame_cases hf
  casesm* _ ∨ _, _ ∧ _ <;> (simp only at *; subst_vars; rfl)

/-- `i` is the instruction of the word `f`, not the ready poll; `commits` and `fuse` say whether the word starts a write cycle and
whether it writes a fuse or lock byte. -/
structure IsFrameRow (commits fuse : Bool) (i : Instr) (f : IspFrame) : Prop where
  decodes : decodeFrame f = some i
  notPoll : i ≠ .pollRdy
  commits_eq : isCommitFrame f = commits
  fuse_eq : isFuseWriteFrame f = fuse

theorem IsFrameRow.of_mem {commits fuse : Bool} {rows : List (Instr × IspFrame)} {i : Instr} {f : IspFrame} (hmem : (i, f) ∈ rows)
    (hrows : rows.Forall fun p => IsFrameRow commits fuse p.1 p.2) : IsFrameRow commits fuse i f :=
  List.forall_iff_forall_mem.mp hrows (i, f) hmem

theorem IsFrameRow.ne_pollFrame {commits fuse : Bool} {i : Instr} {f : IspFrame} (h : IsFrameRow commits fuse i f) :
    f ≠ pollFrame := by
  rintro rfl
  exact h.notPoll (Option.some.inj h.decodes).symm

/-- A frame instruction with no write cycle pending: the frame, against whatever answers it, and the flags of its row (R131). -/
theorem IsFrameRow.exec_eq {commits fuse : Bool} {i : Instr} {f : IspFrame} (h : IsFrameRow commits fuse i f) {s : State}
    (hw : s.wpend = false) (hd : fuse = true → s.fuseDirty = false) : ∃ r env,
    exec i s = .next { s with
      link := s.link.afterFrame f r env, wpend := commits, fuseDirty := s.fuseDirty || fuse
      lastError := 0#8, response := [0#8, r.b3], pending := none } ∧
    env.kind = s.link.env.kind := by
  obtain ⟨r, env, hsent, hkind⟩ := (cmdSendsItsFrame f s).1 (.inl hw) (h.fuse_eq ▸ hd)
  have hpoll : f ≠ ⟨0xF0#8, 0x00#8, 0x00#8, 0x00#8⟩ := h.ne_pollFrame
  rw [← exec_of_decodeFrame h.decodes, if_neg hpoll, if_neg hpoll, h.commits_eq, h.fuse_eq, hw, Bool.false_or] at hsent
  exact ⟨r, env, hsent, hkind⟩

/-- Settles O16: each of the 13 rows neither starts a write cycle nor writes a fuse. -/
theorem readAndLoadFramesComplete : Obligations.ReadAndLoadFramesComplete := by
  intro s i hi lo val ins f hw hmem
  have hrow : IsFrameRow false false ins f :=
    .of_mem hmem (by and_intros <;> exact ⟨rfl, nofun, rfl, rfl⟩)
  obtain ⟨r, env, hsent, hkind⟩ := hrow.exec_eq hw nofun
  rw [Bool.or_false, ← hw] at hsent
  exact ⟨r, env, hsent, hkind⟩

/-- Settles O17: the four rows that start a write cycle alone, the four that write a fuse or lock byte too, and the ready poll. -/
theorem commitAndPollFramesComplete : Obligations.CommitAndPollFramesComplete := by
  refine ⟨fun s hi lo val ins f hw hmem => ?_, fun s val ins f hw hd hmem => ?_, fun s => ?_⟩
  · have hrow : IsFrameRow true false ins f :=
      .of_mem hmem (by and_intros <;> exact ⟨rfl, nofun, rfl, rfl⟩)
    obtain ⟨r, env, hsent, hkind⟩ := hrow.exec_eq hw nofun
    rw [Bool.or_false] at hsent
    exact ⟨r, env, hsent, hkind⟩
  · have hrow : IsFrameRow true true ins f :=
      .of_mem hmem (by and_intros <;> exact ⟨rfl, nofun, rfl, rfl⟩)
    obtain ⟨r, env, hsent, hkind⟩ := hrow.exec_eq hw fun _ => hd
    rw [Bool.or_true] at hsent
    exact ⟨r, env, hsent, hkind⟩
  · obtain ⟨r, env, hsent, hkind⟩ := (cmdSendsItsFrame pollFrame s).1 (.inr rfl) nofun
    have hpoll : pollFrame = ⟨0xF0#8, 0x00#8, 0x00#8, 0x00#8⟩ := rfl
    rw [← exec_of_decodeFrame rfl, if_pos hpoll, if_pos hpoll, isFuseWriteFrame_pollFrame, Bool.or_false] at hsent
    exact ⟨r, env, hsent, hkind⟩

end Sys2Proof.Machine

/-! ### Block reset (spec/70_reset_and_hazards.md R310, R313) -/

namespace Sys2Proof.Machine

/-- Settles O53: after reset no page is open, no session is active, nothing waits, no record is decoded, and the target's memories list
no byte. -/
theorem resetHasMachineInv : Obligations.ResetHasMachineInv := by
  have hlink : State.reset.link.Ok := ⟨Nat.zero_le 8, Memory.wfIn_nil _, Memory.wfIn_nil _⟩
  have hsound : Sound State.reset := ⟨hlink, Nat.zero_le _, by decide, nofun, nofun⟩
  exact machineInv_of hsound nofun nofun nofun

/-- Settles O54: the fields by their reset values; with nothing issued and nothing waiting the sequencer is idle. -/
theorem resetState : Obligations.ResetState := by
  have hclean : Clean State.reset := ⟨rfl, rfl, nofun⟩
  have hidle : step State.reset = .next State.reset := step_idles rfl rfl
  repeat refine ⟨rfl, ?_⟩
  exact ⟨hclean, hidle⟩

end Sys2Proof.Machine

/-! ### The hazards (spec/70_reset_and_hazards.md R314, R316) -/

namespace Sys2Proof.Machine

/-! A frame that faults at its hazard check. -/

theorem sendFrame_busyHazard {f : IspFrame} {s : State} (hw : s.wpend = true) (hf : f ≠ pollFrame) :
    sendFrame f s = .fault .busyHazard := by
  obtain ⟨-, hbusy, -⟩ := cmdSendsItsFrame f s
  exact hbusy hw hf

theorem sendFrame_fuseReentry {f : IspFrame} {s : State} (hw : s.wpend = false) (hf : isFuseWriteFrame f = true)
    (hd : s.fuseDirty = true) : sendFrame f s = .fault .fuseReentryHazard := by
  obtain ⟨-, -, hreentry⟩ := cmdSendsItsFrame f s
  exact hreentry hw hf hd

/-- `ERASE` and `WR_FUSE` at their hazard checks (R157, R159). -/
theorem exec_erase_wrFuse_hazards (k : FuseKind) (v : Byte) (s : State) :
    (s.wpend = true → exec .erase s = .fault .busyHazard ∧ exec (.wrFuse k v) s = .fault .busyHazard) ∧
    (s.wpend = false → s.fuseDirty = true → exec (.wrFuse k v) s = .fault .fuseReentryHazard) := by
  obtain ⟨sub, hk⟩ : ∃ sub, (k, sub) ∈ [(FuseKind.low, 0xA0#8), (.high, 0xA8#8), (.extended, 0xA4#8), (.lock, 0xE0#8)] := by
    cases k <;> simp
  obtain ⟨-, -, -, -, hbusy, hreentry⟩ := eraseAndWrFuse s v k sub _ _ hk rfl rfl
  exact ⟨hbusy, hreentry⟩

/-! A pending write cycle (R314). -/

section
variable {s : State} (hw : s.wpend = true)
include hw

/-- The frame instructions but the ready poll: each is its frame, sent through `CMD`. -/
theorem exec_frame_busyHazard (i val hi lo : Byte) :
    ∀ ins ∈ [Instr.progEnable, .chipErase, .readSig i, .readFuseLo, .readFuseHi, .readFuseExt, .readLock, .writeFuseLo val,
      .writeFuseHi val, .writeFuseExt val, .writeLock val, .readEeprom hi lo, .writeEeprom hi lo val, .loadEepromPage i val,
      .writeEepromPage hi lo, .readFlashLo hi lo, .readFlashHi hi lo, .loadFlashLo i val, .loadFlashHi i val,
      .writeFlashPage hi lo, .loadExtAddr val], exec ins s = .fault .busyHazard :=
  List.forall_iff_forall_mem.mp (by and_intros <;> exact sendFrame_busyHazard hw (by simp [pollFrame]))

/-- The operations that check no operand first. -/
theorem exec_operation_busyHazard (tx val b0 b1 b2 b3 : Byte) (k : FuseKind) (hf : (⟨b0, b1, b2, b3⟩ : IspFrame) ≠ pollFrame) :
    ∀ ins ∈ [Instr.xfer tx, .rstAssert, .rstRelease, .rstPulse, .linkRelease, .pgmEnter, .cmd b0 b1 b2 b3, .erase, .rdFuse k,
      .wrFuse k val, .setExt val], exec ins s = .fault .busyHazard := by
  have hreset : ∀ ins ∈ [Instr.rstAssert, .rstRelease, .rstPulse, .linkRelease], exec ins s = .fault .busyHazard :=
    fun _ hins => exec_reset_busyHazard hw hins
  obtain ⟨-, -, -, hpgmEnter⟩ := pgmEnterAttempts s
  obtain ⟨-, hxfer⟩ := xferExchange tx s
  obtain ⟨hcommit, -⟩ := exec_erase_wrFuse_hazards k val s
  obtain ⟨herase, hwrFuse⟩ := hcommit hw
  obtain ⟨-, hsingle, -⟩ := singleFrameOperations s
  obtain ⟨hrdFuse, -, hsetExt⟩ := hsingle hw
  simp only [List.forall_mem_cons, List.not_mem_nil, false_imp_iff, implies_true, and_true] at hreset ⊢
  obtain ⟨hassert, hrelease, hpulse, hlink⟩ := hreset
  exact ⟨hxfer hw, hassert, hrelease, hpulse, hlink, hpgmEnter hw, sendFrame_busyHazard hw hf, herase, hrdFuse k, hwrFuse,
    hsetExt val⟩

/-- The start of a session faults at the `PGM_ENTER` it performs (R210, R211). -/
theorem openSession_busyHazard (region : Region) : openSession region s = .fault .busyHazard := by
  rw [openSession, pgmEnter, guarded_busy .reset (beginSession region s) _ hw rfl, Res.bind]

theorem exec_progBegin_busyHazard (hinactive : s.session.sstate ≠ .active) :
    exec .progBeginFlash s = .fault .busyHazard ∧ exec .progBeginEeprom s = .fault .busyHazard := by
  constructor
  · show execProgBeginFlash s = _
    rw [execProgBeginFlash, if_neg hinactive, openSession_busyHazard hw, Res.orAbort]
  · show execProgBeginEeprom s = _
    rw [execProgBeginEeprom, if_neg hinactive, openSession_busyHazard hw, Res.orAbort]

end

/-! What a pending write cycle allows (R314): the ready poll, and what exchanges nothing. -/

theorem exec_pollReady_next (s : State) : ∃ t, exec .pollReady s = .next t := by
  show ∃ t, execPollReady s = .next t
  unfold execPollReady
  cases hb : busyBit (s.link.frame pollFrame).1 with
  | true => exact ⟨_, pollThen_busy _ _ s hb⟩
  | false => exact ⟨_, pollThen_ready _ _ s hb⟩

theorem sendFrame_pollFrame_next (s : State) : ∃ t, sendFrame pollFrame s = .next t := ⟨_, sendFrame_eq (.inr rfl) nofun⟩

theorem exec_hexDecode_next (text : List Byte) (s : State) : ∃ t, exec (.hexDecode text) s = .next t := by
  by_cases hl : text.length < 256
  · cases hd : decodeLine text with
    | ok r => exact ⟨_, exec_hexDecode_ok hl hd s⟩
    | error e => exact ⟨_, exec_hexDecode_error hl hd s⟩
  · exact ⟨_, if_neg hl⟩

theorem exec_hexEncData_next (a : Addr) (bytes : List Byte) (s : State) : ∃ t, exec (.hexEncData a bytes) s = .next t := by
  by_cases hl : bytes.length < 256
  · rcases Nat.lt_or_ge 16 bytes.length with hmany | hfew
    · exact ⟨_, exec_hexEncData_tooMany hmany hl a s⟩
    · exact ⟨_, exec_hexEncData_ok hfew a s⟩
  · exact ⟨_, if_neg hl⟩

/-- Settles O30: the statements of each operation name its hazard; what remains is the frame instructions, the two starts of a session
and what goes on. -/
theorem writeCycleHazard : Obligations.WriteCycleHazard := by
  refine fun s hw => ⟨fun tx b0 b1 b2 b3 i val hi lo k ins hf hins => ?_, fun a i v y buf => ⟨?_, ?_, fun ha => ?_, fun ha hl => ?_,
    fun ha hl => ?_, fun hi => ?_⟩, exec_progBegin_busyHazard hw, fun text bytes a => ?_⟩
  · rcases List.mem_append.mp hins with hop | hframe
    · exact exec_operation_busyHazard hw tx val b0 b1 b2 b3 k hf ins hop
    · exact exec_frame_busyHazard hw i val hi lo ins hframe
  · obtain ⟨-, hbusy, -⟩ := rdByte_finish .flash a s
    exact fun ha => hbusy ha hw
  · obtain ⟨-, hbusy, -⟩ := rdByte_finish .eeprom a s
    exact fun ha => hbusy ha hw
  · obtain ⟨-, -, -, -, hbusy⟩ := wrEebyteWritesAndVerifies s a v y _ _ _ ha rfl rfl rfl
    exact hbusy hw
  · exact writePage_busyHazard (region := .flash) ha y hl hw
  · exact writePage_busyHazard (region := .eeprom) ha y hl hw
  · obtain ⟨-, hsingle, -⟩ := singleFrameOperations s
    obtain ⟨-, hrdSig, -⟩ := hsingle hw
    exact hrdSig i hi
  · simp only [List.forall_mem_cons, List.not_mem_nil, false_imp_iff, implies_true, and_true]
    exact ⟨exec_pollReady_next s, sendFrame_pollFrame_next s, sendFrame_pollFrame_next s, exec_hexDecode_next text s,
      exec_hexEncData_next a bytes s, ⟨_, rfl⟩, ⟨_, rfl⟩⟩

/-! A fuse change before re-entry (R316). -/

/-- `FUSE_DIRTY` is set; or, where `synced` allows it, a synchronisation has cleared it, and `SYNC_OK` says so (R30, R33, R132). -/
def FuseLatched (synced : Bool) (s : State) : Prop := s.fuseDirty = true ∨ (synced = true ∧ s.syncOk = true)

/-- Whatever the inner operation answers, the flag is latched then. -/
abbrev Res.Latches {α : Type} (r : Res α) (synced : Bool) : Prop :=
  r.Ends (fun _ => FuseLatched synced) fun _ => FuseLatched synced

/-- A host operation or a step that answers a next state leaves the flag latched. -/
abbrev LatchedIn (o : Out) (synced : Bool) : Prop := NextIn o (FuseLatched synced)

section
variable {synced : Bool} {s : State}

/-! Exchanges of frames write neither flag; the frames of fuse and lock writes set one (R131, R159). -/

theorem Res.Latches.bind {α β : Type} {r : Res α} {next : α → State → Res β} (h : r.Latches synced)
    (hn : ∀ a t, FuseLatched synced t → (next a t).Latches synced) : (r.bind next).Latches synced :=
  Res.Ends.bind h hn fun _ _ ht => ht

theorem rdByte_latches (region : Region) (a : Addr) (h : FuseLatched synced s) : (rdByte region a s).Latches synced := by
  unfold rdByte
  split
  · exact h
  · exact guarded_ends h

theorem readReply_latches (f : IspFrame) (h : FuseLatched synced s) : (readReply f s).Latches synced := guarded_ends h

theorem setExt_latches (v : Byte) (h : FuseLatched synced s) : (setExt v s).Latches synced := guarded_ends h

theorem issueFrame_latches (f : IspFrame) (h : FuseLatched synced s) : (issueFrame f s).Latches synced := by
  refine guarded_ends (?_ : FuseLatched synced (noteFrame f _ _))
  rw [noteFrame_eq]
  exact h.imp_left fun hd => Bool.or_eq_true_iff.mpr (.inl hd)

theorem startEeByte_latches (a : Addr) (v : Byte) (h : FuseLatched synced s) : (startEeByte a v s).Latches synced := by
  unfold startEeByte
  split
  · exact h
  · exact guarded_ends h

theorem startPage_latches (region : Region) (a : Addr) (buf : List Byte) (h : FuseLatched synced s) :
    (startPage region a buf s).Latches synced := by
  unfold startPage
  split
  · exact h
  · exact guarded_ends h

theorem startErase_latches (h : FuseLatched synced s) : (startErase s).Latches synced := guarded_ends h

theorem startFuse_latches (k : FuseKind) (v : Byte) (s : State) : (startFuse k v s).Latches synced := guarded_ends (.inl rfl)

theorem verifyEeByte_latches (a : Addr) (v : Byte) (h : FuseLatched synced s) : (verifyEeByte a v s).Latches synced := by
  refine (rdByte_latches .eeprom a h).bind fun rb t ht => ?_
  split <;> exact ht

theorem verifyFrom_latches (region : Region) (base : Addr) (buf : List Byte) (j : Nat) (h : FuseLatched synced s) :
    (verifyFrom region base j buf s).Latches synced := by
  induction buf generalizing j s with
  | nil => exact h
  | cons v buf ih =>
    refine (rdByte_latches region _ h).bind fun rb t ht => ?_
    split
    · exact ih (j + 1) ht
    · exact ht

theorem linkRelease_latches (h : FuseLatched synced s) : (linkRelease s).Latches synced := guarded_ends h

theorem decodeRecord_latches (text : List Byte) (h : FuseLatched synced s) : (decodeRecord text s).Latches synced := by
  unfold decodeRecord
  split <;> exact h

/-! Operations outside the sessions. -/

theorem Res.Latches.finish {α : Type} {r : Res α} (h : r.Latches synced) (result : α → List Byte) :
    LatchedIn (r.finish result) synced :=
  Res.Ends.finish h (fun _ _ ht => ht) fun _ _ ht => ht

theorem Res.Latches.orRaise {α : Type} {r : Res α} {next : α → State → Out} (h : r.Latches synced)
    (hn : ∀ a t, FuseLatched synced t → LatchedIn (next a t) synced) : LatchedIn (r.orRaise next) synced := by
  cases r with
  | ok a t => exact hn a t h
  | err e t => exact h
  | fault f => trivial

/-- One turn of the poll loop (R135). -/
theorem pollThen_latched {k : Pending} {next : State → Out} (h : FuseLatched synced s)
    (hn : ∀ t, FuseLatched synced t → LatchedIn (next t) synced) : LatchedIn (pollThen k next s) synced :=
  pollThen_ends h (hn _ h)

theorem eeByteDone_latched (a : Addr) (v : Byte) (verify : Bool) (h : FuseLatched synced s) :
    LatchedIn (eeByteDone a v verify s) synced := by
  unfold eeByteDone
  split
  · exact (verifyEeByte_latches a v h).finish _
  · exact h

theorem pageDone_latched (region : Region) (base : Addr) (buf : List Byte) (verify : Bool) (h : FuseLatched synced s) :
    LatchedIn (pageDone region base buf verify s) synced := by
  unfold pageDone
  split
  · exact (verifyFrom_latches region base buf 0 h).finish _
  · exact h

theorem writePage_latched (region : Region) (a : Addr) (verify : Bool) (buf : List Byte) (h : FuseLatched synced s) :
    LatchedIn (writePage region a verify buf s) synced := by
  rw [writePage_eq]
  split
  · exact (startPage_latches region a buf h).orRaise fun base _ ht =>
      pollThen_latched ht fun _ => pageDone_latched region base buf verify
  · exact h

theorem execWrEebyte_latched (a : Addr) (v : Byte) (verify : Bool) (h : FuseLatched synced s) :
    LatchedIn (execWrEebyte a v verify s) synced := by
  rw [execWrEebyte_eq]
  exact (startEeByte_latches a v h).orRaise fun _ _ ht => pollThen_latched ht fun _ => eeByteDone_latched a v verify

theorem execErase_latched (h : FuseLatched synced s) : LatchedIn (execErase s) synced := by
  rw [execErase_eq]
  exact (startErase_latches h).orRaise fun _ _ ht => pollThen_latched ht fun _ hu => hu

theorem execWrFuse_latched (k : FuseKind) (v : Byte) (s : State) : LatchedIn (execWrFuse k v s) synced := by
  rw [execWrFuse_eq]
  exact (startFuse_latches k v s).orRaise fun _ _ ht => pollThen_latched ht fun _ hu => hu

theorem execRdSig_latched (i : Byte) (h : FuseLatched synced s) : LatchedIn (execRdSig i s) synced := by
  unfold execRdSig
  split
  · exact (readReply_latches _ h).finish _
  · exact h

theorem execHexDecode_latched (text : List Byte) (h : FuseLatched synced s) : LatchedIn (execHexDecode text s) synced := by
  unfold execHexDecode
  split
  · exact (decodeRecord_latches text h).finish _
  · exact h

theorem execHexEncData_latched (a : Addr) (bytes : List Byte) (h : FuseLatched synced s) :
    LatchedIn (execHexEncData a bytes s) synced := by
  unfold execHexEncData
  split
  · split <;> exact h
  · exact h

/-! The steps of a session. -/

theorem abort_latched (e : Err) (inLine : Bool) (h : FuseLatched synced s) : LatchedIn (abort e inLine s) synced := by
  unfold abort
  dsimp only
  have hl := linkRelease_latches
    (s := { s with session := { s.session with page := s.session.page.close, sstate := .aborted } }) h
  split
  · next heq => rw [heq] at hl; exact hl
  · next heq => rw [heq] at hl; exact hl
  · trivial

theorem complete_latched (h : FuseLatched synced s) : LatchedIn (complete s) synced :=
  (linkRelease_latches (s := { s with session := { s.session with sstate := .done } }) h).finish _

theorem Res.Latches.orAbort {α : Type} {r : Res α} {inLine : Bool} {next : α → State → Out} (h : r.Latches synced)
    (hn : ∀ a t, FuseLatched synced t → LatchedIn (next a t) synced) : LatchedIn (r.orAbort inLine next) synced := by
  cases r with
  | ok a t => exact hn a t h
  | err e t => exact abort_latched e inLine h
  | fault f => trivial

theorem flushDone_latched {base : Addr} {pb : List Byte} {inLine : Bool} {next : State → Out} (h : FuseLatched synced s)
    (hn : ∀ t, FuseLatched synced t → LatchedIn (next t) synced) : LatchedIn (flushDone base pb inLine next s) synced :=
  (verifyFrom_latches .flash base pb 0 h).orAbort fun _ => hn

theorem flushThen_latched {k : Addr → List Byte → Pending} {inLine : Bool} {next : State → Out} (h : FuseLatched synced s)
    (hn : ∀ t, FuseLatched synced t → LatchedIn (next t) synced) : LatchedIn (flushThen k inLine next s) synced := by
  unfold flushThen
  split
  · exact Res.Latches.orAbort (startPage_latches .flash _ _ h) fun base _ ht =>
      pollThen_latched ht fun _ hu => flushDone_latched hu hn
  · exact hn s h

theorem FuseLatched.mergeByte (h : FuseLatched synced s) (a : Addr) (v : Byte) : FuseLatched synced (mergeByte a v s) := by
  unfold Machine.mergeByte
  split <;> exact h

theorem mergeBytes_latched (data : List Byte) (a : Addr) (h : FuseLatched synced s) : LatchedIn (mergeBytes a data s) synced := by
  induction data generalizing a s with
  | nil => exact h
  | cons v vs ih =>
    unfold mergeBytes
    split
    · exact ih _ (h.mergeByte a v)
    · exact flushThen_latched h fun t ht => ih _ (FuseLatched.mergeByte (s := openPage _ t) ht a v)

theorem openAndMerge_latched (data : List Byte) (a : Addr) (h : FuseLatched synced s) : LatchedIn (openAndMerge a data s) synced :=
  mergeBytes_latched data a (s := openPage _ s) h

theorem flashData_latched (r : HexRecord) (h : FuseLatched synced s) : LatchedIn (flashData r s) synced := by
  unfold flashData
  split
  · exact mergeBytes_latched r.data r.addr h
  · exact flushThen_latched h fun _ => openAndMerge_latched r.data r.addr

theorem endSession_latched (inLine : Bool) (h : FuseLatched synced s) : LatchedIn (endSession inLine s) synced :=
  flushThen_latched h fun _ => complete_latched

theorem eepromBytes_latched (vs : List Byte) (a : Addr) (h : FuseLatched synced s) : LatchedIn (eepromBytes a vs s) synced := by
  induction vs generalizing a s with
  | nil => exact h
  | cons v vs ih =>
    exact (startEeByte_latches a v h).orAbort fun _ _ ht => pollThen_latched ht fun _ hu =>
      (verifyEeByte_latches a v hu).orAbort fun _ _ => ih (a + 1)

theorem extAddress_latched (r : HexRecord) (h : FuseLatched synced s) : LatchedIn (extAddress r s) synced := by
  unfold extAddress
  split
  · exact (setExt_latches _ h).orAbort fun _ _ ht => ht
  · exact abort_latched _ true h

theorem eepromExtAddress_latched (r : HexRecord) (h : FuseLatched synced s) : LatchedIn (eepromExtAddress r s) synced := by
  unfold eepromExtAddress
  split
  · exact extAddress_latched r h
  · exact h

theorem flashRecord_latched (r : HexRecord) (h : FuseLatched synced s) : LatchedIn (flashRecord r s) synced := by
  unfold flashRecord
  split
  · split
    · exact flashData_latched r h
    · exact abort_latched _ true h
  · split
    · exact endSession_latched true h
    · split
      · exact extAddress_latched r h
      · exact abort_latched _ true h

theorem eepromRecord_latched (r : HexRecord) (h : FuseLatched synced s) : LatchedIn (eepromRecord r s) synced := by
  unfold eepromRecord
  split
  · split
    · exact eepromBytes_latched r.data r.addr h
    · exact abort_latched _ true h
  · split
    · exact endSession_latched true h
    · split
      · exact eepromExtAddress_latched r h
      · exact abort_latched _ true h

theorem execProgLine_latched (text : List Byte) (h : FuseLatched synced s) : LatchedIn (execProgLine text s) synced := by
  unfold execProgLine
  split
  · split
    · refine Res.Latches.orAbort (decodeRecord_latches text h) fun r t ht => ?_
      split
      · exact flashRecord_latched r ht
      · exact eepromRecord_latched r ht
    · exact h
  · exact h

theorem execProgFinish_latched (h : FuseLatched synced s) : LatchedIn (execProgFinish s) synced := by
  unfold execProgFinish
  split
  · exact endSession_latched false h
  · exact h

/-- A waiting operation that goes on keeps the flag (R135). -/
theorem resume_latched (k : Pending) (h : FuseLatched synced s) : LatchedIn (resume k s) synced := by
  refine pollThen_latched h fun t ht => ?_
  cases k with
  | plain | beginErase => exact ht
  | eeByte a v verify => exact eeByteDone_latched a v verify ht
  | page region base buf verify => exact pageDone_latched region base buf verify ht
  | lineFlush base pb a data => exact flushDone_latched ht fun _ => openAndMerge_latched data a
  | endFlush base pb inLine => exact flushDone_latched ht fun _ => complete_latched
  | lineEeByte a v vs => exact (verifyEeByte_latches a v ht).orAbort fun _ _ => eepromBytes_latched vs (a + 1)

/-- All operations but `PGM_ENTER` and the starts of a session keep the flag. -/
theorem exec_latched {i : Instr} (hi : i ∉ [Instr.pgmEnter, .progBeginFlash, .progBeginEeprom]) (h : FuseLatched synced s) :
    LatchedIn (exec i s) synced := by
  cases i
  case pgmEnter | progBeginFlash | progBeginEeprom => simp at hi
  case progEnable | chipErase | pollRdy | readSig | readFuseLo | readFuseHi | readFuseExt | readLock | writeFuseLo | writeFuseHi |
      writeFuseExt | writeLock | readEeprom | writeEeprom | loadEepromPage | writeEepromPage | readFlashLo | readFlashHi |
      loadFlashLo | loadFlashHi | writeFlashPage | loadExtAddr | cmd => exact (issueFrame_latches _ h).finish _
  case xfer | rstAssert | rstRelease | rstPulse =>
    refine Res.Latches.finish (guarded_ends ?_) _
    exact h
  case linkRelease => exact (linkRelease_latches h).finish _
  case pollReady => exact pollThen_latched h fun _ ht => ht
  case rdByteFlash a => exact (rdByte_latches .flash a h).finish _
  case rdByteEeprom a => exact (rdByte_latches .eeprom a h).finish _
  case wrEebyte a v verify => exact execWrEebyte_latched a v verify h
  case wrPageFlash a verify buf => exact writePage_latched .flash a verify buf h
  case wrPageEeprom a verify buf => exact writePage_latched .eeprom a verify buf h
  case erase => exact execErase_latched h
  case rdFuse k => exact (readReply_latches _ h).finish _
  case wrFuse k v => exact execWrFuse_latched k v s
  case rdSig i => exact execRdSig_latched i h
  case setExt v => exact (setExt_latches v h).finish _
  case hexDecode text => exact execHexDecode_latched text h
  case hexEncData a bytes => exact execHexEncData_latched a bytes h
  case hexEncEnd | status => exact h
  case progLine text => exact execProgLine_latched text h
  case progFinish => exact execProgFinish_latched h

end

/-! The synchronisation alone clears the flag, and says so in `SYNC_OK` (R132). -/

theorem pgmEnter_latches {s : State} (hd : s.fuseDirty = true) : (pgmEnter s).Latches true := by
  cases hw : s.wpend with
  | true =>
    rw [pgmEnter, guarded_busy .reset s _ hw rfl]
    trivial
  | false =>
    obtain ⟨n, hn, hs⟩ | hs := syncsAt_or_neverSyncs s
    · rw [pgmEnter_syncs hw hn hs]
      exact .inr ⟨rfl, rfl⟩
    · rw [pgmEnter_fails hw hs]
      exact .inl hd

theorem signatureGate_latches {synced : Bool} {s : State} (h : FuseLatched synced s) : (signatureGate s).Latches synced := by
  refine (readReply_latches _ h).bind fun s0 t ht => (readReply_latches _ ht).bind fun s1 u hu =>
    (readReply_latches _ hu).bind fun s2 v hv => ?_
  dsimp only
  split <;> exact hv

theorem openSession_latches (region : Region) {s : State} (hd : s.fuseDirty = true) : (openSession region s).Latches true :=
  (pgmEnter_latches (s := beginSession region s) hd).bind fun _ _ => signatureGate_latches

/-- The operations that synchronise leave the flag set, or have cleared it in sync. -/
theorem exec_latched_or_synced {i : Instr} (hi : i ∈ [Instr.pgmEnter, .progBeginFlash, .progBeginEeprom]) {s : State}
    (hd : s.fuseDirty = true) : LatchedIn (exec i s) true := by
  simp only [List.mem_cons, List.not_mem_nil, or_false] at hi
  obtain rfl | rfl | rfl := hi
  · exact (pgmEnter_latches hd).finish _
  · show LatchedIn (execProgBeginFlash s) true
    unfold execProgBeginFlash
    split
    · exact .inl hd
    · exact (openSession_latches .flash hd).orAbort fun _ _ ht => (startErase_latches ht).orAbort fun _ _ hu =>
        pollThen_latched hu fun _ hv => hv
  · show LatchedIn (execProgBeginEeprom s) true
    unfold execProgBeginEeprom
    split
    · exact .inl hd
    · exact (openSession_latches .eeprom hd).orAbort fun _ _ ht => ht

/-- A synchronisation that succeeds clears the flag (R132, R316). -/
theorem exec_pgmEnter_clears (s : State) : NextIn (exec .pgmEnter s) fun t => t.syncOk = true → t.fuseDirty = false := by
  obtain ⟨-, -, -, hbusy⟩ := pgmEnterAttempts s
  cases hw : s.wpend with
  | true => rw [hbusy hw]; trivial
  | false =>
    obtain ⟨n, hn, hs⟩ | hs := syncsAt_or_neverSyncs s
    · rw [exec_pgmEnter_syncs hw hn hs]
      exact fun _ => rfl
    · rw [exec_pgmEnter_fails hw hs]
      exact nofun

/-- A fuse or lock write while the flag is set (R316). -/
theorem exec_fuseWrite_fuseReentry {s : State} (hw : s.wpend = false) (hd : s.fuseDirty = true) (k : FuseKind) (v : Byte) :
    ∀ ins ∈ [Instr.wrFuse k v, .writeFuseLo v, .writeFuseHi v, .writeFuseExt v, .writeLock v, .cmd 0xAC#8 0xA0#8 0x00#8 v,
      .cmd 0xAC#8 0xA8#8 0x00#8 v, .cmd 0xAC#8 0xA4#8 0x00#8 v, .cmd 0xAC#8 0xE0#8 0x00#8 v],
      exec ins s = .fault .fuseReentryHazard := by
  rw [List.forall_mem_cons]
  obtain ⟨-, hwrFuse⟩ := exec_erase_wrFuse_hazards k v s
  exact ⟨hwrFuse hw hd,
    List.forall_iff_forall_mem.mp (by and_intros <;> exact sendFrame_fuseReentry hw rfl hd)⟩

/-- The fuse and lock bytes are read all the same (R158, R316). -/
theorem exec_fuseRead_next {s : State} (hw : s.wpend = false) (k : FuseKind) :
    ∀ ins ∈ [Instr.rdFuse k, .readFuseLo, .readFuseHi, .readFuseExt, .readLock], ∃ t, exec ins s = .next t := by
  rw [List.forall_mem_cons]
  exact ⟨⟨_, readReply_finish hw (decodeFrame_readFuseFrame k) (isReadFrame_fuseReadInstr k)⟩,
    List.forall_iff_forall_mem.mp (by and_intros <;> exact ⟨_, sendFrame_eq (.inl hw) nofun⟩)⟩

/-- Settles O31: the hazard of each fuse and lock write; then who can clear the flag, by the flag that all else keeps latched. -/
theorem fuseReentryHazard : Obligations.FuseReentryHazard := by
  refine ⟨fun s hw hd => ⟨exec_fuseWrite_fuseReentry hw hd, exec_fuseRead_next hw⟩, fun s t i hd ht hclear => ?_,
    fun s t ht => (exec_pgmEnter_clears s).of_next ht, fun s t hd hp ht => ?_⟩
  · by_cases hi : i ∈ [Instr.pgmEnter, .progBeginFlash, .progBeginEeprom]
    · obtain hset | ⟨-, hsync⟩ := (exec_latched_or_synced hi hd).of_next ht
      · simp [hclear] at hset
      · exact ⟨hsync, hi⟩
    · obtain hset | ⟨hfalse, -⟩ := (exec_latched (synced := false) hi (.inl hd)).of_next ht
      · simp [hclear] at hset
      · cases hfalse
  · obtain ⟨k, hk⟩ := Option.ne_none_iff_exists'.mp hp
    rw [step_resumes hk] at ht
    obtain hset | ⟨hfalse, -⟩ := (resume_latched (synced := false) k (.inl hd)).of_next ht
    · exact hset
    · cases hfalse

end Sys2Proof.Machine
